-- ==== Sys2Proof/Word.lean ====
section
/-! DEFINITION. The word types of RTFF-CORE (00_scope.md R14, R16, R18). -/

namespace Sys2Proof

/-- A bus word: 32 bits, bit 0 the least significant (00_scope.md R14). -/
abbrev Word := BitVec 32

/-- A byte lane of a word (20_memory.md R132). -/
abbrev Byte := BitVec 8

/-- A float32 held in a word by its IEEE 754 binary32 layout (00_scope.md R16). -/
abbrev F32 := Word

/-- A complex32: a pair of float32 (00_scope.md R18). -/
structure C32 where
  re : F32
  im : F32
deriving DecidableEq, Repr, Inhabited

/-- `+0.0`, the all-zero word (00_scope.md R16). -/
abbrev posZero : F32 := 0#32

/-- A count or a fill as the 32-bit word a register shows (00_scope.md R15: modulo 2^32). -/
abbrev wordOfNat (n : Nat) : Word := BitVec.ofNat 32 n

end Sys2Proof
end

