-- ==== Sys2Proof/Config.lean ====
section
/-! DEFINITION. What an implementation fixes (00_scope.md R10 to R13) and the free values the spec leaves open. -/

namespace Sys2Proof

/-- The parameters of 00_scope.md R11. SUPPORTED_N is held as the word CAP_FFT shows
(10_state.md R51): bit k is 1 iff 2^k is supported. `base` is the bus address of the window. -/
structure Build where
  nMax        : Nat
  fftSizes    : Word
  inMax       : Nat
  outMax      : Nat
  bMax        : Nat
  stageFrames : Nat
  base        : Nat
deriving DecidableEq, Repr

namespace Config

/-- CH_MAX (00_scope.md R10). -/
def chMax : Nat := 255

/-- The size of the window in bytes (20_memory.md R120). -/
def windowBytes : Nat := 0x08000000

/-- EPS of 42_window_cola.md R224. -/
def eps : F32 := 0x358637BD#32

/-- The reference build of 00_scope.md R11. DESIGN CHOICE (log 6, unsafe): BASE, which R11 leaves to
the platform, is 0 here; no statement rests on it. -/
def referenceBuild : Build :=
  { nMax := 4096, fftSizes := 0x00001FFE#32, inMax := 4, outMax := 4,
    bMax := 4096, stageFrames := 4096, base := 0 }

/-- FFT_FWD of 00_scope.md R13 and 43_fft_analyzer.md R250: `fftFwd N x k` is bin k of the transform of
the N samples x. A parameter with no body: a function and nothing else is known of it (R254; log 7). -/
opaque fftFwd : (N : Nat) → (x : List F32) → (k : Nat) → C32

/-- FFT_BWD of 00_scope.md R13 and 43_fft_analyzer.md R251: `fftBwd N X i` is sample i of the backward
transform of the bins X. A parameter with no body (log 7). -/
opaque fftBwd : (N : Nat) → (X : List C32) → (i : Nat) → F32

/-- One half of the built-in window table (00_scope.md R13). A parameter with no body; Machine/Window.lean
makes it the table HAMMING (log 8). -/
opaque hammingHalf : (N : Nat) → (n : Nat) → F32

/-- A symmetric table: HAMMING(N, n) = HAMMING(N, N-1-n), the first thing R220 of 42_window_cola.md lets a
model assume (log 8). -/
def symmetricTable (N n : Nat) : F32 := hammingHalf N (min n (N - 1 - n))

end Config

/-- Which floating-point operation of a command a NaN draw belongs to: the argument that makes every
draw of NAN_RESULT (00_scope.md R17) a fresh one (log 4). -/
inductive NanSite where
  | colaMul (i k : Nat)
  | colaAdd (i k : Nat)
  | effsyn (i : Nat)
  | analyze (s c i : Nat)
  | synthMul (j c i : Nat)
  | synthAdd (j c i : Nat)
deriving DecidableEq, Repr

/-- The internal storage arrays of 10_state.md R85 to R88. -/
inductive StoreId where
  | ringIn
  | ringOut
  | tail
  | tb
  | y
  | res
deriving DecidableEq, Repr

namespace Config

/-- The draw NAN_RESULT (00_scope.md R17): a free value for each operation. Machine/Float.lean makes it
a quiet NaN, the one thing R17 says of it (log 4). -/
opaque nanDraw : (draws : Nat) → (site : NanSite) → Word

/-- What a byte of host-visible RAM holds that nothing has written since hardware reset number
`epoch`: a free value for each reset and window offset (10_state.md R98; log 5). -/
opaque ramDraw : (epoch : Nat) → (off : Nat) → Byte

/-- What a word of internal storage holds that nothing has written since hardware reset number
`epoch`: a free value (10_state.md R97; log 5). -/
opaque storeDraw : (epoch : Nat) → (store : StoreId) → (key : Nat) → Word

end Config

namespace Build

/-- N ∈ SUPPORTED_N: N is a power of two 2^k, 1 ≤ k ≤ 31, whose CAP_FFT bit is set (10_state.md R51). -/
def supports (b : Build) (N : Nat) : Bool :=
  (List.range 32).any fun k => decide (1 ≤ k) && b.fftSizes.getLsbD k && decide (N = 2 ^ k)

/-- The constraints on the parameters (00_scope.md R11 and 20_memory.md R121). -/
structure Valid (b : Build) : Prop where
  nMax_pow     : ∃ k, k < 21 ∧ b.nMax = 2 ^ k
  nMax_ge      : 2048 ≤ b.nMax
  fftSizes_ok  : ∀ k, k < 32 → b.fftSizes.getLsbD k = true → 1 ≤ k ∧ 2 ^ k ≤ b.nMax
  fftSizes_2048 : b.fftSizes.getLsbD 11 = true
  inMax_ok     : 1 ≤ b.inMax ∧ b.inMax ≤ 255
  outMax_ok    : 1 ≤ b.outMax ∧ b.outMax ≤ 255
  bMax_ok      : 512 ≤ b.bMax ∧ b.bMax ≤ 2 ^ 24 - 1
  stage_ok     : b.bMax ≤ b.stageFrames ∧ b.stageFrames ≤ 2 ^ 24 - 1
  base_aligned : b.base % Config.windowBytes = 0
  stageIn_fits : b.inMax * 255 * b.stageFrames ≤ 2 ^ 23
  stageOut_fits : b.outMax * 255 * b.stageFrames ≤ 2 ^ 23
  specIn_fits  : b.inMax * 255 * (b.nMax + 2) ≤ 2 ^ 22
  specOut_fits : b.outMax * 255 * (b.nMax + 2) ≤ 2 ^ 22

/-- IN_CAP_MAX, the depth of an input ring (00_scope.md R12). -/
def inCapMax (b : Build) : Nat := b.nMax + b.bMax

/-- OUT_CAP_MAX, the depth of an output ring (00_scope.md R12). -/
def outCapMax (b : Build) : Nat := max (8 * b.bMax) (2 * b.nMax)

end Build

end Sys2Proof
end

