-- ==== Sys2Proof/Machine/State.lean ====
section
/-! DEFINITION. The state of RTFF-CORE (10_state.md), the inputs that reach it (20_memory.md R137,
70_reset_and_hazards.md R420) and the state after reset (R96 to R98, R420). Plain data throughout. -/

namespace Sys2Proof.Machine

/-! ### Names the spec gives -/

/-- The sequencer state of 10_state.md R41. -/
inductive SeqState where
  | uninit
  | ready
  | xwait
  | fault
deriving DecidableEq, Repr

/-- STATUS.INIT_RESULT (10_state.md R75). -/
inductive InitResult where
  | none
  | ok
  | configInvalid
  | windowInvalid
  | fftInitFailed
deriving DecidableEq, Repr

/-- STATUS.FAULT_CODE (10_state.md R76). -/
inductive FaultCode where
  | none
  | inOverflow
  | outOverflow
deriving DecidableEq, Repr

/-- STATUS.CMDERR_CODE (10_state.md R77). -/
inductive CmdErr where
  | none
  | badState
  | reservedOpcode
  | countRange
  | busy
  | blockRange
deriving DecidableEq, Repr

/-- The transform mode TMODE (10_state.md R53). `reserved` is 3, which INIT refuses. -/
inductive TMode where
  | identity
  | external
  | inplace
  | reserved
deriving DecidableEq, Repr

/-- The RAM regions of 20_memory.md R120. -/
inductive Region where
  | wsrcA
  | wsrcS
  | actA
  | actS
  | cola
  | effsyn
  | stageIn
  | stageOut
  | specIn
  | specOut
deriving DecidableEq, Repr

/-! ### Storage -/

/-- Sparse storage in one canonical form: the keys of `cells` strictly rise, and no cell equals `fill`,
what every unlisted key holds. `fill = none`: unspecified since the last hardware reset
(10_state.md R97, R98); `fill = some v`: a command has filled the whole array with v. With bytes the
cells are a `List Host.Cell`. -/
structure Store (α : Type) where
  fill  : Option α
  cells : List (Nat × α)
deriving DecidableEq, Repr

/-- Storage nothing has written since the last hardware reset. -/
abbrev Store.unspecified {α : Type} : Store α := { fill := .none, cells := [] }

/-- Storage every element of which is `v`. -/
abbrev Store.filled {α : Type} (v : α) : Store α := { fill := some v, cells := [] }

/-- One host-visible RAM region: its bytes, keyed by their offset in the window. -/
abbrev Ram := Store Byte

/-- The host-visible RAM (10_state.md R89 to R92), one canonical list of (offset, byte) for each region
of 20_memory.md R120. -/
structure Memory where
  wsrcA    : Ram
  wsrcS    : Ram
  actA     : Ram
  actS     : Ram
  cola     : Ram
  effsyn   : Ram
  stageIn  : Ram
  stageOut : Ram
  specIn   : Ram
  specOut  : Ram
deriving DecidableEq, Repr

/-! ### Register groups -/

/-- The configuration registers CFG_* (10_state.md R52 to R58), without their reserved bits, which read
0 and discard writes (R80). -/
structure CfgRegs where
  channels : BitVec 8
  fftSize  : Word
  overlap  : Word
  window   : BitVec 8
  block    : Word
  streams  : BitVec 18
deriving DecidableEq, Repr

/-- The active configuration ACT_* with LATENCY, SPECTRUM_SIZE, IN_CAP and OUT_CAP
(10_state.md R60 to R66). IN_CAP and OUT_CAP are the capacities Cin and Cout themselves. -/
structure ActRegs where
  fftSize      : Word
  windowSize   : Word
  overlap      : Word
  hop          : Word
  block        : Word
  channels     : BitVec 8
  window       : BitVec 8
  streams      : BitVec 18
  latency      : Word
  spectrumSize : Word
  inCap        : Word
  outCap       : Word
deriving DecidableEq, Repr

/-- The zeroed active configuration (44_engine_commands.md R285, R319; 10_state.md R96). -/
def ActRegs.zero : ActRegs :=
  { fftSize := 0#32, windowSize := 0#32, overlap := 0#32, hop := 0#32, block := 0#32,
    channels := 0#8, window := 0#8, streams := 0#18, latency := 0#32, spectrumSize := 0#32,
    inCap := 0#32, outCap := 0#32 }

/-- The index triple that all rings of one side share (10_state.md R85, R86). -/
structure RingIx where
  rd    : Nat
  wr    : Nat
  avail : Nat
deriving DecidableEq, Repr

/-- The cleared index triple. -/
def RingIx.zero : RingIx := { rd := 0, wr := 0, avail := 0 }

/-- The sticky bits of INT_PENDING (10_state.md R78). -/
structure Sticky where
  done      : Bool
  cmdErr    : Bool
  initErr   : Bool
  underflow : Bool
deriving DecidableEq, Repr

/-- No sticky bit set. -/
def Sticky.zero : Sticky :=
  { done := false, cmdErr := false, initErr := false, underflow := false }

/-! ### Inputs and responses of the port -/

/-- A host bus access: its byte address, its width in bits, and for a write its data
(20_memory.md R128 to R130). -/
inductive BusAccess where
  | read  (addr : Nat) (width : Nat)
  | write (addr : Nat) (width : Nat) (data : Word)
deriving DecidableEq, Repr

/-- The bus response (20_memory.md R128, R129; 60_exceptions.md R378): `error` is the error response;
`data` is what a read returns, 0 with an error; a write returns none (log 12). -/
structure Response where
  error : Bool
  data  : Option Word
deriving DecidableEq, Repr

/-- What reaches the block from outside: a bus access, a new level of the reset input
(70_reset_and_hazards.md R420), or a new value of the FFT adapter's construction report
(44_engine_commands.md R281; log 3). -/
inductive Input where
  | access (a : BusAccess)
  | rst (level : Bool)
  | adapter (ok : Bool)
deriving DecidableEq, Repr

/-- An input that lands while a command runs, with the draw of 70_reset_and_hazards.md R431 and R432 for
it: which of its possible values a read returns; after how many points of the command a write of a RAM
word reaches the word the command works on (log 2). -/
structure Landing where
  input : Input
  draw  : Nat
deriving DecidableEq, Repr

/-- An arrival at the block. `during` is used when the arrival submits a command that is accepted: the
inputs that land while that command runs, list k at the k-th point of the command (log 2). -/
structure Arrival where
  input  : Input
  during : List (List Landing)
deriving DecidableEq, Repr

/-- A window offset that a read overlapping the running command addresses, and the values the word may
show: the one before the command, then each the command has given it (70_reset_and_hazards.md R431,
R432). -/
structure Watched where
  off    : Nat
  values : List Word
deriving DecidableEq, Repr

/-- A host write of a RAM word that is performed but that the running command does not see for another
`wait` points (70_reset_and_hazards.md R432). -/
structure LateWrite where
  off  : Nat
  data : Word
  wait : Nat
deriving DecidableEq, Repr

/-- A read that has landed and whose value is a draw: the place of its response among those of the step,
where the value it would return with no draw stands meanwhile; the word as the command's effects alone have
left it since the read landed; the values the read may draw, the one before the command first
(70_reset_and_hazards.md R431, R432). -/
structure DrawnRead where
  index  : Nat
  off    : Nat
  draw   : Nat
  live   : Word
  values : List Word
deriving DecidableEq, Repr

/-- The bookkeeping of the accesses that overlap the running command (log 2). -/
structure Transit where
  watched : List Watched
  late    : List LateWrite
  drawn   : List DrawnRead
deriving DecidableEq, Repr

/-- No access overlaps a command. -/
abbrev Transit.none : Transit := { watched := [], late := [], drawn := [] }

/-! ### The state -/

/-- Everything the spec gives the machine, and then the model's own fields. -/
@[ext]
structure State where
  /-- The sequencer state (10_state.md R41). -/
  seq        : SeqState
  /-- A frame is analysed and its synthesis pending (10_state.md R42). -/
  frameCtx   : Bool
  /-- `busy` (10_state.md R43). -/
  busy       : Bool
  /-- STATUS.UNDERFLOW (10_state.md R74). -/
  underflow  : Bool
  /-- STATUS.INIT_RESULT (10_state.md R75). -/
  initResult : InitResult
  /-- STATUS.FAULT_CODE (10_state.md R76). -/
  faultCode  : FaultCode
  /-- STATUS.CMDERR_CODE (10_state.md R77). -/
  cmdErr     : CmdErr
  /-- The sticky bits of INT_PENDING (10_state.md R78). -/
  sticky     : Sticky
  /-- INT_ENABLE bits 5:0 (10_state.md R79). -/
  intEnable  : BitVec 6
  /-- CFG_* (10_state.md R52 to R58). -/
  cfg        : CfgRegs
  /-- ACT_*, LATENCY, SPECTRUM_SIZE, IN_CAP, OUT_CAP (10_state.md R60 to R66). -/
  act        : ActRegs
  /-- in_rd, in_wr, in_avail (10_state.md R85). -/
  inIx       : RingIx
  /-- out_rd, out_wr, out_avail (10_state.md R86). -/
  outIx      : RingIx
  /-- FRAME_COUNT (10_state.md R69). -/
  frameCount : Word
  /-- LAST_FRAMES (10_state.md R70). -/
  lastFrames : Word
  /-- The host-visible RAM (10_state.md R89 to R92). -/
  mem        : Memory
  /-- ring_in (10_state.md R85). -/
  ringIn     : Store Word
  /-- ring_out (10_state.md R86). -/
  ringOut    : Store Word
  /-- tail (10_state.md R87). -/
  tail       : Store Word
  /-- The time blocks tb (10_state.md R88). -/
  tb         : Store Word
  /-- The inverse transforms y (10_state.md R88). -/
  y          : Store Word
  /-- The overlap-add results res (10_state.md R88). -/
  res        : Store Word
  /-- The reset input is asserted (70_reset_and_hazards.md R420). -/
  rst        : Bool
  /-- The parameters of 00_scope.md R11 (log 6). No step changes them. -/
  build      : Build
  /-- The model's own: the arrivals still to come, in the port's order (20_memory.md R137; log 1). -/
  port       : List Arrival
  /-- The model's own: the inputs that land while the command now submitted runs (log 2). -/
  overlap    : List (List Landing)
  /-- The model's own: the accesses that overlap the running command, not settled yet (log 2). -/
  transit    : Transit
  /-- The model's own: the responses given in the last step (log 12). -/
  resp       : List Response
  /-- The model's own: the value the draw FFT_INIT_OK takes next (log 3). -/
  adapterOk  : Bool
  /-- The model's own: the counter of the NaN draws (log 4). -/
  draws      : Nat
  /-- The model's own: how many hardware resets there have been (log 5). -/
  epoch      : Nat
deriving DecidableEq, Repr

/-! ### How a step can stop -/

/-- The ways the machine can stop. There is none: every exceptional event of the block has an effect the
spec defines (60_exceptions.md R370, R394), and the spec's FAULT is a value of the sequencer state
(R376), not a stop. So no constructor, and safe. -/
inductive Fault
deriving DecidableEq, Repr

/-- Why an instruction has no meaning. -/
inductive Refusal where
  /-- Raised by an arm of exec for a command whose meaning is not written: safe, since nothing is
  claimed of it. Every command has its meaning, so no arm raises it. -/
  | notModelled (mnemonic : String)
deriving DecidableEq, Repr

/-! ### Reset -/

/-- RAM after a hardware reset: no byte has a value (10_state.md R98). -/
def Memory.atReset : Memory :=
  { wsrcA := .unspecified, wsrcS := .unspecified, actA := .unspecified, actS := .unspecified,
    cola := .unspecified, effsyn := .unspecified, stageIn := .unspecified, stageOut := .unspecified,
    specIn := .unspecified, specOut := .unspecified }

/-- CFG_* after reset: the defaults of a new engine, and no channel (10_state.md R96;
70_reset_and_hazards.md R421). -/
def CfgRegs.atReset : CfgRegs :=
  { channels := 0#8, fftSize := 2048#32, overlap := 1024#32, window := 0#8, block := 512#32,
    streams := 0x101#18 }

/-- The block right after a hardware reset (10_state.md R96 to R98; 70_reset_and_hazards.md R420). The
values of the model's own fields are DESIGN CHOICE (log 1, 2, 3, 4, 5, 6, 12). -/
def State.reset : State :=
  { seq := .uninit, frameCtx := false, busy := false, underflow := false, initResult := .none,
    faultCode := .none, cmdErr := .none, sticky := Sticky.zero, intEnable := 0#6,
    cfg := CfgRegs.atReset, act := ActRegs.zero, inIx := RingIx.zero, outIx := RingIx.zero,
    frameCount := 0#32, lastFrames := 0#32, mem := Memory.atReset,
    ringIn := .unspecified, ringOut := .unspecified, tail := .unspecified, tb := .unspecified,
    y := .unspecified, res := .unspecified, rst := false, build := Config.referenceBuild,
    port := [], overlap := [], transit := .none, resp := [], adapterOk := true, draws := 0, epoch := 0 }

end Sys2Proof.Machine
end

