-- ==== Sys2Proof/Machine/Ops.lean ====
section
/-! DEFINITION. The named operations over storage, memory and registers, and the exceptional events of
60_exceptions.md: CMDERR (R374), FAULT (R376), the bus error (R378) and the hardware reset
(70_reset_and_hazards.md R420). -/

namespace Sys2Proof.Machine

/-! ### Cells: sorted association lists -/

/-- The value listed at key `a`, if any. -/
def cellsGet {α : Type} : List (Nat × α) → Nat → Option α
  | [], _ => none
  | (k, v) :: rest, a => if k = a then some v else cellsGet rest a

/-- List `v` at key `a`, keeping the keys rising. -/
def cellsPut {α : Type} (a : Nat) (v : α) : List (Nat × α) → List (Nat × α)
  | [] => [(a, v)]
  | (k, w) :: rest =>
    if a < k then (a, v) :: (k, w) :: rest
    else if a = k then (a, v) :: rest
    else (k, w) :: cellsPut a v rest

/-- Unlist key `a`. -/
def cellsDrop {α : Type} (a : Nat) : List (Nat × α) → List (Nat × α)
  | [] => []
  | (k, w) :: rest => if k = a then cellsDrop a rest else (k, w) :: cellsDrop a rest

/-! ### Storage -/

/-- What element `a` holds; `none` is unspecified (10_state.md R97, R98). -/
def Store.get? {α : Type} (st : Store α) (a : Nat) : Option α :=
  match cellsGet st.cells a with
  | some v => some v
  | none => st.fill

/-- Store `v` at element `a`, in canonical form. -/
def Store.set {α : Type} [DecidableEq α] (st : Store α) (a : Nat) (v : α) : Store α :=
  { st with cells := if st.fill = some v then cellsDrop a st.cells else cellsPut a v st.cells }

/-- Store the values in turn. -/
def Store.setAll {α : Type} [DecidableEq α] (st : Store α) (kvs : List (Nat × α)) : Store α :=
  kvs.foldl (fun st kv => st.set kv.1 kv.2) st

/-- The canonical form: keys strictly rising, and no cell equal to what an unlisted key holds. -/
abbrev Store.wf {α : Type} [DecidableEq α] (st : Store α) : Prop :=
  (st.cells.map Prod.fst).Pairwise (· < ·) ∧ ∀ c ∈ st.cells, st.fill ≠ some c.2

/-! ### Regions -/

/-- The window offset at which a region starts (20_memory.md R120). -/
def regionBase : Region → Nat
  | .wsrcA => 0x00400000
  | .wsrcS => 0x00800000
  | .actA => 0x00C00000
  | .actS => 0x01000000
  | .cola => 0x01400000
  | .effsyn => 0x01800000
  | .stageIn => 0x02000000
  | .stageOut => 0x04000000
  | .specIn => 0x06000000
  | .specOut => 0x07000000

/-- The first window offset after a region (20_memory.md R120). -/
def regionEnd : Region → Nat
  | .wsrcA => 0x00800000
  | .wsrcS => 0x00C00000
  | .actA => 0x01000000
  | .actS => 0x01400000
  | .cola => 0x01800000
  | .effsyn => 0x01C00000
  | .stageIn => 0x04000000
  | .stageOut => 0x06000000
  | .specIn => 0x07000000
  | .specOut => 0x08000000

/-- The regions in address order. -/
def allRegions : List Region :=
  [.wsrcA, .wsrcS, .actA, .actS, .cola, .effsyn, .stageIn, .stageOut, .specIn, .specOut]

/-- The region a window offset lies in (20_memory.md R120); `none` for the CSR page, the unmapped
offsets below the first region, the offsets 0x01C0_0000 to 0x01FF_FFFF that no row of R120 names
(DEDUCED, log 10), and what lies beyond the window. -/
def regionOf (off : Nat) : Option Region :=
  allRegions.find? fun r => decide (regionBase r ≤ off) && decide (off < regionEnd r)

/-- How many words of a region are elements (20_memory.md R122, R124, R125). -/
def regionWords (b : Build) : Region → Nat
  | .stageIn => b.inMax * Config.chMax * b.stageFrames
  | .stageOut => b.outMax * Config.chMax * b.stageFrames
  | .specIn => 2 * (b.inMax * Config.chMax * (b.nMax / 2 + 1))
  | .specOut => 2 * (b.outMax * Config.chMax * (b.nMax / 2 + 1))
  | _ => b.nMax

/-- The read-only RAM regions (20_memory.md R120, R129). -/
def regionReadOnly : Region → Bool
  | .actA => true
  | .actS => true
  | .cola => true
  | .effsyn => true
  | _ => false

/-- The window offset of entry n of a table (20_memory.md R122). -/
def tableOff (r : Region) (n : Nat) : Nat := regionBase r + 4 * n

/-- The window offset of the real word of element (t, c, k) of a spectrum RAM; the imaginary word is the
next (20_memory.md R124; 00_scope.md R18). -/
def specOff (b : Build) (r : Region) (t c k : Nat) : Nat :=
  regionBase r + 8 * ((t * Config.chMax + c) * (b.nMax / 2 + 1) + k)

/-- The window offset of element (t, c, f) of a staging RAM (20_memory.md R125, R126). -/
def stageOff (b : Build) (r : Region) (t c f : Nat) : Nat :=
  regionBase r + 4 * ((t * Config.chMax + c) * b.stageFrames + f)

/-! ### Host-visible memory -/

/-- The RAM of a region. -/
def Memory.ram (m : Memory) : Region → Ram
  | .wsrcA => m.wsrcA
  | .wsrcS => m.wsrcS
  | .actA => m.actA
  | .actS => m.actS
  | .cola => m.cola
  | .effsyn => m.effsyn
  | .stageIn => m.stageIn
  | .stageOut => m.stageOut
  | .specIn => m.specIn
  | .specOut => m.specOut

/-- Memory with the RAM of one region replaced. -/
def Memory.setRam (m : Memory) (r : Region) (ram : Ram) : Memory :=
  match r with
  | .wsrcA => { m with wsrcA := ram }
  | .wsrcS => { m with wsrcS := ram }
  | .actA => { m with actA := ram }
  | .actS => { m with actS := ram }
  | .cola => { m with cola := ram }
  | .effsyn => { m with effsyn := ram }
  | .stageIn => { m with stageIn := ram }
  | .stageOut => { m with stageOut := ram }
  | .specIn => { m with specIn := ram }
  | .specOut => { m with specOut := ram }

/-- The canonical form of every region, each byte listed in the region its offset lies in. -/
abbrev Memory.wf (m : Memory) : Prop :=
  ∀ r ∈ allRegions, (m.ram r).wf ∧ ∀ c ∈ (m.ram r).cells, regionOf c.1 = some r

/-- The byte at a window offset; `none` where nothing has written it since the last hardware reset, and
outside the RAM regions. -/
def Memory.get? (m : Memory) (off : Nat) : Option Byte :=
  match regionOf off with
  | some r => (m.ram r).get? off
  | none => none

/-- Store a byte at a window offset. No offset outside the RAM regions holds anything. -/
def Memory.setByte (m : Memory) (off : Nat) (b : Byte) : Memory :=
  match regionOf off with
  | some r => m.setRam r ((m.ram r).set off b)
  | none => m

/-- Byte lane i of a word: little-endian (20_memory.md R132). -/
def byteLane (w : Word) (i : Nat) : Byte := w.extractLsb' (8 * i) 8

/-- The word of four byte lanes, the lowest first (20_memory.md R132). -/
def wordOfLanes (b0 b1 b2 b3 : Byte) : Word := b3 ++ b2 ++ b1 ++ b0

/-- Store a word at a window offset (20_memory.md R129, R132). -/
def Memory.setWord (m : Memory) (off : Nat) (w : Word) : Memory :=
  (((m.setByte off (byteLane w 0)).setByte (off + 1) (byteLane w 1)).setByte (off + 2)
    (byteLane w 2)).setByte (off + 3) (byteLane w 3)

/-- Store the words in turn. -/
def Memory.setWords (m : Memory) (kvs : List (Nat × Word)) : Memory :=
  kvs.foldl (fun m kv => m.setWord kv.1 kv.2) m

/-- Fill a whole region with `+0.0`. -/
def Memory.zeroRegion (m : Memory) (r : Region) : Memory := m.setRam r (.filled 0#8)

/-- The byte at a window offset. What nothing has written is a free value (10_state.md R98; log 5). -/
def State.byteAt (s : State) (off : Nat) : Byte :=
  (s.mem.get? off).getD (Config.ramDraw s.epoch off)

/-- The word at a window offset (20_memory.md R128, R132). -/
def State.wordAt (s : State) (off : Nat) : Word :=
  wordOfLanes (s.byteAt off) (s.byteAt (off + 1)) (s.byteAt (off + 2)) (s.byteAt (off + 3))

/-- The complex element whose real word is at a window offset (00_scope.md R18). -/
def State.c32At (s : State) (off : Nat) : C32 := { re := s.wordAt off, im := s.wordAt (off + 4) }

/-! ### The active configuration (00_scope.md R20) -/

/-- N, the active FFT size. -/
def State.N (s : State) : Nat := s.act.fftSize.toNat

/-- O, the active overlap. -/
def State.O (s : State) : Nat := s.act.overlap.toNat

/-- hop = N - O. -/
def State.hop (s : State) : Nat := s.act.hop.toNat

/-- B, the active block size. -/
def State.B (s : State) : Nat := s.act.block.toNat

/-- C, the active channel count. -/
def State.C (s : State) : Nat := s.act.channels.toNat

/-- K = N/2 + 1, the spectrum size. -/
def State.K (s : State) : Nat := s.act.spectrumSize.toNat

/-- The input stream count of a CFG_STREAMS or ACT_STREAMS value (10_state.md R52). -/
def streamsIn (v : BitVec 18) : Nat := (v.extractLsb' 0 8).toNat

/-- The output stream count of a CFG_STREAMS or ACT_STREAMS value (10_state.md R52). -/
def streamsOut (v : BitVec 18) : Nat := (v.extractLsb' 8 8).toNat

/-- TMODE of a CFG_STREAMS or ACT_STREAMS value (10_state.md R53). -/
def streamsMode (v : BitVec 18) : TMode :=
  match (v.extractLsb' 16 2).toNat with
  | 0 => .identity
  | 1 => .external
  | 2 => .inplace
  | _ => .reserved

/-- I, the active input stream count. -/
def State.I (s : State) : Nat := streamsIn s.act.streams

/-- J, the active output stream count. -/
def State.J (s : State) : Nat := streamsOut s.act.streams

/-- The active transform mode. -/
def State.tmode (s : State) : TMode := streamsMode s.act.streams

/-- Cin, the active input ring capacity (IN_CAP). -/
def State.Cin (s : State) : Nat := s.act.inCap.toNat

/-- Cout, the active output ring capacity (OUT_CAP). -/
def State.Cout (s : State) : Nat := s.act.outCap.toNat

/-! ### Internal storage (10_state.md R85 to R88) -/

/-- The key of ring_in[s][c][i]. -/
def ringInKey (b : Build) (s c i : Nat) : Nat := (s * Config.chMax + c) * b.inCapMax + i

/-- The key of ring_out[j][c][i]. -/
def ringOutKey (b : Build) (j c i : Nat) : Nat := (j * Config.chMax + c) * b.outCapMax + i

/-- The key of element i of a tail, a time block, an inverse transform or an overlap-add result. -/
def blockKey (b : Build) (t c i : Nat) : Nat := (t * Config.chMax + c) * b.nMax + i

/-- A word of internal storage; what nothing has written is a free value (10_state.md R97; log 5). -/
def State.cell (s : State) (id : StoreId) (st : Store Word) (key : Nat) : Word :=
  (st.get? key).getD (Config.storeDraw s.epoch id key)

/-- ring_in[t][c][i]. -/
def State.ringInAt (s : State) (t c i : Nat) : F32 := s.cell .ringIn s.ringIn (ringInKey s.build t c i)

/-- ring_out[j][c][i]. -/
def State.ringOutAt (s : State) (j c i : Nat) : F32 :=
  s.cell .ringOut s.ringOut (ringOutKey s.build j c i)

/-- tail[j][c][i]. -/
def State.tailAt (s : State) (j c i : Nat) : F32 := s.cell .tail s.tail (blockKey s.build j c i)

/-- tb[t][c][i]. -/
def State.tbAt (s : State) (t c i : Nat) : F32 := s.cell .tb s.tb (blockKey s.build t c i)

/-- y[j][c][i]. -/
def State.yAt (s : State) (j c i : Nat) : F32 := s.cell .y s.y (blockKey s.build j c i)

/-- res[j][c][i]. -/
def State.resAt (s : State) (j c i : Nat) : F32 := s.cell .res s.res (blockKey s.build j c i)

/-- All (t, c) with t < a and c < b, t slowest. -/
def pairs (a b : Nat) : List (Nat × Nat) :=
  (List.range a).flatMap fun t => (List.range b).map fun c => (t, c)

/-- The words `val t c f` for t < a, c < b, f < n, each at the key `key t c f`: the shape of every loop
over streams, channels and samples. The order is not observable (20_memory.md R143). -/
def sweep (a b n : Nat) (key : Nat → Nat → Nat → Nat) (val : Nat → Nat → Nat → Word) :
    List (Nat × Word) :=
  (pairs a b).flatMap fun p => (List.range n).map fun f => (key p.1 p.2 f, val p.1 p.2 f)

/-! ### Draws -/

/-- The draw of NAN_RESULT for one operation (00_scope.md R17; log 4). -/
def State.nan (s : State) (site : NanSite) : Word := Config.nanDraw s.draws site

/-- Make the draws that follow fresh ones (log 4). -/
def freshDraws (s : State) : State := { s with draws := s.draws + 1 }

/-! ### Command bookkeeping -/

/-- `busy <- 0 ; INT_PENDING.DONE <- 1`: a command is complete (60_exceptions.md R380;
44_engine_commands.md R303). -/
def completeCmd (s : State) : State :=
  { s with busy := false, sticky := { s.sticky with done := true } }

/-! ### Exceptional events -/

/-- `raise CmdErr(code)` (60_exceptions.md R374): the command word is discarded; CMDERR_CODE and
INT_PENDING.CMDERR are written and nothing else changes. -/
def rejectCmd (code : CmdErr) (s : State) : State :=
  { s with cmdErr := code, sticky := { s.sticky with cmdErr := true } }

/-- `busy <- 0` with no DONE: a WRITE pauses or faults (45_transform.md R343; 60_exceptions.md R376). -/
def releaseBusy (s : State) : State := { s with busy := false }

/-- `raise Fault(code)` but for `busy <- 0` (60_exceptions.md R376): the cause is saved in FAULT_CODE and
the state becomes FAULT. -/
def enterFault (code : FaultCode) (s : State) : State := { s with faultCode := code, seq := .fault }

/-- `raise Fault(code)` (60_exceptions.md R376): the cause is saved, the state becomes FAULT, busy is
cleared, the WRITE ends with no DONE; everything else keeps its value. There is no return from it
(R377). -/
def raiseFault (code : FaultCode) (s : State) : State := releaseBusy (enterFault code s)

/-- `raise BusError` for a read (60_exceptions.md R378): data 0 and the error response. -/
def readError : Response := { error := true, data := some 0#32 }

/-- `raise BusError` for a write (60_exceptions.md R378): the error response. -/
def writeError : Response := { error := true, data := none }

/-- Give a bus response. -/
def respond (r : Response) (s : State) : State := { s with resp := s.resp ++ [r] }

/-- `rst` is asserted (70_reset_and_hazards.md R420): a running command or a paused frame is abandoned
and every register, fill and RAM word is as after reset; the RAM words are fresh draws, and no write is
left to reach them. The parameters, the arrivals still to come and the port's own record stay
(log 17). -/
def hardReset (s : State) : State :=
  { State.reset with
    rst := true, build := s.build, port := s.port, overlap := s.overlap,
    transit := { s.transit with late := [] }, resp := s.resp, adapterOk := s.adapterOk,
    draws := s.draws, epoch := s.epoch + 1 }

end Sys2Proof.Machine
end

