-- ==== Sys2Proof/Machine/Flags.lean ====
section
/-! DEFINITION. STATUS, INT_PENDING and the interrupt output (10_state.md R71 to R79; 60_exceptions.md
R371, R380, R381). -/

namespace Sys2Proof.Machine

/-- STATUS.STATE (10_state.md R72). -/
def seqCode : SeqState → Nat
  | .uninit => 0
  | .ready => 1
  | .xwait => 2
  | .fault => 3

/-- The codes of STATUS.INIT_RESULT (10_state.md R75; 60_exceptions.md R371). -/
def initCode : InitResult → Nat
  | .none => 0
  | .ok => 1
  | .configInvalid => 2
  | .windowInvalid => 3
  | .fftInitFailed => 4

/-- The codes of STATUS.FAULT_CODE (10_state.md R76; 60_exceptions.md R371). -/
def faultCodeOf : FaultCode → Nat
  | .none => 0
  | .inOverflow => 1
  | .outOverflow => 2

/-- The codes of STATUS.CMDERR_CODE (10_state.md R77; 60_exceptions.md R371). -/
def cmdErrCode : CmdErr → Nat
  | .none => 0
  | .badState => 1
  | .reservedOpcode => 2
  | .countRange => 3
  | .busy => 4
  | .blockRange => 5

/-- STATUS as a bus read shows it (10_state.md R71). -/
def statusWord (s : State) : Word :=
  BitVec.ofNat 12 0 ++ BitVec.ofNat 4 (cmdErrCode s.cmdErr) ++ BitVec.ofNat 4 (faultCodeOf s.faultCode) ++
    BitVec.ofNat 4 (initCode s.initResult) ++ BitVec.ofNat 4 0 ++ BitVec.ofBool s.underflow ++
    BitVec.ofBool s.busy ++ BitVec.ofNat 2 (seqCode s.seq)

/-- INT_PENDING.XREQ, a level (10_state.md R78). -/
def xreq (s : State) : Bool := decide (s.seq = .xwait)

/-- INT_PENDING.FAULT, a level (10_state.md R78). -/
def faultLevel (s : State) : Bool := decide (s.seq = .fault)

/-- INT_PENDING bits 5:0 (10_state.md R78). -/
def pendingBits (s : State) : BitVec 6 :=
  BitVec.ofBool s.sticky.underflow ++ BitVec.ofBool s.sticky.initErr ++ BitVec.ofBool s.sticky.cmdErr ++
    BitVec.ofBool (faultLevel s) ++ BitVec.ofBool (xreq s) ++ BitVec.ofBool s.sticky.done

/-- The sticky bits a bus write of w leaves (10_state.md R78: write 1 to clear). -/
def clearSticky (w : Word) (k : Sticky) : Sticky :=
  { done := k.done && !w.getLsbD 0, cmdErr := k.cmdErr && !w.getLsbD 3,
    initErr := k.initErr && !w.getLsbD 4, underflow := k.underflow && !w.getLsbD 5 }

/-- The interrupt output: some pending bit is enabled (60_exceptions.md R381). -/
def irq (s : State) : Bool := decide (pendingBits s &&& s.intEnable ≠ 0#6)

end Sys2Proof.Machine
end

