-- ==== Sys2Proof/Machine/Csr.lean ====
section
/-! DEFINITION. The control and status registers as bus accesses see them (10_state.md R44 to R81). -/

namespace Sys2Proof.Machine

/-- The registers of 10_state.md R44. -/
inductive Csr where
  | id
  | version
  | capNMax
  | capBMax
  | capStage
  | capCounts
  | capFft
  | cmd
  | status
  | intPending
  | intEnable
  | cfgChannels
  | cfgFftSize
  | cfgOverlap
  | cfgWindow
  | cfgBlock
  | cfgStreams
  | actFftSize
  | actOverlap
  | actHop
  | actWindowSize
  | actBlock
  | actChannels
  | actWindow
  | actStreams
  | latency
  | spectrumSize
  | inCap
  | outCap
  | inAvail
  | outAvail
  | frameCount
  | lastFrames
deriving DecidableEq, Repr

/-- The offset of CMD (10_state.md R44). -/
def cmdOffset : Nat := 0x020

/-- The register at a word-aligned offset of the CSR page (10_state.md R44); `none` is reserved (R81). -/
def csrAt : Nat → Option Csr
  | 0x000 => some .id
  | 0x004 => some .version
  | 0x008 => some .capNMax
  | 0x00C => some .capBMax
  | 0x010 => some .capStage
  | 0x014 => some .capCounts
  | 0x018 => some .capFft
  | 0x020 => some .cmd
  | 0x024 => some .status
  | 0x028 => some .intPending
  | 0x02C => some .intEnable
  | 0x030 => some .cfgChannels
  | 0x034 => some .cfgFftSize
  | 0x038 => some .cfgOverlap
  | 0x03C => some .cfgWindow
  | 0x040 => some .cfgBlock
  | 0x044 => some .cfgStreams
  | 0x060 => some .actFftSize
  | 0x064 => some .actOverlap
  | 0x068 => some .actHop
  | 0x06C => some .actWindowSize
  | 0x070 => some .actBlock
  | 0x074 => some .actChannels
  | 0x078 => some .actWindow
  | 0x07C => some .actStreams
  | 0x080 => some .latency
  | 0x084 => some .spectrumSize
  | 0x088 => some .inCap
  | 0x08C => some .outCap
  | 0x090 => some .inAvail
  | 0x094 => some .outAvail
  | 0x098 => some .frameCount
  | 0x09C => some .lastFrames
  | _ => none

/-- CAP_COUNTS: CH_MAX, IN_MAX and OUT_MAX in bits 7:0, 15:8 and 23:16 (10_state.md R50). -/
def capCounts (b : Build) : Word :=
  BitVec.ofNat 8 0 ++ BitVec.ofNat 8 b.outMax ++ BitVec.ofNat 8 b.inMax ++ BitVec.ofNat 8 Config.chMax

/-- What a bus read of a register returns (10_state.md R45 to R79); no read has a side effect
(20_memory.md R128). -/
def csrRead (s : State) : Csr → Word
  | .id => 0x52544646#32
  | .version => 0x00000007#32
  | .capNMax => wordOfNat s.build.nMax
  | .capBMax => wordOfNat s.build.bMax
  | .capStage => wordOfNat s.build.stageFrames
  | .capCounts => capCounts s.build
  | .capFft => s.build.fftSizes
  | .cmd => 0#32
  | .status => statusWord s
  | .intPending => (pendingBits s).setWidth 32
  | .intEnable => s.intEnable.setWidth 32
  | .cfgChannels => s.cfg.channels.setWidth 32
  | .cfgFftSize => s.cfg.fftSize
  | .cfgOverlap => s.cfg.overlap
  | .cfgWindow => s.cfg.window.setWidth 32
  | .cfgBlock => s.cfg.block
  | .cfgStreams => s.cfg.streams.setWidth 32
  | .actFftSize => s.act.fftSize
  | .actOverlap => s.act.overlap
  | .actHop => s.act.hop
  | .actWindowSize => s.act.windowSize
  | .actBlock => s.act.block
  | .actChannels => s.act.channels.setWidth 32
  | .actWindow => s.act.window.setWidth 32
  | .actStreams => s.act.streams.setWidth 32
  | .latency => s.act.latency
  | .spectrumSize => s.act.spectrumSize
  | .inCap => s.act.inCap
  | .outCap => s.act.outCap
  | .inAvail => wordOfNat s.inIx.avail
  | .outAvail => wordOfNat s.outIx.avail
  | .frameCount => s.frameCount
  | .lastFrames => s.lastFrames

/-- What a bus write of v to a register does (10_state.md R52 to R58, R78 to R80). A write to a
read-only register has no effect; a write to CMD submits a command, which is not this function's part
(Machine/Port.lean). -/
def csrWrite (s : State) (v : Word) : Csr → State
  | .intPending => { s with sticky := clearSticky v s.sticky }
  | .intEnable => { s with intEnable := v.setWidth 6 }
  | .cfgChannels => { s with cfg := { s.cfg with channels := v.setWidth 8 } }
  | .cfgFftSize => { s with cfg := { s.cfg with fftSize := v } }
  | .cfgOverlap => { s with cfg := { s.cfg with overlap := v } }
  | .cfgWindow => { s with cfg := { s.cfg with window := v.setWidth 8 } }
  | .cfgBlock => { s with cfg := { s.cfg with block := v } }
  | .cfgStreams => { s with cfg := { s.cfg with streams := v.setWidth 18 } }
  | .id => s
  | .version => s
  | .capNMax => s
  | .capBMax => s
  | .capStage => s
  | .capCounts => s
  | .capFft => s
  | .cmd => s
  | .status => s
  | .actFftSize => s
  | .actOverlap => s
  | .actHop => s
  | .actWindowSize => s
  | .actBlock => s
  | .actChannels => s
  | .actWindow => s
  | .actStreams => s
  | .latency => s
  | .spectrumSize => s
  | .inCap => s
  | .outCap => s
  | .inAvail => s
  | .outAvail => s
  | .frameCount => s
  | .lastFrames => s

end Sys2Proof.Machine
end

