-- ==== Sys2Proof/Machine/Bus.lean ====
section
/-! DEFINITION. Host bus accesses (20_memory.md R120 to R131; 60_exceptions.md R378) and the inputs that
land while a command runs (70_reset_and_hazards.md R430 to R433, R437; log 2). -/

namespace Sys2Proof.Machine

/-- What a bus access reaches. -/
inductive Target where
  /-- The CSR page, at an offset. -/
  | csr (off : Nat)
  /-- A word of a RAM region, at a window offset. -/
  | ram (r : Region) (off : Nat)
  /-- Nothing: the access gets a bus error. -/
  | refused
deriving DecidableEq, Repr

/-- Where an access of `width` bits at a byte address goes: a bus error for every other width than 32
(20_memory.md R130), a misaligned address (R131), an address outside the window, an unmapped offset or
an element out of range (R127). -/
def locate (b : Build) (addr width : Nat) : Target :=
  if width ≠ 32 then .refused
  else if addr % 4 ≠ 0 then .refused
  else if addr < b.base ∨ b.base + Config.windowBytes ≤ addr then .refused
  else if addr - b.base < 0x1000 then .csr (addr - b.base)
  else
    match regionOf (addr - b.base) with
    | none => .refused
    | some r =>
      if (addr - b.base - regionBase r) / 4 < regionWords b r then .ram r (addr - b.base)
      else .refused

/-- The value a bus read of the CSR page returns: 0 at a reserved offset (10_state.md R81). -/
def csrReadAt (s : State) (off : Nat) : Word :=
  match csrAt off with
  | some c => csrRead s c
  | none => 0#32

/-- A bus write to the CSR page: no effect at a reserved offset (10_state.md R81). -/
def csrWriteAt (s : State) (off : Nat) (v : Word) : State :=
  match csrAt off with
  | some c => csrWrite s v c
  | none => s

/-- MemRead (20_memory.md R128): the response to a read. -/
def readResponse (s : State) (addr width : Nat) : Response :=
  match locate s.build addr width with
  | .csr off => { error := false, data := some (csrReadAt s off) }
  | .ram _ off => { error := false, data := some (s.wordAt off) }
  | .refused => readError

/-- The response to a write that is performed. -/
def writeDone : Response := { error := false, data := none }

/-- MemWrite (20_memory.md R129), but for what a write to CMD submits. -/
def busWrite (s : State) (addr width : Nat) (v : Word) : State :=
  match locate s.build addr width with
  | .csr off => respond writeDone (csrWriteAt s off v)
  | .ram r off =>
    if regionReadOnly r then respond writeError s
    else respond writeDone { s with mem := s.mem.setWord off v }
  | .refused => respond writeError s

/-- Perform an access that submits no command. -/
def performAccess (a : BusAccess) (s : State) : State :=
  match a with
  | .read addr width => respond (readResponse s addr width) s
  | .write addr width v => busWrite s addr width v

/-- The command word an access submits, if it is a write to CMD (10_state.md R59). -/
def commandWord (b : Build) : BusAccess → Option Word
  | .read _ _ => none
  | .write addr width v => if locate b addr width = .csr cmdOffset then some v else none

/-! ### Accesses that overlap a running command -/

/-- The registers whose value a read while busy = 1 draws (70_reset_and_hazards.md R431): IN_AVAIL,
OUT_AVAIL, FRAME_COUNT, LAST_FRAMES, INT_PENDING, LATENCY, IN_CAP, OUT_CAP and every ACT_* register. -/
def csrDrawn : Csr → Bool
  | .intPending => true
  | .actFftSize => true
  | .actOverlap => true
  | .actHop => true
  | .actWindowSize => true
  | .actBlock => true
  | .actChannels => true
  | .actWindow => true
  | .actStreams => true
  | .latency => true
  | .inCap => true
  | .outCap => true
  | .inAvail => true
  | .outAvail => true
  | .frameCount => true
  | .lastFrames => true
  | .id => false
  | .version => false
  | .capNMax => false
  | .capBMax => false
  | .capStage => false
  | .capCounts => false
  | .capFft => false
  | .cmd => false
  | .status => false
  | .intEnable => false
  | .cfgChannels => false
  | .cfgFftSize => false
  | .cfgOverlap => false
  | .cfgWindow => false
  | .cfgBlock => false
  | .cfgStreams => false
  | .spectrumSize => false

/-- A window offset is that of a register whose value is drawn. -/
def drawnCsrAt (off : Nat) : Bool := (csrAt off).any csrDrawn

/-- Where the CSR page ends (10_state.md R44). -/
def csrPageEnd : Nat := 0x1000

/-- The word at a window offset as the command leaves it: a register or a word of RAM. -/
def windowWord (s : State) (off : Nat) : Word :=
  if off < csrPageEnd then csrReadAt s off else s.wordAt off

/-- The word of RAM a host reads: the last host write still to reach it, else the word itself. -/
def hostWord (s : State) (off : Nat) : Word :=
  match s.transit.late.reverse.find? fun e => decide (e.off = off) with
  | some e => e.data
  | none => s.wordAt off

/-- The reads that are to land during the command, each with the value before it. -/
def watchedReads (s : State) : List Watched :=
  s.overlap.flatten.filterMap fun l =>
    match l.input with
    | .access (.read addr width) =>
      match locate s.build addr width with
      | .csr off => some { off := off, values := [windowWord s off] }
      | .ram _ off => some { off := off, values := [windowWord s off] }
      | .refused => none
    | .access (.write _ _ _) => none
    | .rst _ => none
    | .adapter _ => none

/-- Note the values before the command of what overlapping reads address. -/
def watchReads (s : State) : State :=
  { s with transit := { s.transit with watched := watchedReads s } }

/-- A piece of a command's effect, from `old` to `s`, gives the word at a window offset a value: the piece
says so (`wrote`), or it changes a drawn register (70_reset_and_hazards.md R431, R432). -/
def givesValue (wrote : Nat → Bool) (old s : State) (off : Nat) : Bool :=
  wrote off || (drawnCsrAt off && decide (csrReadAt s off ≠ csrReadAt old off))

/-- `live` with the bits in which `new` differs from `old` as `new` has them. -/
def carryChange (old new live : Word) : Word := live ^^^ ((live ^^^ new) &&& (old ^^^ new))

/-- The value a piece, from `old` to `s`, gives to a read that has landed: a register keeps what the host
alone has changed in it since as the read saw it. -/
def givenWord (old s : State) (off : Nat) (live : Word) : Word :=
  if off < csrPageEnd then carryChange (csrReadAt old off) (csrReadAt s off) live else s.wordAt off

/-- Note the value a piece, from `old` to `s`, gives to a read that is still to land. -/
def Watched.note (wrote : Nat → Bool) (old s : State) (w : Watched) : Watched :=
  if givesValue wrote old s w.off then { w with values := w.values ++ [windowWord s w.off] } else w

/-- Note the value a piece, from `old` to `s`, gives to a read that has landed. -/
def DrawnRead.note (wrote : Nat → Bool) (old s : State) (d : DrawnRead) : DrawnRead :=
  if givesValue wrote old s d.off then
    { d with
      live := givenWord old s d.off d.live, values := d.values ++ [givenWord old s d.off d.live] }
  else d

/-- Note the values a piece of a command's effect, from `old` to `s`, gives
(70_reset_and_hazards.md R431, R432). -/
def noteGiven (wrote : Nat → Bool) (old s : State) : State :=
  { s with
    transit := { s.transit with
      watched := s.transit.watched.map (Watched.note wrote old s),
      drawn := s.transit.drawn.map (DrawnRead.note wrote old s) } }

/-- The host writes whose wait is over reach their words, in the order in which they were performed. -/
def reachRam (s : State) : State :=
  { s with
    mem := s.mem.setWords
      ((s.transit.late.filter fun e => decide (e.wait = 0)).map fun e => (e.off, e.data)),
    transit := { s.transit with late := s.transit.late.filter fun e => decide (e.wait ≠ 0) } }

/-- The next point of the command is there: every waiting host write has one point less to wait. -/
def tickLate (s : State) : State :=
  reachRam
    { s with
      transit := { s.transit with late := s.transit.late.map fun e => { e with wait := e.wait - 1 } } }

/-- A host write of a RAM word while busy = 1: it is performed, and the command sees it after `wait` more
points; an older write of the same word waits no longer than it (70_reset_and_hazards.md R432). -/
def lateWrite (off : Nat) (v : Word) (wait : Nat) (s : State) : State :=
  reachRam
    { s with
      transit := { s.transit with
        late := s.transit.late.map
            (fun e => if e.off = off then { e with wait := min e.wait wait } else e) ++
          [{ off := off, data := v, wait := wait }] } }

/-- The values noted for the reads of a window offset. -/
def notedValues (ws : List Watched) (off : Nat) : List Word :=
  match ws.find? fun w => decide (w.off = off) with
  | some w => w.values
  | none => []

/-- A read whose value is drawn when the command has ended; the value as things are stands for it
meanwhile. -/
def drawRead (off : Nat) (draw : Nat) (asIs : Word) (s : State) : State :=
  respond { error := false, data := some asIs }
    { s with
      transit := { s.transit with
        drawn := s.transit.drawn ++
          [{ index := s.resp.length, off := off, draw := draw, live := asIs,
             values := notedValues s.transit.watched off }] } }

/-- A read while busy = 1 (70_reset_and_hazards.md R431, R432): a drawn register or a RAM word draws its
value, everything else reads as it is. -/
def busyRead (addr width draw : Nat) (s : State) : State :=
  match locate s.build addr width with
  | .csr off =>
    if drawnCsrAt off then drawRead off draw (csrReadAt s off) s
    else respond { error := false, data := some (csrReadAt s off) } s
  | .ram _ off => drawRead off draw (hostWord s off) s
  | .refused => respond readError s

/-- A write while busy = 1, other than to CMD (70_reset_and_hazards.md R431, R432): a register is written
at once, a RAM word after the write's draw. -/
def busyWrite (addr width : Nat) (v : Word) (draw : Nat) (s : State) : State :=
  match locate s.build addr width with
  | .csr off => respond writeDone (csrWriteAt s off v)
  | .ram r off =>
    if regionReadOnly r then respond writeError s else respond writeDone (lateWrite off v draw s)
  | .refused => respond writeError s

/-- A bus access while busy = 1, other than a write to CMD. -/
def busyAccess (a : BusAccess) (draw : Nat) (s : State) : State :=
  match a with
  | .read addr width => busyRead addr width draw s
  | .write addr width v => busyWrite addr width v draw s

/-- An input while busy = 1: a command word is rejected with BUSY, whatever it is
(60_exceptions.md R385 check 1); every other access is performed (70_reset_and_hazards.md R431 to R433);
a reset abandons the command (R420). -/
def busyInput (l : Landing) (s : State) : State :=
  match l.input with
  | .rst true => hardReset s
  | .rst false => s
  | .adapter ok => { s with adapterOk := ok }
  | .access a =>
    match commandWord s.build a with
    | some _ => rejectCmd .busy (respond writeDone s)
    | none => busyAccess a l.draw s

/-- The inputs of one point of a running command, in turn. One that ends the command (a reset) leaves
the rest for later. -/
def busyInputs : List Landing → State → State
  | [], s => s
  | l :: rest, s =>
    if (busyInput l s).busy then busyInputs rest (busyInput l s)
    else { busyInput l s with overlap := rest :: (busyInput l s).overlap }

/-! ### The course of a command -/

/-- `busy <- 1`: a command is accepted (10_state.md R43). -/
def acceptCmd (s : State) : State := { watchReads s with busy := true }

/-- A point of a running command: the host writes whose wait is over reach the RAM, the inputs that land
there are performed, then the command goes on with `k`, unless they ended it. With no access in transit
and no input to perform it is `k`. -/
def atPoint (k : State → State) (s : State) : State :=
  match s.overlap with
  | [] => k (tickLate s)
  | now :: later =>
    if (busyInputs now { tickLate s with overlap := later }).busy then
      k (busyInputs now { tickLate s with overlap := later })
    else busyInputs now { tickLate s with overlap := later }

/-- The footprint of a piece that writes no RAM. -/
def noWords (_ : State) (_ : Nat) : Bool := false

/-- The footprint of a piece that writes every word of some regions. -/
def wholeRegions (rs : List Region) (_ : State) (off : Nat) : Bool :=
  (regionOf off).any fun r => decide (r ∈ rs)

/-- The footprint of a piece that stores the words `kvs`. -/
def storedWords (kvs : State → List (Nat × Word)) (s : State) (off : Nat) : Bool :=
  (kvs s).any fun kv => decide (kv.1 = off)

/-- A piece of a command's effect, f, which writes the RAM words that `wrote` says; then a point, and the
rest of the command, k. -/
def piece (f : State → State) (wrote : State → Nat → Bool) (k : State → State) (s : State) : State :=
  atPoint k (noteGiven (wrote s) s (f s))

/-! ### When the command has ended -/

/-- What a drawn read returns (70_reset_and_hazards.md R431, R432): the value as things were when it
landed, the value before the command, or any value the command gave. A RAM word the command did not
write reads as it is. -/
def drawnWord (d : DrawnRead) (asIs : Word) : Word :=
  if d.off < csrPageEnd ∨ 1 < d.values.length then
    (asIs :: d.values).getD (d.draw % (asIs :: d.values).length) asIs
  else asIs

/-- The responses with one drawn read resolved. -/
def resolveRead (resp : List Response) (d : DrawnRead) : List Response :=
  resp.modify d.index fun r => { r with data := r.data.map (drawnWord d) }

/-- The command has ended: its overlapping reads are resolved, and the host writes still waiting reach
their words. -/
def settleTransit (s : State) : State :=
  { s with
    resp := s.transit.drawn.foldl resolveRead s.resp,
    mem := s.mem.setWords (s.transit.late.map fun e => (e.off, e.data)),
    transit := .none }

end Sys2Proof.Machine
end

