-- ==== Sys2Proof/Syntax.lean ====
section
/-! DEFINITION. The commands of RTFF-CORE, one constructor per row of spec/opcode_table.json
(30_encoding.md R160 to R162). -/

namespace Sys2Proof

/-- A command. Its operand is ARG as the unsigned integer of 30_encoding.md R161: the frame count of
WRITE and READ, the block size of SET_BLOCK, and an ignored number for the other four, kept so that no
bit of a command word is lost. -/
inductive Instr where
  | nop (arg : Nat)
  | init (arg : Nat)
  | setBlock (b : Nat)
  | write (n : Nat)
  | read (n : Nat)
  | xdone (arg : Nat)
  | sreset (arg : Nat)
deriving DecidableEq, Repr

namespace Instr

/-- The operand of a command (30_encoding.md R161). -/
def arg : Instr → Nat
  | .nop a => a
  | .init a => a
  | .setBlock b => b
  | .write n => n
  | .read n => n
  | .xdone a => a
  | .sreset a => a

/-- The command with every operand that 30_encoding.md R161 says is ignored set to 0. -/
def withoutIgnored : Instr → Instr
  | .nop _ => .nop 0
  | .init _ => .init 0
  | .setBlock b => .setBlock b
  | .write n => .write n
  | .read n => .read n
  | .xdone _ => .xdone 0
  | .sreset _ => .sreset 0

end Instr

end Sys2Proof
end

