-- ==== Sys2Proof/WellFormed.lean ====
section
/-! DEFINITION. Which commands have a command word (30_encoding.md R161) and which an assembler writes
(30_encoding.md R168). -/

namespace Sys2Proof

namespace Instr

/-- The operand fits ARG: 0 ≤ arg ≤ 2^24 - 1 (30_encoding.md R161). -/
def wellFormed (i : Instr) : Bool := decide (i.arg < 2 ^ 24)

/-- What an assembler accepts (30_encoding.md R168): an operand below 2^24, and none (0) on a form that
takes none. -/
def assembles (i : Instr) : Bool := i.wellFormed && decide (i = i.withoutIgnored)

end Instr

end Sys2Proof
end

