-- ==== Sys2Proof/Decode.lean ====
section
/-! DEFINITION. The decoder of command words and the encoder (30_encoding.md R160 to R168). -/

namespace Sys2Proof

/-- OPC, bits 31:24 of a command word (30_encoding.md R160). -/
def opcField (w : Word) : Nat := (w.extractLsb' 24 8).toNat

/-- ARG, bits 23:0 of a command word, zero-extended (30_encoding.md R161). -/
def argField (w : Word) : Nat := (w.extractLsb' 0 24).toNat

/-- The opcode map of 30_encoding.md R162. `none` is a reserved opcode (R164). Total (R163). -/
def decode (w : Word) : Option Instr :=
  match opcField w with
  | 0 => some (.nop (argField w))
  | 1 => some (.init (argField w))
  | 2 => some (.setBlock (argField w))
  | 3 => some (.write (argField w))
  | 4 => some (.read (argField w))
  | 5 => some (.xdone (argField w))
  | 6 => some (.sreset (argField w))
  | _ => none

/-- The opcode of a command (30_encoding.md R162). -/
def opcode : Instr → Nat
  | .nop _ => 0
  | .init _ => 1
  | .setBlock _ => 2
  | .write _ => 3
  | .read _ => 4
  | .xdone _ => 5
  | .sreset _ => 6

/-- The word of a well-formed command, OPC ++ ARG (30_encoding.md R160, R168). -/
def encode (i : Instr) : Word := BitVec.ofNat 8 (opcode i) ++ BitVec.ofNat 24 i.arg

/-- The command the decoder reads from an opcode-table word. A command is one 32-bit word written to
CMD (30_encoding.md R160), so the word is the number's low `nbits` bits, every bit above them 0. -/
def decodeTableWord (nbits w : Nat) : Option Instr :=
  decode (BitVec.ofNat 32 (w % 2 ^ nbits))

end Sys2Proof
end

