-- ==== Sys2Proof/Machine/Operands.lean ====
section
/-! DEFINITION. The acceptance of a command: the state matrix (30_encoding.md R166), the operand ranges
and the order of the checks (60_exceptions.md R385). -/

namespace Sys2Proof.Machine

/-- The acceptance matrix (30_encoding.md R166). -/
def accepts (q : SeqState) : Instr → Bool
  | .nop _ => true
  | .init _ => decide (q ≠ .xwait)
  | .setBlock _ => decide (q ≠ .xwait)
  | .write _ => decide (q = .ready)
  | .read _ => decide (q = .ready)
  | .xdone _ => decide (q = .xwait)
  | .sreset _ => true

/-- The operand check (60_exceptions.md R385 check 4): COUNT_RANGE for WRITE and READ, BLOCK_RANGE for
SET_BLOCK. n = 0 is in range (44_engine_commands.md R290, R310; DEDUCED, log 9). -/
def operandError (s : State) : Instr → Option CmdErr
  | .setBlock b => if b = 0 ∨ s.build.bMax < b then some .blockRange else none
  | .write n => if s.build.stageFrames < n then some .countRange else none
  | .read n => if s.build.stageFrames < n ∨ s.Cout < n then some .countRange else none
  | .nop _ => none
  | .init _ => none
  | .xdone _ => none
  | .sreset _ => none

/-- Why a decoded command is rejected, the first failing check of 60_exceptions.md R385; `none` when it
is accepted. (Check 2, the reserved opcode, is the decoder's: `rejectReserved`.) -/
def rejection (s : State) (i : Instr) : Option CmdErr :=
  if s.busy then some .busy
  else if accepts s.seq i then operandError s i
  else some .badState

/-- Run a command if it is accepted, else reject it (60_exceptions.md R374, R385). -/
def guarded (i : Instr) (run : State → State) (s : State) : Host.Outcome State Fault Refusal :=
  match rejection s i with
  | some code => .next (rejectCmd code s)
  | none => .next (run s)

/-- A command word with a reserved opcode: BUSY if a command runs, else RESERVED_OPCODE
(30_encoding.md R164; 60_exceptions.md R385 checks 1 and 2). -/
def rejectReserved (s : State) : State :=
  if s.busy then rejectCmd .busy s else rejectCmd .reservedOpcode s

end Sys2Proof.Machine
end

