-- ==== Sys2Proof/Machine/Rings.lean ====
section
/-! DEFINITION. The ring buffers and the ring-buffer multiplexer (41_ring_buffers.md). -/

namespace Sys2Proof.Machine

/-! ### The output rings (RingBuffer) -/

/-- RB_CLEAR(cap) (41_ring_buffers.md R192). -/
def rbClear (cap : Nat) (s : State) : State :=
  { s with act := { s.act with outCap := wordOfNat cap }, outIx := RingIx.zero }

/-- RB_WRITE(src, n) (41_ring_buffers.md R194): append n samples to every output ring. -/
def rbWrite (src : Nat → Nat → Nat → F32) (n : Nat) (s : State) : State :=
  { s with
    ringOut := s.ringOut.setAll
      (sweep s.J s.C n (fun j c f => ringOutKey s.build j c ((s.outIx.wr + f) % s.Cout)) src),
    outIx := { s.outIx with wr := (s.outIx.wr + n) % s.Cout, avail := s.outIx.avail + n } }

/-- RB_INIT_ZEROS(k) (41_ring_buffers.md R193): used by no command; part of the operation set. -/
def rbInitZeros (k : Nat) (s : State) : State := rbWrite (fun _ _ _ => posZero) k s

/-- The samples RB_READ returns: dst[j][c][f] (41_ring_buffers.md R195). -/
def rbSample (s : State) (j c f : Nat) : F32 := s.ringOutAt j c ((s.outIx.rd + f) % s.Cout)

/-- The index change of a successful RB_READ(n) (41_ring_buffers.md R195). -/
def rbAdvance (n : Nat) (s : State) : State :=
  { s with outIx := { s.outIx with rd := (s.outIx.rd + n) % s.Cout, avail := s.outIx.avail - n } }

/-! ### The input rings (OverlapRingBuffer) -/

/-- ORB_WRITE(src, n) (41_ring_buffers.md R197): append n samples to every input ring. -/
def orbWrite (src : Nat → Nat → Nat → F32) (n : Nat) (s : State) : State :=
  { s with
    ringIn := s.ringIn.setAll
      (sweep s.I s.C n (fun t c f => ringInKey s.build t c ((s.inIx.wr + f) % s.Cin)) src),
    inIx := { s.inIx with wr := (s.inIx.wr + n) % s.Cin, avail := s.inIx.avail + n } }

/-- Sample i of the window ORB_READ reads (41_ring_buffers.md R198). -/
def orbSample (s : State) (t c i : Nat) : F32 := s.ringInAt t c ((s.inIx.rd + i) % s.Cin)

/-- A successful ORB_READ (41_ring_buffers.md R198): one window of N samples into the time blocks, and
an advance by hop. The draws of the frame are fresh (log 4). -/
def orbRead (s : State) : State :=
  { s with
    tb := s.tb.setAll (sweep s.I s.C s.N (blockKey s.build) (orbSample s)),
    inIx := { s.inIx with rd := (s.inIx.rd + s.hop) % s.Cin, avail := s.inIx.avail - s.hop },
    draws := s.draws + 1 }

/-- The padding of ORB_CLEAR_AND_PAD: N - B zeros, none when B ≥ N (41_ring_buffers.md R200). -/
def padding (N B : Nat) : Nat := N - B

/-- The first line of ORB_CLEAR_AND_PAD(): the new capacity, no sample (41_ring_buffers.md R200). -/
def orbClear (s : State) : State :=
  { s with act := { s.act with inCap := wordOfNat (s.N + s.B) }, inIx := RingIx.zero }

/-- The rest of ORB_CLEAR_AND_PAD(): the padding (41_ring_buffers.md R200). -/
def orbPad (s : State) : State :=
  { s with
    ringIn := s.ringIn.setAll
      (sweep s.I s.C (padding s.N s.B) (ringInKey s.build) (fun _ _ _ => posZero)),
    inIx := { rd := 0, wr := padding s.N s.B, avail := padding s.N s.B } }

/-- ORB_CLEAR_AND_PAD() (41_ring_buffers.md R200). -/
def orbClearAndPad (s : State) : State := orbPad (orbClear s)

/-! ### The rebuild shared by INIT and SET_BLOCK -/

/-- LATENCY_OF(N, hop, B) (44_engine_commands.md R315). -/
def latencyOf (N hop B : Nat) : Nat :=
  if hop % B = 0 then N - B else if B < N then N else B

/-- The output ring capacity max(8B, 2 hop) (41_ring_buffers.md R191). -/
def outCapacity (B hop : Nat) : Nat := max (8 * B) (2 * hop)

/-- `csr.LATENCY <- LATENCY_OF(N, hop, B)` (44_engine_commands.md R283). -/
def setLatency (s : State) : State :=
  { s with act := { s.act with latency := wordOfNat (latencyOf s.N s.hop s.B) } }

/-- RING_REBUILD once the input rings are cleared (44_engine_commands.md R283). -/
def finishRebuild (s : State) : State := setLatency (rbClear (outCapacity s.B s.hop) (orbPad s))

/-- RING_REBUILD (44_engine_commands.md R283), with the active N, hop and B. -/
def ringRebuild (s : State) : State := finishRebuild (orbClear s)

end Sys2Proof.Machine
end

