-- ==== Sys2Proof/Machine/Control.lean ====
section
/-! DEFINITION. NOP, SRESET and SET_BLOCK (44_engine_commands.md R286 to R288, R318, R319). -/

namespace Sys2Proof.Machine

/-- NOP after acceptance (44_engine_commands.md R318). -/
def runNop (s : State) : State := atPoint completeCmd (acceptCmd s)

/-- NOP (44_engine_commands.md R318). -/
def execNop (arg : Nat) (s : State) : Host.Outcome State Fault Refusal := guarded (.nop arg) runNop s

/-- SRESET until `busy <- 0` (44_engine_commands.md R319): a paused frame is abandoned
(45_transform.md R347) and the state is UNINIT. -/
def abandonFrame (s : State) : State := { s with frameCtx := false, seq := .uninit }

/-- What SRESET clears with `busy <- 0` (44_engine_commands.md R319): every status field, sticky bit, active
register, counter and index; CFG_*, INT_ENABLE, every RAM region, the tails and the ring storage are kept
(70_reset_and_hazards.md R423). -/
def softReset (s : State) : State :=
  { s with
    underflow := false, initResult := .none, faultCode := .none, cmdErr := .none,
    sticky := Sticky.zero, act := ActRegs.zero, frameCount := 0#32, lastFrames := 0#32,
    inIx := RingIx.zero, outIx := RingIx.zero }

/-- `busy <- 0` and the rest of SRESET (44_engine_commands.md R319): all of it is visible as soon as busy is
0 (20_memory.md R138), and none of it before. -/
def finishSreset (s : State) : State := completeCmd (softReset s)

/-- SRESET after acceptance (44_engine_commands.md R319). -/
def runSreset (s : State) : State := atPoint (piece abandonFrame noWords finishSreset) (acceptCmd s)

/-- SRESET (44_engine_commands.md R319). -/
def execSreset (arg : Nat) (s : State) : Host.Outcome State Fault Refusal :=
  guarded (.sreset arg) runSreset s

/-- SET_BLOCK_ACTIVE(B) until the input rings are cleared (44_engine_commands.md R287). -/
def beginSetBlock (b : Nat) (s : State) : State :=
  orbClear { s with act := { s.act with block := wordOfNat b } }

/-- The rest of SET_BLOCK_ACTIVE(B) (44_engine_commands.md R287). -/
def finishSetBlock (s : State) : State := { finishRebuild s with underflow := false }

/-- SET_BLOCK_ACTIVE(B) (44_engine_commands.md R287). -/
def setBlockActive (b : Nat) (s : State) : State := finishSetBlock (beginSetBlock b s)

/-- `CFG_BLOCK <- B` (44_engine_commands.md R286). -/
def setCfgBlock (b : Nat) (s : State) : State := { s with cfg := { s.cfg with block := wordOfNat b } }

/-- SET_BLOCK once CFG_BLOCK is written (44_engine_commands.md R286): outside READY nothing more. -/
def setBlockRings (b : Nat) (s : State) : State :=
  if s.seq = .ready then piece (beginSetBlock b) noWords (piece finishSetBlock noWords completeCmd) s
  else completeCmd s

/-- SET_BLOCK after acceptance (44_engine_commands.md R286). -/
def runSetBlock (b : Nat) (s : State) : State :=
  atPoint (piece (setCfgBlock b) noWords (setBlockRings b)) (acceptCmd s)

/-- SET_BLOCK B (44_engine_commands.md R286). -/
def execSetBlock (b : Nat) (s : State) : Host.Outcome State Fault Refusal :=
  guarded (.setBlock b) (runSetBlock b) s

end Sys2Proof.Machine
end

