-- ==== Sys2Proof/Machine/Float.lean ====
section
/-! DEFINITION. IEEE 754 binary32 arithmetic (00_scope.md R16, R17): every operation is computed exactly
on integers and rounded once, to nearest, ties to even. Subnormals are kept; no flags exist. The caller
supplies the NaN draw of the operation (log 4). -/

namespace Sys2Proof.Machine

/-- Bit 31, the sign (00_scope.md R16). -/
def f32Neg (w : F32) : Bool := w.getLsbD 31

/-- Bits 30:23, the biased exponent (00_scope.md R16). -/
def f32Exp (w : F32) : Nat := (w.extractLsb' 23 8).toNat

/-- Bits 22:0, the fraction (00_scope.md R16). -/
def f32Frac (w : F32) : Nat := (w.extractLsb' 0 23).toNat

def f32IsNan (w : F32) : Bool := decide (f32Exp w = 255) && decide (f32Frac w ≠ 0)

def f32IsInf (w : F32) : Bool := decide (f32Exp w = 255) && decide (f32Frac w = 0)

def f32IsZero (w : F32) : Bool := decide (f32Exp w = 0) && decide (f32Frac w = 0)

/-- The integer significand of a finite word: its value is ±significand · 2^scale. -/
def f32Significand (w : F32) : Nat := if f32Exp w = 0 then f32Frac w else f32Frac w + 2 ^ 23

/-- The scale of a finite word; subnormals share the scale of exponent 1. -/
def f32Scale (w : F32) : Int := (max (f32Exp w) 1 : Nat) - 150

/-- The signed significand of a finite word. -/
def f32Signed (w : F32) : Int := if f32Neg w then -(f32Significand w : Int) else f32Significand w

/-- The word with the given sign bit and bits 30:0. -/
def f32Word (neg : Bool) (magnitude : Nat) : F32 :=
  BitVec.ofNat 32 (magnitude + if neg then 2 ^ 31 else 0)

/-- Bits 30:0 of an infinity. -/
def f32InfMagnitude : Nat := 0x7F800000

/-- `m / 2^k` rounded to nearest, ties to even. -/
def roundShift (m k : Nat) : Nat :=
  let q := m / 2 ^ k
  let r := m % 2 ^ k
  let half := 2 ^ (k - 1)
  if k = 0 then m
  else if half < r then q + 1
  else if r = half ∧ q % 2 = 1 then q + 1
  else q

/-- The float32 nearest to ±m · 2^e, ties to even (00_scope.md R16). The unit of the last place is
2^-149 for subnormals; a rounded magnitude beyond the largest finite one is an infinity. -/
def roundF32 (neg : Bool) (m : Nat) (e : Int) : F32 :=
  if m = 0 then f32Word neg 0
  else
    let ulp : Int := max ((Nat.log2 m : Int) + e - 23) (-149)
    let q := if ulp ≤ e then m * 2 ^ (e - ulp).toNat else roundShift m (ulp - e).toNat
    f32Word neg (min ((ulp + 149).toNat * 2 ^ 23 + q) f32InfMagnitude)

/-- The quiet NaN a draw stands for (00_scope.md R17): exponent all ones and the top fraction bit set;
sign and payload are the draw's. -/
def quietNan (draw : Word) : F32 := draw ||| 0x7FC00000#32

/-- `fadd(a, b)` (00_scope.md R16); `nan` is the operation's draw (R17). -/
def fadd (nan : Word) (a b : F32) : F32 :=
  if f32IsNan a || f32IsNan b then quietNan nan
  else if f32IsInf a then
    if f32IsInf b && (f32Neg a != f32Neg b) then quietNan nan else a
  else if f32IsInf b then b
  else
    let e := min (f32Scale a) (f32Scale b)
    let sum : Int :=
      f32Signed a * 2 ^ (f32Scale a - e).toNat + f32Signed b * 2 ^ (f32Scale b - e).toNat
    if sum = 0 then f32Word (f32Neg a && f32Neg b) 0
    else roundF32 (decide (sum < 0)) sum.natAbs e

/-- `fmul(a, b)` (00_scope.md R16); `nan` is the operation's draw (R17). -/
def fmul (nan : Word) (a b : F32) : F32 :=
  let neg := f32Neg a != f32Neg b
  if f32IsNan a || f32IsNan b then quietNan nan
  else if f32IsInf a || f32IsInf b then
    if f32IsZero a || f32IsZero b then quietNan nan else f32Word neg f32InfMagnitude
  else roundF32 neg (f32Significand a * f32Significand b) (f32Scale a + f32Scale b)

/-- Fraction bits of a quotient before it is rounded: enough that the last one, which also stands for
the remainder, lies below the rounding position. -/
def quotientBits : Nat := 52

/-- `fdiv(a, b)` (00_scope.md R16); `nan` is the operation's draw (R17). -/
def fdiv (nan : Word) (a b : F32) : F32 :=
  let neg := f32Neg a != f32Neg b
  if f32IsNan a || f32IsNan b then quietNan nan
  else if f32IsInf a then
    if f32IsInf b then quietNan nan else f32Word neg f32InfMagnitude
  else if f32IsInf b then f32Word neg 0
  else if f32IsZero b then
    if f32IsZero a then quietNan nan else f32Word neg f32InfMagnitude
  else
    let n := f32Significand a * 2 ^ quotientBits
    let d := f32Significand b
    roundF32 neg (2 * (n / d) + if n % d = 0 then 0 else 1)
      (f32Scale a - f32Scale b - quotientBits - 1)

/-- Bits 30:0 with the sign, as an integer whose order is the IEEE order of the words that are no NaN. -/
def f32Order (w : F32) : Int :=
  let m : Int := (w.extractLsb' 0 31).toNat
  if f32Neg w then -m else m

/-- `fgt(a, b)`: the ordered comparison a > b, false if either is NaN (00_scope.md R16). -/
def fgt (a b : F32) : Bool :=
  !f32IsNan a && !f32IsNan b && decide (f32Order b < f32Order a)

end Sys2Proof.Machine
end

