-- ==== Sys2Proof/Machine/Window.lean ====
section
/-! DEFINITION. The windowing and COLA normalisation pipeline (42_window_cola.md). -/

namespace Sys2Proof.Machine

/-- Write a whole table: entries [0, len) and `+0.0` after them (42_window_cola.md R222, R223, R225). -/
def writeTable (r : Region) (len : Nat) (val : Nat → F32) (s : State) : State :=
  { s with mem := (s.mem.zeroRegion r).setWords ((List.range len).map fun n => (tableOff r n, val n)) }

/-- How many terms the COLA sum of phase i has (42_window_cola.md R223). -/
def colaTerms (N hop i : Nat) : Nat := (N - i + hop - 1) / hop

/-- The COLA sum of phase i of the windows a and b, k increasing from `+0.0`, each product and each sum
rounded once, with the draws of their NaN results (42_window_cola.md R223). -/
def colaSum (mulNan addNan : Nat → Word) (a b : Nat → F32) (N hop i : Nat) : F32 :=
  (List.range (colaTerms N hop i)).foldl
    (fun acc k => fadd (addNan k) acc (fmul (mulNan k) (a (i + k * hop)) (b (i + k * hop))))
    posZero

/-- The check of 42_window_cola.md R224 passes with w as both windows, for every overlap O < N. A NaN fails
it whatever its draw. -/
def windowPasses (w : Nat → F32) (N : Nat) : Bool :=
  (List.range N).all fun O => (List.range (N - O)).all fun i =>
    fgt (colaSum (fun _ => 0#32) (fun _ => 0#32) w w N (N - O) i) Config.eps

/-- 1.0. -/
def f32One : F32 := 0x3F800000#32

/-- HAMMING(N, n) (42_window_cola.md R220): a free table with the two properties R220 lets a model assume.
It is symmetric, and the COLA check passes with it for every overlap: of the free symmetric tables,
those that fail the check are none R220 admits, and 1.0 stands for their entries (log 8). -/
def hamming (N n : Nat) : F32 :=
  if windowPasses (Config.symmetricTable N) N then Config.symmetricTable N n else f32One

/-- Entry n of the window table that a window type gives: HAMMING (42_window_cola.md R220), or the word
of the window-source RAM for USER (R221). -/
def windowEntry (s : State) (window : BitVec 8) (source : Region) (N n : Nat) : F32 :=
  if window = 0#8 then hamming N n else s.wordAt (tableOff source n)

/-- WIN_HAMMING or WIN_USER with the unused entries zeroed (42_window_cola.md R220 to R222). -/
def buildWindows (window : BitVec 8) (N : Nat) (s : State) : State :=
  writeTable .actS N (windowEntry s window .wsrcS N) (writeTable .actA N (windowEntry s window .wsrcA N) s)

/-- The COLA entry of phase i (42_window_cola.md R223). -/
def colaEntry (s : State) (N hop i : Nat) : F32 :=
  colaSum (fun k => s.nan (.colaMul i k)) (fun k => s.nan (.colaAdd i k))
    (fun n => s.wordAt (tableOff .actA n)) (fun n => s.wordAt (tableOff .actS n)) N hop i

/-- COLA_BUILD (42_window_cola.md R223). -/
def buildCola (N hop : Nat) (s : State) : State := writeTable .cola hop (colaEntry s N hop) s

/-- COLA_VALIDATE passes: every entry is > EPS (42_window_cola.md R224). -/
def colaValid (hop : Nat) (s : State) : Bool :=
  (List.range hop).all fun i => fgt (s.wordAt (tableOff .cola i)) Config.eps

/-- One entry of the effective synthesis window (42_window_cola.md R225). -/
def effsynEntry (s : State) (hop i : Nat) : F32 :=
  fdiv (s.nan (.effsyn i)) (s.wordAt (tableOff .actS i)) (s.wordAt (tableOff .cola (i % hop)))

/-- EFFSYN_BUILD (42_window_cola.md R225). -/
def buildEffsyn (N hop : Nat) (s : State) : State := writeTable .effsyn N (effsynEntry s hop) s

end Sys2Proof.Machine
end

