-- ==== Sys2Proof/Machine/Init.lean ====
section
/-! DEFINITION. INIT (44_engine_commands.md R280 to R285). -/

namespace Sys2Proof.Machine

/-- hop = N - O of a configuration. -/
def cfgHop (q : CfgRegs) : Nat := q.fftSize.toNat - q.overlap.toNat

/-- `valid`: conditions (a) to (h) of 44_engine_commands.md R282 step 2. -/
def configValid (b : Build) (q : CfgRegs) : Bool :=
  decide (q.channels ≠ 0#8) &&
  b.supports q.fftSize.toNat &&
  decide (q.overlap.toNat < q.fftSize.toNat) &&
  (decide (1 ≤ q.block.toNat) && decide (q.block.toNat ≤ b.bMax)) &&
  (decide (1 ≤ streamsIn q.streams) && decide (streamsIn q.streams ≤ b.inMax) &&
    decide (1 ≤ streamsOut q.streams) && decide (streamsOut q.streams ≤ b.outMax)) &&
  decide (q.window = 0#8 ∨ q.window = 1#8) &&
  decide (streamsMode q.streams ≠ .reserved) &&
  decide (streamsMode q.streams = .inplace → streamsIn q.streams = 1 ∧ streamsOut q.streams = 1)

/-- INIT_FAIL(code) but for its completion (44_engine_commands.md R285). -/
def initFailed (code : InitResult) (s : State) : State :=
  { s with
    seq := .uninit, act := ActRegs.zero, inIx := RingIx.zero, outIx := RingIx.zero,
    frameCount := 0#32, lastFrames := 0#32, underflow := false, faultCode := .none,
    initResult := code }

/-- The completion of a failed INIT: INITERR and DONE (44_engine_commands.md R285). -/
def completeFailed (s : State) : State :=
  completeCmd { s with sticky := { s.sticky with initErr := true } }

/-- INIT_FAIL(code) (44_engine_commands.md R285). -/
def failInit (code : InitResult) (s : State) : State := piece (initFailed code) noWords completeFailed s

/-- The active configuration INIT_COMMIT latches; RING_REBUILD gives LATENCY, IN_CAP and OUT_CAP their
values (44_engine_commands.md R284). -/
def latchedConfig (q : CfgRegs) (a : ActRegs) : ActRegs :=
  { a with
    fftSize := q.fftSize, windowSize := q.fftSize, overlap := q.overlap, hop := wordOfNat (cfgHop q),
    block := q.block, channels := q.channels, window := q.window, streams := q.streams,
    spectrumSize := wordOfNat (q.fftSize.toNat / 2 + 1) }

/-- The rest of INIT_COMMIT's effect: tails and spectra `+0.0`, counters and status
(44_engine_commands.md R284). -/
def initClear (s : State) : State :=
  { s with
    tail := .filled posZero, mem := (s.mem.zeroRegion .specIn).zeroRegion .specOut,
    frameCount := 0#32, lastFrames := 0#32, underflow := false, faultCode := .none,
    initResult := .ok, seq := .ready }

/-- INIT_COMMIT until the input rings are cleared (44_engine_commands.md R284). -/
def beginCommit (q : CfgRegs) (s : State) : State := orbClear { s with act := latchedConfig q s.act }

/-- The rest of INIT_COMMIT's effect (44_engine_commands.md R284). -/
def finishCommit (s : State) : State := initClear (finishRebuild s)

/-- INIT_COMMIT but for its completion (44_engine_commands.md R284). -/
def initCommit (q : CfgRegs) (s : State) : State := finishCommit (beginCommit q s)

/-- Step 4 of INIT: the window tables and COLA, with fresh draws (44_engine_commands.md R282). -/
def buildTables (q : CfgRegs) (s : State) : State :=
  buildCola q.fftSize.toNat (cfgHop q) (buildWindows q.window q.fftSize.toNat (freshDraws s))

/-- Step 6 and INIT_COMMIT (44_engine_commands.md R280). -/
def initFinish (q : CfgRegs) (s : State) : State :=
  piece (buildEffsyn q.fftSize.toNat (cfgHop q)) (wholeRegions [.effsyn])
    (piece (beginCommit q) noWords
      (piece finishCommit (wholeRegions [.specIn, .specOut]) completeCmd)) s

/-- Step 5 (44_engine_commands.md R280). -/
def initValidate (q : CfgRegs) (s : State) : State :=
  if colaValid (cfgHop q) s then initFinish q s else failInit .windowInvalid s

/-- Steps 2 to 4 (44_engine_commands.md R280, R281): the first failing step decides the error. -/
def initChecked (q : CfgRegs) (s : State) : State :=
  if !configValid s.build q then failInit .configInvalid s
  else if !s.adapterOk then failInit .fftInitFailed s
  else piece (buildTables q) (wholeRegions [.actA, .actS, .cola]) (initValidate q) s

/-- INIT after acceptance: CFG_* are sampled at acceptance (44_engine_commands.md R282 step 1). -/
def runInit (s : State) : State := atPoint (initChecked s.cfg) (acceptCmd s)

/-- INIT (44_engine_commands.md R280). -/
def execInit (arg : Nat) (s : State) : Host.Outcome State Fault Refusal := guarded (.init arg) runInit s

end Sys2Proof.Machine
end

