-- ==== Sys2Proof/Machine/Analyzer.lean ====
section
/-! DEFINITION. The STFT analyzer and synthesizer with overlap-add (43_fft_analyzer.md) and the block's own
transform step (45_transform.md R340, R342). -/

namespace Sys2Proof.Machine

/-- The windowed time block w of ANALYZE (43_fft_analyzer.md R256). -/
def windowed (s : State) (t c : Nat) : List F32 :=
  (List.range s.N).map fun i =>
    fmul (s.nan (.analyze t c i)) (s.tbAt t c i) (s.wordAt (tableOff .actA i))

/-- Bin k that ANALYZE gives for stream t, channel c (43_fft_analyzer.md R256). -/
def analyzedBin (s : State) (t c k : Nat) : C32 := Config.fftFwd s.N (windowed s t c) k

/-- The words of bins [0, n) of (t, c) for t < a, c < b in a spectrum RAM, re then im
(20_memory.md R124). -/
def specSweep (bd : Build) (r : Region) (a b n : Nat) (bin : Nat → Nat → Nat → C32) :
    List (Nat × Word) :=
  (pairs a b).flatMap fun p => (List.range n).flatMap fun k =>
    [(specOff bd r p.1 p.2 k, (bin p.1 p.2 k).re), (specOff bd r p.1 p.2 k + 4, (bin p.1 p.2 k).im)]

/-- The words ANALYZE stores (43_fft_analyzer.md R256). -/
def analysisWords (s : State) : List (Nat × Word) :=
  specSweep s.build .specIn s.I s.C s.K (analyzedBin s)

/-- ANALYZE(s) for every input stream (43_fft_analyzer.md R256; 44_engine_commands.md R299). -/
def analyzeAll (s : State) : State := { s with mem := s.mem.setWords (analysisWords s) }

/-- The words the block's own transform step stores: SPEC_OUT[0][c][k] <- SPEC_IN[0][c][k], bit-exact
(45_transform.md R340, R342). -/
def copyWords (s : State) : List (Nat × Word) :=
  specSweep s.build .specOut 1 s.C s.K fun _ c k => s.c32At (specOff s.build .specIn 0 c k)

/-- The block's own transform step (45_transform.md R340, R342). -/
def identityCopy (s : State) : State := { s with mem := s.mem.setWords (copyWords s) }

/-- Sample i of the inverse transform of output stream j, channel c: step 1 of SYNTHESIZE
(43_fft_analyzer.md R257). -/
def inverseSample (s : State) (j c i : Nat) : F32 :=
  Config.fftBwd s.N ((List.range s.K).map fun k => s.c32At (specOff s.build .specOut j c k)) i

/-- The base term of step 2: the stored tail, then zeros (43_fft_analyzer.md R257, R259). -/
def synthBase (s : State) (j c i : Nat) : F32 := if i < s.N - s.hop then s.tailAt j c i else posZero

/-- Step 1 of SYNTHESIZE(j) for every output stream (43_fft_analyzer.md R257): the inverse transforms y. -/
def inverseAll (s : State) : State :=
  { s with y := s.y.setAll (sweep s.J s.C s.N (blockKey s.build) (inverseSample s)) }

/-- Entry i of the overlap-add result: steps 2 and 3 (43_fft_analyzer.md R257, R258). -/
def synthResult (s : State) (j c i : Nat) : F32 :=
  fadd (s.nan (.synthAdd j c i)) (synthBase s j c i)
    (fmul (s.nan (.synthMul j c i)) (s.yAt j c i) (s.wordAt (tableOff .effsyn i)))

/-- Steps 2 and 3 of SYNTHESIZE(j) for every output stream: res (43_fft_analyzer.md R257). -/
def overlapAddAll (s : State) : State :=
  { s with res := s.res.setAll (sweep s.J s.C s.N (blockKey s.build) (synthResult s)) }

/-- Step 5 of SYNTHESIZE(j) for every output stream: res[hop..N) is the new tail
(43_fft_analyzer.md R257, R261). -/
def storeTails (s : State) : State :=
  { s with
    tail := s.tail.setAll
      (sweep s.J s.C (s.N - s.hop) (blockKey s.build) fun j c i => s.resAt j c (s.hop + i)) }

/-- SYNTHESIZE(j) for every output stream but for the emission (43_fft_analyzer.md R257 to R261). -/
def synthesizeAll (s : State) : State := storeTails (overlapAddAll (inverseAll s))

/-- The emission of a frame: the first hop entries of res go to the output rings
(43_fft_analyzer.md R260, R263). -/
def emitHop (s : State) : State := rbWrite s.resAt s.hop s

/-- FRAME_COUNT and LAST_FRAMES (44_engine_commands.md R306). -/
def countFrame (s : State) : State :=
  { s with frameCount := s.frameCount + 1#32, lastFrames := s.lastFrames + 1#32 }

/-- FRAME_TAIL (44_engine_commands.md R295, R305, R306). -/
def frameTail (s : State) : State := countFrame (emitHop (synthesizeAll s))

/-- The head of a frame: ORB_READ and ANALYZE (44_engine_commands.md R298, R299). -/
def frameHead (s : State) : State := analyzeAll (orbRead s)

end Sys2Proof.Machine
end

