-- ==== Sys2Proof/Machine/Stream.lean ====
section
/-! DEFINITION. WRITE and its frame loop, READ (44_engine_commands.md R290 to R314), the transform step and
XDONE (45_transform.md R340 to R347). -/

namespace Sys2Proof.Machine

/-- XWAIT_ENTER but for `busy <- 0` (45_transform.md R343). -/
def saveFrame (s : State) : State := { s with frameCtx := true, seq := .xwait }

/-- XWAIT_ENTER (45_transform.md R343). -/
def xwaitEnter (s : State) : State := releaseBusy (saveFrame s)

/-- A WRITE pauses in its transform step (45_transform.md R343). Once the state is XWAIT every access sees
all effects of the command (20_memory.md R138, R139): what overlapped it is settled before the point. -/
def pauseFrame (s : State) : State :=
  atPoint releaseBusy (settleTransit (noteGiven (noWords s) s (saveFrame s)))

/-- A WRITE ends in a fault (60_exceptions.md R376). -/
def faultFrame (code : FaultCode) (s : State) : State := piece (enterFault code) noWords releaseBusy s

/-- The head of a frame, ORB_READ and ANALYZE, then k (44_engine_commands.md R298, R299). -/
def headPieces (k : State → State) (s : State) : State :=
  piece orbRead noWords (piece analyzeAll (storedWords analysisWords) k) s

/-- The block's own transform step, then k (45_transform.md R340, R342). -/
def copyPiece (k : State → State) (s : State) : State := piece identityCopy (storedWords copyWords) k s

/-- FRAME_LOOP (44_engine_commands.md R295 to R301), with fuel: a loop of at least one sample of hop ends
within in_avail + 1 rounds. Out of fuel (hop = 0 only, which no INIT admits) the command is still
running (log 11). -/
def frameLoop : (fuel : Nat) → State → State
  | 0, s => s
  | fuel + 1, s =>
    if s.inIx.avail < s.N then completeCmd s
    else if s.Cout < s.outIx.avail + s.hop then faultFrame .outOverflow s
    else
      match s.tmode with
      | .identity =>
        headPieces (copyPiece (piece frameTail noWords fun s => frameLoop fuel s)) s
      | .external => headPieces pauseFrame s
      | .inplace => headPieces (copyPiece pauseFrame) s
      | .reserved => headPieces pauseFrame s

/-- The frame loop with fuel enough for the samples held. -/
def runFrames (s : State) : State := frameLoop (s.inIx.avail + 1) s

/-- FRAME_TAIL and the rest of the loop (44_engine_commands.md R295). -/
def resumeFrames (s : State) : State := piece frameTail noWords runFrames s

/-- STAGE_IN[t][c][f] (20_memory.md R125). -/
def stageInAt (s : State) (t c f : Nat) : F32 := s.wordAt (stageOff s.build .stageIn t c f)

/-- ORB_WRITE(STAGE_IN, n) (44_engine_commands.md R292). -/
def appendStaged (n : Nat) (s : State) : State := orbWrite (stageInAt s) n s

/-- `LAST_FRAMES <- 0` (44_engine_commands.md R293). -/
def startCount (s : State) : State := { s with lastFrames := 0#32 }

/-- WRITE after `LAST_FRAMES <- 0` (44_engine_commands.md R290 to R292). -/
def writeFrames (n : Nat) (s : State) : State :=
  if s.Cin < s.inIx.avail + n then faultFrame .inOverflow s
  else piece (appendStaged n) noWords runFrames s

/-- WRITE after acceptance (44_engine_commands.md R290, R293). -/
def runWrite (n : Nat) (s : State) : State :=
  atPoint (piece startCount noWords (writeFrames n)) (acceptCmd s)

/-- WRITE n (44_engine_commands.md R290). -/
def execWrite (n : Nat) (s : State) : Host.Outcome State Fault Refusal :=
  guarded (.write n) (runWrite n) s

/-- The words of STAGE_OUT[j][c][0..n) <- val, for the active streams and channels
(44_engine_commands.md R311). -/
def stageWords (n : Nat) (val : Nat → Nat → Nat → F32) (s : State) : List (Nat × Word) :=
  sweep s.J s.C n (stageOff s.build .stageOut) val

/-- STAGE_OUT[j][c][0..n) <- val (44_engine_commands.md R311). -/
def stageOutput (n : Nat) (val : Nat → Nat → Nat → F32) (s : State) : State :=
  { s with mem := s.mem.setWords (stageWords n val s) }

/-- READ's effect (44_engine_commands.md R311): all or nothing; n zeros on underflow. -/
def readEffect (n : Nat) (s : State) : State :=
  if s.outIx.avail < n then
    { stageOutput n (fun _ _ _ => posZero) s with
      underflow := true, sticky := { s.sticky with underflow := true } }
  else { stageOutput n (rbSample s) (rbAdvance n s) with underflow := false }

/-- What READ's effect gives a value: the words of STAGE_OUT it stores and, on underflow, INT_PENDING, also
where UNDERFLOW was 1 (44_engine_commands.md R311). -/
def readGives (n : Nat) (s : State) (off : Nat) : Bool :=
  storedWords (stageWords n fun _ _ _ => posZero) s off ||
    (decide (s.outIx.avail < n) && decide (csrAt off = some .intPending))

/-- READ after acceptance (44_engine_commands.md R311). -/
def runRead (n : Nat) (s : State) : State :=
  atPoint (piece (readEffect n) (readGives n) completeCmd) (acceptCmd s)

/-- READ n (44_engine_commands.md R310). -/
def execRead (n : Nat) (s : State) : Host.Outcome State Fault Refusal := guarded (.read n) (runRead n) s

/-- `state <- READY ; busy <- 1`, the frame context restored (45_transform.md R345). -/
def leaveXwait (s : State) : State := { s with seq := .ready, busy := true, frameCtx := false }

/-- XDONE after acceptance (45_transform.md R345). -/
def runXdone (s : State) : State := piece leaveXwait noWords resumeFrames (watchReads s)

/-- XDONE (45_transform.md R345). -/
def execXdone (arg : Nat) (s : State) : Host.Outcome State Fault Refusal :=
  guarded (.xdone arg) runXdone s

end Sys2Proof.Machine
end

