-- ==== Sys2Proof/Machine/Dispatch.lean ====
section
/-! DEFINITION. The meaning of every command (spec/opcode_table.json), one arm each. -/

namespace Sys2Proof.Machine

def exec (i : Instr) (s : State) : Host.Outcome State Fault Refusal :=
  match i with
  | .nop arg => Sys2Proof.Machine.execNop arg s
  | .init arg => Sys2Proof.Machine.execInit arg s
  | .setBlock b => Sys2Proof.Machine.execSetBlock b s
  | .write n => Sys2Proof.Machine.execWrite n s
  | .read n => Sys2Proof.Machine.execRead n s
  | .xdone arg => Sys2Proof.Machine.execXdone arg s
  | .sreset arg => Sys2Proof.Machine.execSreset arg s

end Sys2Proof.Machine
end

