-- ==== Sys2Proof/Machine/Port.lean ====
section
/-! DEFINITION. The slave port: an arrival is taken, a write to CMD submits a command, everything else is
a plain access (20_memory.md R137; 30_encoding.md R160; 70_reset_and_hazards.md R420; log 1). -/

namespace Sys2Proof.Machine

/-- Submit a command word (30_encoding.md R160, R163, R164): decode it and execute the command, or reject
a reserved opcode. -/
def submit (w : Word) (s : State) : Host.Outcome State Fault Refusal :=
  match decode w with
  | some i => exec i s
  | none => .next (rejectReserved s)

/-- The command has ended: its overlapping accesses are settled, and the inputs that were to land during
it but found it ended become the next arrivals, in their order (log 2). -/
def requeue (s : State) : State :=
  { settleTransit s with
    overlap := [],
    port := s.overlap.flatten.map (fun l => { input := l.input, during := [] }) ++ s.port }

/-- `requeue` on the state of a next outcome. -/
def settled (o : Host.Outcome State Fault Refusal) : Host.Outcome State Fault Refusal :=
  match o with
  | .next s => .next (requeue s)
  | .fault f => .fault f
  | .refused r => .refused r

/-- A new level of `rst` (70_reset_and_hazards.md R420). -/
def setRst (level : Bool) (s : State) : State :=
  if level then hardReset s else { s with rst := false }

/-- Perform an arrival's input on an idle block. While `rst` is asserted the block ignores bus accesses
and gives no response (70_reset_and_hazards.md R420). -/
def performInput (i : Input) (s : State) : Host.Outcome State Fault Refusal :=
  match i with
  | .rst level => .next (setRst level s)
  | .adapter ok => .next { s with adapterOk := ok }
  | .access a =>
    if s.rst then .next s
    else
      match commandWord s.build a with
      | some w => submit w (respond writeDone s)
      | none => .next (performAccess a s)

/-- Take an arrival off the port: the responses of the last step are gone, no access is in transit, and
`during` is what will land while it runs. -/
def takeArrival (a : Arrival) (rest : List Arrival) (s : State) : State :=
  { s with port := rest, overlap := a.during, transit := .none, resp := [] }

/-- One step: the first arrival is performed; with none the block is idle (60_exceptions.md R393). -/
def serve (s : State) : Host.Outcome State Fault Refusal :=
  match s.port with
  | [] => .next { s with resp := [] }
  | a :: rest => settled (performInput a.input (takeArrival a rest s))

/-- The bus address of CMD (10_state.md R44, R59). -/
def cmdAddress (b : Build) : Nat := b.base + cmdOffset

/-- The arrival that submits a command word, no other input overlapping it. -/
def commandArrival (b : Build) (w : Word) : Arrival :=
  { input := .access (.write (cmdAddress b) 32 w), during := [] }

end Sys2Proof.Machine
end

