-- ==== Sys2Proof/Machine/Step.lean ====
section
/-! DEFINITION. One step of the machine, and how a command word is placed where step takes its next
command from. -/

namespace Sys2Proof.Machine

/-- One step: the port's next arrival (Machine/Port.lean). -/
def step (s : State) : Host.Outcome State Fault Refusal := serve s

/-- The command word placed as the port's next arrival, `rst` deasserted: the very next step submits
exactly it (log 1). -/
def State.withFetchWord (s : State) (nbits w : Nat) : State :=
  { s with
    rst := false, port := commandArrival s.build (BitVec.ofNat 32 (w % 2 ^ nbits)) :: s.port }

end Sys2Proof.Machine
end

