-- ==== Sys2Proof/Safety.lean ====
section
/-! DEFINITION. The terms the statements use: when the block can take a command undisturbed, what holds
of every state between two steps, the logical view of the rings, and a transform agent that leaves every
frame as it finds it. -/

namespace Sys2Proof.Machine

/-- No command runs, no input is going to land while the next one does, and no access is in transit. -/
abbrev Quiet (s : State) : Prop := s.busy = false ∧ s.overlap = [] ∧ s.transit = .none

/-- The active configuration is one a successful INIT or SET_BLOCK leaves (00_scope.md R20;
44_engine_commands.md R282 to R284, R287). -/
structure ActiveOk (s : State) : Prop where
  fft_supported : s.build.supports s.N = true
  overlap_lt : s.O < s.N
  hop_eq : s.hop = s.N - s.O
  window_size : s.act.windowSize = s.act.fftSize
  block_ok : 1 ≤ s.B ∧ s.B ≤ s.build.bMax
  channels_ok : 1 ≤ s.C
  inputs_ok : 1 ≤ s.I ∧ s.I ≤ s.build.inMax
  outputs_ok : 1 ≤ s.J ∧ s.J ≤ s.build.outMax
  window_ok : s.act.window = 0#8 ∨ s.act.window = 1#8
  mode_ok : s.tmode ≠ .reserved
  inplace_ok : s.tmode = .inplace → s.I = 1 ∧ s.J = 1
  bins_eq : s.K = s.N / 2 + 1
  inCap_eq : s.Cin = s.N + s.B
  outCap_eq : s.Cout = max (8 * s.B) (2 * s.hop)
  latency_eq : s.act.latency = wordOfNat (latencyOf s.N s.hop s.B)

/-- An index triple of a ring of capacity cap (10_state.md R85, R86). -/
structure RingOk (ix : RingIx) (cap : Nat) : Prop where
  rd_lt : ix.rd < cap
  wr_lt : ix.wr < cap
  avail_le : ix.avail ≤ cap
  wr_eq : ix.wr = (ix.rd + ix.avail) % cap

/-- Every list the machine stores is in its canonical form. -/
structure StorageWf (s : State) : Prop where
  mem : s.mem.wf
  ringIn : s.ringIn.wf
  ringOut : s.ringOut.wf
  tail : s.tail.wf
  tb : s.tb.wf
  y : s.y.wf
  res : s.res.wf

/-- What holds between any two steps. -/
structure Inv (s : State) : Prop where
  /-- The parameters meet 00_scope.md R11 and 20_memory.md R121. -/
  build_valid : s.build.Valid
  storage_wf : StorageWf s
  /-- Commands run atomically (70_reset_and_hazards.md R446). -/
  quiet : Quiet s
  /-- A frame is pending exactly in XWAIT (10_state.md R42). -/
  context : s.frameCtx = true ↔ s.seq = .xwait
  /-- FAULT_CODE is the cause of the current FAULT state (10_state.md R76). -/
  cause : s.faultCode ≠ .none ↔ s.seq = .fault
  /-- UNINIT has no active configuration and no samples (10_state.md R96, R97; R285, R319 of
  44_engine_commands.md). -/
  uninit : s.seq = .uninit → s.act = ActRegs.zero ∧ s.inIx = RingIx.zero ∧ s.outIx = RingIx.zero ∧
    s.frameCount = 0#32 ∧ s.lastFrames = 0#32 ∧ s.initResult ≠ .ok
  /-- Outside UNINIT the last INIT succeeded and its configuration is active. -/
  active : s.seq ≠ .uninit → s.initResult = .ok ∧ ActiveOk s
  inRing : s.seq ≠ .uninit → RingOk s.inIx s.Cin
  outRing : s.seq ≠ .uninit → RingOk s.outIx s.Cout
  /-- The COLA table is valid (42_window_cola.md R224, R227). -/
  cola : s.seq ≠ .uninit → colaValid s.hop s = true
  /-- Between commands in READY, in_avail < N (10_state.md R94). -/
  ready : s.seq = .ready → s.inIx.avail < s.N
  /-- A paused frame has room for its hop (44_engine_commands.md R297 was checked for it). -/
  xwait : s.seq = .xwait → s.outIx.avail + s.hop ≤ s.Cout

/-- The frames a WRITE of n completes when in_avail = a (44_engine_commands.md R304). -/
def framesOf (N hop a n : Nat) : Nat := if a + n < N then 0 else (a + n - N) / hop + 1

/-- Sample i of the input stream (t, c) once n samples of STAGE_IN are appended: the samples held, then
the staged ones (41_ring_buffers.md R202; 44_engine_commands.md R292). -/
def incoming (s : State) (t c i : Nat) : F32 :=
  if i < s.inIx.avail then orbSample s t c i
  else s.wordAt (stageOff s.build .stageIn t c (i - s.inIx.avail))

/-- The logical content of an output ring (41_ring_buffers.md R202). -/
def outQueue (s : State) (j c : Nat) : List F32 := (List.range s.outIx.avail).map (rbSample s j c)

/-- The logical content of an input ring (41_ring_buffers.md R202). -/
def inQueue (s : State) (t c : Nat) : List F32 := (List.range s.inIx.avail).map (orbSample s t c)

/-- The window offset of a word of an element of a RAM region: a table entry, a staging element, or the real
or imaginary word of a spectrum element (20_memory.md R122, R124, R125). -/
def IsElementWord (b : Build) (off : Nat) : Prop :=
  (∃ r n, r ∈ [Region.wsrcA, .wsrcS, .actA, .actS, .cola, .effsyn] ∧ n < b.nMax ∧
    off = tableOff r n) ∨
  (∃ u c f, u < b.inMax ∧ c < 255 ∧ f < b.stageFrames ∧ off = stageOff b .stageIn u c f) ∨
  (∃ j c f, j < b.outMax ∧ c < 255 ∧ f < b.stageFrames ∧ off = stageOff b .stageOut j c f) ∨
  (∃ u c k, u < b.inMax ∧ c < 255 ∧ k < b.nMax / 2 + 1 ∧
    (off = specOff b .specIn u c k ∨ off = specOff b .specIn u c k + 4)) ∨
  ∃ j c k, j < b.outMax ∧ c < 255 ∧ k < b.nMax / 2 + 1 ∧
    (off = specOff b .specOut j c k ∨ off = specOff b .specOut j c k + 4)

/-- A word that is neither NaN nor an infinity (00_scope.md R16). -/
def f32Finite (w : F32) : Bool := decide (f32Exp w < 255)

/-- The value of a finite word (00_scope.md R16). -/
def f32Value (w : F32) : Rat := f32Signed w * 2 ^ f32Scale w

/-- The word r is the float32 nearest to x, ties to the even fraction; beyond the largest finite value by half
a unit of its last place or more, it is the infinity of the sign of x (00_scope.md R16). -/
def RoundsTo (r : F32) (x : Rat) : Prop :=
  (|x| < 2 ^ 128 - 2 ^ 103 →
    f32Finite r = true ∧
    ∀ w, f32Finite w = true → |x - f32Value r| ≤ |x - f32Value w| ∧
      (|x - f32Value r| = |x - f32Value w| → f32Value w ≠ f32Value r → r.getLsbD 0 = false)) ∧
  (2 ^ 128 - 2 ^ 103 ≤ x → r = 0x7F800000#32) ∧
  (x ≤ -(2 ^ 128 - 2 ^ 103) → r = 0xFF800000#32)

/-- The same state with the transform mode IDENTITY (10_state.md R53). -/
def withIdentity (s : State) : State :=
  { s with act := { s.act with streams := s.act.streams &&& 0x0FFFF#18 } }

/-- An agent that issues XDONE at once at every XWAIT, at most k times (45_transform.md R342). -/
def xdoneAtOnce : (k : Nat) → State → State
  | 0, s => s
  | k + 1, s =>
    match s.seq with
    | .xwait =>
      match exec (.xdone 0) s with
      | .next t => xdoneAtOnce k t
      | .fault _ => s
      | .refused _ => s
    | .uninit => s
    | .ready => s
    | .fault => s

end Sys2Proof.Machine
end

