-- ==== Sys2Proof/Certificates/Slice0/Obligations.lean ====
section
/-! DEFINITION. The statements about RTFF-CORE. Each docstring names the rule of spec/ it formalises or
rests on. Nothing is proved here. -/

open Sys2Proof Sys2Proof.Machine

/-! ### Encoding -/

/-- Every well-formed command, with every operand ARG admits, decodes from its own word
(30_encoding.md R160, R161, R168). -/
def Obligations.DecodeOfEncodeIsIdentity : Prop :=
  ∀ i : Instr, i.wellFormed = true → decode (encode i) = some i

/-- Every word that decodes is the word of the command it decodes to, which is well formed: no bit of a
command word is dropped (30_encoding.md R160, R163). -/
def Obligations.DecodedWordReencodes : Prop :=
  ∀ (w : Word) (i : Instr), decode w = some i → i.wellFormed = true ∧ encode i = w

/-- The opcode map (30_encoding.md R162): each opcode is selected by masking bits 31:24, the operand is
the rest of the word, and every opcode from 0x07 is reserved. -/
def Obligations.OpcodeMapSelectsByTopByte : Prop :=
  ∀ w : Word,
    (w &&& 0xFF000000#32 = 0x00000000#32 → decode w = some (.nop (w &&& 0x00FFFFFF#32).toNat)) ∧
    (w &&& 0xFF000000#32 = 0x01000000#32 → decode w = some (.init (w &&& 0x00FFFFFF#32).toNat)) ∧
    (w &&& 0xFF000000#32 = 0x02000000#32 → decode w = some (.setBlock (w &&& 0x00FFFFFF#32).toNat)) ∧
    (w &&& 0xFF000000#32 = 0x03000000#32 → decode w = some (.write (w &&& 0x00FFFFFF#32).toNat)) ∧
    (w &&& 0xFF000000#32 = 0x04000000#32 → decode w = some (.read (w &&& 0x00FFFFFF#32).toNat)) ∧
    (w &&& 0xFF000000#32 = 0x05000000#32 → decode w = some (.xdone (w &&& 0x00FFFFFF#32).toNat)) ∧
    (w &&& 0xFF000000#32 = 0x06000000#32 → decode w = some (.sreset (w &&& 0x00FFFFFF#32).toNat)) ∧
    (0x07000000#32 ≤ w → decode w = none)

/-- A few command words of 95_test_vectors.md section 2 and what they stand for. -/
def Obligations.SampleCommandWordsDecode : Prop :=
  decode 0x00FFFFFF#32 = some (.nop 0xFFFFFF) ∧ decode 0x01000123#32 = some (.init 0x123) ∧
  decode 0x02000200#32 = some (.setBlock 512) ∧ decode 0x03001001#32 = some (.write 4097) ∧
  decode 0x04000020#32 = some (.read 32) ∧ decode 0x05000000#32 = some (.xdone 0) ∧
  decode 0x06000000#32 = some (.sreset 0) ∧ decode 0x07000000#32 = none ∧ decode 0xFFFFFFFF#32 = none

/-- The operand is bits 23:0, at most 2^24 - 1, and NOP, INIT, XDONE and SRESET have the effect of
operand 0 whatever it is (30_encoding.md R161). -/
def Obligations.IgnoredOperandsHaveNoEffect : Prop :=
  (∀ (w : Word) (i : Instr), decode w = some i →
    i.arg = (w &&& 0x00FFFFFF#32).toNat ∧ i.arg ≤ 2 ^ 24 - 1) ∧
  ∀ (a : Nat) (s : State), exec (.nop a) s = exec (.nop 0) s ∧ exec (.init a) s = exec (.init 0) s ∧
    exec (.xdone a) s = exec (.xdone 0) s ∧ exec (.sreset a) s = exec (.sreset 0) s

/-! ### The step -/

/-- A 32-bit write of w to CMD, next at the port of a block that is not in reset: the step gives the write's
response, then runs exec on the command w decodes to, or rejects a reserved word, with the arrival's
overlapping inputs, and turns what is left of those into later arrivals (10_state.md R59; 30_encoding.md
R160, R164). How arrivals and overlapping inputs are listed is the model's choice (log 1, log 2). -/
def Obligations.StepExecutesSubmittedCommand : Prop :=
  ∀ (s : State) (during : List (List Landing)) (rest : List Arrival) (w : Word),
    s.rst = false → s.build.base % Config.windowBytes = 0 →
    s.port = { input := .access (.write (s.build.base + 0x020) 32 w), during := during } :: rest →
    let taken : State :=
      { s with port := rest, overlap := during, transit := .none,
               resp := [{ error := false, data := none }] }
    (∀ i, decode w = some i → step s = settled (exec i taken)) ∧
    (decode w = none →
      step s = settled (.next
        { taken with cmdErr := if s.busy then .busy else .reservedOpcode,
                     sticky := { s.sticky with cmdErr := true } }))

/-- A placed command word is the one the next step runs (log 1). -/
def Obligations.PlacedCommandWordIsRunNext : Prop :=
  ∀ (s : State) (w : Nat) (i : Instr), s.build.base % Config.windowBytes = 0 → w < 2 ^ 32 →
    decode (BitVec.ofNat 32 w) = some i →
    step (s.withFetchWord 32 w) = settled (exec i
      { s with rst := false, overlap := [], transit := .none,
               resp := [{ error := false, data := none }] })

/-- No step and no command ever stops the machine: every exceptional event is a next state
(60_exceptions.md R370, R394). -/
def Obligations.EveryStepHasANextState : Prop :=
  (∀ s : State, ∃ t, step s = .next t) ∧ ∀ (i : Instr) (s : State), ∃ t, exec i s = .next t

/-- With no arrival the block is idle: nothing changes but that no response is given
(60_exceptions.md R393). -/
def Obligations.IdleBlockKeepsItsState : Prop :=
  ∀ s : State, s.port = [] → step s = .next { s with resp := [] }

/-! ### Acceptance and rejection -/

/-- The acceptance checks in order (60_exceptions.md R385): a command while busy = 1; a state that does
not accept the command; an operand out of range. Each rejection writes CMDERR_CODE and INT_PENDING.CMDERR
and nothing else (R374). -/
def Obligations.RejectedCommandsChangeOnlyCmdErr : Prop :=
  ∀ (i : Instr) (s : State),
    let rejectedWith (e : CmdErr) : Prop :=
      exec i s = .next { s with cmdErr := e, sticky := { s.sticky with cmdErr := true } }
    let badState : Prop :=
      match i with
      | .nop _ => False
      | .init _ => s.seq = .xwait
      | .setBlock _ => s.seq = .xwait
      | .write _ => s.seq ≠ .ready
      | .read _ => s.seq ≠ .ready
      | .xdone _ => s.seq ≠ .xwait
      | .sreset _ => False
    let badCount : Prop :=
      match i with
      | .write n => s.build.stageFrames < n
      | .read n => s.build.stageFrames < n ∨ s.Cout < n
      | _ => False
    let badBlock : Prop :=
      match i with
      | .setBlock b => b = 0 ∨ s.build.bMax < b
      | _ => False
    (s.busy = true → rejectedWith .busy) ∧
    (s.busy = false → badState → rejectedWith .badState) ∧
    (s.busy = false → ¬badState → badCount → rejectedWith .countRange) ∧
    (s.busy = false → ¬badState → badBlock → rejectedWith .blockRange)

/-- A reserved opcode: nothing changes but CMDERR_CODE and INT_PENDING.CMDERR (30_encoding.md R164);
while busy = 1 the code is BUSY (60_exceptions.md R385). -/
def Obligations.ReservedOpcodeIsRejected : Prop :=
  ∀ (w : Word) (s : State), 0x07000000#32 ≤ w →
    (s.busy = false →
      submit w s = .next { s with cmdErr := .reservedOpcode, sticky := { s.sticky with cmdErr := true } }) ∧
    (s.busy = true →
      submit w s = .next { s with cmdErr := .busy, sticky := { s.sticky with cmdErr := true } })

/-- A command word that lands while a NOP, a SET_BLOCK or a READ runs is rejected with BUSY, and the
running command does what it does without it (60_exceptions.md R374, R385). The point at which it lands is
the model's choice (log 2). -/
def Obligations.OverlappedCommandIsRejectedBusy : Prop :=
  ∀ (i : Instr) (w : Word) (d : Nat) (s : State),
    ((∃ a, i = .nop a) ∨ (∃ b, i = .setBlock b) ∨ ∃ n, i = .read n) →
    Quiet s → s.build.base % Config.windowBytes = 0 → rejection s i = none →
    ∃ t, exec i s = .next t ∧
      exec i { s with overlap := [[{ input := .access (.write (s.build.base + 0x020) 32 w), draw := d }]] } =
        .next { t with cmdErr := .busy, sticky := { t.sticky with cmdErr := true },
                       resp := t.resp ++ [{ error := false, data := none }] }

/-- A read of STATUS that lands while a command runs shows BUSY = 1 and the state as it is; here for the
first point of a NOP, with every other field as before once the command has ended (70_reset_and_hazards.md
R431). The point is the model's choice (log 2). -/
def Obligations.StatusReadDuringCommandShowsBusy : Prop :=
  ∀ (a d : Nat) (s : State), Quiet s → s.build.base % Config.windowBytes = 0 →
    settled (exec (.nop a)
      { s with overlap := [[{ input := .access (.read (s.build.base + 0x024) 32), draw := d }]] }) =
      .next { s with sticky := { s.sticky with done := true },
                     resp := s.resp ++ [{ error := false, data := some (statusWord s ||| 0x4#32) }] }

/-- A host read that lands during a READ, of a word of STAGE_OUT that the READ writes, returns the word
before the command or the word the command writes there, a draw deciding which, wherever it lands, and the
READ does what it does without it (70_reset_and_hazards.md R432). The two points of a READ and the form of
the draw are the model's choice (log 2). -/
def Obligations.OverlappedReadDrawsOldOrNew : Prop :=
  ∀ (n j c f p d : Nat) (s t : State), Inv s → s.seq = .ready → n ≤ s.build.stageFrames → n ≤ s.Cout →
    j < s.J → c < s.C → f < n → p < 2 → exec (.read n) s = .next t →
    let off := stageOff s.build .stageOut j c f
    let during (draw : Nat) : State :=
      { s with overlap := List.replicate p [] ++
                [[{ input := .access (.read (s.build.base + off) 32), draw := draw }]] }
    let reads (v : Word) : State := { t with resp := t.resp ++ [{ error := false, data := some v }] }
    (settled (exec (.read n) (during d)) = .next (reads (s.wordAt off)) ∨
      settled (exec (.read n) (during d)) = .next (reads (t.wordAt off))) ∧
    (∃ d', settled (exec (.read n) (during d')) = .next (reads (s.wordAt off))) ∧
    ∃ d', settled (exec (.read n) (during d')) = .next (reads (t.wordAt off))

/-- Two host writes that land during a WRITE, of two words of STAGE_IN that the WRITE reads: the command
uses the old or the new word of each, whatever it uses of the other (a draw per word), and STAGE_IN ends with
both new words (70_reset_and_hazards.md R432); here for a WRITE that gives no whole window and writes that
land at its first point. The point and the form of the draw are the model's choice (log 2). -/
def Obligations.OverlappedWritesAreDrawnPerWord : Prop :=
  ∀ (n u c f u' c' f' d d' : Nat) (v v' : Word) (s : State), Inv s → s.seq = .ready →
    n ≤ s.build.stageFrames → s.inIx.avail + n < s.N → u < s.I → c < s.C → f < n → u' < s.I → c' < s.C →
    f' < n → (u, c, f) ≠ (u', c', f') →
    let off := stageOff s.build .stageIn u c f
    let off' := stageOff s.build .stageIn u' c' f'
    let after (e e' : Nat) : Host.Outcome State Fault Refusal :=
      settled (exec (.write n)
        { s with overlap := [[
          { input := .access (.write (s.build.base + off) 32 v), draw := e },
          { input := .access (.write (s.build.base + off') 32 v'), draw := e' }]] })
    (∃ t, after d d' = .next t ∧
      (t.ringInAt u c ((s.inIx.wr + f) % s.Cin) = s.wordAt off ∨
        t.ringInAt u c ((s.inIx.wr + f) % s.Cin) = v) ∧
      (t.ringInAt u' c' ((s.inIx.wr + f') % s.Cin) = s.wordAt off' ∨
        t.ringInAt u' c' ((s.inIx.wr + f') % s.Cin) = v') ∧
      t.wordAt off = v ∧ t.wordAt off' = v') ∧
    ∀ uses uses' : Bool, ∃ e e' t, after e e' = .next t ∧
      t.ringInAt u c ((s.inIx.wr + f) % s.Cin) = (if uses then v else s.wordAt off) ∧
      t.ringInAt u' c' ((s.inIx.wr + f') % s.Cin) = if uses' then v' else s.wordAt off'

/-! ### NOP, SRESET, SET_BLOCK -/

/-- NOP completes in every state and only sets DONE (44_engine_commands.md R318). -/
def Obligations.NopOnlySetsDone : Prop :=
  ∀ (a : Nat) (s : State), Quiet s →
    exec (.nop a) s = .next { s with sticky := { s.sticky with done := true } }

/-- SRESET completes in every state: the whole next state (44_engine_commands.md R319). CFG_*, INT_ENABLE,
every RAM region, the tails and the ring storage keep their contents (70_reset_and_hazards.md R423). -/
def Obligations.SresetClearsAllButConfigurationAndRam : Prop :=
  ∀ (a : Nat) (s : State), Quiet s →
    exec (.sreset a) s = .next
      { s with
        seq := .uninit, frameCtx := false, underflow := false, initResult := .none,
        faultCode := .none, cmdErr := .none,
        sticky := { done := true, cmdErr := false, initErr := false, underflow := false },
        act := ActRegs.zero, inIx := { rd := 0, wr := 0, avail := 0 },
        outIx := { rd := 0, wr := 0, avail := 0 }, frameCount := 0#32, lastFrames := 0#32 }

/-- SRESET changes no RAM word and no stored sample (70_reset_and_hazards.md R423). -/
def Obligations.SresetKeepsEveryRamByte : Prop :=
  ∀ (a : Nat) (s : State), Quiet s → ∃ t, exec (.sreset a) s = .next t ∧
    (∀ off, t.byteAt off = s.byteAt off) ∧ t.tail = s.tail ∧ t.ringIn = s.ringIn ∧
    t.ringOut = s.ringOut

/-- After SRESET, STATUS reads 0 and INT_PENDING reads 1 (44_engine_commands.md R319). -/
def Obligations.SresetReadsAsNewEngine : Prop :=
  ∀ (a : Nat) (s : State), Quiet s → ∃ t, exec (.sreset a) s = .next t ∧
    csrReadAt t 0x024 = 0x00000000#32 ∧ csrReadAt t 0x028 = 0x00000001#32

/-- Outside READY (and XWAIT, which rejects it) SET_BLOCK writes CFG_BLOCK and sets DONE, and does nothing
else (44_engine_commands.md R286). -/
def Obligations.SetBlockOutsideReadyWritesOnlyCfgBlock : Prop :=
  ∀ (b : Nat) (s : State), Quiet s → s.seq = .uninit ∨ s.seq = .fault → 1 ≤ b → b ≤ s.build.bMax →
    exec (.setBlock b) s = .next
      { s with cfg := { s.cfg with block := BitVec.ofNat 32 b },
               sticky := { s.sticky with done := true } }

/-- In READY SET_BLOCK rebuilds and pads the rings and updates ACT_BLOCK, the capacities and LATENCY; RAM,
the tails, the counters and the rest of the configuration stay (44_engine_commands.md R283, R286, R287;
41_ring_buffers.md R192, R200). -/
def Obligations.SetBlockInReadyRebuildsRings : Prop :=
  ∀ (b : Nat) (s : State), Inv s → s.seq = .ready → 1 ≤ b → b ≤ s.build.bMax →
    ∃ t, exec (.setBlock b) s = .next t ∧
      t = { s with
        ringIn := t.ringIn, act := t.act, cfg := { s.cfg with block := BitVec.ofNat 32 b },
        inIx := { rd := 0, wr := s.N - b, avail := s.N - b }, outIx := { rd := 0, wr := 0, avail := 0 },
        underflow := false, sticky := { s.sticky with done := true } } ∧
      t.act = { s.act with block := t.act.block, inCap := t.act.inCap, outCap := t.act.outCap,
                           latency := t.act.latency } ∧
      t.act.block.toNat = b ∧ t.act.inCap.toNat = s.N + b ∧
      t.act.outCap.toNat = max (8 * b) (2 * s.hop) ∧
      t.act.latency.toNat = (if s.hop % b = 0 then s.N - b else if b < s.N then s.N else b) ∧
      ∀ u c f, u < s.I → c < s.C → f < s.N - b → t.ringInAt u c f = 0#32

/-! ### INIT -/

/-- The validity conditions (a) to (h) of INIT step 2 (44_engine_commands.md R282). -/
def Obligations.ConfigurationIsValidIff : Prop :=
  ∀ (bd : Build) (q : CfgRegs),
    configValid bd q = true ↔
      q.channels.toNat ≠ 0 ∧
      (∃ k, 1 ≤ k ∧ k ≤ 31 ∧ bd.fftSizes.getLsbD k = true ∧ q.fftSize.toNat = 2 ^ k) ∧
      q.overlap.toNat < q.fftSize.toNat ∧
      (1 ≤ q.block.toNat ∧ q.block.toNat ≤ bd.bMax) ∧
      (1 ≤ (q.streams.extractLsb' 0 8).toNat ∧ (q.streams.extractLsb' 0 8).toNat ≤ bd.inMax ∧
        1 ≤ (q.streams.extractLsb' 8 8).toNat ∧ (q.streams.extractLsb' 8 8).toNat ≤ bd.outMax) ∧
      (q.window.toNat = 0 ∨ q.window.toNat = 1) ∧
      (q.streams.extractLsb' 16 2).toNat ≠ 3 ∧
      ((q.streams.extractLsb' 16 2).toNat = 2 →
        (q.streams.extractLsb' 0 8).toNat = 1 ∧ (q.streams.extractLsb' 8 8).toNat = 1)

/-- A failed INIT: the whole next state of each of the three failures, in their order
(44_engine_commands.md R280, R282, R285). CONFIG_INVALID and FFT_INIT_FAILED change no RAM. WINDOW_INVALID
leaves RAM (and the counter of draws) as step 4 built the tables. -/
def Obligations.FailedInitLeavesUninit : Prop :=
  ∀ (a : Nat) (s : State), Quiet s → s.build.Valid → s.seq ≠ .xwait →
    let failed (code : InitResult) (mem : Memory) (draws : Nat) : Host.Outcome State Fault Refusal :=
      .next { s with
        seq := .uninit, act := ActRegs.zero, inIx := { rd := 0, wr := 0, avail := 0 },
        outIx := { rd := 0, wr := 0, avail := 0 }, frameCount := 0#32, lastFrames := 0#32,
        underflow := false, faultCode := .none, initResult := code,
        sticky := { s.sticky with done := true, initErr := true }, mem := mem, draws := draws }
    let built : State := buildTables s.cfg (acceptCmd s)
    (configValid s.build s.cfg = false → exec (.init a) s = failed .configInvalid s.mem s.draws) ∧
    (configValid s.build s.cfg = true → s.adapterOk = false →
      exec (.init a) s = failed .fftInitFailed s.mem s.draws) ∧
    (configValid s.build s.cfg = true → s.adapterOk = true → colaValid (cfgHop s.cfg) built = false →
      exec (.init a) s = failed .windowInvalid built.mem (s.draws + 1) ∧
      ∀ off, regionOf off ≠ some .actA → regionOf off ≠ some .actS → regionOf off ≠ some .cola →
        built.byteAt off = s.byteAt off)

/-- A successful INIT (44_engine_commands.md R283, R284): READY with the sampled configuration active, the
rings rebuilt and padded, tails and spectra +0.0, counters and status cleared, DONE set; CMDERR_CODE,
CFG_*, INT_ENABLE, the staging and window-source RAMs and the other sticky bits stay. -/
def Obligations.SuccessfulInitCommitsConfiguration : Prop :=
  ∀ (a : Nat) (s : State), Quiet s → s.build.Valid → s.seq ≠ .xwait →
    configValid s.build s.cfg = true → s.adapterOk = true →
    colaValid (cfgHop s.cfg) (buildTables s.cfg (acceptCmd s)) = true →
    ∃ t, exec (.init a) s = .next t ∧
      t = { s with
        seq := .ready, act := t.act, mem := t.mem, ringIn := t.ringIn, tail := t.tail,
        inIx := t.inIx, outIx := { rd := 0, wr := 0, avail := 0 }, frameCount := 0#32,
        lastFrames := 0#32, underflow := false, faultCode := .none, initResult := .ok,
        sticky := { s.sticky with done := true }, draws := s.draws + 1 } ∧
      t.act.fftSize = s.cfg.fftSize ∧ t.act.windowSize = s.cfg.fftSize ∧
      t.act.overlap = s.cfg.overlap ∧ t.hop = s.cfg.fftSize.toNat - s.cfg.overlap.toNat ∧
      t.act.block = s.cfg.block ∧ t.act.channels = s.cfg.channels ∧ t.act.window = s.cfg.window ∧
      t.act.streams = s.cfg.streams ∧ t.K = t.N / 2 + 1 ∧
      t.Cin = t.N + t.B ∧ t.Cout = max (8 * t.B) (2 * t.hop) ∧
      t.act.latency.toNat =
        (if t.hop % t.B = 0 then t.N - t.B else if t.B < t.N then t.N else t.B) ∧
      t.inIx = { rd := 0, wr := t.N - t.B, avail := t.N - t.B } ∧
      (∀ u c f, u < t.I → c < t.C → f < t.N - t.B → t.ringInAt u c f = 0#32) ∧
      (∀ j c i, t.tailAt j c i = 0#32) ∧
      (∀ off, regionOf off = some .specIn ∨ regionOf off = some .specOut → t.byteAt off = 0#8) ∧
      (∀ off, regionOf off = some .stageIn ∨ regionOf off = some .stageOut ∨
        regionOf off = some .wsrcA ∨ regionOf off = some .wsrcS → t.byteAt off = s.byteAt off)

/-- The window tables a successful INIT leaves (42_window_cola.md R220 to R222): entry n below N is the
built-in or the host-loaded one, bit for bit; every entry from N is +0.0. -/
def Obligations.InitBuildsWindowTables : Prop :=
  ∀ (a : Nat) (s t : State), Quiet s → s.build.Valid → s.seq ≠ .xwait →
    exec (.init a) s = .next t → t.seq = .ready →
    (∀ n, n < t.N →
      t.wordAt (tableOff .actA n) =
        (if s.cfg.window = 0#8 then hamming t.N n else s.wordAt (tableOff .wsrcA n)) ∧
      t.wordAt (tableOff .actS n) =
        (if s.cfg.window = 0#8 then hamming t.N n else s.wordAt (tableOff .wsrcS n))) ∧
    ∀ n, t.N ≤ n → n < s.build.nMax →
      t.wordAt (tableOff .actA n) = 0#32 ∧ t.wordAt (tableOff .actS n) = 0#32

/-- The built-in window (42_window_cola.md R220): the table is symmetric, and with window type 0 and a valid
configuration COLA_VALIDATE passes, so INIT ends in READY unless the adapter fails, with ACT_A and ACT_S the
same symmetric table. -/
def Obligations.HammingInitSucceeds : Prop :=
  (∀ N n, n < N → hamming N n = hamming N (N - 1 - n)) ∧
  ∀ (a : Nat) (s : State), Quiet s → s.build.Valid → s.seq ≠ .xwait →
    configValid s.build s.cfg = true → s.adapterOk = true → s.cfg.window = 0#8 →
    ∃ t, exec (.init a) s = .next t ∧ t.seq = .ready ∧ t.initResult = .ok ∧
      t.sticky = { s.sticky with done := true } ∧ t.N = s.cfg.fftSize.toNat ∧
      ∀ n, n < t.N →
        t.wordAt (tableOff .actA n) = hamming t.N n ∧
        t.wordAt (tableOff .actS n) = t.wordAt (tableOff .actA n) ∧
        t.wordAt (tableOff .actA n) = t.wordAt (tableOff .actA (t.N - 1 - n))

/-- The COLA table and the effective synthesis window a successful INIT leaves (42_window_cola.md R223 to
R225): the sum over k in increasing order from +0.0, each operation rounded once and with a NaN draw of
its own; every COLA entry below hop > EPS; the division table; +0.0 beyond. -/
def Obligations.InitBuildsColaAndEffectiveWindow : Prop :=
  ∀ (a : Nat) (s t : State), Quiet s → s.build.Valid → s.seq ≠ .xwait →
    exec (.init a) s = .next t → t.seq = .ready →
    (∀ i, i < t.hop →
      t.wordAt (tableOff .cola i) =
        (List.range ((t.N - i + t.hop - 1) / t.hop)).foldl
          (fun acc k =>
            fadd (Config.nanDraw (s.draws + 1) (.colaAdd i k)) acc
              (fmul (Config.nanDraw (s.draws + 1) (.colaMul i k))
                (t.wordAt (tableOff .actA (i + k * t.hop)))
                (t.wordAt (tableOff .actS (i + k * t.hop)))))
          0#32 ∧
      fgt (t.wordAt (tableOff .cola i)) 0x358637BD#32 = true) ∧
    (∀ i, t.hop ≤ i → i < s.build.nMax → t.wordAt (tableOff .cola i) = 0#32) ∧
    (∀ i, i < t.N →
      t.wordAt (tableOff .effsyn i) =
        fdiv (Config.nanDraw (s.draws + 1) (.effsyn i)) (t.wordAt (tableOff .actS i))
          (t.wordAt (tableOff .cola (i % t.hop)))) ∧
    ∀ i, t.N ≤ i → i < s.build.nMax → t.wordAt (tableOff .effsyn i) = 0#32

/-! ### WRITE -/

/-- A WRITE that would overfill the input rings faults before it writes a sample
(44_engine_commands.md R291; 60_exceptions.md R376): the whole next state. -/
def Obligations.WriteFaultsOnInputOverflow : Prop :=
  ∀ (n : Nat) (s : State), Quiet s → s.seq = .ready → n ≤ s.build.stageFrames →
    s.Cin < s.inIx.avail + n →
    exec (.write n) s =
      .next { s with lastFrames := 0#32, faultCode := .inOverflow, seq := .fault }

/-- A WRITE that gives no whole window appends its samples and completes: the ring cells, the frame and
the completion (44_engine_commands.md R290, R292, R296, R303; 41_ring_buffers.md R197). -/
def Obligations.WriteBelowAWindowOnlyAppends : Prop :=
  ∀ (n : Nat) (s : State), Inv s → s.seq = .ready → n ≤ s.build.stageFrames → s.inIx.avail + n < s.N →
    ∃ t, exec (.write n) s = .next t ∧
      t = { s with
        ringIn := t.ringIn,
        inIx := { rd := s.inIx.rd, wr := (s.inIx.wr + n) % s.Cin, avail := s.inIx.avail + n },
        lastFrames := 0#32, sticky := { s.sticky with done := true } } ∧
      (∀ u c f, u < s.I → c < s.C → f < n →
        t.ringInAt u c ((s.inIx.wr + f) % s.Cin) = s.wordAt (stageOff s.build .stageIn u c f)) ∧
      ∀ u c i, u < s.I → c < s.C → i < s.Cin → (∀ f, f < n → i ≠ (s.inIx.wr + f) % s.Cin) →
        t.ringInAt u c i = s.ringInAt u c i

/-- In IDENTITY mode a WRITE that meets no overflow completes the frames of 44_engine_commands.md R304 and
leaves the cursors, the fills, the counters and the status the rules give (41_ring_buffers.md R194, R197,
R198), the staged samples in the input rings; it writes no RAM but the active elements of SPEC_IN and of
stream 0 of SPEC_OUT, and no register but the counters, the indices and DONE. -/
def Obligations.IdentityWriteCompletesItsFrames : Prop :=
  ∀ (n : Nat) (s : State), Inv s → s.seq = .ready → s.tmode = .identity → n ≤ s.build.stageFrames →
    s.inIx.avail + n ≤ s.Cin →
    s.outIx.avail + framesOf s.N s.hop s.inIx.avail n * s.hop ≤ s.Cout →
    ∃ t, exec (.write n) s = .next t ∧
      t = { s with
        mem := t.mem, ringIn := t.ringIn, ringOut := t.ringOut, tail := t.tail, tb := t.tb, y := t.y,
        res := t.res, draws := t.draws,
        inIx := { rd := (s.inIx.rd + framesOf s.N s.hop s.inIx.avail n * s.hop) % s.Cin,
                  wr := (s.inIx.wr + n) % s.Cin,
                  avail := s.inIx.avail + n - framesOf s.N s.hop s.inIx.avail n * s.hop },
        outIx := { rd := s.outIx.rd,
                   wr := (s.outIx.wr + framesOf s.N s.hop s.inIx.avail n * s.hop) % s.Cout,
                   avail := s.outIx.avail + framesOf s.N s.hop s.inIx.avail n * s.hop },
        frameCount := s.frameCount + BitVec.ofNat 32 (framesOf s.N s.hop s.inIx.avail n),
        lastFrames := BitVec.ofNat 32 (framesOf s.N s.hop s.inIx.avail n),
        sticky := { s.sticky with done := true } } ∧
      (∀ u c f, u < s.I → c < s.C → f < n →
        t.ringInAt u c ((s.inIx.wr + f) % s.Cin) = s.wordAt (stageOff s.build .stageIn u c f)) ∧
      (∀ u c i, u < s.I → c < s.C → i < s.Cin → (∀ f, f < n → i ≠ (s.inIx.wr + f) % s.Cin) →
        t.ringInAt u c i = s.ringInAt u c i) ∧
      ∀ off,
        (∀ u c k, u < s.I → c < s.C → k < s.K →
          off < specOff s.build .specIn u c k ∨ specOff s.build .specIn u c k + 8 ≤ off) →
        (∀ c k, c < s.C → k < s.K →
          off < specOff s.build .specOut 0 c k ∨ specOff s.build .specOut 0 c k + 8 ≤ off) →
        t.byteAt off = s.byteAt off

/-- The samples, tails and spectra of an IDENTITY WRITE of one frame: SPEC_IN holds the forward transforms of
the windowed samples (43_fft_analyzer.md R256; 41_ring_buffers.md R198), stream 0 of SPEC_OUT a copy of
stream 0 of SPEC_IN and the other streams what they held (45_transform.md R340), and every output ring and
tail what SYNTHESIZE makes of SPEC_OUT (43_fft_analyzer.md R257, R263; 41_ring_buffers.md R194). What else a
WRITE leaves is the statement before this one. -/
def Obligations.IdentityWriteOfOneFrameReconstructs : Prop :=
  ∀ (n : Nat) (s : State), Inv s → s.seq = .ready → s.tmode = .identity → n ≤ s.build.stageFrames →
    s.N ≤ s.inIx.avail + n → s.inIx.avail + n < s.N + s.hop → s.inIx.avail + n ≤ s.Cin →
    s.outIx.avail + s.hop ≤ s.Cout →
    ∃ t, exec (.write n) s = .next t ∧
      let y (j c i : Nat) : F32 :=
        Config.fftBwd s.N ((List.range s.K).map fun k => t.c32At (specOff s.build .specOut j c k)) i
      let result (j c i : Nat) : F32 :=
        fadd (Config.nanDraw (s.draws + 1) (.synthAdd j c i))
          (if i < s.N - s.hop then s.tailAt j c i else 0#32)
          (fmul (Config.nanDraw (s.draws + 1) (.synthMul j c i)) (y j c i)
            (s.wordAt (tableOff .effsyn i)))
      (∀ u c k, u < s.I → c < s.C → k < s.K →
        t.c32At (specOff s.build .specIn u c k) =
          Config.fftFwd s.N
            ((List.range s.N).map fun i =>
              fmul (Config.nanDraw (s.draws + 1) (.analyze u c i)) (incoming s u c i)
                (s.wordAt (tableOff .actA i))) k) ∧
      (∀ c k, c < s.C → k < s.K →
        t.c32At (specOff s.build .specOut 0 c k) = t.c32At (specOff s.build .specIn 0 c k)) ∧
      (∀ j c k, 0 < j → j < s.J → c < s.C → k < s.K →
        t.c32At (specOff s.build .specOut j c k) = s.c32At (specOff s.build .specOut j c k)) ∧
      (∀ j c f, j < s.J → c < s.C → f < s.hop →
        t.ringOutAt j c ((s.outIx.wr + f) % s.Cout) = result j c f) ∧
      (∀ j c i, j < s.J → c < s.C → i < s.N - s.hop → t.tailAt j c i = result j c (s.hop + i)) ∧
      ∀ j c i, j < s.J → c < s.C → i < s.Cout → (∀ f, f < s.hop → i ≠ (s.outIx.wr + f) % s.Cout) →
        t.ringOutAt j c i = s.ringOutAt j c i

/-- In IDENTITY mode a WRITE whose frames do not all fit the output rings stops before the first that does
not, with the completed frames counted, the cursors and fills theirs and the staged samples in the input
rings (44_engine_commands.md R292, R297; 60_exceptions.md R376): no DONE, and no RAM written but the active
elements of SPEC_IN and of stream 0 of SPEC_OUT. In every mode a WRITE whose first frame does not fit only
appends its samples and faults: the frame consumes no input and writes nothing. -/
def Obligations.WriteFaultsOnOutputOverflow : Prop :=
  (∀ (n : Nat) (s : State), Inv s → s.seq = .ready → s.tmode = .identity → n ≤ s.build.stageFrames →
      s.inIx.avail + n ≤ s.Cin →
      s.Cout < s.outIx.avail + framesOf s.N s.hop s.inIx.avail n * s.hop →
      ∃ t, exec (.write n) s = .next t ∧
        t = { s with
          seq := .fault, faultCode := .outOverflow, mem := t.mem, ringIn := t.ringIn,
          ringOut := t.ringOut, tail := t.tail, tb := t.tb, y := t.y, res := t.res, draws := t.draws,
          inIx := { rd := (s.inIx.rd + (s.Cout - s.outIx.avail) / s.hop * s.hop) % s.Cin,
                    wr := (s.inIx.wr + n) % s.Cin,
                    avail := s.inIx.avail + n - (s.Cout - s.outIx.avail) / s.hop * s.hop },
          outIx := { rd := s.outIx.rd,
                     wr := (s.outIx.wr + (s.Cout - s.outIx.avail) / s.hop * s.hop) % s.Cout,
                     avail := s.outIx.avail + (s.Cout - s.outIx.avail) / s.hop * s.hop },
          frameCount := s.frameCount + BitVec.ofNat 32 ((s.Cout - s.outIx.avail) / s.hop),
          lastFrames := BitVec.ofNat 32 ((s.Cout - s.outIx.avail) / s.hop) } ∧
        (∀ u c f, u < s.I → c < s.C → f < n →
          t.ringInAt u c ((s.inIx.wr + f) % s.Cin) = s.wordAt (stageOff s.build .stageIn u c f)) ∧
        (∀ u c i, u < s.I → c < s.C → i < s.Cin → (∀ f, f < n → i ≠ (s.inIx.wr + f) % s.Cin) →
          t.ringInAt u c i = s.ringInAt u c i) ∧
        ∀ off,
          (∀ u c k, u < s.I → c < s.C → k < s.K →
            off < specOff s.build .specIn u c k ∨ specOff s.build .specIn u c k + 8 ≤ off) →
          (∀ c k, c < s.C → k < s.K →
            off < specOff s.build .specOut 0 c k ∨ specOff s.build .specOut 0 c k + 8 ≤ off) →
          t.byteAt off = s.byteAt off) ∧
  ∀ (n : Nat) (s : State), Inv s → s.seq = .ready → n ≤ s.build.stageFrames →
    s.N ≤ s.inIx.avail + n → s.inIx.avail + n ≤ s.Cin → s.Cout < s.outIx.avail + s.hop →
    ∃ t, exec (.write n) s = .next t ∧
      t = { s with
        seq := .fault, faultCode := .outOverflow, ringIn := t.ringIn, lastFrames := 0#32,
        inIx := { rd := s.inIx.rd, wr := (s.inIx.wr + n) % s.Cin, avail := s.inIx.avail + n } } ∧
      (∀ u c f, u < s.I → c < s.C → f < n →
        t.ringInAt u c ((s.inIx.wr + f) % s.Cin) = s.wordAt (stageOff s.build .stageIn u c f)) ∧
      ∀ u c i, u < s.I → c < s.C → i < s.Cin → (∀ f, f < n → i ≠ (s.inIx.wr + f) % s.Cin) →
        t.ringInAt u c i = s.ringInAt u c i

/-- In EXTERNAL and INPLACE mode a WRITE that completes a window pauses in XWAIT
(45_transform.md R341 to R343): no DONE, IN_AVAIL already reduced by hop, OUT_AVAIL and the counters not
yet counting the frame, the staged samples in the input rings (44_engine_commands.md R292). SPEC_IN holds the
forward transforms of the windowed samples (43_fft_analyzer.md R256; 41_ring_buffers.md R198). SPEC_OUT is
untouched in EXTERNAL mode and a copy of SPEC_IN in INPLACE mode; every other RAM byte keeps its value. -/
def Obligations.WritePausesForTheTransformAgent : Prop :=
  ∀ (n : Nat) (s : State), Inv s → s.seq = .ready → s.tmode = .external ∨ s.tmode = .inplace →
    n ≤ s.build.stageFrames → s.N ≤ s.inIx.avail + n → s.inIx.avail + n ≤ s.Cin →
    s.outIx.avail + s.hop ≤ s.Cout →
    ∃ t, exec (.write n) s = .next t ∧
      t = { s with
        seq := .xwait, frameCtx := true, lastFrames := 0#32,
        inIx := { rd := (s.inIx.rd + s.hop) % s.Cin, wr := (s.inIx.wr + n) % s.Cin,
                  avail := s.inIx.avail + n - s.hop },
        mem := t.mem, ringIn := t.ringIn, tb := t.tb, draws := s.draws + 1 } ∧
      (∀ u c f, u < s.I → c < s.C → f < n →
        t.ringInAt u c ((s.inIx.wr + f) % s.Cin) = s.wordAt (stageOff s.build .stageIn u c f)) ∧
      (∀ u c i, u < s.I → c < s.C → i < s.Cin → (∀ f, f < n → i ≠ (s.inIx.wr + f) % s.Cin) →
        t.ringInAt u c i = s.ringInAt u c i) ∧
      (∀ u c k, u < s.I → c < s.C → k < s.K →
        t.c32At (specOff s.build .specIn u c k) =
          Config.fftFwd s.N
            ((List.range s.N).map fun i =>
              fmul (Config.nanDraw (s.draws + 1) (.analyze u c i)) (incoming s u c i)
                (s.wordAt (tableOff .actA i))) k) ∧
      (s.tmode = .external → ∀ off, regionOf off = some .specOut → t.byteAt off = s.byteAt off) ∧
      (s.tmode = .inplace → ∀ c k, c < s.C → k < s.K →
        t.c32At (specOff s.build .specOut 0 c k) = t.c32At (specOff s.build .specIn 0 c k)) ∧
      ∀ off,
        (∀ u c k, u < s.I → c < s.C → k < s.K →
          off < specOff s.build .specIn u c k ∨ specOff s.build .specIn u c k + 8 ≤ off) →
        (s.tmode = .inplace → ∀ c k, c < s.C → k < s.K →
          off < specOff s.build .specOut 0 c k ∨ specOff s.build .specOut 0 c k + 8 ≤ off) →
        t.byteAt off = s.byteAt off

/-! ### XDONE -/

/-- XDONE with no further window: the paused frame is synthesised from SPEC_OUT and the WRITE completes
(45_transform.md R345; 44_engine_commands.md R295, R303, R305, R306). The emitted samples, the new tails
and the untouched ring cells are those of SYNTHESIZE and RB_WRITE (43_fft_analyzer.md R257, R263;
41_ring_buffers.md R194); no RAM byte changes. -/
def Obligations.XdoneSynthesizesThePausedFrame : Prop :=
  ∀ (a : Nat) (s : State), Inv s → s.seq = .xwait → s.inIx.avail < s.N →
    let y (j c i : Nat) : F32 :=
      Config.fftBwd s.N ((List.range s.K).map fun k => s.c32At (specOff s.build .specOut j c k)) i
    let result (j c i : Nat) : F32 :=
      fadd (Config.nanDraw s.draws (.synthAdd j c i))
        (if i < s.N - s.hop then s.tailAt j c i else 0#32)
        (fmul (Config.nanDraw s.draws (.synthMul j c i)) (y j c i) (s.wordAt (tableOff .effsyn i)))
    ∃ t, exec (.xdone a) s = .next t ∧
      t = { s with
        seq := .ready, frameCtx := false, ringOut := t.ringOut, tail := t.tail, y := t.y, res := t.res,
        outIx := { rd := s.outIx.rd, wr := (s.outIx.wr + s.hop) % s.Cout,
                   avail := s.outIx.avail + s.hop },
        frameCount := s.frameCount + 1#32, lastFrames := s.lastFrames + 1#32,
        sticky := { s.sticky with done := true } } ∧
      (∀ j c f, j < s.J → c < s.C → f < s.hop →
        t.ringOutAt j c ((s.outIx.wr + f) % s.Cout) = result j c f) ∧
      (∀ j c i, j < s.J → c < s.C → i < s.N - s.hop → t.tailAt j c i = result j c (s.hop + i)) ∧
      ∀ j c i, j < s.J → c < s.C → i < s.Cout → (∀ f, f < s.hop → i ≠ (s.outIx.wr + f) % s.Cout) →
        t.ringOutAt j c i = s.ringOutAt j c i

/-- XDONE with a further window synthesises, emits and counts the paused frame, then pauses again in XWAIT, or
faults with OUT_OVERFLOW when the next frame has no room (45_transform.md R345, R346; 44_engine_commands.md
R295, R297, R305, R306); no INT_PENDING.DONE either way. Samples, tails and the other ring cells are those of
SYNTHESIZE and RB_WRITE (43_fft_analyzer.md R257, R263; 41_ring_buffers.md R194). The fault writes no RAM.
The pause leaves the next frame's spectra in SPEC_IN (43_fft_analyzer.md R256), SPEC_OUT untouched in
EXTERNAL mode and a copy of SPEC_IN in INPLACE mode, and every other RAM byte as it was. -/
def Obligations.XdoneContinuesTheFrameLoop : Prop :=
  ∀ (a : Nat) (s : State), Inv s → s.seq = .xwait → s.tmode ≠ .identity → s.N ≤ s.inIx.avail →
    let y (j c i : Nat) : F32 :=
      Config.fftBwd s.N ((List.range s.K).map fun k => s.c32At (specOff s.build .specOut j c k)) i
    let result (j c i : Nat) : F32 :=
      fadd (Config.nanDraw s.draws (.synthAdd j c i))
        (if i < s.N - s.hop then s.tailAt j c i else 0#32)
        (fmul (Config.nanDraw s.draws (.synthMul j c i)) (y j c i) (s.wordAt (tableOff .effsyn i)))
    ∃ t, exec (.xdone a) s = .next t ∧
      t = { s with
        seq := t.seq, frameCtx := t.frameCtx, faultCode := t.faultCode, mem := t.mem, inIx := t.inIx,
        ringOut := t.ringOut, tail := t.tail, tb := t.tb, y := t.y, res := t.res, draws := t.draws,
        outIx := { rd := s.outIx.rd, wr := (s.outIx.wr + s.hop) % s.Cout,
                   avail := s.outIx.avail + s.hop },
        frameCount := s.frameCount + 1#32, lastFrames := s.lastFrames + 1#32 } ∧
      (∀ j c f, j < s.J → c < s.C → f < s.hop →
        t.ringOutAt j c ((s.outIx.wr + f) % s.Cout) = result j c f) ∧
      (∀ j c i, j < s.J → c < s.C → i < s.N - s.hop → t.tailAt j c i = result j c (s.hop + i)) ∧
      (∀ j c i, j < s.J → c < s.C → i < s.Cout → (∀ f, f < s.hop → i ≠ (s.outIx.wr + f) % s.Cout) →
        t.ringOutAt j c i = s.ringOutAt j c i) ∧
      (s.outIx.avail + 2 * s.hop ≤ s.Cout →
        t.seq = .xwait ∧ t.frameCtx = true ∧ t.faultCode = .none ∧ t.draws = s.draws + 1 ∧
        t.inIx = { rd := (s.inIx.rd + s.hop) % s.Cin, wr := s.inIx.wr,
                   avail := s.inIx.avail - s.hop } ∧
        (∀ u c k, u < s.I → c < s.C → k < s.K →
          t.c32At (specOff s.build .specIn u c k) =
            Config.fftFwd s.N
              ((List.range s.N).map fun i =>
                fmul (Config.nanDraw (s.draws + 1) (.analyze u c i)) (orbSample s u c i)
                  (s.wordAt (tableOff .actA i))) k) ∧
        (s.tmode = .external → ∀ off, regionOf off = some .specOut → t.byteAt off = s.byteAt off) ∧
        (s.tmode = .inplace → ∀ c k, c < s.C → k < s.K →
          t.c32At (specOff s.build .specOut 0 c k) = t.c32At (specOff s.build .specIn 0 c k)) ∧
        ∀ off,
          (∀ u c k, u < s.I → c < s.C → k < s.K →
            off < specOff s.build .specIn u c k ∨ specOff s.build .specIn u c k + 8 ≤ off) →
          (s.tmode = .inplace → ∀ c k, c < s.C → k < s.K →
            off < specOff s.build .specOut 0 c k ∨ specOff s.build .specOut 0 c k + 8 ≤ off) →
          t.byteAt off = s.byteAt off) ∧
      (s.Cout < s.outIx.avail + 2 * s.hop →
        t.seq = .fault ∧ t.frameCtx = false ∧ t.faultCode = .outOverflow ∧ t.draws = s.draws ∧
        t.inIx = s.inIx ∧ ∀ off, t.byteAt off = s.byteAt off)

/-- INPLACE with an agent that issues XDONE at once at every XWAIT ends in the same state, word for word,
as IDENTITY (45_transform.md R342): for every WRITE from every state in READY. -/
def Obligations.InplaceUntouchedEqualsIdentity : Prop :=
  ∀ (n : Nat) (s t : State), Inv s → s.seq = .ready → s.tmode = .inplace →
    exec (.write n) (withIdentity s) = .next t →
    ∃ (k : Nat) (u : State), exec (.write n) s = .next u ∧ (xdoneAtOnce k u).seq ≠ .xwait ∧
      withIdentity (xdoneAtOnce k u) = t

/-! ### READ -/

/-- A READ that finds n samples moves them to STAGE_OUT and consumes them: the whole next state
(44_engine_commands.md R311; 41_ring_buffers.md R195). -/
def Obligations.ReadReturnsTheOldestSamples : Prop :=
  ∀ (n : Nat) (s : State), Inv s → s.seq = .ready → n ≤ s.build.stageFrames → n ≤ s.outIx.avail →
    ∃ t, exec (.read n) s = .next t ∧
      t = { s with
        mem := t.mem,
        outIx := { rd := (s.outIx.rd + n) % s.Cout, wr := s.outIx.wr, avail := s.outIx.avail - n },
        underflow := false, sticky := { s.sticky with done := true } } ∧
      (∀ j c f, j < s.J → c < s.C → f < n →
        t.wordAt (stageOff s.build .stageOut j c f) = s.ringOutAt j c ((s.outIx.rd + f) % s.Cout)) ∧
      ∀ off,
        (∀ j c f, j < s.J → c < s.C → f < n →
          off < stageOff s.build .stageOut j c f ∨ stageOff s.build .stageOut j c f + 4 ≤ off) →
        t.byteAt off = s.byteAt off

/-- A READ that finds fewer than n samples returns n zeros, consumes nothing and sets both UNDERFLOW bits:
the whole next state (44_engine_commands.md R311 to R313). -/
def Obligations.UnderflowingReadReturnsZeros : Prop :=
  ∀ (n : Nat) (s : State), Inv s → s.seq = .ready → n ≤ s.build.stageFrames → n ≤ s.Cout →
    s.outIx.avail < n →
    ∃ t, exec (.read n) s = .next t ∧
      t = { s with
        mem := t.mem, underflow := true, sticky := { s.sticky with done := true, underflow := true } } ∧
      (∀ j c f, j < s.J → c < s.C → f < n →
        t.wordAt (stageOff s.build .stageOut j c f) = 0x00000000#32) ∧
      ∀ off,
        (∀ j c f, j < s.J → c < s.C → f < n →
          off < stageOff s.build .stageOut j c f ∨ stageOff s.build .stageOut j c f + 4 ≤ off) →
        t.byteAt off = s.byteAt off

/-! ### Rings -/

/-- The storage and the cursors are the sequences of the logical view (41_ring_buffers.md R202): writes
append, RB_READ(n) removes the first n, ORB_READ returns the first N and removes the first hop, the clear
operations leave the empty sequence, and ORB_CLEAR_AND_PAD leaves k copies of +0.0. -/
def Obligations.RingStorageRefinesSequences : Prop :=
  ∀ (s : State), s.build.Valid → ActiveOk s → RingOk s.inIx s.Cin → RingOk s.outIx s.Cout →
    (∀ src n j c, s.outIx.avail + n ≤ s.Cout → j < s.J → c < s.C →
      outQueue (rbWrite src n s) j c = outQueue s j c ++ (List.range n).map (src j c)) ∧
    (∀ src n u c, s.inIx.avail + n ≤ s.Cin → u < s.I → c < s.C →
      inQueue (orbWrite src n s) u c = inQueue s u c ++ (List.range n).map (src u c)) ∧
    (∀ n j c, n ≤ s.outIx.avail → outQueue (rbAdvance n s) j c = (outQueue s j c).drop n) ∧
    (∀ u c, s.N ≤ s.inIx.avail → u < s.I → c < s.C →
      (List.range s.N).map ((orbRead s).tbAt u c) = (inQueue s u c).take s.N ∧
      inQueue (orbRead s) u c = (inQueue s u c).drop s.hop) ∧
    (∀ cap j c, outQueue (rbClear cap s) j c = []) ∧
    ∀ u c, u < s.I → c < s.C →
      inQueue (orbClearAndPad s) u c = List.replicate (s.N - s.B) 0#32

/-- Two successive ORB_READs, samples appended between them or not, return windows that overlap by N - hop
samples (41_ring_buffers.md R203). -/
def Obligations.SuccessiveWindowsOverlap : Prop :=
  ∀ (s : State), s.build.Valid → ActiveOk s → RingOk s.inIx s.Cin → s.N ≤ s.inIx.avail →
    ∀ src n, s.N ≤ s.inIx.avail - s.hop + n → s.inIx.avail - s.hop + n ≤ s.Cin →
    ∀ u c i, u < s.I → c < s.C → i < s.N - s.hop →
      (orbRead (orbWrite src n (orbRead s))).tbAt u c i = (orbRead s).tbAt u c (i + s.hop)

/-! ### Registers -/

/-- What a bus read of STATUS shows (10_state.md R71 to R77): each field at its place with the code of each
name, the reserved bits 0; writes are ignored; it reads 0 after reset. -/
def Obligations.StatusHasItsLayout : Prop :=
  ∀ s : State,
    ((csrReadAt s 0x024).extractLsb' 0 2).toNat =
      (match s.seq with
       | .uninit => 0
       | .ready => 1
       | .xwait => 2
       | .fault => 3) ∧
    (csrReadAt s 0x024).getLsbD 2 = s.busy ∧ (csrReadAt s 0x024).getLsbD 3 = s.underflow ∧
    (csrReadAt s 0x024).extractLsb' 4 4 = 0#4 ∧
    ((csrReadAt s 0x024).extractLsb' 8 4).toNat =
      (match s.initResult with
       | .none => 0
       | .ok => 1
       | .configInvalid => 2
       | .windowInvalid => 3
       | .fftInitFailed => 4) ∧
    ((csrReadAt s 0x024).extractLsb' 12 4).toNat =
      (match s.faultCode with
       | .none => 0
       | .inOverflow => 1
       | .outOverflow => 2) ∧
    ((csrReadAt s 0x024).extractLsb' 16 4).toNat =
      (match s.cmdErr with
       | .none => 0
       | .badState => 1
       | .reservedOpcode => 2
       | .countRange => 3
       | .busy => 4
       | .blockRange => 5) ∧
    (csrReadAt s 0x024).extractLsb' 20 12 = 0#12 ∧ (∀ v, csrWriteAt s 0x024 v = s) ∧
    csrReadAt State.reset 0x024 = 0x00000000#32

/-- INT_PENDING (10_state.md R78): its layout, and a bus write of v clears the sticky bits whose bit in v
is 1 and changes nothing else; it reads 0 after reset. -/
def Obligations.IntPendingIsWriteOneToClear : Prop :=
  ∀ (s : State) (v : Word),
    csrReadAt (csrWriteAt s 0x028 v) 0x028 =
      csrReadAt s 0x028 &&& ~~~(v &&& 0x00000039#32) ∧
    csrWriteAt s 0x028 v = { s with sticky := (csrWriteAt s 0x028 v).sticky } ∧
    (csrReadAt s 0x028).getLsbD 0 = s.sticky.done ∧
    (csrReadAt s 0x028).getLsbD 1 = decide (s.seq = .xwait) ∧
    (csrReadAt s 0x028).getLsbD 2 = decide (s.seq = .fault) ∧
    (csrReadAt s 0x028).getLsbD 3 = s.sticky.cmdErr ∧
    (csrReadAt s 0x028).getLsbD 4 = s.sticky.initErr ∧
    (csrReadAt s 0x028).getLsbD 5 = s.sticky.underflow ∧
    (csrReadAt s 0x028).extractLsb' 6 26 = 0#26 ∧ csrReadAt State.reset 0x028 = 0x00000000#32

/-- The interrupt output is the OR over the six bits of pending and enabled, and 0 after reset
(60_exceptions.md R381). -/
def Obligations.IrqIsPendingAndEnabled : Prop :=
  (∀ s : State, irq s = true ↔
    ∃ b, b < 6 ∧ (csrReadAt s 0x028).getLsbD b = true ∧ (csrReadAt s 0x02C).getLsbD b = true) ∧
  irq State.reset = false

/-- INT_ENABLE and the CFG registers read back what was written, reserved bits 0, and the write changes
nothing else (10_state.md R52, R54 to R58, R79, R80). At the port (20_memory.md R128, R129): a bus write at
BASE plus an offset of the register page is that write and its response, and a step whose arrival is a write
other than to CMD performs it. -/
def Obligations.WritableRegistersReadBack : Prop :=
  (∀ (s : State) (off : Nat) (v : Word), s.build.base % Config.windowBytes = 0 → off < 0x1000 →
    off % 4 = 0 → off ≠ 0x020 →
    busWrite s (s.build.base + off) 32 v =
      { csrWriteAt s off v with resp := s.resp ++ [{ error := false, data := none }] }) ∧
  (∀ (s : State) (addr width : Nat) (v : Word) (rest : List Arrival), s.rst = false →
    addr ≠ s.build.base + 0x020 ∨ width ≠ 32 →
    s.port = { input := .access (.write addr width v), during := [] } :: rest →
    step s = .next
      (busWrite { s with port := rest, overlap := [], transit := .none, resp := [] } addr width v)) ∧
  ∀ (s : State) (v : Word),
    (csrReadAt (csrWriteAt s 0x02C v) 0x02C = v &&& 0x0000003F#32 ∧
      csrWriteAt s 0x02C v = { s with intEnable := (csrWriteAt s 0x02C v).intEnable }) ∧
    (csrReadAt (csrWriteAt s 0x030 v) 0x030 = v &&& 0x000000FF#32 ∧
      csrWriteAt s 0x030 v =
        { s with cfg := { s.cfg with channels := (csrWriteAt s 0x030 v).cfg.channels } }) ∧
    (csrReadAt (csrWriteAt s 0x034 v) 0x034 = v ∧
      csrWriteAt s 0x034 v = { s with cfg := { s.cfg with fftSize := v } }) ∧
    (csrReadAt (csrWriteAt s 0x038 v) 0x038 = v ∧
      csrWriteAt s 0x038 v = { s with cfg := { s.cfg with overlap := v } }) ∧
    (csrReadAt (csrWriteAt s 0x03C v) 0x03C = v &&& 0x000000FF#32 ∧
      csrWriteAt s 0x03C v =
        { s with cfg := { s.cfg with window := (csrWriteAt s 0x03C v).cfg.window } }) ∧
    (csrReadAt (csrWriteAt s 0x040 v) 0x040 = v ∧
      csrWriteAt s 0x040 v = { s with cfg := { s.cfg with block := v } }) ∧
    (csrReadAt (csrWriteAt s 0x044 v) 0x044 = v &&& 0x0003FFFF#32 ∧
      csrWriteAt s 0x044 v =
        { s with cfg := { s.cfg with streams := (csrWriteAt s 0x044 v).cfg.streams } })

/-- The registers that a bus write does not change: all but CMD, where a write submits a command
(10_state.md R59), INT_PENDING, INT_ENABLE and CFG_* (R80), the reserved offsets among them, which read 0
(R81). -/
def Obligations.OtherCsrWritesHaveNoEffect : Prop :=
  ∀ (s : State) (off : Nat) (v : Word),
    (off ≠ 0x020 → ¬(0x028 ≤ off ∧ off ≤ 0x044) → csrWriteAt s off v = s) ∧
    (off = 0x01C ∨ (0x048 ≤ off ∧ off ≤ 0x05C) ∨ 0x0A0 ≤ off → csrReadAt s off = 0#32)

/-- The registers after reset (10_state.md R44, R96; 70_reset_and_hazards.md R420), as bus reads of the
reference build (log 6) show them. -/
def Obligations.ResetRegistersReadTheirValues : Prop :=
  [0x000, 0x004, 0x008, 0x00C, 0x010, 0x014, 0x018, 0x020, 0x024, 0x028, 0x02C, 0x030, 0x034, 0x038,
    0x03C, 0x040, 0x044].map (csrReadAt State.reset) =
    [0x52544646#32, 0x00000007#32, 0x00001000#32, 0x00001000#32, 0x00001000#32, 0x000404FF#32,
      0x00001FFE#32, 0x00000000#32, 0x00000000#32, 0x00000000#32, 0x00000000#32, 0x00000000#32,
      0x00000800#32, 0x00000400#32, 0x00000000#32, 0x00000200#32, 0x00000101#32] ∧
  ([0x060, 0x064, 0x068, 0x06C, 0x070, 0x074, 0x078, 0x07C, 0x080, 0x084, 0x088, 0x08C, 0x090, 0x094,
    0x098, 0x09C].map (csrReadAt State.reset)).all (· == 0#32) = true ∧
  irq State.reset = false

/-! ### Bus accesses -/

/-- Which accesses get a bus error (60_exceptions.md R378 (a) to (c); 20_memory.md R120 to R127, R130,
R131): a read gets none exactly for an aligned 32-bit access to the CSR page or to an element in range. That
the offsets 0x01C0_0000 to 0x01FF_FFFF, which no row of R120 names, are refused is the model's reading
(DEDUCED, log 10). -/
def Obligations.BusReadsAreRefusedExactly : Prop :=
  ∀ (s : State) (addr width : Nat), s.build.Valid →
    ((readResponse s addr width).error = false ↔
      width = 32 ∧ ∃ off, addr = s.build.base + off ∧
        ((off < 0x1000 ∧ off % 4 = 0) ∨
         (∃ r n, r ∈ [Region.wsrcA, .wsrcS, .actA, .actS, .cola, .effsyn] ∧ n < s.build.nMax ∧
            off = tableOff r n) ∨
         (∃ u c f, u < s.build.inMax ∧ c < 255 ∧ f < s.build.stageFrames ∧
            off = stageOff s.build .stageIn u c f) ∨
         (∃ j c f, j < s.build.outMax ∧ c < 255 ∧ f < s.build.stageFrames ∧
            off = stageOff s.build .stageOut j c f) ∨
         (∃ u c k, u < s.build.inMax ∧ c < 255 ∧ k < s.build.nMax / 2 + 1 ∧
            (off = specOff s.build .specIn u c k ∨ off = specOff s.build .specIn u c k + 4)) ∨
         (∃ j c k, j < s.build.outMax ∧ c < 255 ∧ k < s.build.nMax / 2 + 1 ∧
            (off = specOff s.build .specOut j c k ∨ off = specOff s.build .specOut j c k + 4)))) ∧
    ((readResponse s addr width).error = true → (readResponse s addr width).data = some 0#32)

/-- A refused write has no effect but the error response; writes to the active tables are refused
(60_exceptions.md R378; 20_memory.md R129). -/
def Obligations.RefusedWritesHaveNoEffect : Prop :=
  ∀ (s : State) (addr width : Nat) (v : Word),
    ((readResponse s addr width).error = true →
      busWrite s addr width v = { s with resp := s.resp ++ [{ error := true, data := none }] }) ∧
    ∀ n r, s.build.Valid → r ∈ [Region.actA, .actS, .cola, .effsyn] → n < s.build.nMax →
      busWrite s (s.build.base + tableOff r n) 32 v =
        { s with resp := s.resp ++ [{ error := true, data := none }] }

/-- A performed write of a word of host-writable RAM is what a read of that word returns next, its lowest byte
at the lowest address, and it changes no byte outside the word and no register (20_memory.md R122, R124,
R125, R128, R129, R132). -/
def Obligations.RamWriteReadsBack : Prop :=
  ∀ (s : State) (off : Nat) (v : Word), s.build.Valid →
    (∃ n, n < s.build.nMax ∧ (off = tableOff .wsrcA n ∨ off = tableOff .wsrcS n)) ∨
    (∃ u c f, u < s.build.inMax ∧ c < 255 ∧ f < s.build.stageFrames ∧
      off = stageOff s.build .stageIn u c f) ∨
    (∃ j c f, j < s.build.outMax ∧ c < 255 ∧ f < s.build.stageFrames ∧
      off = stageOff s.build .stageOut j c f) ∨
    (∃ u c k, u < s.build.inMax ∧ c < 255 ∧ k < s.build.nMax / 2 + 1 ∧
      (off = specOff s.build .specIn u c k ∨ off = specOff s.build .specIn u c k + 4)) ∨
    (∃ j c k, j < s.build.outMax ∧ c < 255 ∧ k < s.build.nMax / 2 + 1 ∧
      (off = specOff s.build .specOut j c k ∨ off = specOff s.build .specOut j c k + 4)) →
    let addr := s.build.base + off
    let t := busWrite s addr 32 v
    readResponse t addr 32 = { error := false, data := some v } ∧
    t = { s with mem := t.mem, resp := s.resp ++ [{ error := false, data := none }] } ∧
    (∀ i, i < 4 → t.byteAt (off + i) = v.extractLsb' (8 * i) 8) ∧
    ∀ o, (o < off ∨ off + 4 ≤ o) → t.byteAt o = s.byteAt o

/-- A bus read changes nothing but the arrivals still to come and the response (20_memory.md R128, R134). At
BASE plus an offset of the register page it returns the register there, at BASE plus the offset of an element
its current word, also in the RAM a host may not write (42_window_cola.md R228). The constants, INT_ENABLE and
CFG_*, the active configuration and the counters read as 10_state.md R45 to R51, R52 to R58, R79 and R60 to
R70 say, in every state, and the active configuration and the counters read 0 in UNINIT
(44_engine_commands.md R317). -/
def Obligations.BusReadsReturnCurrentValues : Prop :=
  (∀ (s : State) (addr width : Nat) (rest : List Arrival), s.rst = false →
    s.port = { input := .access (.read addr width), during := [] } :: rest →
    step s = .next
      { s with port := rest, overlap := [], transit := .none, resp := [readResponse s addr width] }) ∧
  (∀ (s : State) (off : Nat), s.build.base % Config.windowBytes = 0 → off < 0x1000 → off % 4 = 0 →
    readResponse s (s.build.base + off) 32 = { error := false, data := some (csrReadAt s off) }) ∧
  (∀ (s : State) (off : Nat), s.build.Valid → IsElementWord s.build off →
    readResponse s (s.build.base + off) 32 = { error := false, data := some (s.wordAt off) }) ∧
  (∀ s : State,
    [0x000, 0x004, 0x008, 0x00C, 0x010, 0x018, 0x020].map (csrReadAt s) =
      [0x52544646#32, 0x00000007#32, BitVec.ofNat 32 s.build.nMax, BitVec.ofNat 32 s.build.bMax,
        BitVec.ofNat 32 s.build.stageFrames, s.build.fftSizes, 0x00000000#32] ∧
    (csrReadAt s 0x014).extractLsb' 0 8 = 255#8 ∧
    (csrReadAt s 0x014).extractLsb' 8 8 = BitVec.ofNat 8 s.build.inMax ∧
    (csrReadAt s 0x014).extractLsb' 16 8 = BitVec.ofNat 8 s.build.outMax ∧
    (csrReadAt s 0x014).extractLsb' 24 8 = 0#8 ∧
    [0x02C, 0x030, 0x034, 0x038, 0x03C, 0x040, 0x044].map (csrReadAt s) =
      [s.intEnable.setWidth 32, s.cfg.channels.setWidth 32, s.cfg.fftSize, s.cfg.overlap,
        s.cfg.window.setWidth 32, s.cfg.block, s.cfg.streams.setWidth 32] ∧
    [0x060, 0x064, 0x068, 0x06C, 0x070, 0x074, 0x078, 0x07C].map (csrReadAt s) =
      [s.act.fftSize, s.act.overlap, s.act.hop, s.act.windowSize, s.act.block,
        s.act.channels.setWidth 32, s.act.window.setWidth 32, s.act.streams.setWidth 32] ∧
    [0x080, 0x084, 0x088, 0x08C, 0x090, 0x094, 0x098, 0x09C].map (csrReadAt s) =
      [s.act.latency, s.act.spectrumSize, s.act.inCap, s.act.outCap, BitVec.ofNat 32 s.inIx.avail,
        BitVec.ofNat 32 s.outIx.avail, s.frameCount, s.lastFrames]) ∧
  ∀ (s : State) (off : Nat), Inv s → s.seq = .uninit → 0x060 ≤ off → off ≤ 0x09C →
    csrReadAt s off = 0x00000000#32

/-- A hardware reset from any state (70_reset_and_hazards.md R420): every register, index and RAM word as
after reset; while rst is asserted a bus access has no effect and gets no response. What stays of the
model's own fields is the model's choice (log 17). -/
def Obligations.HardwareResetRestoresResetState : Prop :=
  ∀ (s : State) (rest : List Arrival) (a : BusAccess),
    (s.port = { input := .rst true, during := [] } :: rest →
      step s = .next { State.reset with
        rst := true, build := s.build, port := rest, adapterOk := s.adapterOk, draws := s.draws,
        epoch := s.epoch + 1 }) ∧
    (s.port = { input := .rst false, during := [] } :: rest →
      step s = .next { s with rst := false, port := rest, overlap := [], transit := .none, resp := [] }) ∧
    (s.rst = true → s.port = { input := .access a, during := [] } :: rest →
      step s = .next { s with port := rest, overlap := [], transit := .none, resp := [] })

/-! ### Whole-machine rules -/

/-- The state after reset meets the invariant, its parameters those of the reference build (log 6). -/
def Obligations.ResetMeetsInvariant : Prop := Inv State.reset

/-- Every step keeps the invariant, whatever arrives and whatever lands while a command runs: legal
active configurations, cursors and fills within capacity (10_state.md R85, R86), in_avail < N in READY
(R94), XWAIT exactly while a frame is pending (R42), FAULT_CODE exactly in FAULT (R76), valid COLA tables
(42_window_cola.md R224, R227), canonical storage. -/
def Obligations.StepKeepsInvariant : Prop :=
  ∀ s t : State, Inv s → step s = .next t → Inv t

/-- The model's own choices of form: its store lists are canonical (log 5, log 13) and the parameters are a
field of its state (log 6). From every state, reachable or not, a step keeps every store in canonical form
and the parameters as they are. -/
def Obligations.StepKeepsStorageCanonical : Prop :=
  ∀ s t : State, StorageWf s → step s = .next t → StorageWf t ∧ t.build = s.build

/-- Only a command INIT changes the active tables: SET_BLOCK, WRITE, READ, XDONE, NOP and SRESET leave
every byte of ACT_A, ACT_S, COLA and EFFSYN (42_window_cola.md R227; 70_reset_and_hazards.md R423). -/
def Obligations.TablesChangeOnlyByInit : Prop :=
  ∀ (i : Instr) (s t : State), Inv s → (∀ a, i ≠ .init a) → exec i s = .next t →
    ∀ off r, regionOf off = some r → r ∈ [Region.actA, .actS, .cola, .effsyn] →
      t.byteAt off = s.byteAt off

/-- FAULT is left only by INIT and SRESET (or a hardware reset): every other command leaves the state in
FAULT with its cause (60_exceptions.md R377). -/
def Obligations.FaultIsLeftOnlyByInitOrSreset : Prop :=
  ∀ (i : Instr) (s t : State), Quiet s → s.seq = .fault → (∀ a, i ≠ .init a) → (∀ a, i ≠ .sreset a) →
    exec i s = .next t → t.seq = .fault ∧ t.faultCode = s.faultCode

/-! ### Arithmetic -/

/-- A NaN result is a quiet NaN (00_scope.md R17): exponent all ones and the top fraction bit 1, whatever
the draw. -/
def Obligations.NanResultsAreQuiet : Prop :=
  ∀ (d a b r : Word), r = fadd d a b ∨ r = fmul d a b ∨ r = fdiv d a b → f32IsNan r = true →
    r &&& 0x7FC00000#32 = 0x7FC00000#32

/-- Rounding is to the nearest multiple, ties to the even quotient (00_scope.md R16). -/
def Obligations.RoundingIsToNearestEven : Prop :=
  ∀ m k : Nat,
    2 * m ≤ (2 * roundShift m k + 1) * 2 ^ k ∧ 2 * roundShift m k * 2 ^ k ≤ 2 * m + 2 ^ k ∧
    ((2 * m = (2 * roundShift m k + 1) * 2 ^ k ∨ 2 * roundShift m k * 2 ^ k = 2 * m + 2 ^ k) →
      roundShift m k % 2 = 0)

/-- Multiplying and dividing by 1.0 and adding -0.0 give back every word that is no NaN, and the sum and the
product do not depend on the order of their operands. fgt is false on a NaN, and on the other words it orders
the positive by their bits, the negative by their bits downwards, and a negative below a positive unless both
are zeros (00_scope.md R16). -/
def Obligations.FloatIdentitiesAndCommutation : Prop :=
  (∀ d x : Word, f32IsNan x = false →
    fmul d x 0x3F800000#32 = x ∧ fdiv d x 0x3F800000#32 = x ∧ fadd d x 0x80000000#32 = x) ∧
  (∀ d x y : Word, fadd d x y = fadd d y x ∧ fmul d x y = fmul d y x) ∧
  ∀ x y : Word,
    (f32IsNan x = true ∨ f32IsNan y = true → fgt x y = false) ∧
    (f32IsNan x = false → f32IsNan y = false →
      (x.getLsbD 31 = false → y.getLsbD 31 = false → (fgt x y = true ↔ y < x)) ∧
      (x.getLsbD 31 = true → y.getLsbD 31 = true → (fgt x y = true ↔ x < y)) ∧
      (x.getLsbD 31 = false → y.getLsbD 31 = true →
        (fgt x y = true ↔ ¬(x = 0x00000000#32 ∧ y = 0x80000000#32))) ∧
      (x.getLsbD 31 = true → y.getLsbD 31 = false → fgt x y = false))

/-- On finite words the sum, the product and the quotient are the exact ones rounded once, to the nearest
float32, ties to the even fraction, and fgt compares the values; subnormals are values like any other. A
product and a quotient have the sign of their operands' signs, a sum of 0 is -0.0 only of two negatives, and
a quotient by a zero is an infinity, or NaN for a zero dividend (00_scope.md R16, R17). -/
def Obligations.ArithmeticIsCorrectlyRounded : Prop :=
  ∀ d a b : Word, f32Finite a = true → f32Finite b = true →
    RoundsTo (fadd d a b) (f32Value a + f32Value b) ∧
    RoundsTo (fmul d a b) (f32Value a * f32Value b) ∧
    (f32Value b ≠ 0 → RoundsTo (fdiv d a b) (f32Value a / f32Value b)) ∧
    (fgt a b = true ↔ f32Value b < f32Value a) ∧
    (f32Value a + f32Value b = 0 →
      fadd d a b = if a.getLsbD 31 && b.getLsbD 31 then 0x80000000#32 else 0x00000000#32) ∧
    (fmul d a b).getLsbD 31 = (a.getLsbD 31 != b.getLsbD 31) ∧
    (f32Value b ≠ 0 → (fdiv d a b).getLsbD 31 = (a.getLsbD 31 != b.getLsbD 31)) ∧
    (f32Value b = 0 → f32Value a ≠ 0 →
      fdiv d a b = if a.getLsbD 31 != b.getLsbD 31 then 0xFF800000#32 else 0x7F800000#32) ∧
    (f32Value b = 0 → f32Value a = 0 → f32IsNan (fdiv d a b) = true)
end

