-- ==== Sys2Proof/Laws/State.lean ====
section
/-! SUPPORT. For every named update of the state, what each field is afterwards. -/

namespace Sys2Proof.Machine

/-! #### acceptCmd -/

@[simp] theorem acceptCmd_seq (s : State) : (acceptCmd s).seq = s.seq := rfl
@[simp] theorem acceptCmd_frameCtx (s : State) : (acceptCmd s).frameCtx = s.frameCtx := rfl
@[simp] theorem acceptCmd_busy (s : State) : (acceptCmd s).busy = true := rfl
@[simp] theorem acceptCmd_underflow (s : State) : (acceptCmd s).underflow = s.underflow := rfl
@[simp] theorem acceptCmd_initResult (s : State) : (acceptCmd s).initResult = s.initResult := rfl
@[simp] theorem acceptCmd_faultCode (s : State) : (acceptCmd s).faultCode = s.faultCode := rfl
@[simp] theorem acceptCmd_cmdErr (s : State) : (acceptCmd s).cmdErr = s.cmdErr := rfl
@[simp] theorem acceptCmd_sticky (s : State) : (acceptCmd s).sticky = s.sticky := rfl
@[simp] theorem acceptCmd_intEnable (s : State) : (acceptCmd s).intEnable = s.intEnable := rfl
@[simp] theorem acceptCmd_cfg (s : State) : (acceptCmd s).cfg = s.cfg := rfl
@[simp] theorem acceptCmd_act (s : State) : (acceptCmd s).act = s.act := rfl
@[simp] theorem acceptCmd_inIx (s : State) : (acceptCmd s).inIx = s.inIx := rfl
@[simp] theorem acceptCmd_outIx (s : State) : (acceptCmd s).outIx = s.outIx := rfl
@[simp] theorem acceptCmd_frameCount (s : State) : (acceptCmd s).frameCount = s.frameCount := rfl
@[simp] theorem acceptCmd_lastFrames (s : State) : (acceptCmd s).lastFrames = s.lastFrames := rfl
@[simp] theorem acceptCmd_mem (s : State) : (acceptCmd s).mem = s.mem := rfl
@[simp] theorem acceptCmd_ringIn (s : State) : (acceptCmd s).ringIn = s.ringIn := rfl
@[simp] theorem acceptCmd_ringOut (s : State) : (acceptCmd s).ringOut = s.ringOut := rfl
@[simp] theorem acceptCmd_tail (s : State) : (acceptCmd s).tail = s.tail := rfl
@[simp] theorem acceptCmd_tb (s : State) : (acceptCmd s).tb = s.tb := rfl
@[simp] theorem acceptCmd_y (s : State) : (acceptCmd s).y = s.y := rfl
@[simp] theorem acceptCmd_res (s : State) : (acceptCmd s).res = s.res := rfl
@[simp] theorem acceptCmd_rst (s : State) : (acceptCmd s).rst = s.rst := rfl
@[simp] theorem acceptCmd_build (s : State) : (acceptCmd s).build = s.build := rfl
@[simp] theorem acceptCmd_port (s : State) : (acceptCmd s).port = s.port := rfl
@[simp] theorem acceptCmd_overlap (s : State) : (acceptCmd s).overlap = s.overlap := rfl
@[simp] theorem acceptCmd_transit (s : State) :
    (acceptCmd s).transit = { s.transit with watched := watchedReads s } := rfl
@[simp] theorem acceptCmd_resp (s : State) : (acceptCmd s).resp = s.resp := rfl
@[simp] theorem acceptCmd_adapterOk (s : State) : (acceptCmd s).adapterOk = s.adapterOk := rfl
@[simp] theorem acceptCmd_draws (s : State) : (acceptCmd s).draws = s.draws := rfl
@[simp] theorem acceptCmd_epoch (s : State) : (acceptCmd s).epoch = s.epoch := rfl

/-! #### completeCmd -/

@[simp] theorem completeCmd_seq (s : State) : (completeCmd s).seq = s.seq := rfl
@[simp] theorem completeCmd_frameCtx (s : State) : (completeCmd s).frameCtx = s.frameCtx := rfl
@[simp] theorem completeCmd_busy (s : State) : (completeCmd s).busy = false := rfl
@[simp] theorem completeCmd_underflow (s : State) : (completeCmd s).underflow = s.underflow := rfl
@[simp] theorem completeCmd_initResult (s : State) : (completeCmd s).initResult = s.initResult := rfl
@[simp] theorem completeCmd_faultCode (s : State) : (completeCmd s).faultCode = s.faultCode := rfl
@[simp] theorem completeCmd_cmdErr (s : State) : (completeCmd s).cmdErr = s.cmdErr := rfl
@[simp] theorem completeCmd_sticky (s : State) :
    (completeCmd s).sticky = { s.sticky with done := true } := rfl
@[simp] theorem completeCmd_intEnable (s : State) : (completeCmd s).intEnable = s.intEnable := rfl
@[simp] theorem completeCmd_cfg (s : State) : (completeCmd s).cfg = s.cfg := rfl
@[simp] theorem completeCmd_act (s : State) : (completeCmd s).act = s.act := rfl
@[simp] theorem completeCmd_inIx (s : State) : (completeCmd s).inIx = s.inIx := rfl
@[simp] theorem completeCmd_outIx (s : State) : (completeCmd s).outIx = s.outIx := rfl
@[simp] theorem completeCmd_frameCount (s : State) : (completeCmd s).frameCount = s.frameCount := rfl
@[simp] theorem completeCmd_lastFrames (s : State) : (completeCmd s).lastFrames = s.lastFrames := rfl
@[simp] theorem completeCmd_mem (s : State) : (completeCmd s).mem = s.mem := rfl
@[simp] theorem completeCmd_ringIn (s : State) : (completeCmd s).ringIn = s.ringIn := rfl
@[simp] theorem completeCmd_ringOut (s : State) : (completeCmd s).ringOut = s.ringOut := rfl
@[simp] theorem completeCmd_tail (s : State) : (completeCmd s).tail = s.tail := rfl
@[simp] theorem completeCmd_tb (s : State) : (completeCmd s).tb = s.tb := rfl
@[simp] theorem completeCmd_y (s : State) : (completeCmd s).y = s.y := rfl
@[simp] theorem completeCmd_res (s : State) : (completeCmd s).res = s.res := rfl
@[simp] theorem completeCmd_rst (s : State) : (completeCmd s).rst = s.rst := rfl
@[simp] theorem completeCmd_build (s : State) : (completeCmd s).build = s.build := rfl
@[simp] theorem completeCmd_port (s : State) : (completeCmd s).port = s.port := rfl
@[simp] theorem completeCmd_overlap (s : State) : (completeCmd s).overlap = s.overlap := rfl
@[simp] theorem completeCmd_transit (s : State) : (completeCmd s).transit = s.transit := rfl
@[simp] theorem completeCmd_resp (s : State) : (completeCmd s).resp = s.resp := rfl
@[simp] theorem completeCmd_adapterOk (s : State) : (completeCmd s).adapterOk = s.adapterOk := rfl
@[simp] theorem completeCmd_draws (s : State) : (completeCmd s).draws = s.draws := rfl
@[simp] theorem completeCmd_epoch (s : State) : (completeCmd s).epoch = s.epoch := rfl

/-! #### rejectCmd -/

@[simp] theorem rejectCmd_seq (e : CmdErr) (s : State) : (rejectCmd e s).seq = s.seq := rfl
@[simp] theorem rejectCmd_frameCtx (e : CmdErr) (s : State) : (rejectCmd e s).frameCtx = s.frameCtx := rfl
@[simp] theorem rejectCmd_busy (e : CmdErr) (s : State) : (rejectCmd e s).busy = s.busy := rfl
@[simp] theorem rejectCmd_underflow (e : CmdErr) (s : State) : (rejectCmd e s).underflow = s.underflow := rfl
@[simp] theorem rejectCmd_initResult (e : CmdErr) (s : State) :
    (rejectCmd e s).initResult = s.initResult := rfl
@[simp] theorem rejectCmd_faultCode (e : CmdErr) (s : State) : (rejectCmd e s).faultCode = s.faultCode := rfl
@[simp] theorem rejectCmd_cmdErr (e : CmdErr) (s : State) : (rejectCmd e s).cmdErr = e := rfl
@[simp] theorem rejectCmd_sticky (e : CmdErr) (s : State) :
    (rejectCmd e s).sticky = { s.sticky with cmdErr := true } := rfl
@[simp] theorem rejectCmd_intEnable (e : CmdErr) (s : State) : (rejectCmd e s).intEnable = s.intEnable := rfl
@[simp] theorem rejectCmd_cfg (e : CmdErr) (s : State) : (rejectCmd e s).cfg = s.cfg := rfl
@[simp] theorem rejectCmd_act (e : CmdErr) (s : State) : (rejectCmd e s).act = s.act := rfl
@[simp] theorem rejectCmd_inIx (e : CmdErr) (s : State) : (rejectCmd e s).inIx = s.inIx := rfl
@[simp] theorem rejectCmd_outIx (e : CmdErr) (s : State) : (rejectCmd e s).outIx = s.outIx := rfl
@[simp] theorem rejectCmd_frameCount (e : CmdErr) (s : State) :
    (rejectCmd e s).frameCount = s.frameCount := rfl
@[simp] theorem rejectCmd_lastFrames (e : CmdErr) (s : State) :
    (rejectCmd e s).lastFrames = s.lastFrames := rfl
@[simp] theorem rejectCmd_mem (e : CmdErr) (s : State) : (rejectCmd e s).mem = s.mem := rfl
@[simp] theorem rejectCmd_ringIn (e : CmdErr) (s : State) : (rejectCmd e s).ringIn = s.ringIn := rfl
@[simp] theorem rejectCmd_ringOut (e : CmdErr) (s : State) : (rejectCmd e s).ringOut = s.ringOut := rfl
@[simp] theorem rejectCmd_tail (e : CmdErr) (s : State) : (rejectCmd e s).tail = s.tail := rfl
@[simp] theorem rejectCmd_tb (e : CmdErr) (s : State) : (rejectCmd e s).tb = s.tb := rfl
@[simp] theorem rejectCmd_y (e : CmdErr) (s : State) : (rejectCmd e s).y = s.y := rfl
@[simp] theorem rejectCmd_res (e : CmdErr) (s : State) : (rejectCmd e s).res = s.res := rfl
@[simp] theorem rejectCmd_rst (e : CmdErr) (s : State) : (rejectCmd e s).rst = s.rst := rfl
@[simp] theorem rejectCmd_build (e : CmdErr) (s : State) : (rejectCmd e s).build = s.build := rfl
@[simp] theorem rejectCmd_port (e : CmdErr) (s : State) : (rejectCmd e s).port = s.port := rfl
@[simp] theorem rejectCmd_overlap (e : CmdErr) (s : State) : (rejectCmd e s).overlap = s.overlap := rfl
@[simp] theorem rejectCmd_transit (e : CmdErr) (s : State) : (rejectCmd e s).transit = s.transit := rfl
@[simp] theorem rejectCmd_resp (e : CmdErr) (s : State) : (rejectCmd e s).resp = s.resp := rfl
@[simp] theorem rejectCmd_adapterOk (e : CmdErr) (s : State) : (rejectCmd e s).adapterOk = s.adapterOk := rfl
@[simp] theorem rejectCmd_draws (e : CmdErr) (s : State) : (rejectCmd e s).draws = s.draws := rfl
@[simp] theorem rejectCmd_epoch (e : CmdErr) (s : State) : (rejectCmd e s).epoch = s.epoch := rfl

/-! #### raiseFault -/

@[simp] theorem raiseFault_seq (e : FaultCode) (s : State) : (raiseFault e s).seq = .fault := rfl
@[simp] theorem raiseFault_frameCtx (e : FaultCode) (s : State) :
    (raiseFault e s).frameCtx = s.frameCtx := rfl
@[simp] theorem raiseFault_busy (e : FaultCode) (s : State) : (raiseFault e s).busy = false := rfl
@[simp] theorem raiseFault_underflow (e : FaultCode) (s : State) :
    (raiseFault e s).underflow = s.underflow := rfl
@[simp] theorem raiseFault_initResult (e : FaultCode) (s : State) :
    (raiseFault e s).initResult = s.initResult := rfl
@[simp] theorem raiseFault_faultCode (e : FaultCode) (s : State) : (raiseFault e s).faultCode = e := rfl
@[simp] theorem raiseFault_cmdErr (e : FaultCode) (s : State) : (raiseFault e s).cmdErr = s.cmdErr := rfl
@[simp] theorem raiseFault_sticky (e : FaultCode) (s : State) : (raiseFault e s).sticky = s.sticky := rfl
@[simp] theorem raiseFault_intEnable (e : FaultCode) (s : State) :
    (raiseFault e s).intEnable = s.intEnable := rfl
@[simp] theorem raiseFault_cfg (e : FaultCode) (s : State) : (raiseFault e s).cfg = s.cfg := rfl
@[simp] theorem raiseFault_act (e : FaultCode) (s : State) : (raiseFault e s).act = s.act := rfl
@[simp] theorem raiseFault_inIx (e : FaultCode) (s : State) : (raiseFault e s).inIx = s.inIx := rfl
@[simp] theorem raiseFault_outIx (e : FaultCode) (s : State) : (raiseFault e s).outIx = s.outIx := rfl
@[simp] theorem raiseFault_frameCount (e : FaultCode) (s : State) :
    (raiseFault e s).frameCount = s.frameCount := rfl
@[simp] theorem raiseFault_lastFrames (e : FaultCode) (s : State) :
    (raiseFault e s).lastFrames = s.lastFrames := rfl
@[simp] theorem raiseFault_mem (e : FaultCode) (s : State) : (raiseFault e s).mem = s.mem := rfl
@[simp] theorem raiseFault_ringIn (e : FaultCode) (s : State) : (raiseFault e s).ringIn = s.ringIn := rfl
@[simp] theorem raiseFault_ringOut (e : FaultCode) (s : State) : (raiseFault e s).ringOut = s.ringOut := rfl
@[simp] theorem raiseFault_tail (e : FaultCode) (s : State) : (raiseFault e s).tail = s.tail := rfl
@[simp] theorem raiseFault_tb (e : FaultCode) (s : State) : (raiseFault e s).tb = s.tb := rfl
@[simp] theorem raiseFault_y (e : FaultCode) (s : State) : (raiseFault e s).y = s.y := rfl
@[simp] theorem raiseFault_res (e : FaultCode) (s : State) : (raiseFault e s).res = s.res := rfl
@[simp] theorem raiseFault_rst (e : FaultCode) (s : State) : (raiseFault e s).rst = s.rst := rfl
@[simp] theorem raiseFault_build (e : FaultCode) (s : State) : (raiseFault e s).build = s.build := rfl
@[simp] theorem raiseFault_port (e : FaultCode) (s : State) : (raiseFault e s).port = s.port := rfl
@[simp] theorem raiseFault_overlap (e : FaultCode) (s : State) : (raiseFault e s).overlap = s.overlap := rfl
@[simp] theorem raiseFault_transit (e : FaultCode) (s : State) : (raiseFault e s).transit = s.transit := rfl
@[simp] theorem raiseFault_resp (e : FaultCode) (s : State) : (raiseFault e s).resp = s.resp := rfl
@[simp] theorem raiseFault_adapterOk (e : FaultCode) (s : State) :
    (raiseFault e s).adapterOk = s.adapterOk := rfl
@[simp] theorem raiseFault_draws (e : FaultCode) (s : State) : (raiseFault e s).draws = s.draws := rfl
@[simp] theorem raiseFault_epoch (e : FaultCode) (s : State) : (raiseFault e s).epoch = s.epoch := rfl

/-! #### respond -/

@[simp] theorem respond_seq (r : Response) (s : State) : (respond r s).seq = s.seq := rfl
@[simp] theorem respond_frameCtx (r : Response) (s : State) : (respond r s).frameCtx = s.frameCtx := rfl
@[simp] theorem respond_busy (r : Response) (s : State) : (respond r s).busy = s.busy := rfl
@[simp] theorem respond_underflow (r : Response) (s : State) : (respond r s).underflow = s.underflow := rfl
@[simp] theorem respond_initResult (r : Response) (s : State) : (respond r s).initResult = s.initResult := rfl
@[simp] theorem respond_faultCode (r : Response) (s : State) : (respond r s).faultCode = s.faultCode := rfl
@[simp] theorem respond_cmdErr (r : Response) (s : State) : (respond r s).cmdErr = s.cmdErr := rfl
@[simp] theorem respond_sticky (r : Response) (s : State) : (respond r s).sticky = s.sticky := rfl
@[simp] theorem respond_intEnable (r : Response) (s : State) : (respond r s).intEnable = s.intEnable := rfl
@[simp] theorem respond_cfg (r : Response) (s : State) : (respond r s).cfg = s.cfg := rfl
@[simp] theorem respond_act (r : Response) (s : State) : (respond r s).act = s.act := rfl
@[simp] theorem respond_inIx (r : Response) (s : State) : (respond r s).inIx = s.inIx := rfl
@[simp] theorem respond_outIx (r : Response) (s : State) : (respond r s).outIx = s.outIx := rfl
@[simp] theorem respond_frameCount (r : Response) (s : State) : (respond r s).frameCount = s.frameCount := rfl
@[simp] theorem respond_lastFrames (r : Response) (s : State) : (respond r s).lastFrames = s.lastFrames := rfl
@[simp] theorem respond_mem (r : Response) (s : State) : (respond r s).mem = s.mem := rfl
@[simp] theorem respond_ringIn (r : Response) (s : State) : (respond r s).ringIn = s.ringIn := rfl
@[simp] theorem respond_ringOut (r : Response) (s : State) : (respond r s).ringOut = s.ringOut := rfl
@[simp] theorem respond_tail (r : Response) (s : State) : (respond r s).tail = s.tail := rfl
@[simp] theorem respond_tb (r : Response) (s : State) : (respond r s).tb = s.tb := rfl
@[simp] theorem respond_y (r : Response) (s : State) : (respond r s).y = s.y := rfl
@[simp] theorem respond_res (r : Response) (s : State) : (respond r s).res = s.res := rfl
@[simp] theorem respond_rst (r : Response) (s : State) : (respond r s).rst = s.rst := rfl
@[simp] theorem respond_build (r : Response) (s : State) : (respond r s).build = s.build := rfl
@[simp] theorem respond_port (r : Response) (s : State) : (respond r s).port = s.port := rfl
@[simp] theorem respond_overlap (r : Response) (s : State) : (respond r s).overlap = s.overlap := rfl
@[simp] theorem respond_transit (r : Response) (s : State) : (respond r s).transit = s.transit := rfl
@[simp] theorem respond_resp (r : Response) (s : State) : (respond r s).resp = s.resp ++ [r] := rfl
@[simp] theorem respond_adapterOk (r : Response) (s : State) : (respond r s).adapterOk = s.adapterOk := rfl
@[simp] theorem respond_draws (r : Response) (s : State) : (respond r s).draws = s.draws := rfl
@[simp] theorem respond_epoch (r : Response) (s : State) : (respond r s).epoch = s.epoch := rfl

/-! #### freshDraws -/

@[simp] theorem freshDraws_seq (s : State) : (freshDraws s).seq = s.seq := rfl
@[simp] theorem freshDraws_frameCtx (s : State) : (freshDraws s).frameCtx = s.frameCtx := rfl
@[simp] theorem freshDraws_busy (s : State) : (freshDraws s).busy = s.busy := rfl
@[simp] theorem freshDraws_underflow (s : State) : (freshDraws s).underflow = s.underflow := rfl
@[simp] theorem freshDraws_initResult (s : State) : (freshDraws s).initResult = s.initResult := rfl
@[simp] theorem freshDraws_faultCode (s : State) : (freshDraws s).faultCode = s.faultCode := rfl
@[simp] theorem freshDraws_cmdErr (s : State) : (freshDraws s).cmdErr = s.cmdErr := rfl
@[simp] theorem freshDraws_sticky (s : State) : (freshDraws s).sticky = s.sticky := rfl
@[simp] theorem freshDraws_intEnable (s : State) : (freshDraws s).intEnable = s.intEnable := rfl
@[simp] theorem freshDraws_cfg (s : State) : (freshDraws s).cfg = s.cfg := rfl
@[simp] theorem freshDraws_act (s : State) : (freshDraws s).act = s.act := rfl
@[simp] theorem freshDraws_inIx (s : State) : (freshDraws s).inIx = s.inIx := rfl
@[simp] theorem freshDraws_outIx (s : State) : (freshDraws s).outIx = s.outIx := rfl
@[simp] theorem freshDraws_frameCount (s : State) : (freshDraws s).frameCount = s.frameCount := rfl
@[simp] theorem freshDraws_lastFrames (s : State) : (freshDraws s).lastFrames = s.lastFrames := rfl
@[simp] theorem freshDraws_mem (s : State) : (freshDraws s).mem = s.mem := rfl
@[simp] theorem freshDraws_ringIn (s : State) : (freshDraws s).ringIn = s.ringIn := rfl
@[simp] theorem freshDraws_ringOut (s : State) : (freshDraws s).ringOut = s.ringOut := rfl
@[simp] theorem freshDraws_tail (s : State) : (freshDraws s).tail = s.tail := rfl
@[simp] theorem freshDraws_tb (s : State) : (freshDraws s).tb = s.tb := rfl
@[simp] theorem freshDraws_y (s : State) : (freshDraws s).y = s.y := rfl
@[simp] theorem freshDraws_res (s : State) : (freshDraws s).res = s.res := rfl
@[simp] theorem freshDraws_rst (s : State) : (freshDraws s).rst = s.rst := rfl
@[simp] theorem freshDraws_build (s : State) : (freshDraws s).build = s.build := rfl
@[simp] theorem freshDraws_port (s : State) : (freshDraws s).port = s.port := rfl
@[simp] theorem freshDraws_overlap (s : State) : (freshDraws s).overlap = s.overlap := rfl
@[simp] theorem freshDraws_transit (s : State) : (freshDraws s).transit = s.transit := rfl
@[simp] theorem freshDraws_resp (s : State) : (freshDraws s).resp = s.resp := rfl
@[simp] theorem freshDraws_adapterOk (s : State) : (freshDraws s).adapterOk = s.adapterOk := rfl
@[simp] theorem freshDraws_draws (s : State) : (freshDraws s).draws = s.draws + 1 := rfl
@[simp] theorem freshDraws_epoch (s : State) : (freshDraws s).epoch = s.epoch := rfl

/-! #### rbClear -/

@[simp] theorem rbClear_seq (cap : Nat) (s : State) : (rbClear cap s).seq = s.seq := rfl
@[simp] theorem rbClear_frameCtx (cap : Nat) (s : State) : (rbClear cap s).frameCtx = s.frameCtx := rfl
@[simp] theorem rbClear_busy (cap : Nat) (s : State) : (rbClear cap s).busy = s.busy := rfl
@[simp] theorem rbClear_underflow (cap : Nat) (s : State) : (rbClear cap s).underflow = s.underflow := rfl
@[simp] theorem rbClear_initResult (cap : Nat) (s : State) : (rbClear cap s).initResult = s.initResult := rfl
@[simp] theorem rbClear_faultCode (cap : Nat) (s : State) : (rbClear cap s).faultCode = s.faultCode := rfl
@[simp] theorem rbClear_cmdErr (cap : Nat) (s : State) : (rbClear cap s).cmdErr = s.cmdErr := rfl
@[simp] theorem rbClear_sticky (cap : Nat) (s : State) : (rbClear cap s).sticky = s.sticky := rfl
@[simp] theorem rbClear_intEnable (cap : Nat) (s : State) : (rbClear cap s).intEnable = s.intEnable := rfl
@[simp] theorem rbClear_cfg (cap : Nat) (s : State) : (rbClear cap s).cfg = s.cfg := rfl
@[simp] theorem rbClear_act (cap : Nat) (s : State) :
    (rbClear cap s).act = { s.act with outCap := wordOfNat cap } := rfl
@[simp] theorem rbClear_inIx (cap : Nat) (s : State) : (rbClear cap s).inIx = s.inIx := rfl
@[simp] theorem rbClear_outIx (cap : Nat) (s : State) : (rbClear cap s).outIx = RingIx.zero := rfl
@[simp] theorem rbClear_frameCount (cap : Nat) (s : State) : (rbClear cap s).frameCount = s.frameCount := rfl
@[simp] theorem rbClear_lastFrames (cap : Nat) (s : State) : (rbClear cap s).lastFrames = s.lastFrames := rfl
@[simp] theorem rbClear_mem (cap : Nat) (s : State) : (rbClear cap s).mem = s.mem := rfl
@[simp] theorem rbClear_ringIn (cap : Nat) (s : State) : (rbClear cap s).ringIn = s.ringIn := rfl
@[simp] theorem rbClear_ringOut (cap : Nat) (s : State) : (rbClear cap s).ringOut = s.ringOut := rfl
@[simp] theorem rbClear_tail (cap : Nat) (s : State) : (rbClear cap s).tail = s.tail := rfl
@[simp] theorem rbClear_tb (cap : Nat) (s : State) : (rbClear cap s).tb = s.tb := rfl
@[simp] theorem rbClear_y (cap : Nat) (s : State) : (rbClear cap s).y = s.y := rfl
@[simp] theorem rbClear_res (cap : Nat) (s : State) : (rbClear cap s).res = s.res := rfl
@[simp] theorem rbClear_rst (cap : Nat) (s : State) : (rbClear cap s).rst = s.rst := rfl
@[simp] theorem rbClear_build (cap : Nat) (s : State) : (rbClear cap s).build = s.build := rfl
@[simp] theorem rbClear_port (cap : Nat) (s : State) : (rbClear cap s).port = s.port := rfl
@[simp] theorem rbClear_overlap (cap : Nat) (s : State) : (rbClear cap s).overlap = s.overlap := rfl
@[simp] theorem rbClear_transit (cap : Nat) (s : State) : (rbClear cap s).transit = s.transit := rfl
@[simp] theorem rbClear_resp (cap : Nat) (s : State) : (rbClear cap s).resp = s.resp := rfl
@[simp] theorem rbClear_adapterOk (cap : Nat) (s : State) : (rbClear cap s).adapterOk = s.adapterOk := rfl
@[simp] theorem rbClear_draws (cap : Nat) (s : State) : (rbClear cap s).draws = s.draws := rfl
@[simp] theorem rbClear_epoch (cap : Nat) (s : State) : (rbClear cap s).epoch = s.epoch := rfl

/-! #### rbWrite -/

@[simp] theorem rbWrite_seq (src : Nat → Nat → Nat → F32) (n : Nat) (s : State) :
    (rbWrite src n s).seq = s.seq := rfl
@[simp] theorem rbWrite_frameCtx (src : Nat → Nat → Nat → F32) (n : Nat) (s : State) :
    (rbWrite src n s).frameCtx = s.frameCtx := rfl
@[simp] theorem rbWrite_busy (src : Nat → Nat → Nat → F32) (n : Nat) (s : State) :
    (rbWrite src n s).busy = s.busy := rfl
@[simp] theorem rbWrite_underflow (src : Nat → Nat → Nat → F32) (n : Nat) (s : State) :
    (rbWrite src n s).underflow = s.underflow := rfl
@[simp] theorem rbWrite_initResult (src : Nat → Nat → Nat → F32) (n : Nat) (s : State) :
    (rbWrite src n s).initResult = s.initResult := rfl
@[simp] theorem rbWrite_faultCode (src : Nat → Nat → Nat → F32) (n : Nat) (s : State) :
    (rbWrite src n s).faultCode = s.faultCode := rfl
@[simp] theorem rbWrite_cmdErr (src : Nat → Nat → Nat → F32) (n : Nat) (s : State) :
    (rbWrite src n s).cmdErr = s.cmdErr := rfl
@[simp] theorem rbWrite_sticky (src : Nat → Nat → Nat → F32) (n : Nat) (s : State) :
    (rbWrite src n s).sticky = s.sticky := rfl
@[simp] theorem rbWrite_intEnable (src : Nat → Nat → Nat → F32) (n : Nat) (s : State) :
    (rbWrite src n s).intEnable = s.intEnable := rfl
@[simp] theorem rbWrite_cfg (src : Nat → Nat → Nat → F32) (n : Nat) (s : State) :
    (rbWrite src n s).cfg = s.cfg := rfl
@[simp] theorem rbWrite_act (src : Nat → Nat → Nat → F32) (n : Nat) (s : State) :
    (rbWrite src n s).act = s.act := rfl
@[simp] theorem rbWrite_inIx (src : Nat → Nat → Nat → F32) (n : Nat) (s : State) :
    (rbWrite src n s).inIx = s.inIx := rfl
@[simp] theorem rbWrite_outIx (src : Nat → Nat → Nat → F32) (n : Nat) (s : State) :
    (rbWrite src n s).outIx = { s.outIx with wr := (s.outIx.wr + n) % s.Cout, avail := s.outIx.avail + n } := rfl
@[simp] theorem rbWrite_frameCount (src : Nat → Nat → Nat → F32) (n : Nat) (s : State) :
    (rbWrite src n s).frameCount = s.frameCount := rfl
@[simp] theorem rbWrite_lastFrames (src : Nat → Nat → Nat → F32) (n : Nat) (s : State) :
    (rbWrite src n s).lastFrames = s.lastFrames := rfl
@[simp] theorem rbWrite_mem (src : Nat → Nat → Nat → F32) (n : Nat) (s : State) :
    (rbWrite src n s).mem = s.mem := rfl
@[simp] theorem rbWrite_ringIn (src : Nat → Nat → Nat → F32) (n : Nat) (s : State) :
    (rbWrite src n s).ringIn = s.ringIn := rfl
@[simp] theorem rbWrite_tail (src : Nat → Nat → Nat → F32) (n : Nat) (s : State) :
    (rbWrite src n s).tail = s.tail := rfl
@[simp] theorem rbWrite_tb (src : Nat → Nat → Nat → F32) (n : Nat) (s : State) :
    (rbWrite src n s).tb = s.tb := rfl
@[simp] theorem rbWrite_y (src : Nat → Nat → Nat → F32) (n : Nat) (s : State) :
    (rbWrite src n s).y = s.y := rfl
@[simp] theorem rbWrite_res (src : Nat → Nat → Nat → F32) (n : Nat) (s : State) :
    (rbWrite src n s).res = s.res := rfl
@[simp] theorem rbWrite_rst (src : Nat → Nat → Nat → F32) (n : Nat) (s : State) :
    (rbWrite src n s).rst = s.rst := rfl
@[simp] theorem rbWrite_build (src : Nat → Nat → Nat → F32) (n : Nat) (s : State) :
    (rbWrite src n s).build = s.build := rfl
@[simp] theorem rbWrite_port (src : Nat → Nat → Nat → F32) (n : Nat) (s : State) :
    (rbWrite src n s).port = s.port := rfl
@[simp] theorem rbWrite_overlap (src : Nat → Nat → Nat → F32) (n : Nat) (s : State) :
    (rbWrite src n s).overlap = s.overlap := rfl
@[simp] theorem rbWrite_transit (src : Nat → Nat → Nat → F32) (n : Nat) (s : State) :
    (rbWrite src n s).transit = s.transit := rfl
@[simp] theorem rbWrite_resp (src : Nat → Nat → Nat → F32) (n : Nat) (s : State) :
    (rbWrite src n s).resp = s.resp := rfl
@[simp] theorem rbWrite_adapterOk (src : Nat → Nat → Nat → F32) (n : Nat) (s : State) :
    (rbWrite src n s).adapterOk = s.adapterOk := rfl
@[simp] theorem rbWrite_draws (src : Nat → Nat → Nat → F32) (n : Nat) (s : State) :
    (rbWrite src n s).draws = s.draws := rfl
@[simp] theorem rbWrite_epoch (src : Nat → Nat → Nat → F32) (n : Nat) (s : State) :
    (rbWrite src n s).epoch = s.epoch := rfl

/-! #### rbAdvance -/

@[simp] theorem rbAdvance_seq (n : Nat) (s : State) : (rbAdvance n s).seq = s.seq := rfl
@[simp] theorem rbAdvance_frameCtx (n : Nat) (s : State) : (rbAdvance n s).frameCtx = s.frameCtx := rfl
@[simp] theorem rbAdvance_busy (n : Nat) (s : State) : (rbAdvance n s).busy = s.busy := rfl
@[simp] theorem rbAdvance_underflow (n : Nat) (s : State) : (rbAdvance n s).underflow = s.underflow := rfl
@[simp] theorem rbAdvance_initResult (n : Nat) (s : State) : (rbAdvance n s).initResult = s.initResult := rfl
@[simp] theorem rbAdvance_faultCode (n : Nat) (s : State) : (rbAdvance n s).faultCode = s.faultCode := rfl
@[simp] theorem rbAdvance_cmdErr (n : Nat) (s : State) : (rbAdvance n s).cmdErr = s.cmdErr := rfl
@[simp] theorem rbAdvance_sticky (n : Nat) (s : State) : (rbAdvance n s).sticky = s.sticky := rfl
@[simp] theorem rbAdvance_intEnable (n : Nat) (s : State) : (rbAdvance n s).intEnable = s.intEnable := rfl
@[simp] theorem rbAdvance_cfg (n : Nat) (s : State) : (rbAdvance n s).cfg = s.cfg := rfl
@[simp] theorem rbAdvance_act (n : Nat) (s : State) : (rbAdvance n s).act = s.act := rfl
@[simp] theorem rbAdvance_inIx (n : Nat) (s : State) : (rbAdvance n s).inIx = s.inIx := rfl
@[simp] theorem rbAdvance_outIx (n : Nat) (s : State) :
    (rbAdvance n s).outIx = { s.outIx with rd := (s.outIx.rd + n) % s.Cout, avail := s.outIx.avail - n } := rfl
@[simp] theorem rbAdvance_frameCount (n : Nat) (s : State) : (rbAdvance n s).frameCount = s.frameCount := rfl
@[simp] theorem rbAdvance_lastFrames (n : Nat) (s : State) : (rbAdvance n s).lastFrames = s.lastFrames := rfl
@[simp] theorem rbAdvance_mem (n : Nat) (s : State) : (rbAdvance n s).mem = s.mem := rfl
@[simp] theorem rbAdvance_ringIn (n : Nat) (s : State) : (rbAdvance n s).ringIn = s.ringIn := rfl
@[simp] theorem rbAdvance_ringOut (n : Nat) (s : State) : (rbAdvance n s).ringOut = s.ringOut := rfl
@[simp] theorem rbAdvance_tail (n : Nat) (s : State) : (rbAdvance n s).tail = s.tail := rfl
@[simp] theorem rbAdvance_tb (n : Nat) (s : State) : (rbAdvance n s).tb = s.tb := rfl
@[simp] theorem rbAdvance_y (n : Nat) (s : State) : (rbAdvance n s).y = s.y := rfl
@[simp] theorem rbAdvance_res (n : Nat) (s : State) : (rbAdvance n s).res = s.res := rfl
@[simp] theorem rbAdvance_rst (n : Nat) (s : State) : (rbAdvance n s).rst = s.rst := rfl
@[simp] theorem rbAdvance_build (n : Nat) (s : State) : (rbAdvance n s).build = s.build := rfl
@[simp] theorem rbAdvance_port (n : Nat) (s : State) : (rbAdvance n s).port = s.port := rfl
@[simp] theorem rbAdvance_overlap (n : Nat) (s : State) : (rbAdvance n s).overlap = s.overlap := rfl
@[simp] theorem rbAdvance_transit (n : Nat) (s : State) : (rbAdvance n s).transit = s.transit := rfl
@[simp] theorem rbAdvance_resp (n : Nat) (s : State) : (rbAdvance n s).resp = s.resp := rfl
@[simp] theorem rbAdvance_adapterOk (n : Nat) (s : State) : (rbAdvance n s).adapterOk = s.adapterOk := rfl
@[simp] theorem rbAdvance_draws (n : Nat) (s : State) : (rbAdvance n s).draws = s.draws := rfl
@[simp] theorem rbAdvance_epoch (n : Nat) (s : State) : (rbAdvance n s).epoch = s.epoch := rfl

/-! #### orbWrite -/

@[simp] theorem orbWrite_seq (src : Nat → Nat → Nat → F32) (n : Nat) (s : State) :
    (orbWrite src n s).seq = s.seq := rfl
@[simp] theorem orbWrite_frameCtx (src : Nat → Nat → Nat → F32) (n : Nat) (s : State) :
    (orbWrite src n s).frameCtx = s.frameCtx := rfl
@[simp] theorem orbWrite_busy (src : Nat → Nat → Nat → F32) (n : Nat) (s : State) :
    (orbWrite src n s).busy = s.busy := rfl
@[simp] theorem orbWrite_underflow (src : Nat → Nat → Nat → F32) (n : Nat) (s : State) :
    (orbWrite src n s).underflow = s.underflow := rfl
@[simp] theorem orbWrite_initResult (src : Nat → Nat → Nat → F32) (n : Nat) (s : State) :
    (orbWrite src n s).initResult = s.initResult := rfl
@[simp] theorem orbWrite_faultCode (src : Nat → Nat → Nat → F32) (n : Nat) (s : State) :
    (orbWrite src n s).faultCode = s.faultCode := rfl
@[simp] theorem orbWrite_cmdErr (src : Nat → Nat → Nat → F32) (n : Nat) (s : State) :
    (orbWrite src n s).cmdErr = s.cmdErr := rfl
@[simp] theorem orbWrite_sticky (src : Nat → Nat → Nat → F32) (n : Nat) (s : State) :
    (orbWrite src n s).sticky = s.sticky := rfl
@[simp] theorem orbWrite_intEnable (src : Nat → Nat → Nat → F32) (n : Nat) (s : State) :
    (orbWrite src n s).intEnable = s.intEnable := rfl
@[simp] theorem orbWrite_cfg (src : Nat → Nat → Nat → F32) (n : Nat) (s : State) :
    (orbWrite src n s).cfg = s.cfg := rfl
@[simp] theorem orbWrite_act (src : Nat → Nat → Nat → F32) (n : Nat) (s : State) :
    (orbWrite src n s).act = s.act := rfl
@[simp] theorem orbWrite_inIx (src : Nat → Nat → Nat → F32) (n : Nat) (s : State) :
    (orbWrite src n s).inIx = { s.inIx with wr := (s.inIx.wr + n) % s.Cin, avail := s.inIx.avail + n } := rfl
@[simp] theorem orbWrite_outIx (src : Nat → Nat → Nat → F32) (n : Nat) (s : State) :
    (orbWrite src n s).outIx = s.outIx := rfl
@[simp] theorem orbWrite_frameCount (src : Nat → Nat → Nat → F32) (n : Nat) (s : State) :
    (orbWrite src n s).frameCount = s.frameCount := rfl
@[simp] theorem orbWrite_lastFrames (src : Nat → Nat → Nat → F32) (n : Nat) (s : State) :
    (orbWrite src n s).lastFrames = s.lastFrames := rfl
@[simp] theorem orbWrite_mem (src : Nat → Nat → Nat → F32) (n : Nat) (s : State) :
    (orbWrite src n s).mem = s.mem := rfl
@[simp] theorem orbWrite_ringOut (src : Nat → Nat → Nat → F32) (n : Nat) (s : State) :
    (orbWrite src n s).ringOut = s.ringOut := rfl
@[simp] theorem orbWrite_tail (src : Nat → Nat → Nat → F32) (n : Nat) (s : State) :
    (orbWrite src n s).tail = s.tail := rfl
@[simp] theorem orbWrite_tb (src : Nat → Nat → Nat → F32) (n : Nat) (s : State) :
    (orbWrite src n s).tb = s.tb := rfl
@[simp] theorem orbWrite_y (src : Nat → Nat → Nat → F32) (n : Nat) (s : State) :
    (orbWrite src n s).y = s.y := rfl
@[simp] theorem orbWrite_res (src : Nat → Nat → Nat → F32) (n : Nat) (s : State) :
    (orbWrite src n s).res = s.res := rfl
@[simp] theorem orbWrite_rst (src : Nat → Nat → Nat → F32) (n : Nat) (s : State) :
    (orbWrite src n s).rst = s.rst := rfl
@[simp] theorem orbWrite_build (src : Nat → Nat → Nat → F32) (n : Nat) (s : State) :
    (orbWrite src n s).build = s.build := rfl
@[simp] theorem orbWrite_port (src : Nat → Nat → Nat → F32) (n : Nat) (s : State) :
    (orbWrite src n s).port = s.port := rfl
@[simp] theorem orbWrite_overlap (src : Nat → Nat → Nat → F32) (n : Nat) (s : State) :
    (orbWrite src n s).overlap = s.overlap := rfl
@[simp] theorem orbWrite_transit (src : Nat → Nat → Nat → F32) (n : Nat) (s : State) :
    (orbWrite src n s).transit = s.transit := rfl
@[simp] theorem orbWrite_resp (src : Nat → Nat → Nat → F32) (n : Nat) (s : State) :
    (orbWrite src n s).resp = s.resp := rfl
@[simp] theorem orbWrite_adapterOk (src : Nat → Nat → Nat → F32) (n : Nat) (s : State) :
    (orbWrite src n s).adapterOk = s.adapterOk := rfl
@[simp] theorem orbWrite_draws (src : Nat → Nat → Nat → F32) (n : Nat) (s : State) :
    (orbWrite src n s).draws = s.draws := rfl
@[simp] theorem orbWrite_epoch (src : Nat → Nat → Nat → F32) (n : Nat) (s : State) :
    (orbWrite src n s).epoch = s.epoch := rfl

/-! #### orbRead -/

@[simp] theorem orbRead_seq (s : State) : (orbRead s).seq = s.seq := rfl
@[simp] theorem orbRead_frameCtx (s : State) : (orbRead s).frameCtx = s.frameCtx := rfl
@[simp] theorem orbRead_busy (s : State) : (orbRead s).busy = s.busy := rfl
@[simp] theorem orbRead_underflow (s : State) : (orbRead s).underflow = s.underflow := rfl
@[simp] theorem orbRead_initResult (s : State) : (orbRead s).initResult = s.initResult := rfl
@[simp] theorem orbRead_faultCode (s : State) : (orbRead s).faultCode = s.faultCode := rfl
@[simp] theorem orbRead_cmdErr (s : State) : (orbRead s).cmdErr = s.cmdErr := rfl
@[simp] theorem orbRead_sticky (s : State) : (orbRead s).sticky = s.sticky := rfl
@[simp] theorem orbRead_intEnable (s : State) : (orbRead s).intEnable = s.intEnable := rfl
@[simp] theorem orbRead_cfg (s : State) : (orbRead s).cfg = s.cfg := rfl
@[simp] theorem orbRead_act (s : State) : (orbRead s).act = s.act := rfl
@[simp] theorem orbRead_inIx (s : State) :
    (orbRead s).inIx = { s.inIx with rd := (s.inIx.rd + s.hop) % s.Cin, avail := s.inIx.avail - s.hop } := rfl
@[simp] theorem orbRead_outIx (s : State) : (orbRead s).outIx = s.outIx := rfl
@[simp] theorem orbRead_frameCount (s : State) : (orbRead s).frameCount = s.frameCount := rfl
@[simp] theorem orbRead_lastFrames (s : State) : (orbRead s).lastFrames = s.lastFrames := rfl
@[simp] theorem orbRead_mem (s : State) : (orbRead s).mem = s.mem := rfl
@[simp] theorem orbRead_ringIn (s : State) : (orbRead s).ringIn = s.ringIn := rfl
@[simp] theorem orbRead_ringOut (s : State) : (orbRead s).ringOut = s.ringOut := rfl
@[simp] theorem orbRead_tail (s : State) : (orbRead s).tail = s.tail := rfl
@[simp] theorem orbRead_y (s : State) : (orbRead s).y = s.y := rfl
@[simp] theorem orbRead_res (s : State) : (orbRead s).res = s.res := rfl
@[simp] theorem orbRead_rst (s : State) : (orbRead s).rst = s.rst := rfl
@[simp] theorem orbRead_build (s : State) : (orbRead s).build = s.build := rfl
@[simp] theorem orbRead_port (s : State) : (orbRead s).port = s.port := rfl
@[simp] theorem orbRead_overlap (s : State) : (orbRead s).overlap = s.overlap := rfl
@[simp] theorem orbRead_transit (s : State) : (orbRead s).transit = s.transit := rfl
@[simp] theorem orbRead_resp (s : State) : (orbRead s).resp = s.resp := rfl
@[simp] theorem orbRead_adapterOk (s : State) : (orbRead s).adapterOk = s.adapterOk := rfl
@[simp] theorem orbRead_draws (s : State) : (orbRead s).draws = s.draws + 1 := rfl
@[simp] theorem orbRead_epoch (s : State) : (orbRead s).epoch = s.epoch := rfl

/-! #### orbClearAndPad -/

@[simp] theorem orbClearAndPad_seq (s : State) : (orbClearAndPad s).seq = s.seq := rfl
@[simp] theorem orbClearAndPad_frameCtx (s : State) : (orbClearAndPad s).frameCtx = s.frameCtx := rfl
@[simp] theorem orbClearAndPad_busy (s : State) : (orbClearAndPad s).busy = s.busy := rfl
@[simp] theorem orbClearAndPad_underflow (s : State) : (orbClearAndPad s).underflow = s.underflow := rfl
@[simp] theorem orbClearAndPad_initResult (s : State) : (orbClearAndPad s).initResult = s.initResult := rfl
@[simp] theorem orbClearAndPad_faultCode (s : State) : (orbClearAndPad s).faultCode = s.faultCode := rfl
@[simp] theorem orbClearAndPad_cmdErr (s : State) : (orbClearAndPad s).cmdErr = s.cmdErr := rfl
@[simp] theorem orbClearAndPad_sticky (s : State) : (orbClearAndPad s).sticky = s.sticky := rfl
@[simp] theorem orbClearAndPad_intEnable (s : State) : (orbClearAndPad s).intEnable = s.intEnable := rfl
@[simp] theorem orbClearAndPad_cfg (s : State) : (orbClearAndPad s).cfg = s.cfg := rfl
@[simp] theorem orbClearAndPad_act (s : State) :
    (orbClearAndPad s).act = { s.act with inCap := wordOfNat (s.N + s.B) } := rfl
@[simp] theorem orbClearAndPad_inIx (s : State) :
    (orbClearAndPad s).inIx = { rd := 0, wr := padding s.N s.B, avail := padding s.N s.B } := rfl
@[simp] theorem orbClearAndPad_outIx (s : State) : (orbClearAndPad s).outIx = s.outIx := rfl
@[simp] theorem orbClearAndPad_frameCount (s : State) : (orbClearAndPad s).frameCount = s.frameCount := rfl
@[simp] theorem orbClearAndPad_lastFrames (s : State) : (orbClearAndPad s).lastFrames = s.lastFrames := rfl
@[simp] theorem orbClearAndPad_mem (s : State) : (orbClearAndPad s).mem = s.mem := rfl
@[simp] theorem orbClearAndPad_ringOut (s : State) : (orbClearAndPad s).ringOut = s.ringOut := rfl
@[simp] theorem orbClearAndPad_tail (s : State) : (orbClearAndPad s).tail = s.tail := rfl
@[simp] theorem orbClearAndPad_tb (s : State) : (orbClearAndPad s).tb = s.tb := rfl
@[simp] theorem orbClearAndPad_y (s : State) : (orbClearAndPad s).y = s.y := rfl
@[simp] theorem orbClearAndPad_res (s : State) : (orbClearAndPad s).res = s.res := rfl
@[simp] theorem orbClearAndPad_rst (s : State) : (orbClearAndPad s).rst = s.rst := rfl
@[simp] theorem orbClearAndPad_build (s : State) : (orbClearAndPad s).build = s.build := rfl
@[simp] theorem orbClearAndPad_port (s : State) : (orbClearAndPad s).port = s.port := rfl
@[simp] theorem orbClearAndPad_overlap (s : State) : (orbClearAndPad s).overlap = s.overlap := rfl
@[simp] theorem orbClearAndPad_transit (s : State) : (orbClearAndPad s).transit = s.transit := rfl
@[simp] theorem orbClearAndPad_resp (s : State) : (orbClearAndPad s).resp = s.resp := rfl
@[simp] theorem orbClearAndPad_adapterOk (s : State) : (orbClearAndPad s).adapterOk = s.adapterOk := rfl
@[simp] theorem orbClearAndPad_draws (s : State) : (orbClearAndPad s).draws = s.draws := rfl
@[simp] theorem orbClearAndPad_epoch (s : State) : (orbClearAndPad s).epoch = s.epoch := rfl

/-! #### setLatency -/

@[simp] theorem setLatency_seq (s : State) : (setLatency s).seq = s.seq := rfl
@[simp] theorem setLatency_frameCtx (s : State) : (setLatency s).frameCtx = s.frameCtx := rfl
@[simp] theorem setLatency_busy (s : State) : (setLatency s).busy = s.busy := rfl
@[simp] theorem setLatency_underflow (s : State) : (setLatency s).underflow = s.underflow := rfl
@[simp] theorem setLatency_initResult (s : State) : (setLatency s).initResult = s.initResult := rfl
@[simp] theorem setLatency_faultCode (s : State) : (setLatency s).faultCode = s.faultCode := rfl
@[simp] theorem setLatency_cmdErr (s : State) : (setLatency s).cmdErr = s.cmdErr := rfl
@[simp] theorem setLatency_sticky (s : State) : (setLatency s).sticky = s.sticky := rfl
@[simp] theorem setLatency_intEnable (s : State) : (setLatency s).intEnable = s.intEnable := rfl
@[simp] theorem setLatency_cfg (s : State) : (setLatency s).cfg = s.cfg := rfl
@[simp] theorem setLatency_act (s : State) :
    (setLatency s).act = { s.act with latency := wordOfNat (latencyOf s.N s.hop s.B) } := rfl
@[simp] theorem setLatency_inIx (s : State) : (setLatency s).inIx = s.inIx := rfl
@[simp] theorem setLatency_outIx (s : State) : (setLatency s).outIx = s.outIx := rfl
@[simp] theorem setLatency_frameCount (s : State) : (setLatency s).frameCount = s.frameCount := rfl
@[simp] theorem setLatency_lastFrames (s : State) : (setLatency s).lastFrames = s.lastFrames := rfl
@[simp] theorem setLatency_mem (s : State) : (setLatency s).mem = s.mem := rfl
@[simp] theorem setLatency_ringIn (s : State) : (setLatency s).ringIn = s.ringIn := rfl
@[simp] theorem setLatency_ringOut (s : State) : (setLatency s).ringOut = s.ringOut := rfl
@[simp] theorem setLatency_tail (s : State) : (setLatency s).tail = s.tail := rfl
@[simp] theorem setLatency_tb (s : State) : (setLatency s).tb = s.tb := rfl
@[simp] theorem setLatency_y (s : State) : (setLatency s).y = s.y := rfl
@[simp] theorem setLatency_res (s : State) : (setLatency s).res = s.res := rfl
@[simp] theorem setLatency_rst (s : State) : (setLatency s).rst = s.rst := rfl
@[simp] theorem setLatency_build (s : State) : (setLatency s).build = s.build := rfl
@[simp] theorem setLatency_port (s : State) : (setLatency s).port = s.port := rfl
@[simp] theorem setLatency_overlap (s : State) : (setLatency s).overlap = s.overlap := rfl
@[simp] theorem setLatency_transit (s : State) : (setLatency s).transit = s.transit := rfl
@[simp] theorem setLatency_resp (s : State) : (setLatency s).resp = s.resp := rfl
@[simp] theorem setLatency_adapterOk (s : State) : (setLatency s).adapterOk = s.adapterOk := rfl
@[simp] theorem setLatency_draws (s : State) : (setLatency s).draws = s.draws := rfl
@[simp] theorem setLatency_epoch (s : State) : (setLatency s).epoch = s.epoch := rfl

/-! #### writeTable -/

@[simp] theorem writeTable_seq (r : Region) (len : Nat) (val : Nat → F32) (s : State) :
    (writeTable r len val s).seq = s.seq := rfl
@[simp] theorem writeTable_frameCtx (r : Region) (len : Nat) (val : Nat → F32) (s : State) :
    (writeTable r len val s).frameCtx = s.frameCtx := rfl
@[simp] theorem writeTable_busy (r : Region) (len : Nat) (val : Nat → F32) (s : State) :
    (writeTable r len val s).busy = s.busy := rfl
@[simp] theorem writeTable_underflow (r : Region) (len : Nat) (val : Nat → F32) (s : State) :
    (writeTable r len val s).underflow = s.underflow := rfl
@[simp] theorem writeTable_initResult (r : Region) (len : Nat) (val : Nat → F32) (s : State) :
    (writeTable r len val s).initResult = s.initResult := rfl
@[simp] theorem writeTable_faultCode (r : Region) (len : Nat) (val : Nat → F32) (s : State) :
    (writeTable r len val s).faultCode = s.faultCode := rfl
@[simp] theorem writeTable_cmdErr (r : Region) (len : Nat) (val : Nat → F32) (s : State) :
    (writeTable r len val s).cmdErr = s.cmdErr := rfl
@[simp] theorem writeTable_sticky (r : Region) (len : Nat) (val : Nat → F32) (s : State) :
    (writeTable r len val s).sticky = s.sticky := rfl
@[simp] theorem writeTable_intEnable (r : Region) (len : Nat) (val : Nat → F32) (s : State) :
    (writeTable r len val s).intEnable = s.intEnable := rfl
@[simp] theorem writeTable_cfg (r : Region) (len : Nat) (val : Nat → F32) (s : State) :
    (writeTable r len val s).cfg = s.cfg := rfl
@[simp] theorem writeTable_act (r : Region) (len : Nat) (val : Nat → F32) (s : State) :
    (writeTable r len val s).act = s.act := rfl
@[simp] theorem writeTable_inIx (r : Region) (len : Nat) (val : Nat → F32) (s : State) :
    (writeTable r len val s).inIx = s.inIx := rfl
@[simp] theorem writeTable_outIx (r : Region) (len : Nat) (val : Nat → F32) (s : State) :
    (writeTable r len val s).outIx = s.outIx := rfl
@[simp] theorem writeTable_frameCount (r : Region) (len : Nat) (val : Nat → F32) (s : State) :
    (writeTable r len val s).frameCount = s.frameCount := rfl
@[simp] theorem writeTable_lastFrames (r : Region) (len : Nat) (val : Nat → F32) (s : State) :
    (writeTable r len val s).lastFrames = s.lastFrames := rfl
@[simp] theorem writeTable_ringIn (r : Region) (len : Nat) (val : Nat → F32) (s : State) :
    (writeTable r len val s).ringIn = s.ringIn := rfl
@[simp] theorem writeTable_ringOut (r : Region) (len : Nat) (val : Nat → F32) (s : State) :
    (writeTable r len val s).ringOut = s.ringOut := rfl
@[simp] theorem writeTable_tail (r : Region) (len : Nat) (val : Nat → F32) (s : State) :
    (writeTable r len val s).tail = s.tail := rfl
@[simp] theorem writeTable_tb (r : Region) (len : Nat) (val : Nat → F32) (s : State) :
    (writeTable r len val s).tb = s.tb := rfl
@[simp] theorem writeTable_y (r : Region) (len : Nat) (val : Nat → F32) (s : State) :
    (writeTable r len val s).y = s.y := rfl
@[simp] theorem writeTable_res (r : Region) (len : Nat) (val : Nat → F32) (s : State) :
    (writeTable r len val s).res = s.res := rfl
@[simp] theorem writeTable_rst (r : Region) (len : Nat) (val : Nat → F32) (s : State) :
    (writeTable r len val s).rst = s.rst := rfl
@[simp] theorem writeTable_build (r : Region) (len : Nat) (val : Nat → F32) (s : State) :
    (writeTable r len val s).build = s.build := rfl
@[simp] theorem writeTable_port (r : Region) (len : Nat) (val : Nat → F32) (s : State) :
    (writeTable r len val s).port = s.port := rfl
@[simp] theorem writeTable_overlap (r : Region) (len : Nat) (val : Nat → F32) (s : State) :
    (writeTable r len val s).overlap = s.overlap := rfl
@[simp] theorem writeTable_transit (r : Region) (len : Nat) (val : Nat → F32) (s : State) :
    (writeTable r len val s).transit = s.transit := rfl
@[simp] theorem writeTable_resp (r : Region) (len : Nat) (val : Nat → F32) (s : State) :
    (writeTable r len val s).resp = s.resp := rfl
@[simp] theorem writeTable_adapterOk (r : Region) (len : Nat) (val : Nat → F32) (s : State) :
    (writeTable r len val s).adapterOk = s.adapterOk := rfl
@[simp] theorem writeTable_draws (r : Region) (len : Nat) (val : Nat → F32) (s : State) :
    (writeTable r len val s).draws = s.draws := rfl
@[simp] theorem writeTable_epoch (r : Region) (len : Nat) (val : Nat → F32) (s : State) :
    (writeTable r len val s).epoch = s.epoch := rfl

/-! #### analyzeAll -/

@[simp] theorem analyzeAll_seq (s : State) : (analyzeAll s).seq = s.seq := rfl
@[simp] theorem analyzeAll_frameCtx (s : State) : (analyzeAll s).frameCtx = s.frameCtx := rfl
@[simp] theorem analyzeAll_busy (s : State) : (analyzeAll s).busy = s.busy := rfl
@[simp] theorem analyzeAll_underflow (s : State) : (analyzeAll s).underflow = s.underflow := rfl
@[simp] theorem analyzeAll_initResult (s : State) : (analyzeAll s).initResult = s.initResult := rfl
@[simp] theorem analyzeAll_faultCode (s : State) : (analyzeAll s).faultCode = s.faultCode := rfl
@[simp] theorem analyzeAll_cmdErr (s : State) : (analyzeAll s).cmdErr = s.cmdErr := rfl
@[simp] theorem analyzeAll_sticky (s : State) : (analyzeAll s).sticky = s.sticky := rfl
@[simp] theorem analyzeAll_intEnable (s : State) : (analyzeAll s).intEnable = s.intEnable := rfl
@[simp] theorem analyzeAll_cfg (s : State) : (analyzeAll s).cfg = s.cfg := rfl
@[simp] theorem analyzeAll_act (s : State) : (analyzeAll s).act = s.act := rfl
@[simp] theorem analyzeAll_inIx (s : State) : (analyzeAll s).inIx = s.inIx := rfl
@[simp] theorem analyzeAll_outIx (s : State) : (analyzeAll s).outIx = s.outIx := rfl
@[simp] theorem analyzeAll_frameCount (s : State) : (analyzeAll s).frameCount = s.frameCount := rfl
@[simp] theorem analyzeAll_lastFrames (s : State) : (analyzeAll s).lastFrames = s.lastFrames := rfl
@[simp] theorem analyzeAll_ringIn (s : State) : (analyzeAll s).ringIn = s.ringIn := rfl
@[simp] theorem analyzeAll_ringOut (s : State) : (analyzeAll s).ringOut = s.ringOut := rfl
@[simp] theorem analyzeAll_tail (s : State) : (analyzeAll s).tail = s.tail := rfl
@[simp] theorem analyzeAll_tb (s : State) : (analyzeAll s).tb = s.tb := rfl
@[simp] theorem analyzeAll_y (s : State) : (analyzeAll s).y = s.y := rfl
@[simp] theorem analyzeAll_res (s : State) : (analyzeAll s).res = s.res := rfl
@[simp] theorem analyzeAll_rst (s : State) : (analyzeAll s).rst = s.rst := rfl
@[simp] theorem analyzeAll_build (s : State) : (analyzeAll s).build = s.build := rfl
@[simp] theorem analyzeAll_port (s : State) : (analyzeAll s).port = s.port := rfl
@[simp] theorem analyzeAll_overlap (s : State) : (analyzeAll s).overlap = s.overlap := rfl
@[simp] theorem analyzeAll_transit (s : State) : (analyzeAll s).transit = s.transit := rfl
@[simp] theorem analyzeAll_resp (s : State) : (analyzeAll s).resp = s.resp := rfl
@[simp] theorem analyzeAll_adapterOk (s : State) : (analyzeAll s).adapterOk = s.adapterOk := rfl
@[simp] theorem analyzeAll_draws (s : State) : (analyzeAll s).draws = s.draws := rfl
@[simp] theorem analyzeAll_epoch (s : State) : (analyzeAll s).epoch = s.epoch := rfl

/-! #### identityCopy -/

@[simp] theorem identityCopy_seq (s : State) : (identityCopy s).seq = s.seq := rfl
@[simp] theorem identityCopy_frameCtx (s : State) : (identityCopy s).frameCtx = s.frameCtx := rfl
@[simp] theorem identityCopy_busy (s : State) : (identityCopy s).busy = s.busy := rfl
@[simp] theorem identityCopy_underflow (s : State) : (identityCopy s).underflow = s.underflow := rfl
@[simp] theorem identityCopy_initResult (s : State) : (identityCopy s).initResult = s.initResult := rfl
@[simp] theorem identityCopy_faultCode (s : State) : (identityCopy s).faultCode = s.faultCode := rfl
@[simp] theorem identityCopy_cmdErr (s : State) : (identityCopy s).cmdErr = s.cmdErr := rfl
@[simp] theorem identityCopy_sticky (s : State) : (identityCopy s).sticky = s.sticky := rfl
@[simp] theorem identityCopy_intEnable (s : State) : (identityCopy s).intEnable = s.intEnable := rfl
@[simp] theorem identityCopy_cfg (s : State) : (identityCopy s).cfg = s.cfg := rfl
@[simp] theorem identityCopy_act (s : State) : (identityCopy s).act = s.act := rfl
@[simp] theorem identityCopy_inIx (s : State) : (identityCopy s).inIx = s.inIx := rfl
@[simp] theorem identityCopy_outIx (s : State) : (identityCopy s).outIx = s.outIx := rfl
@[simp] theorem identityCopy_frameCount (s : State) : (identityCopy s).frameCount = s.frameCount := rfl
@[simp] theorem identityCopy_lastFrames (s : State) : (identityCopy s).lastFrames = s.lastFrames := rfl
@[simp] theorem identityCopy_ringIn (s : State) : (identityCopy s).ringIn = s.ringIn := rfl
@[simp] theorem identityCopy_ringOut (s : State) : (identityCopy s).ringOut = s.ringOut := rfl
@[simp] theorem identityCopy_tail (s : State) : (identityCopy s).tail = s.tail := rfl
@[simp] theorem identityCopy_tb (s : State) : (identityCopy s).tb = s.tb := rfl
@[simp] theorem identityCopy_y (s : State) : (identityCopy s).y = s.y := rfl
@[simp] theorem identityCopy_res (s : State) : (identityCopy s).res = s.res := rfl
@[simp] theorem identityCopy_rst (s : State) : (identityCopy s).rst = s.rst := rfl
@[simp] theorem identityCopy_build (s : State) : (identityCopy s).build = s.build := rfl
@[simp] theorem identityCopy_port (s : State) : (identityCopy s).port = s.port := rfl
@[simp] theorem identityCopy_overlap (s : State) : (identityCopy s).overlap = s.overlap := rfl
@[simp] theorem identityCopy_transit (s : State) : (identityCopy s).transit = s.transit := rfl
@[simp] theorem identityCopy_resp (s : State) : (identityCopy s).resp = s.resp := rfl
@[simp] theorem identityCopy_adapterOk (s : State) : (identityCopy s).adapterOk = s.adapterOk := rfl
@[simp] theorem identityCopy_draws (s : State) : (identityCopy s).draws = s.draws := rfl
@[simp] theorem identityCopy_epoch (s : State) : (identityCopy s).epoch = s.epoch := rfl

/-! #### inverseAll -/

@[simp] theorem inverseAll_seq (s : State) : (inverseAll s).seq = s.seq := rfl
@[simp] theorem inverseAll_frameCtx (s : State) : (inverseAll s).frameCtx = s.frameCtx := rfl
@[simp] theorem inverseAll_busy (s : State) : (inverseAll s).busy = s.busy := rfl
@[simp] theorem inverseAll_underflow (s : State) : (inverseAll s).underflow = s.underflow := rfl
@[simp] theorem inverseAll_initResult (s : State) : (inverseAll s).initResult = s.initResult := rfl
@[simp] theorem inverseAll_faultCode (s : State) : (inverseAll s).faultCode = s.faultCode := rfl
@[simp] theorem inverseAll_cmdErr (s : State) : (inverseAll s).cmdErr = s.cmdErr := rfl
@[simp] theorem inverseAll_sticky (s : State) : (inverseAll s).sticky = s.sticky := rfl
@[simp] theorem inverseAll_intEnable (s : State) : (inverseAll s).intEnable = s.intEnable := rfl
@[simp] theorem inverseAll_cfg (s : State) : (inverseAll s).cfg = s.cfg := rfl
@[simp] theorem inverseAll_act (s : State) : (inverseAll s).act = s.act := rfl
@[simp] theorem inverseAll_inIx (s : State) : (inverseAll s).inIx = s.inIx := rfl
@[simp] theorem inverseAll_outIx (s : State) : (inverseAll s).outIx = s.outIx := rfl
@[simp] theorem inverseAll_frameCount (s : State) : (inverseAll s).frameCount = s.frameCount := rfl
@[simp] theorem inverseAll_lastFrames (s : State) : (inverseAll s).lastFrames = s.lastFrames := rfl
@[simp] theorem inverseAll_mem (s : State) : (inverseAll s).mem = s.mem := rfl
@[simp] theorem inverseAll_ringIn (s : State) : (inverseAll s).ringIn = s.ringIn := rfl
@[simp] theorem inverseAll_ringOut (s : State) : (inverseAll s).ringOut = s.ringOut := rfl
@[simp] theorem inverseAll_tail (s : State) : (inverseAll s).tail = s.tail := rfl
@[simp] theorem inverseAll_tb (s : State) : (inverseAll s).tb = s.tb := rfl
@[simp] theorem inverseAll_res (s : State) : (inverseAll s).res = s.res := rfl
@[simp] theorem inverseAll_rst (s : State) : (inverseAll s).rst = s.rst := rfl
@[simp] theorem inverseAll_build (s : State) : (inverseAll s).build = s.build := rfl
@[simp] theorem inverseAll_port (s : State) : (inverseAll s).port = s.port := rfl
@[simp] theorem inverseAll_overlap (s : State) : (inverseAll s).overlap = s.overlap := rfl
@[simp] theorem inverseAll_transit (s : State) : (inverseAll s).transit = s.transit := rfl
@[simp] theorem inverseAll_resp (s : State) : (inverseAll s).resp = s.resp := rfl
@[simp] theorem inverseAll_adapterOk (s : State) : (inverseAll s).adapterOk = s.adapterOk := rfl
@[simp] theorem inverseAll_draws (s : State) : (inverseAll s).draws = s.draws := rfl
@[simp] theorem inverseAll_epoch (s : State) : (inverseAll s).epoch = s.epoch := rfl

/-! #### overlapAddAll -/

@[simp] theorem overlapAddAll_seq (s : State) : (overlapAddAll s).seq = s.seq := rfl
@[simp] theorem overlapAddAll_frameCtx (s : State) : (overlapAddAll s).frameCtx = s.frameCtx := rfl
@[simp] theorem overlapAddAll_busy (s : State) : (overlapAddAll s).busy = s.busy := rfl
@[simp] theorem overlapAddAll_underflow (s : State) : (overlapAddAll s).underflow = s.underflow := rfl
@[simp] theorem overlapAddAll_initResult (s : State) : (overlapAddAll s).initResult = s.initResult := rfl
@[simp] theorem overlapAddAll_faultCode (s : State) : (overlapAddAll s).faultCode = s.faultCode := rfl
@[simp] theorem overlapAddAll_cmdErr (s : State) : (overlapAddAll s).cmdErr = s.cmdErr := rfl
@[simp] theorem overlapAddAll_sticky (s : State) : (overlapAddAll s).sticky = s.sticky := rfl
@[simp] theorem overlapAddAll_intEnable (s : State) : (overlapAddAll s).intEnable = s.intEnable := rfl
@[simp] theorem overlapAddAll_cfg (s : State) : (overlapAddAll s).cfg = s.cfg := rfl
@[simp] theorem overlapAddAll_act (s : State) : (overlapAddAll s).act = s.act := rfl
@[simp] theorem overlapAddAll_inIx (s : State) : (overlapAddAll s).inIx = s.inIx := rfl
@[simp] theorem overlapAddAll_outIx (s : State) : (overlapAddAll s).outIx = s.outIx := rfl
@[simp] theorem overlapAddAll_frameCount (s : State) : (overlapAddAll s).frameCount = s.frameCount := rfl
@[simp] theorem overlapAddAll_lastFrames (s : State) : (overlapAddAll s).lastFrames = s.lastFrames := rfl
@[simp] theorem overlapAddAll_mem (s : State) : (overlapAddAll s).mem = s.mem := rfl
@[simp] theorem overlapAddAll_ringIn (s : State) : (overlapAddAll s).ringIn = s.ringIn := rfl
@[simp] theorem overlapAddAll_ringOut (s : State) : (overlapAddAll s).ringOut = s.ringOut := rfl
@[simp] theorem overlapAddAll_tail (s : State) : (overlapAddAll s).tail = s.tail := rfl
@[simp] theorem overlapAddAll_tb (s : State) : (overlapAddAll s).tb = s.tb := rfl
@[simp] theorem overlapAddAll_y (s : State) : (overlapAddAll s).y = s.y := rfl
@[simp] theorem overlapAddAll_rst (s : State) : (overlapAddAll s).rst = s.rst := rfl
@[simp] theorem overlapAddAll_build (s : State) : (overlapAddAll s).build = s.build := rfl
@[simp] theorem overlapAddAll_port (s : State) : (overlapAddAll s).port = s.port := rfl
@[simp] theorem overlapAddAll_overlap (s : State) : (overlapAddAll s).overlap = s.overlap := rfl
@[simp] theorem overlapAddAll_transit (s : State) : (overlapAddAll s).transit = s.transit := rfl
@[simp] theorem overlapAddAll_resp (s : State) : (overlapAddAll s).resp = s.resp := rfl
@[simp] theorem overlapAddAll_adapterOk (s : State) : (overlapAddAll s).adapterOk = s.adapterOk := rfl
@[simp] theorem overlapAddAll_draws (s : State) : (overlapAddAll s).draws = s.draws := rfl
@[simp] theorem overlapAddAll_epoch (s : State) : (overlapAddAll s).epoch = s.epoch := rfl

/-! #### storeTails -/

@[simp] theorem storeTails_seq (s : State) : (storeTails s).seq = s.seq := rfl
@[simp] theorem storeTails_frameCtx (s : State) : (storeTails s).frameCtx = s.frameCtx := rfl
@[simp] theorem storeTails_busy (s : State) : (storeTails s).busy = s.busy := rfl
@[simp] theorem storeTails_underflow (s : State) : (storeTails s).underflow = s.underflow := rfl
@[simp] theorem storeTails_initResult (s : State) : (storeTails s).initResult = s.initResult := rfl
@[simp] theorem storeTails_faultCode (s : State) : (storeTails s).faultCode = s.faultCode := rfl
@[simp] theorem storeTails_cmdErr (s : State) : (storeTails s).cmdErr = s.cmdErr := rfl
@[simp] theorem storeTails_sticky (s : State) : (storeTails s).sticky = s.sticky := rfl
@[simp] theorem storeTails_intEnable (s : State) : (storeTails s).intEnable = s.intEnable := rfl
@[simp] theorem storeTails_cfg (s : State) : (storeTails s).cfg = s.cfg := rfl
@[simp] theorem storeTails_act (s : State) : (storeTails s).act = s.act := rfl
@[simp] theorem storeTails_inIx (s : State) : (storeTails s).inIx = s.inIx := rfl
@[simp] theorem storeTails_outIx (s : State) : (storeTails s).outIx = s.outIx := rfl
@[simp] theorem storeTails_frameCount (s : State) : (storeTails s).frameCount = s.frameCount := rfl
@[simp] theorem storeTails_lastFrames (s : State) : (storeTails s).lastFrames = s.lastFrames := rfl
@[simp] theorem storeTails_mem (s : State) : (storeTails s).mem = s.mem := rfl
@[simp] theorem storeTails_ringIn (s : State) : (storeTails s).ringIn = s.ringIn := rfl
@[simp] theorem storeTails_ringOut (s : State) : (storeTails s).ringOut = s.ringOut := rfl
@[simp] theorem storeTails_tb (s : State) : (storeTails s).tb = s.tb := rfl
@[simp] theorem storeTails_y (s : State) : (storeTails s).y = s.y := rfl
@[simp] theorem storeTails_res (s : State) : (storeTails s).res = s.res := rfl
@[simp] theorem storeTails_rst (s : State) : (storeTails s).rst = s.rst := rfl
@[simp] theorem storeTails_build (s : State) : (storeTails s).build = s.build := rfl
@[simp] theorem storeTails_port (s : State) : (storeTails s).port = s.port := rfl
@[simp] theorem storeTails_overlap (s : State) : (storeTails s).overlap = s.overlap := rfl
@[simp] theorem storeTails_transit (s : State) : (storeTails s).transit = s.transit := rfl
@[simp] theorem storeTails_resp (s : State) : (storeTails s).resp = s.resp := rfl
@[simp] theorem storeTails_adapterOk (s : State) : (storeTails s).adapterOk = s.adapterOk := rfl
@[simp] theorem storeTails_draws (s : State) : (storeTails s).draws = s.draws := rfl
@[simp] theorem storeTails_epoch (s : State) : (storeTails s).epoch = s.epoch := rfl

/-! #### countFrame -/

@[simp] theorem countFrame_seq (s : State) : (countFrame s).seq = s.seq := rfl
@[simp] theorem countFrame_frameCtx (s : State) : (countFrame s).frameCtx = s.frameCtx := rfl
@[simp] theorem countFrame_busy (s : State) : (countFrame s).busy = s.busy := rfl
@[simp] theorem countFrame_underflow (s : State) : (countFrame s).underflow = s.underflow := rfl
@[simp] theorem countFrame_initResult (s : State) : (countFrame s).initResult = s.initResult := rfl
@[simp] theorem countFrame_faultCode (s : State) : (countFrame s).faultCode = s.faultCode := rfl
@[simp] theorem countFrame_cmdErr (s : State) : (countFrame s).cmdErr = s.cmdErr := rfl
@[simp] theorem countFrame_sticky (s : State) : (countFrame s).sticky = s.sticky := rfl
@[simp] theorem countFrame_intEnable (s : State) : (countFrame s).intEnable = s.intEnable := rfl
@[simp] theorem countFrame_cfg (s : State) : (countFrame s).cfg = s.cfg := rfl
@[simp] theorem countFrame_act (s : State) : (countFrame s).act = s.act := rfl
@[simp] theorem countFrame_inIx (s : State) : (countFrame s).inIx = s.inIx := rfl
@[simp] theorem countFrame_outIx (s : State) : (countFrame s).outIx = s.outIx := rfl
@[simp] theorem countFrame_frameCount (s : State) : (countFrame s).frameCount = s.frameCount + 1#32 := rfl
@[simp] theorem countFrame_lastFrames (s : State) : (countFrame s).lastFrames = s.lastFrames + 1#32 := rfl
@[simp] theorem countFrame_mem (s : State) : (countFrame s).mem = s.mem := rfl
@[simp] theorem countFrame_ringIn (s : State) : (countFrame s).ringIn = s.ringIn := rfl
@[simp] theorem countFrame_ringOut (s : State) : (countFrame s).ringOut = s.ringOut := rfl
@[simp] theorem countFrame_tail (s : State) : (countFrame s).tail = s.tail := rfl
@[simp] theorem countFrame_tb (s : State) : (countFrame s).tb = s.tb := rfl
@[simp] theorem countFrame_y (s : State) : (countFrame s).y = s.y := rfl
@[simp] theorem countFrame_res (s : State) : (countFrame s).res = s.res := rfl
@[simp] theorem countFrame_rst (s : State) : (countFrame s).rst = s.rst := rfl
@[simp] theorem countFrame_build (s : State) : (countFrame s).build = s.build := rfl
@[simp] theorem countFrame_port (s : State) : (countFrame s).port = s.port := rfl
@[simp] theorem countFrame_overlap (s : State) : (countFrame s).overlap = s.overlap := rfl
@[simp] theorem countFrame_transit (s : State) : (countFrame s).transit = s.transit := rfl
@[simp] theorem countFrame_resp (s : State) : (countFrame s).resp = s.resp := rfl
@[simp] theorem countFrame_adapterOk (s : State) : (countFrame s).adapterOk = s.adapterOk := rfl
@[simp] theorem countFrame_draws (s : State) : (countFrame s).draws = s.draws := rfl
@[simp] theorem countFrame_epoch (s : State) : (countFrame s).epoch = s.epoch := rfl

/-! #### abandonFrame -/

@[simp] theorem abandonFrame_seq (s : State) : (abandonFrame s).seq = .uninit := rfl
@[simp] theorem abandonFrame_frameCtx (s : State) : (abandonFrame s).frameCtx = false := rfl
@[simp] theorem abandonFrame_busy (s : State) : (abandonFrame s).busy = s.busy := rfl
@[simp] theorem abandonFrame_underflow (s : State) : (abandonFrame s).underflow = s.underflow := rfl
@[simp] theorem abandonFrame_initResult (s : State) : (abandonFrame s).initResult = s.initResult := rfl
@[simp] theorem abandonFrame_faultCode (s : State) : (abandonFrame s).faultCode = s.faultCode := rfl
@[simp] theorem abandonFrame_cmdErr (s : State) : (abandonFrame s).cmdErr = s.cmdErr := rfl
@[simp] theorem abandonFrame_sticky (s : State) : (abandonFrame s).sticky = s.sticky := rfl
@[simp] theorem abandonFrame_intEnable (s : State) : (abandonFrame s).intEnable = s.intEnable := rfl
@[simp] theorem abandonFrame_cfg (s : State) : (abandonFrame s).cfg = s.cfg := rfl
@[simp] theorem abandonFrame_act (s : State) : (abandonFrame s).act = s.act := rfl
@[simp] theorem abandonFrame_inIx (s : State) : (abandonFrame s).inIx = s.inIx := rfl
@[simp] theorem abandonFrame_outIx (s : State) : (abandonFrame s).outIx = s.outIx := rfl
@[simp] theorem abandonFrame_frameCount (s : State) : (abandonFrame s).frameCount = s.frameCount := rfl
@[simp] theorem abandonFrame_lastFrames (s : State) : (abandonFrame s).lastFrames = s.lastFrames := rfl
@[simp] theorem abandonFrame_mem (s : State) : (abandonFrame s).mem = s.mem := rfl
@[simp] theorem abandonFrame_ringIn (s : State) : (abandonFrame s).ringIn = s.ringIn := rfl
@[simp] theorem abandonFrame_ringOut (s : State) : (abandonFrame s).ringOut = s.ringOut := rfl
@[simp] theorem abandonFrame_tail (s : State) : (abandonFrame s).tail = s.tail := rfl
@[simp] theorem abandonFrame_tb (s : State) : (abandonFrame s).tb = s.tb := rfl
@[simp] theorem abandonFrame_y (s : State) : (abandonFrame s).y = s.y := rfl
@[simp] theorem abandonFrame_res (s : State) : (abandonFrame s).res = s.res := rfl
@[simp] theorem abandonFrame_rst (s : State) : (abandonFrame s).rst = s.rst := rfl
@[simp] theorem abandonFrame_build (s : State) : (abandonFrame s).build = s.build := rfl
@[simp] theorem abandonFrame_port (s : State) : (abandonFrame s).port = s.port := rfl
@[simp] theorem abandonFrame_overlap (s : State) : (abandonFrame s).overlap = s.overlap := rfl
@[simp] theorem abandonFrame_transit (s : State) : (abandonFrame s).transit = s.transit := rfl
@[simp] theorem abandonFrame_resp (s : State) : (abandonFrame s).resp = s.resp := rfl
@[simp] theorem abandonFrame_adapterOk (s : State) : (abandonFrame s).adapterOk = s.adapterOk := rfl
@[simp] theorem abandonFrame_draws (s : State) : (abandonFrame s).draws = s.draws := rfl
@[simp] theorem abandonFrame_epoch (s : State) : (abandonFrame s).epoch = s.epoch := rfl

/-! #### softReset -/

@[simp] theorem softReset_seq (s : State) : (softReset s).seq = s.seq := rfl
@[simp] theorem softReset_frameCtx (s : State) : (softReset s).frameCtx = s.frameCtx := rfl
@[simp] theorem softReset_busy (s : State) : (softReset s).busy = s.busy := rfl
@[simp] theorem softReset_underflow (s : State) : (softReset s).underflow = false := rfl
@[simp] theorem softReset_initResult (s : State) : (softReset s).initResult = .none := rfl
@[simp] theorem softReset_faultCode (s : State) : (softReset s).faultCode = .none := rfl
@[simp] theorem softReset_cmdErr (s : State) : (softReset s).cmdErr = .none := rfl
@[simp] theorem softReset_sticky (s : State) : (softReset s).sticky = Sticky.zero := rfl
@[simp] theorem softReset_intEnable (s : State) : (softReset s).intEnable = s.intEnable := rfl
@[simp] theorem softReset_cfg (s : State) : (softReset s).cfg = s.cfg := rfl
@[simp] theorem softReset_act (s : State) : (softReset s).act = ActRegs.zero := rfl
@[simp] theorem softReset_inIx (s : State) : (softReset s).inIx = RingIx.zero := rfl
@[simp] theorem softReset_outIx (s : State) : (softReset s).outIx = RingIx.zero := rfl
@[simp] theorem softReset_frameCount (s : State) : (softReset s).frameCount = 0#32 := rfl
@[simp] theorem softReset_lastFrames (s : State) : (softReset s).lastFrames = 0#32 := rfl
@[simp] theorem softReset_mem (s : State) : (softReset s).mem = s.mem := rfl
@[simp] theorem softReset_ringIn (s : State) : (softReset s).ringIn = s.ringIn := rfl
@[simp] theorem softReset_ringOut (s : State) : (softReset s).ringOut = s.ringOut := rfl
@[simp] theorem softReset_tail (s : State) : (softReset s).tail = s.tail := rfl
@[simp] theorem softReset_tb (s : State) : (softReset s).tb = s.tb := rfl
@[simp] theorem softReset_y (s : State) : (softReset s).y = s.y := rfl
@[simp] theorem softReset_res (s : State) : (softReset s).res = s.res := rfl
@[simp] theorem softReset_rst (s : State) : (softReset s).rst = s.rst := rfl
@[simp] theorem softReset_build (s : State) : (softReset s).build = s.build := rfl
@[simp] theorem softReset_port (s : State) : (softReset s).port = s.port := rfl
@[simp] theorem softReset_overlap (s : State) : (softReset s).overlap = s.overlap := rfl
@[simp] theorem softReset_transit (s : State) : (softReset s).transit = s.transit := rfl
@[simp] theorem softReset_resp (s : State) : (softReset s).resp = s.resp := rfl
@[simp] theorem softReset_adapterOk (s : State) : (softReset s).adapterOk = s.adapterOk := rfl
@[simp] theorem softReset_draws (s : State) : (softReset s).draws = s.draws := rfl
@[simp] theorem softReset_epoch (s : State) : (softReset s).epoch = s.epoch := rfl

/-! #### finishSreset -/

@[simp] theorem finishSreset_seq (s : State) : (finishSreset s).seq = s.seq := rfl
@[simp] theorem finishSreset_frameCtx (s : State) : (finishSreset s).frameCtx = s.frameCtx := rfl
@[simp] theorem finishSreset_busy (s : State) : (finishSreset s).busy = false := rfl
@[simp] theorem finishSreset_underflow (s : State) : (finishSreset s).underflow = false := rfl
@[simp] theorem finishSreset_initResult (s : State) : (finishSreset s).initResult = .none := rfl
@[simp] theorem finishSreset_faultCode (s : State) : (finishSreset s).faultCode = .none := rfl
@[simp] theorem finishSreset_cmdErr (s : State) : (finishSreset s).cmdErr = .none := rfl
@[simp] theorem finishSreset_sticky (s : State) : (finishSreset s).sticky = { Sticky.zero with done := true } := rfl
@[simp] theorem finishSreset_intEnable (s : State) : (finishSreset s).intEnable = s.intEnable := rfl
@[simp] theorem finishSreset_cfg (s : State) : (finishSreset s).cfg = s.cfg := rfl
@[simp] theorem finishSreset_act (s : State) : (finishSreset s).act = ActRegs.zero := rfl
@[simp] theorem finishSreset_inIx (s : State) : (finishSreset s).inIx = RingIx.zero := rfl
@[simp] theorem finishSreset_outIx (s : State) : (finishSreset s).outIx = RingIx.zero := rfl
@[simp] theorem finishSreset_frameCount (s : State) : (finishSreset s).frameCount = 0#32 := rfl
@[simp] theorem finishSreset_lastFrames (s : State) : (finishSreset s).lastFrames = 0#32 := rfl
@[simp] theorem finishSreset_mem (s : State) : (finishSreset s).mem = s.mem := rfl
@[simp] theorem finishSreset_ringIn (s : State) : (finishSreset s).ringIn = s.ringIn := rfl
@[simp] theorem finishSreset_ringOut (s : State) : (finishSreset s).ringOut = s.ringOut := rfl
@[simp] theorem finishSreset_tail (s : State) : (finishSreset s).tail = s.tail := rfl
@[simp] theorem finishSreset_tb (s : State) : (finishSreset s).tb = s.tb := rfl
@[simp] theorem finishSreset_y (s : State) : (finishSreset s).y = s.y := rfl
@[simp] theorem finishSreset_res (s : State) : (finishSreset s).res = s.res := rfl
@[simp] theorem finishSreset_rst (s : State) : (finishSreset s).rst = s.rst := rfl
@[simp] theorem finishSreset_build (s : State) : (finishSreset s).build = s.build := rfl
@[simp] theorem finishSreset_port (s : State) : (finishSreset s).port = s.port := rfl
@[simp] theorem finishSreset_overlap (s : State) : (finishSreset s).overlap = s.overlap := rfl
@[simp] theorem finishSreset_transit (s : State) : (finishSreset s).transit = s.transit := rfl
@[simp] theorem finishSreset_resp (s : State) : (finishSreset s).resp = s.resp := rfl
@[simp] theorem finishSreset_adapterOk (s : State) : (finishSreset s).adapterOk = s.adapterOk := rfl
@[simp] theorem finishSreset_draws (s : State) : (finishSreset s).draws = s.draws := rfl
@[simp] theorem finishSreset_epoch (s : State) : (finishSreset s).epoch = s.epoch := rfl

/-! #### setCfgBlock -/

@[simp] theorem setCfgBlock_seq (b : Nat) (s : State) : (setCfgBlock b s).seq = s.seq := rfl
@[simp] theorem setCfgBlock_frameCtx (b : Nat) (s : State) : (setCfgBlock b s).frameCtx = s.frameCtx := rfl
@[simp] theorem setCfgBlock_busy (b : Nat) (s : State) : (setCfgBlock b s).busy = s.busy := rfl
@[simp] theorem setCfgBlock_underflow (b : Nat) (s : State) : (setCfgBlock b s).underflow = s.underflow := rfl
@[simp] theorem setCfgBlock_initResult (b : Nat) (s : State) :
    (setCfgBlock b s).initResult = s.initResult := rfl
@[simp] theorem setCfgBlock_faultCode (b : Nat) (s : State) : (setCfgBlock b s).faultCode = s.faultCode := rfl
@[simp] theorem setCfgBlock_cmdErr (b : Nat) (s : State) : (setCfgBlock b s).cmdErr = s.cmdErr := rfl
@[simp] theorem setCfgBlock_sticky (b : Nat) (s : State) : (setCfgBlock b s).sticky = s.sticky := rfl
@[simp] theorem setCfgBlock_intEnable (b : Nat) (s : State) : (setCfgBlock b s).intEnable = s.intEnable := rfl
@[simp] theorem setCfgBlock_cfg (b : Nat) (s : State) :
    (setCfgBlock b s).cfg = { s.cfg with block := wordOfNat b } := rfl
@[simp] theorem setCfgBlock_act (b : Nat) (s : State) : (setCfgBlock b s).act = s.act := rfl
@[simp] theorem setCfgBlock_inIx (b : Nat) (s : State) : (setCfgBlock b s).inIx = s.inIx := rfl
@[simp] theorem setCfgBlock_outIx (b : Nat) (s : State) : (setCfgBlock b s).outIx = s.outIx := rfl
@[simp] theorem setCfgBlock_frameCount (b : Nat) (s : State) :
    (setCfgBlock b s).frameCount = s.frameCount := rfl
@[simp] theorem setCfgBlock_lastFrames (b : Nat) (s : State) :
    (setCfgBlock b s).lastFrames = s.lastFrames := rfl
@[simp] theorem setCfgBlock_mem (b : Nat) (s : State) : (setCfgBlock b s).mem = s.mem := rfl
@[simp] theorem setCfgBlock_ringIn (b : Nat) (s : State) : (setCfgBlock b s).ringIn = s.ringIn := rfl
@[simp] theorem setCfgBlock_ringOut (b : Nat) (s : State) : (setCfgBlock b s).ringOut = s.ringOut := rfl
@[simp] theorem setCfgBlock_tail (b : Nat) (s : State) : (setCfgBlock b s).tail = s.tail := rfl
@[simp] theorem setCfgBlock_tb (b : Nat) (s : State) : (setCfgBlock b s).tb = s.tb := rfl
@[simp] theorem setCfgBlock_y (b : Nat) (s : State) : (setCfgBlock b s).y = s.y := rfl
@[simp] theorem setCfgBlock_res (b : Nat) (s : State) : (setCfgBlock b s).res = s.res := rfl
@[simp] theorem setCfgBlock_rst (b : Nat) (s : State) : (setCfgBlock b s).rst = s.rst := rfl
@[simp] theorem setCfgBlock_build (b : Nat) (s : State) : (setCfgBlock b s).build = s.build := rfl
@[simp] theorem setCfgBlock_port (b : Nat) (s : State) : (setCfgBlock b s).port = s.port := rfl
@[simp] theorem setCfgBlock_overlap (b : Nat) (s : State) : (setCfgBlock b s).overlap = s.overlap := rfl
@[simp] theorem setCfgBlock_transit (b : Nat) (s : State) : (setCfgBlock b s).transit = s.transit := rfl
@[simp] theorem setCfgBlock_resp (b : Nat) (s : State) : (setCfgBlock b s).resp = s.resp := rfl
@[simp] theorem setCfgBlock_adapterOk (b : Nat) (s : State) : (setCfgBlock b s).adapterOk = s.adapterOk := rfl
@[simp] theorem setCfgBlock_draws (b : Nat) (s : State) : (setCfgBlock b s).draws = s.draws := rfl
@[simp] theorem setCfgBlock_epoch (b : Nat) (s : State) : (setCfgBlock b s).epoch = s.epoch := rfl

/-! #### initFailed -/

@[simp] theorem initFailed_seq (e : InitResult) (s : State) : (initFailed e s).seq = .uninit := rfl
@[simp] theorem initFailed_frameCtx (e : InitResult) (s : State) :
    (initFailed e s).frameCtx = s.frameCtx := rfl
@[simp] theorem initFailed_busy (e : InitResult) (s : State) : (initFailed e s).busy = s.busy := rfl
@[simp] theorem initFailed_underflow (e : InitResult) (s : State) : (initFailed e s).underflow = false := rfl
@[simp] theorem initFailed_initResult (e : InitResult) (s : State) : (initFailed e s).initResult = e := rfl
@[simp] theorem initFailed_faultCode (e : InitResult) (s : State) : (initFailed e s).faultCode = .none := rfl
@[simp] theorem initFailed_cmdErr (e : InitResult) (s : State) : (initFailed e s).cmdErr = s.cmdErr := rfl
@[simp] theorem initFailed_sticky (e : InitResult) (s : State) : (initFailed e s).sticky = s.sticky := rfl
@[simp] theorem initFailed_intEnable (e : InitResult) (s : State) :
    (initFailed e s).intEnable = s.intEnable := rfl
@[simp] theorem initFailed_cfg (e : InitResult) (s : State) : (initFailed e s).cfg = s.cfg := rfl
@[simp] theorem initFailed_act (e : InitResult) (s : State) : (initFailed e s).act = ActRegs.zero := rfl
@[simp] theorem initFailed_inIx (e : InitResult) (s : State) : (initFailed e s).inIx = RingIx.zero := rfl
@[simp] theorem initFailed_outIx (e : InitResult) (s : State) : (initFailed e s).outIx = RingIx.zero := rfl
@[simp] theorem initFailed_frameCount (e : InitResult) (s : State) : (initFailed e s).frameCount = 0#32 := rfl
@[simp] theorem initFailed_lastFrames (e : InitResult) (s : State) : (initFailed e s).lastFrames = 0#32 := rfl
@[simp] theorem initFailed_mem (e : InitResult) (s : State) : (initFailed e s).mem = s.mem := rfl
@[simp] theorem initFailed_ringIn (e : InitResult) (s : State) : (initFailed e s).ringIn = s.ringIn := rfl
@[simp] theorem initFailed_ringOut (e : InitResult) (s : State) : (initFailed e s).ringOut = s.ringOut := rfl
@[simp] theorem initFailed_tail (e : InitResult) (s : State) : (initFailed e s).tail = s.tail := rfl
@[simp] theorem initFailed_tb (e : InitResult) (s : State) : (initFailed e s).tb = s.tb := rfl
@[simp] theorem initFailed_y (e : InitResult) (s : State) : (initFailed e s).y = s.y := rfl
@[simp] theorem initFailed_res (e : InitResult) (s : State) : (initFailed e s).res = s.res := rfl
@[simp] theorem initFailed_rst (e : InitResult) (s : State) : (initFailed e s).rst = s.rst := rfl
@[simp] theorem initFailed_build (e : InitResult) (s : State) : (initFailed e s).build = s.build := rfl
@[simp] theorem initFailed_port (e : InitResult) (s : State) : (initFailed e s).port = s.port := rfl
@[simp] theorem initFailed_overlap (e : InitResult) (s : State) : (initFailed e s).overlap = s.overlap := rfl
@[simp] theorem initFailed_transit (e : InitResult) (s : State) : (initFailed e s).transit = s.transit := rfl
@[simp] theorem initFailed_resp (e : InitResult) (s : State) : (initFailed e s).resp = s.resp := rfl
@[simp] theorem initFailed_adapterOk (e : InitResult) (s : State) :
    (initFailed e s).adapterOk = s.adapterOk := rfl
@[simp] theorem initFailed_draws (e : InitResult) (s : State) : (initFailed e s).draws = s.draws := rfl
@[simp] theorem initFailed_epoch (e : InitResult) (s : State) : (initFailed e s).epoch = s.epoch := rfl

/-! #### initClear -/

@[simp] theorem initClear_seq (s : State) : (initClear s).seq = .ready := rfl
@[simp] theorem initClear_frameCtx (s : State) : (initClear s).frameCtx = s.frameCtx := rfl
@[simp] theorem initClear_busy (s : State) : (initClear s).busy = s.busy := rfl
@[simp] theorem initClear_underflow (s : State) : (initClear s).underflow = false := rfl
@[simp] theorem initClear_initResult (s : State) : (initClear s).initResult = .ok := rfl
@[simp] theorem initClear_faultCode (s : State) : (initClear s).faultCode = .none := rfl
@[simp] theorem initClear_cmdErr (s : State) : (initClear s).cmdErr = s.cmdErr := rfl
@[simp] theorem initClear_sticky (s : State) : (initClear s).sticky = s.sticky := rfl
@[simp] theorem initClear_intEnable (s : State) : (initClear s).intEnable = s.intEnable := rfl
@[simp] theorem initClear_cfg (s : State) : (initClear s).cfg = s.cfg := rfl
@[simp] theorem initClear_act (s : State) : (initClear s).act = s.act := rfl
@[simp] theorem initClear_inIx (s : State) : (initClear s).inIx = s.inIx := rfl
@[simp] theorem initClear_outIx (s : State) : (initClear s).outIx = s.outIx := rfl
@[simp] theorem initClear_frameCount (s : State) : (initClear s).frameCount = 0#32 := rfl
@[simp] theorem initClear_lastFrames (s : State) : (initClear s).lastFrames = 0#32 := rfl
@[simp] theorem initClear_mem (s : State) :
    (initClear s).mem = (s.mem.zeroRegion .specIn).zeroRegion .specOut := rfl
@[simp] theorem initClear_ringIn (s : State) : (initClear s).ringIn = s.ringIn := rfl
@[simp] theorem initClear_ringOut (s : State) : (initClear s).ringOut = s.ringOut := rfl
@[simp] theorem initClear_tail (s : State) : (initClear s).tail = .filled posZero := rfl
@[simp] theorem initClear_tb (s : State) : (initClear s).tb = s.tb := rfl
@[simp] theorem initClear_y (s : State) : (initClear s).y = s.y := rfl
@[simp] theorem initClear_res (s : State) : (initClear s).res = s.res := rfl
@[simp] theorem initClear_rst (s : State) : (initClear s).rst = s.rst := rfl
@[simp] theorem initClear_build (s : State) : (initClear s).build = s.build := rfl
@[simp] theorem initClear_port (s : State) : (initClear s).port = s.port := rfl
@[simp] theorem initClear_overlap (s : State) : (initClear s).overlap = s.overlap := rfl
@[simp] theorem initClear_transit (s : State) : (initClear s).transit = s.transit := rfl
@[simp] theorem initClear_resp (s : State) : (initClear s).resp = s.resp := rfl
@[simp] theorem initClear_adapterOk (s : State) : (initClear s).adapterOk = s.adapterOk := rfl
@[simp] theorem initClear_draws (s : State) : (initClear s).draws = s.draws := rfl
@[simp] theorem initClear_epoch (s : State) : (initClear s).epoch = s.epoch := rfl

/-! #### xwaitEnter -/

@[simp] theorem xwaitEnter_seq (s : State) : (xwaitEnter s).seq = .xwait := rfl
@[simp] theorem xwaitEnter_frameCtx (s : State) : (xwaitEnter s).frameCtx = true := rfl
@[simp] theorem xwaitEnter_busy (s : State) : (xwaitEnter s).busy = false := rfl
@[simp] theorem xwaitEnter_underflow (s : State) : (xwaitEnter s).underflow = s.underflow := rfl
@[simp] theorem xwaitEnter_initResult (s : State) : (xwaitEnter s).initResult = s.initResult := rfl
@[simp] theorem xwaitEnter_faultCode (s : State) : (xwaitEnter s).faultCode = s.faultCode := rfl
@[simp] theorem xwaitEnter_cmdErr (s : State) : (xwaitEnter s).cmdErr = s.cmdErr := rfl
@[simp] theorem xwaitEnter_sticky (s : State) : (xwaitEnter s).sticky = s.sticky := rfl
@[simp] theorem xwaitEnter_intEnable (s : State) : (xwaitEnter s).intEnable = s.intEnable := rfl
@[simp] theorem xwaitEnter_cfg (s : State) : (xwaitEnter s).cfg = s.cfg := rfl
@[simp] theorem xwaitEnter_act (s : State) : (xwaitEnter s).act = s.act := rfl
@[simp] theorem xwaitEnter_inIx (s : State) : (xwaitEnter s).inIx = s.inIx := rfl
@[simp] theorem xwaitEnter_outIx (s : State) : (xwaitEnter s).outIx = s.outIx := rfl
@[simp] theorem xwaitEnter_frameCount (s : State) : (xwaitEnter s).frameCount = s.frameCount := rfl
@[simp] theorem xwaitEnter_lastFrames (s : State) : (xwaitEnter s).lastFrames = s.lastFrames := rfl
@[simp] theorem xwaitEnter_mem (s : State) : (xwaitEnter s).mem = s.mem := rfl
@[simp] theorem xwaitEnter_ringIn (s : State) : (xwaitEnter s).ringIn = s.ringIn := rfl
@[simp] theorem xwaitEnter_ringOut (s : State) : (xwaitEnter s).ringOut = s.ringOut := rfl
@[simp] theorem xwaitEnter_tail (s : State) : (xwaitEnter s).tail = s.tail := rfl
@[simp] theorem xwaitEnter_tb (s : State) : (xwaitEnter s).tb = s.tb := rfl
@[simp] theorem xwaitEnter_y (s : State) : (xwaitEnter s).y = s.y := rfl
@[simp] theorem xwaitEnter_res (s : State) : (xwaitEnter s).res = s.res := rfl
@[simp] theorem xwaitEnter_rst (s : State) : (xwaitEnter s).rst = s.rst := rfl
@[simp] theorem xwaitEnter_build (s : State) : (xwaitEnter s).build = s.build := rfl
@[simp] theorem xwaitEnter_port (s : State) : (xwaitEnter s).port = s.port := rfl
@[simp] theorem xwaitEnter_overlap (s : State) : (xwaitEnter s).overlap = s.overlap := rfl
@[simp] theorem xwaitEnter_transit (s : State) : (xwaitEnter s).transit = s.transit := rfl
@[simp] theorem xwaitEnter_resp (s : State) : (xwaitEnter s).resp = s.resp := rfl
@[simp] theorem xwaitEnter_adapterOk (s : State) : (xwaitEnter s).adapterOk = s.adapterOk := rfl
@[simp] theorem xwaitEnter_draws (s : State) : (xwaitEnter s).draws = s.draws := rfl
@[simp] theorem xwaitEnter_epoch (s : State) : (xwaitEnter s).epoch = s.epoch := rfl

/-! #### stageOutput -/

@[simp] theorem stageOutput_seq (n : Nat) (val : Nat → Nat → Nat → F32) (s : State) :
    (stageOutput n val s).seq = s.seq := rfl
@[simp] theorem stageOutput_frameCtx (n : Nat) (val : Nat → Nat → Nat → F32) (s : State) :
    (stageOutput n val s).frameCtx = s.frameCtx := rfl
@[simp] theorem stageOutput_busy (n : Nat) (val : Nat → Nat → Nat → F32) (s : State) :
    (stageOutput n val s).busy = s.busy := rfl
@[simp] theorem stageOutput_underflow (n : Nat) (val : Nat → Nat → Nat → F32) (s : State) :
    (stageOutput n val s).underflow = s.underflow := rfl
@[simp] theorem stageOutput_initResult (n : Nat) (val : Nat → Nat → Nat → F32) (s : State) :
    (stageOutput n val s).initResult = s.initResult := rfl
@[simp] theorem stageOutput_faultCode (n : Nat) (val : Nat → Nat → Nat → F32) (s : State) :
    (stageOutput n val s).faultCode = s.faultCode := rfl
@[simp] theorem stageOutput_cmdErr (n : Nat) (val : Nat → Nat → Nat → F32) (s : State) :
    (stageOutput n val s).cmdErr = s.cmdErr := rfl
@[simp] theorem stageOutput_sticky (n : Nat) (val : Nat → Nat → Nat → F32) (s : State) :
    (stageOutput n val s).sticky = s.sticky := rfl
@[simp] theorem stageOutput_intEnable (n : Nat) (val : Nat → Nat → Nat → F32) (s : State) :
    (stageOutput n val s).intEnable = s.intEnable := rfl
@[simp] theorem stageOutput_cfg (n : Nat) (val : Nat → Nat → Nat → F32) (s : State) :
    (stageOutput n val s).cfg = s.cfg := rfl
@[simp] theorem stageOutput_act (n : Nat) (val : Nat → Nat → Nat → F32) (s : State) :
    (stageOutput n val s).act = s.act := rfl
@[simp] theorem stageOutput_inIx (n : Nat) (val : Nat → Nat → Nat → F32) (s : State) :
    (stageOutput n val s).inIx = s.inIx := rfl
@[simp] theorem stageOutput_outIx (n : Nat) (val : Nat → Nat → Nat → F32) (s : State) :
    (stageOutput n val s).outIx = s.outIx := rfl
@[simp] theorem stageOutput_frameCount (n : Nat) (val : Nat → Nat → Nat → F32) (s : State) :
    (stageOutput n val s).frameCount = s.frameCount := rfl
@[simp] theorem stageOutput_lastFrames (n : Nat) (val : Nat → Nat → Nat → F32) (s : State) :
    (stageOutput n val s).lastFrames = s.lastFrames := rfl
@[simp] theorem stageOutput_ringIn (n : Nat) (val : Nat → Nat → Nat → F32) (s : State) :
    (stageOutput n val s).ringIn = s.ringIn := rfl
@[simp] theorem stageOutput_ringOut (n : Nat) (val : Nat → Nat → Nat → F32) (s : State) :
    (stageOutput n val s).ringOut = s.ringOut := rfl
@[simp] theorem stageOutput_tail (n : Nat) (val : Nat → Nat → Nat → F32) (s : State) :
    (stageOutput n val s).tail = s.tail := rfl
@[simp] theorem stageOutput_tb (n : Nat) (val : Nat → Nat → Nat → F32) (s : State) :
    (stageOutput n val s).tb = s.tb := rfl
@[simp] theorem stageOutput_y (n : Nat) (val : Nat → Nat → Nat → F32) (s : State) :
    (stageOutput n val s).y = s.y := rfl
@[simp] theorem stageOutput_res (n : Nat) (val : Nat → Nat → Nat → F32) (s : State) :
    (stageOutput n val s).res = s.res := rfl
@[simp] theorem stageOutput_rst (n : Nat) (val : Nat → Nat → Nat → F32) (s : State) :
    (stageOutput n val s).rst = s.rst := rfl
@[simp] theorem stageOutput_build (n : Nat) (val : Nat → Nat → Nat → F32) (s : State) :
    (stageOutput n val s).build = s.build := rfl
@[simp] theorem stageOutput_port (n : Nat) (val : Nat → Nat → Nat → F32) (s : State) :
    (stageOutput n val s).port = s.port := rfl
@[simp] theorem stageOutput_overlap (n : Nat) (val : Nat → Nat → Nat → F32) (s : State) :
    (stageOutput n val s).overlap = s.overlap := rfl
@[simp] theorem stageOutput_transit (n : Nat) (val : Nat → Nat → Nat → F32) (s : State) :
    (stageOutput n val s).transit = s.transit := rfl
@[simp] theorem stageOutput_resp (n : Nat) (val : Nat → Nat → Nat → F32) (s : State) :
    (stageOutput n val s).resp = s.resp := rfl
@[simp] theorem stageOutput_adapterOk (n : Nat) (val : Nat → Nat → Nat → F32) (s : State) :
    (stageOutput n val s).adapterOk = s.adapterOk := rfl
@[simp] theorem stageOutput_draws (n : Nat) (val : Nat → Nat → Nat → F32) (s : State) :
    (stageOutput n val s).draws = s.draws := rfl
@[simp] theorem stageOutput_epoch (n : Nat) (val : Nat → Nat → Nat → F32) (s : State) :
    (stageOutput n val s).epoch = s.epoch := rfl

/-! #### leaveXwait -/

@[simp] theorem leaveXwait_seq (s : State) : (leaveXwait s).seq = .ready := rfl
@[simp] theorem leaveXwait_frameCtx (s : State) : (leaveXwait s).frameCtx = false := rfl
@[simp] theorem leaveXwait_busy (s : State) : (leaveXwait s).busy = true := rfl
@[simp] theorem leaveXwait_underflow (s : State) : (leaveXwait s).underflow = s.underflow := rfl
@[simp] theorem leaveXwait_initResult (s : State) : (leaveXwait s).initResult = s.initResult := rfl
@[simp] theorem leaveXwait_faultCode (s : State) : (leaveXwait s).faultCode = s.faultCode := rfl
@[simp] theorem leaveXwait_cmdErr (s : State) : (leaveXwait s).cmdErr = s.cmdErr := rfl
@[simp] theorem leaveXwait_sticky (s : State) : (leaveXwait s).sticky = s.sticky := rfl
@[simp] theorem leaveXwait_intEnable (s : State) : (leaveXwait s).intEnable = s.intEnable := rfl
@[simp] theorem leaveXwait_cfg (s : State) : (leaveXwait s).cfg = s.cfg := rfl
@[simp] theorem leaveXwait_act (s : State) : (leaveXwait s).act = s.act := rfl
@[simp] theorem leaveXwait_inIx (s : State) : (leaveXwait s).inIx = s.inIx := rfl
@[simp] theorem leaveXwait_outIx (s : State) : (leaveXwait s).outIx = s.outIx := rfl
@[simp] theorem leaveXwait_frameCount (s : State) : (leaveXwait s).frameCount = s.frameCount := rfl
@[simp] theorem leaveXwait_lastFrames (s : State) : (leaveXwait s).lastFrames = s.lastFrames := rfl
@[simp] theorem leaveXwait_mem (s : State) : (leaveXwait s).mem = s.mem := rfl
@[simp] theorem leaveXwait_ringIn (s : State) : (leaveXwait s).ringIn = s.ringIn := rfl
@[simp] theorem leaveXwait_ringOut (s : State) : (leaveXwait s).ringOut = s.ringOut := rfl
@[simp] theorem leaveXwait_tail (s : State) : (leaveXwait s).tail = s.tail := rfl
@[simp] theorem leaveXwait_tb (s : State) : (leaveXwait s).tb = s.tb := rfl
@[simp] theorem leaveXwait_y (s : State) : (leaveXwait s).y = s.y := rfl
@[simp] theorem leaveXwait_res (s : State) : (leaveXwait s).res = s.res := rfl
@[simp] theorem leaveXwait_rst (s : State) : (leaveXwait s).rst = s.rst := rfl
@[simp] theorem leaveXwait_build (s : State) : (leaveXwait s).build = s.build := rfl
@[simp] theorem leaveXwait_port (s : State) : (leaveXwait s).port = s.port := rfl
@[simp] theorem leaveXwait_overlap (s : State) : (leaveXwait s).overlap = s.overlap := rfl
@[simp] theorem leaveXwait_transit (s : State) : (leaveXwait s).transit = s.transit := rfl
@[simp] theorem leaveXwait_resp (s : State) : (leaveXwait s).resp = s.resp := rfl
@[simp] theorem leaveXwait_adapterOk (s : State) : (leaveXwait s).adapterOk = s.adapterOk := rfl
@[simp] theorem leaveXwait_draws (s : State) : (leaveXwait s).draws = s.draws := rfl
@[simp] theorem leaveXwait_epoch (s : State) : (leaveXwait s).epoch = s.epoch := rfl

/-! #### requeue -/

@[simp] theorem requeue_seq (s : State) : (requeue s).seq = s.seq := rfl
@[simp] theorem requeue_frameCtx (s : State) : (requeue s).frameCtx = s.frameCtx := rfl
@[simp] theorem requeue_busy (s : State) : (requeue s).busy = s.busy := rfl
@[simp] theorem requeue_underflow (s : State) : (requeue s).underflow = s.underflow := rfl
@[simp] theorem requeue_initResult (s : State) : (requeue s).initResult = s.initResult := rfl
@[simp] theorem requeue_faultCode (s : State) : (requeue s).faultCode = s.faultCode := rfl
@[simp] theorem requeue_cmdErr (s : State) : (requeue s).cmdErr = s.cmdErr := rfl
@[simp] theorem requeue_sticky (s : State) : (requeue s).sticky = s.sticky := rfl
@[simp] theorem requeue_intEnable (s : State) : (requeue s).intEnable = s.intEnable := rfl
@[simp] theorem requeue_cfg (s : State) : (requeue s).cfg = s.cfg := rfl
@[simp] theorem requeue_act (s : State) : (requeue s).act = s.act := rfl
@[simp] theorem requeue_inIx (s : State) : (requeue s).inIx = s.inIx := rfl
@[simp] theorem requeue_outIx (s : State) : (requeue s).outIx = s.outIx := rfl
@[simp] theorem requeue_frameCount (s : State) : (requeue s).frameCount = s.frameCount := rfl
@[simp] theorem requeue_lastFrames (s : State) : (requeue s).lastFrames = s.lastFrames := rfl
@[simp] theorem requeue_ringIn (s : State) : (requeue s).ringIn = s.ringIn := rfl
@[simp] theorem requeue_ringOut (s : State) : (requeue s).ringOut = s.ringOut := rfl
@[simp] theorem requeue_tail (s : State) : (requeue s).tail = s.tail := rfl
@[simp] theorem requeue_tb (s : State) : (requeue s).tb = s.tb := rfl
@[simp] theorem requeue_y (s : State) : (requeue s).y = s.y := rfl
@[simp] theorem requeue_res (s : State) : (requeue s).res = s.res := rfl
@[simp] theorem requeue_rst (s : State) : (requeue s).rst = s.rst := rfl
@[simp] theorem requeue_build (s : State) : (requeue s).build = s.build := rfl
@[simp] theorem requeue_overlap (s : State) : (requeue s).overlap = [] := rfl
@[simp] theorem requeue_transit (s : State) : (requeue s).transit = .none := rfl
@[simp] theorem requeue_adapterOk (s : State) : (requeue s).adapterOk = s.adapterOk := rfl
@[simp] theorem requeue_draws (s : State) : (requeue s).draws = s.draws := rfl
@[simp] theorem requeue_epoch (s : State) : (requeue s).epoch = s.epoch := rfl

/-! #### takeArrival -/

@[simp] theorem takeArrival_seq (a : Arrival) (rest : List Arrival) (s : State) :
    (takeArrival a rest s).seq = s.seq := rfl
@[simp] theorem takeArrival_frameCtx (a : Arrival) (rest : List Arrival) (s : State) :
    (takeArrival a rest s).frameCtx = s.frameCtx := rfl
@[simp] theorem takeArrival_busy (a : Arrival) (rest : List Arrival) (s : State) :
    (takeArrival a rest s).busy = s.busy := rfl
@[simp] theorem takeArrival_underflow (a : Arrival) (rest : List Arrival) (s : State) :
    (takeArrival a rest s).underflow = s.underflow := rfl
@[simp] theorem takeArrival_initResult (a : Arrival) (rest : List Arrival) (s : State) :
    (takeArrival a rest s).initResult = s.initResult := rfl
@[simp] theorem takeArrival_faultCode (a : Arrival) (rest : List Arrival) (s : State) :
    (takeArrival a rest s).faultCode = s.faultCode := rfl
@[simp] theorem takeArrival_cmdErr (a : Arrival) (rest : List Arrival) (s : State) :
    (takeArrival a rest s).cmdErr = s.cmdErr := rfl
@[simp] theorem takeArrival_sticky (a : Arrival) (rest : List Arrival) (s : State) :
    (takeArrival a rest s).sticky = s.sticky := rfl
@[simp] theorem takeArrival_intEnable (a : Arrival) (rest : List Arrival) (s : State) :
    (takeArrival a rest s).intEnable = s.intEnable := rfl
@[simp] theorem takeArrival_cfg (a : Arrival) (rest : List Arrival) (s : State) :
    (takeArrival a rest s).cfg = s.cfg := rfl
@[simp] theorem takeArrival_act (a : Arrival) (rest : List Arrival) (s : State) :
    (takeArrival a rest s).act = s.act := rfl
@[simp] theorem takeArrival_inIx (a : Arrival) (rest : List Arrival) (s : State) :
    (takeArrival a rest s).inIx = s.inIx := rfl
@[simp] theorem takeArrival_outIx (a : Arrival) (rest : List Arrival) (s : State) :
    (takeArrival a rest s).outIx = s.outIx := rfl
@[simp] theorem takeArrival_frameCount (a : Arrival) (rest : List Arrival) (s : State) :
    (takeArrival a rest s).frameCount = s.frameCount := rfl
@[simp] theorem takeArrival_lastFrames (a : Arrival) (rest : List Arrival) (s : State) :
    (takeArrival a rest s).lastFrames = s.lastFrames := rfl
@[simp] theorem takeArrival_mem (a : Arrival) (rest : List Arrival) (s : State) :
    (takeArrival a rest s).mem = s.mem := rfl
@[simp] theorem takeArrival_ringIn (a : Arrival) (rest : List Arrival) (s : State) :
    (takeArrival a rest s).ringIn = s.ringIn := rfl
@[simp] theorem takeArrival_ringOut (a : Arrival) (rest : List Arrival) (s : State) :
    (takeArrival a rest s).ringOut = s.ringOut := rfl
@[simp] theorem takeArrival_tail (a : Arrival) (rest : List Arrival) (s : State) :
    (takeArrival a rest s).tail = s.tail := rfl
@[simp] theorem takeArrival_tb (a : Arrival) (rest : List Arrival) (s : State) :
    (takeArrival a rest s).tb = s.tb := rfl
@[simp] theorem takeArrival_y (a : Arrival) (rest : List Arrival) (s : State) :
    (takeArrival a rest s).y = s.y := rfl
@[simp] theorem takeArrival_res (a : Arrival) (rest : List Arrival) (s : State) :
    (takeArrival a rest s).res = s.res := rfl
@[simp] theorem takeArrival_rst (a : Arrival) (rest : List Arrival) (s : State) :
    (takeArrival a rest s).rst = s.rst := rfl
@[simp] theorem takeArrival_build (a : Arrival) (rest : List Arrival) (s : State) :
    (takeArrival a rest s).build = s.build := rfl
@[simp] theorem takeArrival_port (a : Arrival) (rest : List Arrival) (s : State) :
    (takeArrival a rest s).port = rest := rfl
@[simp] theorem takeArrival_overlap (a : Arrival) (rest : List Arrival) (s : State) :
    (takeArrival a rest s).overlap = a.during := rfl
@[simp] theorem takeArrival_transit (a : Arrival) (rest : List Arrival) (s : State) :
    (takeArrival a rest s).transit = .none := rfl
@[simp] theorem takeArrival_resp (a : Arrival) (rest : List Arrival) (s : State) :
    (takeArrival a rest s).resp = [] := rfl
@[simp] theorem takeArrival_adapterOk (a : Arrival) (rest : List Arrival) (s : State) :
    (takeArrival a rest s).adapterOk = s.adapterOk := rfl
@[simp] theorem takeArrival_draws (a : Arrival) (rest : List Arrival) (s : State) :
    (takeArrival a rest s).draws = s.draws := rfl
@[simp] theorem takeArrival_epoch (a : Arrival) (rest : List Arrival) (s : State) :
    (takeArrival a rest s).epoch = s.epoch := rfl

/-! #### releaseBusy -/

@[simp] theorem releaseBusy_seq (s : State) : (releaseBusy s).seq = s.seq := rfl
@[simp] theorem releaseBusy_frameCtx (s : State) : (releaseBusy s).frameCtx = s.frameCtx := rfl
@[simp] theorem releaseBusy_busy (s : State) : (releaseBusy s).busy = false := rfl
@[simp] theorem releaseBusy_underflow (s : State) : (releaseBusy s).underflow = s.underflow := rfl
@[simp] theorem releaseBusy_initResult (s : State) : (releaseBusy s).initResult = s.initResult := rfl
@[simp] theorem releaseBusy_faultCode (s : State) : (releaseBusy s).faultCode = s.faultCode := rfl
@[simp] theorem releaseBusy_cmdErr (s : State) : (releaseBusy s).cmdErr = s.cmdErr := rfl
@[simp] theorem releaseBusy_sticky (s : State) : (releaseBusy s).sticky = s.sticky := rfl
@[simp] theorem releaseBusy_intEnable (s : State) : (releaseBusy s).intEnable = s.intEnable := rfl
@[simp] theorem releaseBusy_cfg (s : State) : (releaseBusy s).cfg = s.cfg := rfl
@[simp] theorem releaseBusy_act (s : State) : (releaseBusy s).act = s.act := rfl
@[simp] theorem releaseBusy_inIx (s : State) : (releaseBusy s).inIx = s.inIx := rfl
@[simp] theorem releaseBusy_outIx (s : State) : (releaseBusy s).outIx = s.outIx := rfl
@[simp] theorem releaseBusy_frameCount (s : State) : (releaseBusy s).frameCount = s.frameCount := rfl
@[simp] theorem releaseBusy_lastFrames (s : State) : (releaseBusy s).lastFrames = s.lastFrames := rfl
@[simp] theorem releaseBusy_mem (s : State) : (releaseBusy s).mem = s.mem := rfl
@[simp] theorem releaseBusy_ringIn (s : State) : (releaseBusy s).ringIn = s.ringIn := rfl
@[simp] theorem releaseBusy_ringOut (s : State) : (releaseBusy s).ringOut = s.ringOut := rfl
@[simp] theorem releaseBusy_tail (s : State) : (releaseBusy s).tail = s.tail := rfl
@[simp] theorem releaseBusy_tb (s : State) : (releaseBusy s).tb = s.tb := rfl
@[simp] theorem releaseBusy_y (s : State) : (releaseBusy s).y = s.y := rfl
@[simp] theorem releaseBusy_res (s : State) : (releaseBusy s).res = s.res := rfl
@[simp] theorem releaseBusy_rst (s : State) : (releaseBusy s).rst = s.rst := rfl
@[simp] theorem releaseBusy_build (s : State) : (releaseBusy s).build = s.build := rfl
@[simp] theorem releaseBusy_port (s : State) : (releaseBusy s).port = s.port := rfl
@[simp] theorem releaseBusy_overlap (s : State) : (releaseBusy s).overlap = s.overlap := rfl
@[simp] theorem releaseBusy_transit (s : State) : (releaseBusy s).transit = s.transit := rfl
@[simp] theorem releaseBusy_resp (s : State) : (releaseBusy s).resp = s.resp := rfl
@[simp] theorem releaseBusy_adapterOk (s : State) : (releaseBusy s).adapterOk = s.adapterOk := rfl
@[simp] theorem releaseBusy_draws (s : State) : (releaseBusy s).draws = s.draws := rfl
@[simp] theorem releaseBusy_epoch (s : State) : (releaseBusy s).epoch = s.epoch := rfl

/-! #### enterFault -/

@[simp] theorem enterFault_seq (e : FaultCode) (s : State) : (enterFault e s).seq = .fault := rfl
@[simp] theorem enterFault_frameCtx (e : FaultCode) (s : State) :
    (enterFault e s).frameCtx = s.frameCtx := rfl
@[simp] theorem enterFault_busy (e : FaultCode) (s : State) : (enterFault e s).busy = s.busy := rfl
@[simp] theorem enterFault_underflow (e : FaultCode) (s : State) :
    (enterFault e s).underflow = s.underflow := rfl
@[simp] theorem enterFault_initResult (e : FaultCode) (s : State) :
    (enterFault e s).initResult = s.initResult := rfl
@[simp] theorem enterFault_faultCode (e : FaultCode) (s : State) : (enterFault e s).faultCode = e := rfl
@[simp] theorem enterFault_cmdErr (e : FaultCode) (s : State) : (enterFault e s).cmdErr = s.cmdErr := rfl
@[simp] theorem enterFault_sticky (e : FaultCode) (s : State) : (enterFault e s).sticky = s.sticky := rfl
@[simp] theorem enterFault_intEnable (e : FaultCode) (s : State) :
    (enterFault e s).intEnable = s.intEnable := rfl
@[simp] theorem enterFault_cfg (e : FaultCode) (s : State) : (enterFault e s).cfg = s.cfg := rfl
@[simp] theorem enterFault_act (e : FaultCode) (s : State) : (enterFault e s).act = s.act := rfl
@[simp] theorem enterFault_inIx (e : FaultCode) (s : State) : (enterFault e s).inIx = s.inIx := rfl
@[simp] theorem enterFault_outIx (e : FaultCode) (s : State) : (enterFault e s).outIx = s.outIx := rfl
@[simp] theorem enterFault_frameCount (e : FaultCode) (s : State) :
    (enterFault e s).frameCount = s.frameCount := rfl
@[simp] theorem enterFault_lastFrames (e : FaultCode) (s : State) :
    (enterFault e s).lastFrames = s.lastFrames := rfl
@[simp] theorem enterFault_mem (e : FaultCode) (s : State) : (enterFault e s).mem = s.mem := rfl
@[simp] theorem enterFault_ringIn (e : FaultCode) (s : State) : (enterFault e s).ringIn = s.ringIn := rfl
@[simp] theorem enterFault_ringOut (e : FaultCode) (s : State) : (enterFault e s).ringOut = s.ringOut := rfl
@[simp] theorem enterFault_tail (e : FaultCode) (s : State) : (enterFault e s).tail = s.tail := rfl
@[simp] theorem enterFault_tb (e : FaultCode) (s : State) : (enterFault e s).tb = s.tb := rfl
@[simp] theorem enterFault_y (e : FaultCode) (s : State) : (enterFault e s).y = s.y := rfl
@[simp] theorem enterFault_res (e : FaultCode) (s : State) : (enterFault e s).res = s.res := rfl
@[simp] theorem enterFault_rst (e : FaultCode) (s : State) : (enterFault e s).rst = s.rst := rfl
@[simp] theorem enterFault_build (e : FaultCode) (s : State) : (enterFault e s).build = s.build := rfl
@[simp] theorem enterFault_port (e : FaultCode) (s : State) : (enterFault e s).port = s.port := rfl
@[simp] theorem enterFault_overlap (e : FaultCode) (s : State) : (enterFault e s).overlap = s.overlap := rfl
@[simp] theorem enterFault_transit (e : FaultCode) (s : State) : (enterFault e s).transit = s.transit := rfl
@[simp] theorem enterFault_resp (e : FaultCode) (s : State) : (enterFault e s).resp = s.resp := rfl
@[simp] theorem enterFault_adapterOk (e : FaultCode) (s : State) :
    (enterFault e s).adapterOk = s.adapterOk := rfl
@[simp] theorem enterFault_draws (e : FaultCode) (s : State) : (enterFault e s).draws = s.draws := rfl
@[simp] theorem enterFault_epoch (e : FaultCode) (s : State) : (enterFault e s).epoch = s.epoch := rfl

/-! #### saveFrame -/

@[simp] theorem saveFrame_seq (s : State) : (saveFrame s).seq = .xwait := rfl
@[simp] theorem saveFrame_frameCtx (s : State) : (saveFrame s).frameCtx = true := rfl
@[simp] theorem saveFrame_busy (s : State) : (saveFrame s).busy = s.busy := rfl
@[simp] theorem saveFrame_underflow (s : State) : (saveFrame s).underflow = s.underflow := rfl
@[simp] theorem saveFrame_initResult (s : State) : (saveFrame s).initResult = s.initResult := rfl
@[simp] theorem saveFrame_faultCode (s : State) : (saveFrame s).faultCode = s.faultCode := rfl
@[simp] theorem saveFrame_cmdErr (s : State) : (saveFrame s).cmdErr = s.cmdErr := rfl
@[simp] theorem saveFrame_sticky (s : State) : (saveFrame s).sticky = s.sticky := rfl
@[simp] theorem saveFrame_intEnable (s : State) : (saveFrame s).intEnable = s.intEnable := rfl
@[simp] theorem saveFrame_cfg (s : State) : (saveFrame s).cfg = s.cfg := rfl
@[simp] theorem saveFrame_act (s : State) : (saveFrame s).act = s.act := rfl
@[simp] theorem saveFrame_inIx (s : State) : (saveFrame s).inIx = s.inIx := rfl
@[simp] theorem saveFrame_outIx (s : State) : (saveFrame s).outIx = s.outIx := rfl
@[simp] theorem saveFrame_frameCount (s : State) : (saveFrame s).frameCount = s.frameCount := rfl
@[simp] theorem saveFrame_lastFrames (s : State) : (saveFrame s).lastFrames = s.lastFrames := rfl
@[simp] theorem saveFrame_mem (s : State) : (saveFrame s).mem = s.mem := rfl
@[simp] theorem saveFrame_ringIn (s : State) : (saveFrame s).ringIn = s.ringIn := rfl
@[simp] theorem saveFrame_ringOut (s : State) : (saveFrame s).ringOut = s.ringOut := rfl
@[simp] theorem saveFrame_tail (s : State) : (saveFrame s).tail = s.tail := rfl
@[simp] theorem saveFrame_tb (s : State) : (saveFrame s).tb = s.tb := rfl
@[simp] theorem saveFrame_y (s : State) : (saveFrame s).y = s.y := rfl
@[simp] theorem saveFrame_res (s : State) : (saveFrame s).res = s.res := rfl
@[simp] theorem saveFrame_rst (s : State) : (saveFrame s).rst = s.rst := rfl
@[simp] theorem saveFrame_build (s : State) : (saveFrame s).build = s.build := rfl
@[simp] theorem saveFrame_port (s : State) : (saveFrame s).port = s.port := rfl
@[simp] theorem saveFrame_overlap (s : State) : (saveFrame s).overlap = s.overlap := rfl
@[simp] theorem saveFrame_transit (s : State) : (saveFrame s).transit = s.transit := rfl
@[simp] theorem saveFrame_resp (s : State) : (saveFrame s).resp = s.resp := rfl
@[simp] theorem saveFrame_adapterOk (s : State) : (saveFrame s).adapterOk = s.adapterOk := rfl
@[simp] theorem saveFrame_draws (s : State) : (saveFrame s).draws = s.draws := rfl
@[simp] theorem saveFrame_epoch (s : State) : (saveFrame s).epoch = s.epoch := rfl

/-! #### startCount -/

@[simp] theorem startCount_seq (s : State) : (startCount s).seq = s.seq := rfl
@[simp] theorem startCount_frameCtx (s : State) : (startCount s).frameCtx = s.frameCtx := rfl
@[simp] theorem startCount_busy (s : State) : (startCount s).busy = s.busy := rfl
@[simp] theorem startCount_underflow (s : State) : (startCount s).underflow = s.underflow := rfl
@[simp] theorem startCount_initResult (s : State) : (startCount s).initResult = s.initResult := rfl
@[simp] theorem startCount_faultCode (s : State) : (startCount s).faultCode = s.faultCode := rfl
@[simp] theorem startCount_cmdErr (s : State) : (startCount s).cmdErr = s.cmdErr := rfl
@[simp] theorem startCount_sticky (s : State) : (startCount s).sticky = s.sticky := rfl
@[simp] theorem startCount_intEnable (s : State) : (startCount s).intEnable = s.intEnable := rfl
@[simp] theorem startCount_cfg (s : State) : (startCount s).cfg = s.cfg := rfl
@[simp] theorem startCount_act (s : State) : (startCount s).act = s.act := rfl
@[simp] theorem startCount_inIx (s : State) : (startCount s).inIx = s.inIx := rfl
@[simp] theorem startCount_outIx (s : State) : (startCount s).outIx = s.outIx := rfl
@[simp] theorem startCount_frameCount (s : State) : (startCount s).frameCount = s.frameCount := rfl
@[simp] theorem startCount_lastFrames (s : State) : (startCount s).lastFrames = 0#32 := rfl
@[simp] theorem startCount_mem (s : State) : (startCount s).mem = s.mem := rfl
@[simp] theorem startCount_ringIn (s : State) : (startCount s).ringIn = s.ringIn := rfl
@[simp] theorem startCount_ringOut (s : State) : (startCount s).ringOut = s.ringOut := rfl
@[simp] theorem startCount_tail (s : State) : (startCount s).tail = s.tail := rfl
@[simp] theorem startCount_tb (s : State) : (startCount s).tb = s.tb := rfl
@[simp] theorem startCount_y (s : State) : (startCount s).y = s.y := rfl
@[simp] theorem startCount_res (s : State) : (startCount s).res = s.res := rfl
@[simp] theorem startCount_rst (s : State) : (startCount s).rst = s.rst := rfl
@[simp] theorem startCount_build (s : State) : (startCount s).build = s.build := rfl
@[simp] theorem startCount_port (s : State) : (startCount s).port = s.port := rfl
@[simp] theorem startCount_overlap (s : State) : (startCount s).overlap = s.overlap := rfl
@[simp] theorem startCount_transit (s : State) : (startCount s).transit = s.transit := rfl
@[simp] theorem startCount_resp (s : State) : (startCount s).resp = s.resp := rfl
@[simp] theorem startCount_adapterOk (s : State) : (startCount s).adapterOk = s.adapterOk := rfl
@[simp] theorem startCount_draws (s : State) : (startCount s).draws = s.draws := rfl
@[simp] theorem startCount_epoch (s : State) : (startCount s).epoch = s.epoch := rfl

/-! #### appendStaged -/

@[simp] theorem appendStaged_seq (n : Nat) (s : State) : (appendStaged n s).seq = s.seq := rfl
@[simp] theorem appendStaged_frameCtx (n : Nat) (s : State) : (appendStaged n s).frameCtx = s.frameCtx := rfl
@[simp] theorem appendStaged_busy (n : Nat) (s : State) : (appendStaged n s).busy = s.busy := rfl
@[simp] theorem appendStaged_underflow (n : Nat) (s : State) :
    (appendStaged n s).underflow = s.underflow := rfl
@[simp] theorem appendStaged_initResult (n : Nat) (s : State) :
    (appendStaged n s).initResult = s.initResult := rfl
@[simp] theorem appendStaged_faultCode (n : Nat) (s : State) :
    (appendStaged n s).faultCode = s.faultCode := rfl
@[simp] theorem appendStaged_cmdErr (n : Nat) (s : State) : (appendStaged n s).cmdErr = s.cmdErr := rfl
@[simp] theorem appendStaged_sticky (n : Nat) (s : State) : (appendStaged n s).sticky = s.sticky := rfl
@[simp] theorem appendStaged_intEnable (n : Nat) (s : State) :
    (appendStaged n s).intEnable = s.intEnable := rfl
@[simp] theorem appendStaged_cfg (n : Nat) (s : State) : (appendStaged n s).cfg = s.cfg := rfl
@[simp] theorem appendStaged_act (n : Nat) (s : State) : (appendStaged n s).act = s.act := rfl
@[simp] theorem appendStaged_inIx (n : Nat) (s : State) :
    (appendStaged n s).inIx = { s.inIx with wr := (s.inIx.wr + n) % s.Cin, avail := s.inIx.avail + n } := rfl
@[simp] theorem appendStaged_outIx (n : Nat) (s : State) : (appendStaged n s).outIx = s.outIx := rfl
@[simp] theorem appendStaged_frameCount (n : Nat) (s : State) :
    (appendStaged n s).frameCount = s.frameCount := rfl
@[simp] theorem appendStaged_lastFrames (n : Nat) (s : State) :
    (appendStaged n s).lastFrames = s.lastFrames := rfl
@[simp] theorem appendStaged_mem (n : Nat) (s : State) : (appendStaged n s).mem = s.mem := rfl
@[simp] theorem appendStaged_ringOut (n : Nat) (s : State) : (appendStaged n s).ringOut = s.ringOut := rfl
@[simp] theorem appendStaged_tail (n : Nat) (s : State) : (appendStaged n s).tail = s.tail := rfl
@[simp] theorem appendStaged_tb (n : Nat) (s : State) : (appendStaged n s).tb = s.tb := rfl
@[simp] theorem appendStaged_y (n : Nat) (s : State) : (appendStaged n s).y = s.y := rfl
@[simp] theorem appendStaged_res (n : Nat) (s : State) : (appendStaged n s).res = s.res := rfl
@[simp] theorem appendStaged_rst (n : Nat) (s : State) : (appendStaged n s).rst = s.rst := rfl
@[simp] theorem appendStaged_build (n : Nat) (s : State) : (appendStaged n s).build = s.build := rfl
@[simp] theorem appendStaged_port (n : Nat) (s : State) : (appendStaged n s).port = s.port := rfl
@[simp] theorem appendStaged_overlap (n : Nat) (s : State) : (appendStaged n s).overlap = s.overlap := rfl
@[simp] theorem appendStaged_transit (n : Nat) (s : State) : (appendStaged n s).transit = s.transit := rfl
@[simp] theorem appendStaged_resp (n : Nat) (s : State) : (appendStaged n s).resp = s.resp := rfl
@[simp] theorem appendStaged_adapterOk (n : Nat) (s : State) :
    (appendStaged n s).adapterOk = s.adapterOk := rfl
@[simp] theorem appendStaged_draws (n : Nat) (s : State) : (appendStaged n s).draws = s.draws := rfl
@[simp] theorem appendStaged_epoch (n : Nat) (s : State) : (appendStaged n s).epoch = s.epoch := rfl

/-! #### watchReads -/

@[simp] theorem watchReads_seq (s : State) : (watchReads s).seq = s.seq := rfl
@[simp] theorem watchReads_frameCtx (s : State) : (watchReads s).frameCtx = s.frameCtx := rfl
@[simp] theorem watchReads_busy (s : State) : (watchReads s).busy = s.busy := rfl
@[simp] theorem watchReads_underflow (s : State) : (watchReads s).underflow = s.underflow := rfl
@[simp] theorem watchReads_initResult (s : State) : (watchReads s).initResult = s.initResult := rfl
@[simp] theorem watchReads_faultCode (s : State) : (watchReads s).faultCode = s.faultCode := rfl
@[simp] theorem watchReads_cmdErr (s : State) : (watchReads s).cmdErr = s.cmdErr := rfl
@[simp] theorem watchReads_sticky (s : State) : (watchReads s).sticky = s.sticky := rfl
@[simp] theorem watchReads_intEnable (s : State) : (watchReads s).intEnable = s.intEnable := rfl
@[simp] theorem watchReads_cfg (s : State) : (watchReads s).cfg = s.cfg := rfl
@[simp] theorem watchReads_act (s : State) : (watchReads s).act = s.act := rfl
@[simp] theorem watchReads_inIx (s : State) : (watchReads s).inIx = s.inIx := rfl
@[simp] theorem watchReads_outIx (s : State) : (watchReads s).outIx = s.outIx := rfl
@[simp] theorem watchReads_frameCount (s : State) : (watchReads s).frameCount = s.frameCount := rfl
@[simp] theorem watchReads_lastFrames (s : State) : (watchReads s).lastFrames = s.lastFrames := rfl
@[simp] theorem watchReads_mem (s : State) : (watchReads s).mem = s.mem := rfl
@[simp] theorem watchReads_ringIn (s : State) : (watchReads s).ringIn = s.ringIn := rfl
@[simp] theorem watchReads_ringOut (s : State) : (watchReads s).ringOut = s.ringOut := rfl
@[simp] theorem watchReads_tail (s : State) : (watchReads s).tail = s.tail := rfl
@[simp] theorem watchReads_tb (s : State) : (watchReads s).tb = s.tb := rfl
@[simp] theorem watchReads_y (s : State) : (watchReads s).y = s.y := rfl
@[simp] theorem watchReads_res (s : State) : (watchReads s).res = s.res := rfl
@[simp] theorem watchReads_rst (s : State) : (watchReads s).rst = s.rst := rfl
@[simp] theorem watchReads_build (s : State) : (watchReads s).build = s.build := rfl
@[simp] theorem watchReads_port (s : State) : (watchReads s).port = s.port := rfl
@[simp] theorem watchReads_overlap (s : State) : (watchReads s).overlap = s.overlap := rfl
@[simp] theorem watchReads_transit (s : State) :
    (watchReads s).transit = { s.transit with watched := watchedReads s } := rfl
@[simp] theorem watchReads_resp (s : State) : (watchReads s).resp = s.resp := rfl
@[simp] theorem watchReads_adapterOk (s : State) : (watchReads s).adapterOk = s.adapterOk := rfl
@[simp] theorem watchReads_draws (s : State) : (watchReads s).draws = s.draws := rfl
@[simp] theorem watchReads_epoch (s : State) : (watchReads s).epoch = s.epoch := rfl

/-! #### noteGiven -/

@[simp] theorem noteGiven_seq (wrote : Nat → Bool) (old s : State) :
    (noteGiven wrote old s).seq = s.seq := rfl
@[simp] theorem noteGiven_frameCtx (wrote : Nat → Bool) (old s : State) :
    (noteGiven wrote old s).frameCtx = s.frameCtx := rfl
@[simp] theorem noteGiven_busy (wrote : Nat → Bool) (old s : State) :
    (noteGiven wrote old s).busy = s.busy := rfl
@[simp] theorem noteGiven_underflow (wrote : Nat → Bool) (old s : State) :
    (noteGiven wrote old s).underflow = s.underflow := rfl
@[simp] theorem noteGiven_initResult (wrote : Nat → Bool) (old s : State) :
    (noteGiven wrote old s).initResult = s.initResult := rfl
@[simp] theorem noteGiven_faultCode (wrote : Nat → Bool) (old s : State) :
    (noteGiven wrote old s).faultCode = s.faultCode := rfl
@[simp] theorem noteGiven_cmdErr (wrote : Nat → Bool) (old s : State) :
    (noteGiven wrote old s).cmdErr = s.cmdErr := rfl
@[simp] theorem noteGiven_sticky (wrote : Nat → Bool) (old s : State) :
    (noteGiven wrote old s).sticky = s.sticky := rfl
@[simp] theorem noteGiven_intEnable (wrote : Nat → Bool) (old s : State) :
    (noteGiven wrote old s).intEnable = s.intEnable := rfl
@[simp] theorem noteGiven_cfg (wrote : Nat → Bool) (old s : State) :
    (noteGiven wrote old s).cfg = s.cfg := rfl
@[simp] theorem noteGiven_act (wrote : Nat → Bool) (old s : State) :
    (noteGiven wrote old s).act = s.act := rfl
@[simp] theorem noteGiven_inIx (wrote : Nat → Bool) (old s : State) :
    (noteGiven wrote old s).inIx = s.inIx := rfl
@[simp] theorem noteGiven_outIx (wrote : Nat → Bool) (old s : State) :
    (noteGiven wrote old s).outIx = s.outIx := rfl
@[simp] theorem noteGiven_frameCount (wrote : Nat → Bool) (old s : State) :
    (noteGiven wrote old s).frameCount = s.frameCount := rfl
@[simp] theorem noteGiven_lastFrames (wrote : Nat → Bool) (old s : State) :
    (noteGiven wrote old s).lastFrames = s.lastFrames := rfl
@[simp] theorem noteGiven_mem (wrote : Nat → Bool) (old s : State) :
    (noteGiven wrote old s).mem = s.mem := rfl
@[simp] theorem noteGiven_ringIn (wrote : Nat → Bool) (old s : State) :
    (noteGiven wrote old s).ringIn = s.ringIn := rfl
@[simp] theorem noteGiven_ringOut (wrote : Nat → Bool) (old s : State) :
    (noteGiven wrote old s).ringOut = s.ringOut := rfl
@[simp] theorem noteGiven_tail (wrote : Nat → Bool) (old s : State) :
    (noteGiven wrote old s).tail = s.tail := rfl
@[simp] theorem noteGiven_tb (wrote : Nat → Bool) (old s : State) : (noteGiven wrote old s).tb = s.tb := rfl
@[simp] theorem noteGiven_y (wrote : Nat → Bool) (old s : State) : (noteGiven wrote old s).y = s.y := rfl
@[simp] theorem noteGiven_res (wrote : Nat → Bool) (old s : State) :
    (noteGiven wrote old s).res = s.res := rfl
@[simp] theorem noteGiven_rst (wrote : Nat → Bool) (old s : State) :
    (noteGiven wrote old s).rst = s.rst := rfl
@[simp] theorem noteGiven_build (wrote : Nat → Bool) (old s : State) :
    (noteGiven wrote old s).build = s.build := rfl
@[simp] theorem noteGiven_port (wrote : Nat → Bool) (old s : State) :
    (noteGiven wrote old s).port = s.port := rfl
@[simp] theorem noteGiven_overlap (wrote : Nat → Bool) (old s : State) :
    (noteGiven wrote old s).overlap = s.overlap := rfl
@[simp] theorem noteGiven_resp (wrote : Nat → Bool) (old s : State) :
    (noteGiven wrote old s).resp = s.resp := rfl
@[simp] theorem noteGiven_adapterOk (wrote : Nat → Bool) (old s : State) :
    (noteGiven wrote old s).adapterOk = s.adapterOk := rfl
@[simp] theorem noteGiven_draws (wrote : Nat → Bool) (old s : State) :
    (noteGiven wrote old s).draws = s.draws := rfl
@[simp] theorem noteGiven_epoch (wrote : Nat → Bool) (old s : State) :
    (noteGiven wrote old s).epoch = s.epoch := rfl

/-! #### tickLate -/

@[simp] theorem tickLate_seq (s : State) : (tickLate s).seq = s.seq := rfl
@[simp] theorem tickLate_frameCtx (s : State) : (tickLate s).frameCtx = s.frameCtx := rfl
@[simp] theorem tickLate_busy (s : State) : (tickLate s).busy = s.busy := rfl
@[simp] theorem tickLate_underflow (s : State) : (tickLate s).underflow = s.underflow := rfl
@[simp] theorem tickLate_initResult (s : State) : (tickLate s).initResult = s.initResult := rfl
@[simp] theorem tickLate_faultCode (s : State) : (tickLate s).faultCode = s.faultCode := rfl
@[simp] theorem tickLate_cmdErr (s : State) : (tickLate s).cmdErr = s.cmdErr := rfl
@[simp] theorem tickLate_sticky (s : State) : (tickLate s).sticky = s.sticky := rfl
@[simp] theorem tickLate_intEnable (s : State) : (tickLate s).intEnable = s.intEnable := rfl
@[simp] theorem tickLate_cfg (s : State) : (tickLate s).cfg = s.cfg := rfl
@[simp] theorem tickLate_act (s : State) : (tickLate s).act = s.act := rfl
@[simp] theorem tickLate_inIx (s : State) : (tickLate s).inIx = s.inIx := rfl
@[simp] theorem tickLate_outIx (s : State) : (tickLate s).outIx = s.outIx := rfl
@[simp] theorem tickLate_frameCount (s : State) : (tickLate s).frameCount = s.frameCount := rfl
@[simp] theorem tickLate_lastFrames (s : State) : (tickLate s).lastFrames = s.lastFrames := rfl
@[simp] theorem tickLate_ringIn (s : State) : (tickLate s).ringIn = s.ringIn := rfl
@[simp] theorem tickLate_ringOut (s : State) : (tickLate s).ringOut = s.ringOut := rfl
@[simp] theorem tickLate_tail (s : State) : (tickLate s).tail = s.tail := rfl
@[simp] theorem tickLate_tb (s : State) : (tickLate s).tb = s.tb := rfl
@[simp] theorem tickLate_y (s : State) : (tickLate s).y = s.y := rfl
@[simp] theorem tickLate_res (s : State) : (tickLate s).res = s.res := rfl
@[simp] theorem tickLate_rst (s : State) : (tickLate s).rst = s.rst := rfl
@[simp] theorem tickLate_build (s : State) : (tickLate s).build = s.build := rfl
@[simp] theorem tickLate_port (s : State) : (tickLate s).port = s.port := rfl
@[simp] theorem tickLate_overlap (s : State) : (tickLate s).overlap = s.overlap := rfl
@[simp] theorem tickLate_resp (s : State) : (tickLate s).resp = s.resp := rfl
@[simp] theorem tickLate_adapterOk (s : State) : (tickLate s).adapterOk = s.adapterOk := rfl
@[simp] theorem tickLate_draws (s : State) : (tickLate s).draws = s.draws := rfl
@[simp] theorem tickLate_epoch (s : State) : (tickLate s).epoch = s.epoch := rfl

/-! #### lateWrite -/

@[simp] theorem lateWrite_seq (off : Nat) (v : Word) (wait : Nat) (s : State) :
    (lateWrite off v wait s).seq = s.seq := rfl
@[simp] theorem lateWrite_frameCtx (off : Nat) (v : Word) (wait : Nat) (s : State) :
    (lateWrite off v wait s).frameCtx = s.frameCtx := rfl
@[simp] theorem lateWrite_busy (off : Nat) (v : Word) (wait : Nat) (s : State) :
    (lateWrite off v wait s).busy = s.busy := rfl
@[simp] theorem lateWrite_underflow (off : Nat) (v : Word) (wait : Nat) (s : State) :
    (lateWrite off v wait s).underflow = s.underflow := rfl
@[simp] theorem lateWrite_initResult (off : Nat) (v : Word) (wait : Nat) (s : State) :
    (lateWrite off v wait s).initResult = s.initResult := rfl
@[simp] theorem lateWrite_faultCode (off : Nat) (v : Word) (wait : Nat) (s : State) :
    (lateWrite off v wait s).faultCode = s.faultCode := rfl
@[simp] theorem lateWrite_cmdErr (off : Nat) (v : Word) (wait : Nat) (s : State) :
    (lateWrite off v wait s).cmdErr = s.cmdErr := rfl
@[simp] theorem lateWrite_sticky (off : Nat) (v : Word) (wait : Nat) (s : State) :
    (lateWrite off v wait s).sticky = s.sticky := rfl
@[simp] theorem lateWrite_intEnable (off : Nat) (v : Word) (wait : Nat) (s : State) :
    (lateWrite off v wait s).intEnable = s.intEnable := rfl
@[simp] theorem lateWrite_cfg (off : Nat) (v : Word) (wait : Nat) (s : State) :
    (lateWrite off v wait s).cfg = s.cfg := rfl
@[simp] theorem lateWrite_act (off : Nat) (v : Word) (wait : Nat) (s : State) :
    (lateWrite off v wait s).act = s.act := rfl
@[simp] theorem lateWrite_inIx (off : Nat) (v : Word) (wait : Nat) (s : State) :
    (lateWrite off v wait s).inIx = s.inIx := rfl
@[simp] theorem lateWrite_outIx (off : Nat) (v : Word) (wait : Nat) (s : State) :
    (lateWrite off v wait s).outIx = s.outIx := rfl
@[simp] theorem lateWrite_frameCount (off : Nat) (v : Word) (wait : Nat) (s : State) :
    (lateWrite off v wait s).frameCount = s.frameCount := rfl
@[simp] theorem lateWrite_lastFrames (off : Nat) (v : Word) (wait : Nat) (s : State) :
    (lateWrite off v wait s).lastFrames = s.lastFrames := rfl
@[simp] theorem lateWrite_ringIn (off : Nat) (v : Word) (wait : Nat) (s : State) :
    (lateWrite off v wait s).ringIn = s.ringIn := rfl
@[simp] theorem lateWrite_ringOut (off : Nat) (v : Word) (wait : Nat) (s : State) :
    (lateWrite off v wait s).ringOut = s.ringOut := rfl
@[simp] theorem lateWrite_tail (off : Nat) (v : Word) (wait : Nat) (s : State) :
    (lateWrite off v wait s).tail = s.tail := rfl
@[simp] theorem lateWrite_tb (off : Nat) (v : Word) (wait : Nat) (s : State) :
    (lateWrite off v wait s).tb = s.tb := rfl
@[simp] theorem lateWrite_y (off : Nat) (v : Word) (wait : Nat) (s : State) :
    (lateWrite off v wait s).y = s.y := rfl
@[simp] theorem lateWrite_res (off : Nat) (v : Word) (wait : Nat) (s : State) :
    (lateWrite off v wait s).res = s.res := rfl
@[simp] theorem lateWrite_rst (off : Nat) (v : Word) (wait : Nat) (s : State) :
    (lateWrite off v wait s).rst = s.rst := rfl
@[simp] theorem lateWrite_build (off : Nat) (v : Word) (wait : Nat) (s : State) :
    (lateWrite off v wait s).build = s.build := rfl
@[simp] theorem lateWrite_port (off : Nat) (v : Word) (wait : Nat) (s : State) :
    (lateWrite off v wait s).port = s.port := rfl
@[simp] theorem lateWrite_overlap (off : Nat) (v : Word) (wait : Nat) (s : State) :
    (lateWrite off v wait s).overlap = s.overlap := rfl
@[simp] theorem lateWrite_resp (off : Nat) (v : Word) (wait : Nat) (s : State) :
    (lateWrite off v wait s).resp = s.resp := rfl
@[simp] theorem lateWrite_adapterOk (off : Nat) (v : Word) (wait : Nat) (s : State) :
    (lateWrite off v wait s).adapterOk = s.adapterOk := rfl
@[simp] theorem lateWrite_draws (off : Nat) (v : Word) (wait : Nat) (s : State) :
    (lateWrite off v wait s).draws = s.draws := rfl
@[simp] theorem lateWrite_epoch (off : Nat) (v : Word) (wait : Nat) (s : State) :
    (lateWrite off v wait s).epoch = s.epoch := rfl

/-! #### drawRead -/

@[simp] theorem drawRead_seq (off draw : Nat) (asIs : Word) (s : State) :
    (drawRead off draw asIs s).seq = s.seq := rfl
@[simp] theorem drawRead_frameCtx (off draw : Nat) (asIs : Word) (s : State) :
    (drawRead off draw asIs s).frameCtx = s.frameCtx := rfl
@[simp] theorem drawRead_busy (off draw : Nat) (asIs : Word) (s : State) :
    (drawRead off draw asIs s).busy = s.busy := rfl
@[simp] theorem drawRead_underflow (off draw : Nat) (asIs : Word) (s : State) :
    (drawRead off draw asIs s).underflow = s.underflow := rfl
@[simp] theorem drawRead_initResult (off draw : Nat) (asIs : Word) (s : State) :
    (drawRead off draw asIs s).initResult = s.initResult := rfl
@[simp] theorem drawRead_faultCode (off draw : Nat) (asIs : Word) (s : State) :
    (drawRead off draw asIs s).faultCode = s.faultCode := rfl
@[simp] theorem drawRead_cmdErr (off draw : Nat) (asIs : Word) (s : State) :
    (drawRead off draw asIs s).cmdErr = s.cmdErr := rfl
@[simp] theorem drawRead_sticky (off draw : Nat) (asIs : Word) (s : State) :
    (drawRead off draw asIs s).sticky = s.sticky := rfl
@[simp] theorem drawRead_intEnable (off draw : Nat) (asIs : Word) (s : State) :
    (drawRead off draw asIs s).intEnable = s.intEnable := rfl
@[simp] theorem drawRead_cfg (off draw : Nat) (asIs : Word) (s : State) :
    (drawRead off draw asIs s).cfg = s.cfg := rfl
@[simp] theorem drawRead_act (off draw : Nat) (asIs : Word) (s : State) :
    (drawRead off draw asIs s).act = s.act := rfl
@[simp] theorem drawRead_inIx (off draw : Nat) (asIs : Word) (s : State) :
    (drawRead off draw asIs s).inIx = s.inIx := rfl
@[simp] theorem drawRead_outIx (off draw : Nat) (asIs : Word) (s : State) :
    (drawRead off draw asIs s).outIx = s.outIx := rfl
@[simp] theorem drawRead_frameCount (off draw : Nat) (asIs : Word) (s : State) :
    (drawRead off draw asIs s).frameCount = s.frameCount := rfl
@[simp] theorem drawRead_lastFrames (off draw : Nat) (asIs : Word) (s : State) :
    (drawRead off draw asIs s).lastFrames = s.lastFrames := rfl
@[simp] theorem drawRead_mem (off draw : Nat) (asIs : Word) (s : State) :
    (drawRead off draw asIs s).mem = s.mem := rfl
@[simp] theorem drawRead_ringIn (off draw : Nat) (asIs : Word) (s : State) :
    (drawRead off draw asIs s).ringIn = s.ringIn := rfl
@[simp] theorem drawRead_ringOut (off draw : Nat) (asIs : Word) (s : State) :
    (drawRead off draw asIs s).ringOut = s.ringOut := rfl
@[simp] theorem drawRead_tail (off draw : Nat) (asIs : Word) (s : State) :
    (drawRead off draw asIs s).tail = s.tail := rfl
@[simp] theorem drawRead_tb (off draw : Nat) (asIs : Word) (s : State) :
    (drawRead off draw asIs s).tb = s.tb := rfl
@[simp] theorem drawRead_y (off draw : Nat) (asIs : Word) (s : State) :
    (drawRead off draw asIs s).y = s.y := rfl
@[simp] theorem drawRead_res (off draw : Nat) (asIs : Word) (s : State) :
    (drawRead off draw asIs s).res = s.res := rfl
@[simp] theorem drawRead_rst (off draw : Nat) (asIs : Word) (s : State) :
    (drawRead off draw asIs s).rst = s.rst := rfl
@[simp] theorem drawRead_build (off draw : Nat) (asIs : Word) (s : State) :
    (drawRead off draw asIs s).build = s.build := rfl
@[simp] theorem drawRead_port (off draw : Nat) (asIs : Word) (s : State) :
    (drawRead off draw asIs s).port = s.port := rfl
@[simp] theorem drawRead_overlap (off draw : Nat) (asIs : Word) (s : State) :
    (drawRead off draw asIs s).overlap = s.overlap := rfl
@[simp] theorem drawRead_resp (off draw : Nat) (asIs : Word) (s : State) :
    (drawRead off draw asIs s).resp = s.resp ++ [{ error := false, data := some asIs }] := rfl
@[simp] theorem drawRead_adapterOk (off draw : Nat) (asIs : Word) (s : State) :
    (drawRead off draw asIs s).adapterOk = s.adapterOk := rfl
@[simp] theorem drawRead_draws (off draw : Nat) (asIs : Word) (s : State) :
    (drawRead off draw asIs s).draws = s.draws := rfl
@[simp] theorem drawRead_epoch (off draw : Nat) (asIs : Word) (s : State) :
    (drawRead off draw asIs s).epoch = s.epoch := rfl

/-! #### settleTransit -/

@[simp] theorem settleTransit_seq (s : State) : (settleTransit s).seq = s.seq := rfl
@[simp] theorem settleTransit_frameCtx (s : State) : (settleTransit s).frameCtx = s.frameCtx := rfl
@[simp] theorem settleTransit_busy (s : State) : (settleTransit s).busy = s.busy := rfl
@[simp] theorem settleTransit_underflow (s : State) : (settleTransit s).underflow = s.underflow := rfl
@[simp] theorem settleTransit_initResult (s : State) : (settleTransit s).initResult = s.initResult := rfl
@[simp] theorem settleTransit_faultCode (s : State) : (settleTransit s).faultCode = s.faultCode := rfl
@[simp] theorem settleTransit_cmdErr (s : State) : (settleTransit s).cmdErr = s.cmdErr := rfl
@[simp] theorem settleTransit_sticky (s : State) : (settleTransit s).sticky = s.sticky := rfl
@[simp] theorem settleTransit_intEnable (s : State) : (settleTransit s).intEnable = s.intEnable := rfl
@[simp] theorem settleTransit_cfg (s : State) : (settleTransit s).cfg = s.cfg := rfl
@[simp] theorem settleTransit_act (s : State) : (settleTransit s).act = s.act := rfl
@[simp] theorem settleTransit_inIx (s : State) : (settleTransit s).inIx = s.inIx := rfl
@[simp] theorem settleTransit_outIx (s : State) : (settleTransit s).outIx = s.outIx := rfl
@[simp] theorem settleTransit_frameCount (s : State) : (settleTransit s).frameCount = s.frameCount := rfl
@[simp] theorem settleTransit_lastFrames (s : State) : (settleTransit s).lastFrames = s.lastFrames := rfl
@[simp] theorem settleTransit_ringIn (s : State) : (settleTransit s).ringIn = s.ringIn := rfl
@[simp] theorem settleTransit_ringOut (s : State) : (settleTransit s).ringOut = s.ringOut := rfl
@[simp] theorem settleTransit_tail (s : State) : (settleTransit s).tail = s.tail := rfl
@[simp] theorem settleTransit_tb (s : State) : (settleTransit s).tb = s.tb := rfl
@[simp] theorem settleTransit_y (s : State) : (settleTransit s).y = s.y := rfl
@[simp] theorem settleTransit_res (s : State) : (settleTransit s).res = s.res := rfl
@[simp] theorem settleTransit_rst (s : State) : (settleTransit s).rst = s.rst := rfl
@[simp] theorem settleTransit_build (s : State) : (settleTransit s).build = s.build := rfl
@[simp] theorem settleTransit_port (s : State) : (settleTransit s).port = s.port := rfl
@[simp] theorem settleTransit_overlap (s : State) : (settleTransit s).overlap = s.overlap := rfl
@[simp] theorem settleTransit_transit (s : State) : (settleTransit s).transit = .none := rfl
@[simp] theorem settleTransit_adapterOk (s : State) : (settleTransit s).adapterOk = s.adapterOk := rfl
@[simp] theorem settleTransit_draws (s : State) : (settleTransit s).draws = s.draws := rfl
@[simp] theorem settleTransit_epoch (s : State) : (settleTransit s).epoch = s.epoch := rfl

/-! #### orbClear -/

@[simp] theorem orbClear_seq (s : State) : (orbClear s).seq = s.seq := rfl
@[simp] theorem orbClear_frameCtx (s : State) : (orbClear s).frameCtx = s.frameCtx := rfl
@[simp] theorem orbClear_busy (s : State) : (orbClear s).busy = s.busy := rfl
@[simp] theorem orbClear_underflow (s : State) : (orbClear s).underflow = s.underflow := rfl
@[simp] theorem orbClear_initResult (s : State) : (orbClear s).initResult = s.initResult := rfl
@[simp] theorem orbClear_faultCode (s : State) : (orbClear s).faultCode = s.faultCode := rfl
@[simp] theorem orbClear_cmdErr (s : State) : (orbClear s).cmdErr = s.cmdErr := rfl
@[simp] theorem orbClear_sticky (s : State) : (orbClear s).sticky = s.sticky := rfl
@[simp] theorem orbClear_intEnable (s : State) : (orbClear s).intEnable = s.intEnable := rfl
@[simp] theorem orbClear_cfg (s : State) : (orbClear s).cfg = s.cfg := rfl
@[simp] theorem orbClear_act (s : State) :
    (orbClear s).act = { s.act with inCap := wordOfNat (s.N + s.B) } := rfl
@[simp] theorem orbClear_inIx (s : State) : (orbClear s).inIx = RingIx.zero := rfl
@[simp] theorem orbClear_outIx (s : State) : (orbClear s).outIx = s.outIx := rfl
@[simp] theorem orbClear_frameCount (s : State) : (orbClear s).frameCount = s.frameCount := rfl
@[simp] theorem orbClear_lastFrames (s : State) : (orbClear s).lastFrames = s.lastFrames := rfl
@[simp] theorem orbClear_mem (s : State) : (orbClear s).mem = s.mem := rfl
@[simp] theorem orbClear_ringIn (s : State) : (orbClear s).ringIn = s.ringIn := rfl
@[simp] theorem orbClear_ringOut (s : State) : (orbClear s).ringOut = s.ringOut := rfl
@[simp] theorem orbClear_tail (s : State) : (orbClear s).tail = s.tail := rfl
@[simp] theorem orbClear_tb (s : State) : (orbClear s).tb = s.tb := rfl
@[simp] theorem orbClear_y (s : State) : (orbClear s).y = s.y := rfl
@[simp] theorem orbClear_res (s : State) : (orbClear s).res = s.res := rfl
@[simp] theorem orbClear_rst (s : State) : (orbClear s).rst = s.rst := rfl
@[simp] theorem orbClear_build (s : State) : (orbClear s).build = s.build := rfl
@[simp] theorem orbClear_port (s : State) : (orbClear s).port = s.port := rfl
@[simp] theorem orbClear_overlap (s : State) : (orbClear s).overlap = s.overlap := rfl
@[simp] theorem orbClear_transit (s : State) : (orbClear s).transit = s.transit := rfl
@[simp] theorem orbClear_resp (s : State) : (orbClear s).resp = s.resp := rfl
@[simp] theorem orbClear_adapterOk (s : State) : (orbClear s).adapterOk = s.adapterOk := rfl
@[simp] theorem orbClear_draws (s : State) : (orbClear s).draws = s.draws := rfl
@[simp] theorem orbClear_epoch (s : State) : (orbClear s).epoch = s.epoch := rfl

@[simp] theorem orbClear_N (s : State) : (orbClear s).N = s.N := rfl
@[simp] theorem orbClear_B (s : State) : (orbClear s).B = s.B := rfl

/-! #### orbPad -/

@[simp] theorem orbPad_seq (s : State) : (orbPad s).seq = s.seq := rfl
@[simp] theorem orbPad_frameCtx (s : State) : (orbPad s).frameCtx = s.frameCtx := rfl
@[simp] theorem orbPad_busy (s : State) : (orbPad s).busy = s.busy := rfl
@[simp] theorem orbPad_underflow (s : State) : (orbPad s).underflow = s.underflow := rfl
@[simp] theorem orbPad_initResult (s : State) : (orbPad s).initResult = s.initResult := rfl
@[simp] theorem orbPad_faultCode (s : State) : (orbPad s).faultCode = s.faultCode := rfl
@[simp] theorem orbPad_cmdErr (s : State) : (orbPad s).cmdErr = s.cmdErr := rfl
@[simp] theorem orbPad_sticky (s : State) : (orbPad s).sticky = s.sticky := rfl
@[simp] theorem orbPad_intEnable (s : State) : (orbPad s).intEnable = s.intEnable := rfl
@[simp] theorem orbPad_cfg (s : State) : (orbPad s).cfg = s.cfg := rfl
@[simp] theorem orbPad_act (s : State) : (orbPad s).act = s.act := rfl
@[simp] theorem orbPad_inIx (s : State) :
    (orbPad s).inIx = { rd := 0, wr := padding s.N s.B, avail := padding s.N s.B } := rfl
@[simp] theorem orbPad_outIx (s : State) : (orbPad s).outIx = s.outIx := rfl
@[simp] theorem orbPad_frameCount (s : State) : (orbPad s).frameCount = s.frameCount := rfl
@[simp] theorem orbPad_lastFrames (s : State) : (orbPad s).lastFrames = s.lastFrames := rfl
@[simp] theorem orbPad_mem (s : State) : (orbPad s).mem = s.mem := rfl
@[simp] theorem orbPad_ringOut (s : State) : (orbPad s).ringOut = s.ringOut := rfl
@[simp] theorem orbPad_tail (s : State) : (orbPad s).tail = s.tail := rfl
@[simp] theorem orbPad_tb (s : State) : (orbPad s).tb = s.tb := rfl
@[simp] theorem orbPad_y (s : State) : (orbPad s).y = s.y := rfl
@[simp] theorem orbPad_res (s : State) : (orbPad s).res = s.res := rfl
@[simp] theorem orbPad_rst (s : State) : (orbPad s).rst = s.rst := rfl
@[simp] theorem orbPad_build (s : State) : (orbPad s).build = s.build := rfl
@[simp] theorem orbPad_port (s : State) : (orbPad s).port = s.port := rfl
@[simp] theorem orbPad_overlap (s : State) : (orbPad s).overlap = s.overlap := rfl
@[simp] theorem orbPad_transit (s : State) : (orbPad s).transit = s.transit := rfl
@[simp] theorem orbPad_resp (s : State) : (orbPad s).resp = s.resp := rfl
@[simp] theorem orbPad_adapterOk (s : State) : (orbPad s).adapterOk = s.adapterOk := rfl
@[simp] theorem orbPad_draws (s : State) : (orbPad s).draws = s.draws := rfl
@[simp] theorem orbPad_epoch (s : State) : (orbPad s).epoch = s.epoch := rfl

/-! #### beginSetBlock -/

@[simp] theorem beginSetBlock_seq (b : Nat) (s : State) : (beginSetBlock b s).seq = s.seq := rfl
@[simp] theorem beginSetBlock_frameCtx (b : Nat) (s : State) :
    (beginSetBlock b s).frameCtx = s.frameCtx := rfl
@[simp] theorem beginSetBlock_busy (b : Nat) (s : State) : (beginSetBlock b s).busy = s.busy := rfl
@[simp] theorem beginSetBlock_underflow (b : Nat) (s : State) :
    (beginSetBlock b s).underflow = s.underflow := rfl
@[simp] theorem beginSetBlock_initResult (b : Nat) (s : State) :
    (beginSetBlock b s).initResult = s.initResult := rfl
@[simp] theorem beginSetBlock_faultCode (b : Nat) (s : State) :
    (beginSetBlock b s).faultCode = s.faultCode := rfl
@[simp] theorem beginSetBlock_cmdErr (b : Nat) (s : State) : (beginSetBlock b s).cmdErr = s.cmdErr := rfl
@[simp] theorem beginSetBlock_sticky (b : Nat) (s : State) : (beginSetBlock b s).sticky = s.sticky := rfl
@[simp] theorem beginSetBlock_intEnable (b : Nat) (s : State) :
    (beginSetBlock b s).intEnable = s.intEnable := rfl
@[simp] theorem beginSetBlock_cfg (b : Nat) (s : State) : (beginSetBlock b s).cfg = s.cfg := rfl
@[simp] theorem beginSetBlock_inIx (b : Nat) (s : State) : (beginSetBlock b s).inIx = RingIx.zero := rfl
@[simp] theorem beginSetBlock_outIx (b : Nat) (s : State) : (beginSetBlock b s).outIx = s.outIx := rfl
@[simp] theorem beginSetBlock_frameCount (b : Nat) (s : State) :
    (beginSetBlock b s).frameCount = s.frameCount := rfl
@[simp] theorem beginSetBlock_lastFrames (b : Nat) (s : State) :
    (beginSetBlock b s).lastFrames = s.lastFrames := rfl
@[simp] theorem beginSetBlock_mem (b : Nat) (s : State) : (beginSetBlock b s).mem = s.mem := rfl
@[simp] theorem beginSetBlock_ringIn (b : Nat) (s : State) : (beginSetBlock b s).ringIn = s.ringIn := rfl
@[simp] theorem beginSetBlock_ringOut (b : Nat) (s : State) : (beginSetBlock b s).ringOut = s.ringOut := rfl
@[simp] theorem beginSetBlock_tail (b : Nat) (s : State) : (beginSetBlock b s).tail = s.tail := rfl
@[simp] theorem beginSetBlock_tb (b : Nat) (s : State) : (beginSetBlock b s).tb = s.tb := rfl
@[simp] theorem beginSetBlock_y (b : Nat) (s : State) : (beginSetBlock b s).y = s.y := rfl
@[simp] theorem beginSetBlock_res (b : Nat) (s : State) : (beginSetBlock b s).res = s.res := rfl
@[simp] theorem beginSetBlock_rst (b : Nat) (s : State) : (beginSetBlock b s).rst = s.rst := rfl
@[simp] theorem beginSetBlock_build (b : Nat) (s : State) : (beginSetBlock b s).build = s.build := rfl
@[simp] theorem beginSetBlock_port (b : Nat) (s : State) : (beginSetBlock b s).port = s.port := rfl
@[simp] theorem beginSetBlock_overlap (b : Nat) (s : State) : (beginSetBlock b s).overlap = s.overlap := rfl
@[simp] theorem beginSetBlock_transit (b : Nat) (s : State) : (beginSetBlock b s).transit = s.transit := rfl
@[simp] theorem beginSetBlock_resp (b : Nat) (s : State) : (beginSetBlock b s).resp = s.resp := rfl
@[simp] theorem beginSetBlock_adapterOk (b : Nat) (s : State) :
    (beginSetBlock b s).adapterOk = s.adapterOk := rfl
@[simp] theorem beginSetBlock_draws (b : Nat) (s : State) : (beginSetBlock b s).draws = s.draws := rfl
@[simp] theorem beginSetBlock_epoch (b : Nat) (s : State) : (beginSetBlock b s).epoch = s.epoch := rfl

/-! #### beginCommit -/

@[simp] theorem beginCommit_seq (q : CfgRegs) (s : State) : (beginCommit q s).seq = s.seq := rfl
@[simp] theorem beginCommit_frameCtx (q : CfgRegs) (s : State) :
    (beginCommit q s).frameCtx = s.frameCtx := rfl
@[simp] theorem beginCommit_busy (q : CfgRegs) (s : State) : (beginCommit q s).busy = s.busy := rfl
@[simp] theorem beginCommit_underflow (q : CfgRegs) (s : State) :
    (beginCommit q s).underflow = s.underflow := rfl
@[simp] theorem beginCommit_initResult (q : CfgRegs) (s : State) :
    (beginCommit q s).initResult = s.initResult := rfl
@[simp] theorem beginCommit_faultCode (q : CfgRegs) (s : State) :
    (beginCommit q s).faultCode = s.faultCode := rfl
@[simp] theorem beginCommit_cmdErr (q : CfgRegs) (s : State) : (beginCommit q s).cmdErr = s.cmdErr := rfl
@[simp] theorem beginCommit_sticky (q : CfgRegs) (s : State) : (beginCommit q s).sticky = s.sticky := rfl
@[simp] theorem beginCommit_intEnable (q : CfgRegs) (s : State) :
    (beginCommit q s).intEnable = s.intEnable := rfl
@[simp] theorem beginCommit_cfg (q : CfgRegs) (s : State) : (beginCommit q s).cfg = s.cfg := rfl
@[simp] theorem beginCommit_inIx (q : CfgRegs) (s : State) : (beginCommit q s).inIx = RingIx.zero := rfl
@[simp] theorem beginCommit_outIx (q : CfgRegs) (s : State) : (beginCommit q s).outIx = s.outIx := rfl
@[simp] theorem beginCommit_frameCount (q : CfgRegs) (s : State) :
    (beginCommit q s).frameCount = s.frameCount := rfl
@[simp] theorem beginCommit_lastFrames (q : CfgRegs) (s : State) :
    (beginCommit q s).lastFrames = s.lastFrames := rfl
@[simp] theorem beginCommit_mem (q : CfgRegs) (s : State) : (beginCommit q s).mem = s.mem := rfl
@[simp] theorem beginCommit_ringIn (q : CfgRegs) (s : State) : (beginCommit q s).ringIn = s.ringIn := rfl
@[simp] theorem beginCommit_ringOut (q : CfgRegs) (s : State) : (beginCommit q s).ringOut = s.ringOut := rfl
@[simp] theorem beginCommit_tail (q : CfgRegs) (s : State) : (beginCommit q s).tail = s.tail := rfl
@[simp] theorem beginCommit_tb (q : CfgRegs) (s : State) : (beginCommit q s).tb = s.tb := rfl
@[simp] theorem beginCommit_y (q : CfgRegs) (s : State) : (beginCommit q s).y = s.y := rfl
@[simp] theorem beginCommit_res (q : CfgRegs) (s : State) : (beginCommit q s).res = s.res := rfl
@[simp] theorem beginCommit_rst (q : CfgRegs) (s : State) : (beginCommit q s).rst = s.rst := rfl
@[simp] theorem beginCommit_build (q : CfgRegs) (s : State) : (beginCommit q s).build = s.build := rfl
@[simp] theorem beginCommit_port (q : CfgRegs) (s : State) : (beginCommit q s).port = s.port := rfl
@[simp] theorem beginCommit_overlap (q : CfgRegs) (s : State) : (beginCommit q s).overlap = s.overlap := rfl
@[simp] theorem beginCommit_transit (q : CfgRegs) (s : State) : (beginCommit q s).transit = s.transit := rfl
@[simp] theorem beginCommit_resp (q : CfgRegs) (s : State) : (beginCommit q s).resp = s.resp := rfl
@[simp] theorem beginCommit_adapterOk (q : CfgRegs) (s : State) :
    (beginCommit q s).adapterOk = s.adapterOk := rfl
@[simp] theorem beginCommit_draws (q : CfgRegs) (s : State) : (beginCommit q s).draws = s.draws := rfl
@[simp] theorem beginCommit_epoch (q : CfgRegs) (s : State) : (beginCommit q s).epoch = s.epoch := rfl

/-! #### What the active configuration gives -/

theorem State.N_of_act {s t : State} (h : t.act = s.act) : t.N = s.N := by
  unfold State.N; rw [h]

theorem State.O_of_act {s t : State} (h : t.act = s.act) : t.O = s.O := by
  unfold State.O; rw [h]

theorem State.hop_of_act {s t : State} (h : t.act = s.act) : t.hop = s.hop := by
  unfold State.hop; rw [h]

theorem State.B_of_act {s t : State} (h : t.act = s.act) : t.B = s.B := by
  unfold State.B; rw [h]

theorem State.C_of_act {s t : State} (h : t.act = s.act) : t.C = s.C := by
  unfold State.C; rw [h]

theorem State.K_of_act {s t : State} (h : t.act = s.act) : t.K = s.K := by
  unfold State.K; rw [h]

theorem State.I_of_act {s t : State} (h : t.act = s.act) : t.I = s.I := by
  unfold State.I; rw [h]

theorem State.J_of_act {s t : State} (h : t.act = s.act) : t.J = s.J := by
  unfold State.J; rw [h]

theorem State.tmode_of_act {s t : State} (h : t.act = s.act) : t.tmode = s.tmode := by
  unfold State.tmode; rw [h]

theorem State.Cin_of_act {s t : State} (h : t.act = s.act) : t.Cin = s.Cin := by
  unfold State.Cin; rw [h]

theorem State.Cout_of_act {s t : State} (h : t.act = s.act) : t.Cout = s.Cout := by
  unfold State.Cout; rw [h]

/-! #### emitHop -/

@[simp] theorem emitHop_seq (s : State) : (emitHop s).seq = s.seq := by
  simp [emitHop]
@[simp] theorem emitHop_frameCtx (s : State) : (emitHop s).frameCtx = s.frameCtx := by
  simp [emitHop]
@[simp] theorem emitHop_busy (s : State) : (emitHop s).busy = s.busy := by
  simp [emitHop]
@[simp] theorem emitHop_underflow (s : State) : (emitHop s).underflow = s.underflow := by
  simp [emitHop]
@[simp] theorem emitHop_initResult (s : State) : (emitHop s).initResult = s.initResult := by
  simp [emitHop]
@[simp] theorem emitHop_faultCode (s : State) : (emitHop s).faultCode = s.faultCode := by
  simp [emitHop]
@[simp] theorem emitHop_cmdErr (s : State) : (emitHop s).cmdErr = s.cmdErr := by
  simp [emitHop]
@[simp] theorem emitHop_sticky (s : State) : (emitHop s).sticky = s.sticky := by
  simp [emitHop]
@[simp] theorem emitHop_intEnable (s : State) : (emitHop s).intEnable = s.intEnable := by
  simp [emitHop]
@[simp] theorem emitHop_cfg (s : State) : (emitHop s).cfg = s.cfg := by
  simp [emitHop]
@[simp] theorem emitHop_act (s : State) : (emitHop s).act = s.act := by
  simp [emitHop]
@[simp] theorem emitHop_inIx (s : State) : (emitHop s).inIx = s.inIx := by
  simp [emitHop]
@[simp] theorem emitHop_outIx (s : State) :
    (emitHop s).outIx = { s.outIx with wr := (s.outIx.wr + s.hop) % s.Cout, avail := s.outIx.avail + s.hop } := by
  simp [emitHop]
@[simp] theorem emitHop_frameCount (s : State) : (emitHop s).frameCount = s.frameCount := by
  simp [emitHop]
@[simp] theorem emitHop_lastFrames (s : State) : (emitHop s).lastFrames = s.lastFrames := by
  simp [emitHop]
@[simp] theorem emitHop_mem (s : State) : (emitHop s).mem = s.mem := by
  simp [emitHop]
@[simp] theorem emitHop_ringIn (s : State) : (emitHop s).ringIn = s.ringIn := by
  simp [emitHop]
@[simp] theorem emitHop_tail (s : State) : (emitHop s).tail = s.tail := by
  simp [emitHop]
@[simp] theorem emitHop_tb (s : State) : (emitHop s).tb = s.tb := by
  simp [emitHop]
@[simp] theorem emitHop_y (s : State) : (emitHop s).y = s.y := by
  simp [emitHop]
@[simp] theorem emitHop_res (s : State) : (emitHop s).res = s.res := by
  simp [emitHop]
@[simp] theorem emitHop_rst (s : State) : (emitHop s).rst = s.rst := by
  simp [emitHop]
@[simp] theorem emitHop_build (s : State) : (emitHop s).build = s.build := by
  simp [emitHop]
@[simp] theorem emitHop_port (s : State) : (emitHop s).port = s.port := by
  simp [emitHop]
@[simp] theorem emitHop_overlap (s : State) : (emitHop s).overlap = s.overlap := by
  simp [emitHop]
@[simp] theorem emitHop_transit (s : State) : (emitHop s).transit = s.transit := by
  simp [emitHop]
@[simp] theorem emitHop_resp (s : State) : (emitHop s).resp = s.resp := by
  simp [emitHop]
@[simp] theorem emitHop_adapterOk (s : State) : (emitHop s).adapterOk = s.adapterOk := by
  simp [emitHop]
@[simp] theorem emitHop_draws (s : State) : (emitHop s).draws = s.draws := by
  simp [emitHop]
@[simp] theorem emitHop_epoch (s : State) : (emitHop s).epoch = s.epoch := by
  simp [emitHop]

/-! #### synthesizeAll -/

@[simp] theorem synthesizeAll_seq (s : State) : (synthesizeAll s).seq = s.seq := by
  simp [synthesizeAll]
@[simp] theorem synthesizeAll_frameCtx (s : State) : (synthesizeAll s).frameCtx = s.frameCtx := by
  simp [synthesizeAll]
@[simp] theorem synthesizeAll_busy (s : State) : (synthesizeAll s).busy = s.busy := by
  simp [synthesizeAll]
@[simp] theorem synthesizeAll_underflow (s : State) : (synthesizeAll s).underflow = s.underflow := by
  simp [synthesizeAll]
@[simp] theorem synthesizeAll_initResult (s : State) : (synthesizeAll s).initResult = s.initResult := by
  simp [synthesizeAll]
@[simp] theorem synthesizeAll_faultCode (s : State) : (synthesizeAll s).faultCode = s.faultCode := by
  simp [synthesizeAll]
@[simp] theorem synthesizeAll_cmdErr (s : State) : (synthesizeAll s).cmdErr = s.cmdErr := by
  simp [synthesizeAll]
@[simp] theorem synthesizeAll_sticky (s : State) : (synthesizeAll s).sticky = s.sticky := by
  simp [synthesizeAll]
@[simp] theorem synthesizeAll_intEnable (s : State) : (synthesizeAll s).intEnable = s.intEnable := by
  simp [synthesizeAll]
@[simp] theorem synthesizeAll_cfg (s : State) : (synthesizeAll s).cfg = s.cfg := by
  simp [synthesizeAll]
@[simp] theorem synthesizeAll_act (s : State) : (synthesizeAll s).act = s.act := by
  simp [synthesizeAll]
@[simp] theorem synthesizeAll_inIx (s : State) : (synthesizeAll s).inIx = s.inIx := by
  simp [synthesizeAll]
@[simp] theorem synthesizeAll_outIx (s : State) : (synthesizeAll s).outIx = s.outIx := by
  simp [synthesizeAll]
@[simp] theorem synthesizeAll_frameCount (s : State) : (synthesizeAll s).frameCount = s.frameCount := by
  simp [synthesizeAll]
@[simp] theorem synthesizeAll_lastFrames (s : State) : (synthesizeAll s).lastFrames = s.lastFrames := by
  simp [synthesizeAll]
@[simp] theorem synthesizeAll_mem (s : State) : (synthesizeAll s).mem = s.mem := by
  simp [synthesizeAll]
@[simp] theorem synthesizeAll_ringIn (s : State) : (synthesizeAll s).ringIn = s.ringIn := by
  simp [synthesizeAll]
@[simp] theorem synthesizeAll_ringOut (s : State) : (synthesizeAll s).ringOut = s.ringOut := by
  simp [synthesizeAll]
@[simp] theorem synthesizeAll_tb (s : State) : (synthesizeAll s).tb = s.tb := by
  simp [synthesizeAll]
@[simp] theorem synthesizeAll_rst (s : State) : (synthesizeAll s).rst = s.rst := by
  simp [synthesizeAll]
@[simp] theorem synthesizeAll_build (s : State) : (synthesizeAll s).build = s.build := by
  simp [synthesizeAll]
@[simp] theorem synthesizeAll_port (s : State) : (synthesizeAll s).port = s.port := by
  simp [synthesizeAll]
@[simp] theorem synthesizeAll_overlap (s : State) : (synthesizeAll s).overlap = s.overlap := by
  simp [synthesizeAll]
@[simp] theorem synthesizeAll_transit (s : State) : (synthesizeAll s).transit = s.transit := by
  simp [synthesizeAll]
@[simp] theorem synthesizeAll_resp (s : State) : (synthesizeAll s).resp = s.resp := by
  simp [synthesizeAll]
@[simp] theorem synthesizeAll_adapterOk (s : State) : (synthesizeAll s).adapterOk = s.adapterOk := by
  simp [synthesizeAll]
@[simp] theorem synthesizeAll_draws (s : State) : (synthesizeAll s).draws = s.draws := by
  simp [synthesizeAll]
@[simp] theorem synthesizeAll_epoch (s : State) : (synthesizeAll s).epoch = s.epoch := by
  simp [synthesizeAll]

/-! #### frameTail -/

@[simp] theorem frameTail_seq (s : State) : (frameTail s).seq = s.seq := by
  simp [frameTail]
@[simp] theorem frameTail_frameCtx (s : State) : (frameTail s).frameCtx = s.frameCtx := by
  simp [frameTail]
@[simp] theorem frameTail_busy (s : State) : (frameTail s).busy = s.busy := by
  simp [frameTail]
@[simp] theorem frameTail_underflow (s : State) : (frameTail s).underflow = s.underflow := by
  simp [frameTail]
@[simp] theorem frameTail_initResult (s : State) : (frameTail s).initResult = s.initResult := by
  simp [frameTail]
@[simp] theorem frameTail_faultCode (s : State) : (frameTail s).faultCode = s.faultCode := by
  simp [frameTail]
@[simp] theorem frameTail_cmdErr (s : State) : (frameTail s).cmdErr = s.cmdErr := by
  simp [frameTail]
@[simp] theorem frameTail_sticky (s : State) : (frameTail s).sticky = s.sticky := by
  simp [frameTail]
@[simp] theorem frameTail_intEnable (s : State) : (frameTail s).intEnable = s.intEnable := by
  simp [frameTail]
@[simp] theorem frameTail_cfg (s : State) : (frameTail s).cfg = s.cfg := by
  simp [frameTail]
@[simp] theorem frameTail_act (s : State) : (frameTail s).act = s.act := by
  simp [frameTail]
@[simp] theorem frameTail_inIx (s : State) : (frameTail s).inIx = s.inIx := by
  simp [frameTail]
@[simp] theorem frameTail_outIx (s : State) :
    (frameTail s).outIx = { s.outIx with wr := (s.outIx.wr + s.hop) % s.Cout, avail := s.outIx.avail + s.hop } := by
  rw [frameTail, countFrame_outIx, emitHop_outIx, State.hop_of_act (synthesizeAll_act s),
    State.Cout_of_act (synthesizeAll_act s), synthesizeAll_outIx]
@[simp] theorem frameTail_frameCount (s : State) : (frameTail s).frameCount = s.frameCount + 1#32 := by
  simp [frameTail]
@[simp] theorem frameTail_lastFrames (s : State) : (frameTail s).lastFrames = s.lastFrames + 1#32 := by
  simp [frameTail]
@[simp] theorem frameTail_mem (s : State) : (frameTail s).mem = s.mem := by
  simp [frameTail]
@[simp] theorem frameTail_ringIn (s : State) : (frameTail s).ringIn = s.ringIn := by
  simp [frameTail]
@[simp] theorem frameTail_tb (s : State) : (frameTail s).tb = s.tb := by
  simp [frameTail]
@[simp] theorem frameTail_rst (s : State) : (frameTail s).rst = s.rst := by
  simp [frameTail]
@[simp] theorem frameTail_build (s : State) : (frameTail s).build = s.build := by
  simp [frameTail]
@[simp] theorem frameTail_port (s : State) : (frameTail s).port = s.port := by
  simp [frameTail]
@[simp] theorem frameTail_overlap (s : State) : (frameTail s).overlap = s.overlap := by
  simp [frameTail]
@[simp] theorem frameTail_transit (s : State) : (frameTail s).transit = s.transit := by
  simp [frameTail]
@[simp] theorem frameTail_resp (s : State) : (frameTail s).resp = s.resp := by
  simp [frameTail]
@[simp] theorem frameTail_adapterOk (s : State) : (frameTail s).adapterOk = s.adapterOk := by
  simp [frameTail]
@[simp] theorem frameTail_draws (s : State) : (frameTail s).draws = s.draws := by
  simp [frameTail]
@[simp] theorem frameTail_epoch (s : State) : (frameTail s).epoch = s.epoch := by
  simp [frameTail]

/-! #### frameHead -/

@[simp] theorem frameHead_seq (s : State) : (frameHead s).seq = s.seq := by
  simp [frameHead]
@[simp] theorem frameHead_frameCtx (s : State) : (frameHead s).frameCtx = s.frameCtx := by
  simp [frameHead]
@[simp] theorem frameHead_busy (s : State) : (frameHead s).busy = s.busy := by
  simp [frameHead]
@[simp] theorem frameHead_underflow (s : State) : (frameHead s).underflow = s.underflow := by
  simp [frameHead]
@[simp] theorem frameHead_initResult (s : State) : (frameHead s).initResult = s.initResult := by
  simp [frameHead]
@[simp] theorem frameHead_faultCode (s : State) : (frameHead s).faultCode = s.faultCode := by
  simp [frameHead]
@[simp] theorem frameHead_cmdErr (s : State) : (frameHead s).cmdErr = s.cmdErr := by
  simp [frameHead]
@[simp] theorem frameHead_sticky (s : State) : (frameHead s).sticky = s.sticky := by
  simp [frameHead]
@[simp] theorem frameHead_intEnable (s : State) : (frameHead s).intEnable = s.intEnable := by
  simp [frameHead]
@[simp] theorem frameHead_cfg (s : State) : (frameHead s).cfg = s.cfg := by
  simp [frameHead]
@[simp] theorem frameHead_act (s : State) : (frameHead s).act = s.act := by
  simp [frameHead]
@[simp] theorem frameHead_inIx (s : State) :
    (frameHead s).inIx = { s.inIx with rd := (s.inIx.rd + s.hop) % s.Cin, avail := s.inIx.avail - s.hop } := by
  simp [frameHead]
@[simp] theorem frameHead_outIx (s : State) : (frameHead s).outIx = s.outIx := by
  simp [frameHead]
@[simp] theorem frameHead_frameCount (s : State) : (frameHead s).frameCount = s.frameCount := by
  simp [frameHead]
@[simp] theorem frameHead_lastFrames (s : State) : (frameHead s).lastFrames = s.lastFrames := by
  simp [frameHead]
@[simp] theorem frameHead_ringIn (s : State) : (frameHead s).ringIn = s.ringIn := by
  simp [frameHead]
@[simp] theorem frameHead_ringOut (s : State) : (frameHead s).ringOut = s.ringOut := by
  simp [frameHead]
@[simp] theorem frameHead_tail (s : State) : (frameHead s).tail = s.tail := by
  simp [frameHead]
@[simp] theorem frameHead_y (s : State) : (frameHead s).y = s.y := by
  simp [frameHead]
@[simp] theorem frameHead_res (s : State) : (frameHead s).res = s.res := by
  simp [frameHead]
@[simp] theorem frameHead_rst (s : State) : (frameHead s).rst = s.rst := by
  simp [frameHead]
@[simp] theorem frameHead_build (s : State) : (frameHead s).build = s.build := by
  simp [frameHead]
@[simp] theorem frameHead_port (s : State) : (frameHead s).port = s.port := by
  simp [frameHead]
@[simp] theorem frameHead_overlap (s : State) : (frameHead s).overlap = s.overlap := by
  simp [frameHead]
@[simp] theorem frameHead_transit (s : State) : (frameHead s).transit = s.transit := by
  simp [frameHead]
@[simp] theorem frameHead_resp (s : State) : (frameHead s).resp = s.resp := by
  simp [frameHead]
@[simp] theorem frameHead_adapterOk (s : State) : (frameHead s).adapterOk = s.adapterOk := by
  simp [frameHead]
@[simp] theorem frameHead_draws (s : State) : (frameHead s).draws = s.draws + 1 := by
  simp [frameHead]
@[simp] theorem frameHead_epoch (s : State) : (frameHead s).epoch = s.epoch := by
  simp [frameHead]

/-! #### finishRebuild -/

@[simp] theorem finishRebuild_seq (s : State) : (finishRebuild s).seq = s.seq := by
  simp [finishRebuild]
@[simp] theorem finishRebuild_frameCtx (s : State) : (finishRebuild s).frameCtx = s.frameCtx := by
  simp [finishRebuild]
@[simp] theorem finishRebuild_busy (s : State) : (finishRebuild s).busy = s.busy := by
  simp [finishRebuild]
@[simp] theorem finishRebuild_underflow (s : State) : (finishRebuild s).underflow = s.underflow := by
  simp [finishRebuild]
@[simp] theorem finishRebuild_initResult (s : State) : (finishRebuild s).initResult = s.initResult := by
  simp [finishRebuild]
@[simp] theorem finishRebuild_faultCode (s : State) : (finishRebuild s).faultCode = s.faultCode := by
  simp [finishRebuild]
@[simp] theorem finishRebuild_cmdErr (s : State) : (finishRebuild s).cmdErr = s.cmdErr := by
  simp [finishRebuild]
@[simp] theorem finishRebuild_sticky (s : State) : (finishRebuild s).sticky = s.sticky := by
  simp [finishRebuild]
@[simp] theorem finishRebuild_intEnable (s : State) : (finishRebuild s).intEnable = s.intEnable := by
  simp [finishRebuild]
@[simp] theorem finishRebuild_cfg (s : State) : (finishRebuild s).cfg = s.cfg := by
  simp [finishRebuild]
@[simp] theorem finishRebuild_inIx (s : State) :
    (finishRebuild s).inIx = { rd := 0, wr := padding s.N s.B, avail := padding s.N s.B } := by
  simp [finishRebuild]
@[simp] theorem finishRebuild_outIx (s : State) : (finishRebuild s).outIx = RingIx.zero := by
  simp [finishRebuild]
@[simp] theorem finishRebuild_frameCount (s : State) : (finishRebuild s).frameCount = s.frameCount := by
  simp [finishRebuild]
@[simp] theorem finishRebuild_lastFrames (s : State) : (finishRebuild s).lastFrames = s.lastFrames := by
  simp [finishRebuild]
@[simp] theorem finishRebuild_mem (s : State) : (finishRebuild s).mem = s.mem := by
  simp [finishRebuild]
@[simp] theorem finishRebuild_ringOut (s : State) : (finishRebuild s).ringOut = s.ringOut := by
  simp [finishRebuild]
@[simp] theorem finishRebuild_tail (s : State) : (finishRebuild s).tail = s.tail := by
  simp [finishRebuild]
@[simp] theorem finishRebuild_tb (s : State) : (finishRebuild s).tb = s.tb := by
  simp [finishRebuild]
@[simp] theorem finishRebuild_y (s : State) : (finishRebuild s).y = s.y := by
  simp [finishRebuild]
@[simp] theorem finishRebuild_res (s : State) : (finishRebuild s).res = s.res := by
  simp [finishRebuild]
@[simp] theorem finishRebuild_rst (s : State) : (finishRebuild s).rst = s.rst := by
  simp [finishRebuild]
@[simp] theorem finishRebuild_build (s : State) : (finishRebuild s).build = s.build := by
  simp [finishRebuild]
@[simp] theorem finishRebuild_port (s : State) : (finishRebuild s).port = s.port := by
  simp [finishRebuild]
@[simp] theorem finishRebuild_overlap (s : State) : (finishRebuild s).overlap = s.overlap := by
  simp [finishRebuild]
@[simp] theorem finishRebuild_transit (s : State) : (finishRebuild s).transit = s.transit := by
  simp [finishRebuild]
@[simp] theorem finishRebuild_resp (s : State) : (finishRebuild s).resp = s.resp := by
  simp [finishRebuild]
@[simp] theorem finishRebuild_adapterOk (s : State) : (finishRebuild s).adapterOk = s.adapterOk := by
  simp [finishRebuild]
@[simp] theorem finishRebuild_draws (s : State) : (finishRebuild s).draws = s.draws := by
  simp [finishRebuild]
@[simp] theorem finishRebuild_epoch (s : State) : (finishRebuild s).epoch = s.epoch := by
  simp [finishRebuild]

/-! #### ringRebuild -/

@[simp] theorem ringRebuild_seq (s : State) : (ringRebuild s).seq = s.seq := by
  simp [ringRebuild]
@[simp] theorem ringRebuild_frameCtx (s : State) : (ringRebuild s).frameCtx = s.frameCtx := by
  simp [ringRebuild]
@[simp] theorem ringRebuild_busy (s : State) : (ringRebuild s).busy = s.busy := by
  simp [ringRebuild]
@[simp] theorem ringRebuild_underflow (s : State) : (ringRebuild s).underflow = s.underflow := by
  simp [ringRebuild]
@[simp] theorem ringRebuild_initResult (s : State) : (ringRebuild s).initResult = s.initResult := by
  simp [ringRebuild]
@[simp] theorem ringRebuild_faultCode (s : State) : (ringRebuild s).faultCode = s.faultCode := by
  simp [ringRebuild]
@[simp] theorem ringRebuild_cmdErr (s : State) : (ringRebuild s).cmdErr = s.cmdErr := by
  simp [ringRebuild]
@[simp] theorem ringRebuild_sticky (s : State) : (ringRebuild s).sticky = s.sticky := by
  simp [ringRebuild]
@[simp] theorem ringRebuild_intEnable (s : State) : (ringRebuild s).intEnable = s.intEnable := by
  simp [ringRebuild]
@[simp] theorem ringRebuild_cfg (s : State) : (ringRebuild s).cfg = s.cfg := by
  simp [ringRebuild]
@[simp] theorem ringRebuild_inIx (s : State) :
    (ringRebuild s).inIx = { rd := 0, wr := padding s.N s.B, avail := padding s.N s.B } := by
  simp [ringRebuild]
@[simp] theorem ringRebuild_outIx (s : State) : (ringRebuild s).outIx = RingIx.zero := by
  simp [ringRebuild]
@[simp] theorem ringRebuild_frameCount (s : State) : (ringRebuild s).frameCount = s.frameCount := by
  simp [ringRebuild]
@[simp] theorem ringRebuild_lastFrames (s : State) : (ringRebuild s).lastFrames = s.lastFrames := by
  simp [ringRebuild]
@[simp] theorem ringRebuild_mem (s : State) : (ringRebuild s).mem = s.mem := by
  simp [ringRebuild]
@[simp] theorem ringRebuild_ringOut (s : State) : (ringRebuild s).ringOut = s.ringOut := by
  simp [ringRebuild]
@[simp] theorem ringRebuild_tail (s : State) : (ringRebuild s).tail = s.tail := by
  simp [ringRebuild]
@[simp] theorem ringRebuild_tb (s : State) : (ringRebuild s).tb = s.tb := by
  simp [ringRebuild]
@[simp] theorem ringRebuild_y (s : State) : (ringRebuild s).y = s.y := by
  simp [ringRebuild]
@[simp] theorem ringRebuild_res (s : State) : (ringRebuild s).res = s.res := by
  simp [ringRebuild]
@[simp] theorem ringRebuild_rst (s : State) : (ringRebuild s).rst = s.rst := by
  simp [ringRebuild]
@[simp] theorem ringRebuild_build (s : State) : (ringRebuild s).build = s.build := by
  simp [ringRebuild]
@[simp] theorem ringRebuild_port (s : State) : (ringRebuild s).port = s.port := by
  simp [ringRebuild]
@[simp] theorem ringRebuild_overlap (s : State) : (ringRebuild s).overlap = s.overlap := by
  simp [ringRebuild]
@[simp] theorem ringRebuild_transit (s : State) : (ringRebuild s).transit = s.transit := by
  simp [ringRebuild]
@[simp] theorem ringRebuild_resp (s : State) : (ringRebuild s).resp = s.resp := by
  simp [ringRebuild]
@[simp] theorem ringRebuild_adapterOk (s : State) : (ringRebuild s).adapterOk = s.adapterOk := by
  simp [ringRebuild]
@[simp] theorem ringRebuild_draws (s : State) : (ringRebuild s).draws = s.draws := by
  simp [ringRebuild]
@[simp] theorem ringRebuild_epoch (s : State) : (ringRebuild s).epoch = s.epoch := by
  simp [ringRebuild]

/-! #### finishSetBlock -/

@[simp] theorem finishSetBlock_seq (s : State) : (finishSetBlock s).seq = s.seq := by
  simp [finishSetBlock]
@[simp] theorem finishSetBlock_frameCtx (s : State) :
    (finishSetBlock s).frameCtx = s.frameCtx := by
  simp [finishSetBlock]
@[simp] theorem finishSetBlock_busy (s : State) : (finishSetBlock s).busy = s.busy := by
  simp [finishSetBlock]
@[simp] theorem finishSetBlock_underflow (s : State) :
    (finishSetBlock s).underflow = false := by
  simp [finishSetBlock]
@[simp] theorem finishSetBlock_initResult (s : State) :
    (finishSetBlock s).initResult = s.initResult := by
  simp [finishSetBlock]
@[simp] theorem finishSetBlock_faultCode (s : State) :
    (finishSetBlock s).faultCode = s.faultCode := by
  simp [finishSetBlock]
@[simp] theorem finishSetBlock_cmdErr (s : State) : (finishSetBlock s).cmdErr = s.cmdErr := by
  simp [finishSetBlock]
@[simp] theorem finishSetBlock_sticky (s : State) : (finishSetBlock s).sticky = s.sticky := by
  simp [finishSetBlock]
@[simp] theorem finishSetBlock_intEnable (s : State) :
    (finishSetBlock s).intEnable = s.intEnable := by
  simp [finishSetBlock]
@[simp] theorem finishSetBlock_cfg (s : State) : (finishSetBlock s).cfg = s.cfg := by
  simp [finishSetBlock]
@[simp] theorem finishSetBlock_inIx (s : State) :
    (finishSetBlock s).inIx = { rd := 0, wr := padding s.N s.B, avail := padding s.N s.B } := by
  simp [finishSetBlock]
@[simp] theorem finishSetBlock_outIx (s : State) :
    (finishSetBlock s).outIx = RingIx.zero := by
  simp [finishSetBlock]
@[simp] theorem finishSetBlock_frameCount (s : State) :
    (finishSetBlock s).frameCount = s.frameCount := by
  simp [finishSetBlock]
@[simp] theorem finishSetBlock_lastFrames (s : State) :
    (finishSetBlock s).lastFrames = s.lastFrames := by
  simp [finishSetBlock]
@[simp] theorem finishSetBlock_mem (s : State) : (finishSetBlock s).mem = s.mem := by
  simp [finishSetBlock]
@[simp] theorem finishSetBlock_ringOut (s : State) :
    (finishSetBlock s).ringOut = s.ringOut := by
  simp [finishSetBlock]
@[simp] theorem finishSetBlock_tail (s : State) : (finishSetBlock s).tail = s.tail := by
  simp [finishSetBlock]
@[simp] theorem finishSetBlock_tb (s : State) : (finishSetBlock s).tb = s.tb := by
  simp [finishSetBlock]
@[simp] theorem finishSetBlock_y (s : State) : (finishSetBlock s).y = s.y := by
  simp [finishSetBlock]
@[simp] theorem finishSetBlock_res (s : State) : (finishSetBlock s).res = s.res := by
  simp [finishSetBlock]
@[simp] theorem finishSetBlock_rst (s : State) : (finishSetBlock s).rst = s.rst := by
  simp [finishSetBlock]
@[simp] theorem finishSetBlock_build (s : State) : (finishSetBlock s).build = s.build := by
  simp [finishSetBlock]
@[simp] theorem finishSetBlock_port (s : State) : (finishSetBlock s).port = s.port := by
  simp [finishSetBlock]
@[simp] theorem finishSetBlock_overlap (s : State) :
    (finishSetBlock s).overlap = s.overlap := by
  simp [finishSetBlock]
@[simp] theorem finishSetBlock_transit (s : State) :
    (finishSetBlock s).transit = s.transit := by
  simp [finishSetBlock]
@[simp] theorem finishSetBlock_resp (s : State) : (finishSetBlock s).resp = s.resp := by
  simp [finishSetBlock]
@[simp] theorem finishSetBlock_adapterOk (s : State) :
    (finishSetBlock s).adapterOk = s.adapterOk := by
  simp [finishSetBlock]
@[simp] theorem finishSetBlock_draws (s : State) : (finishSetBlock s).draws = s.draws := by
  simp [finishSetBlock]
@[simp] theorem finishSetBlock_epoch (s : State) : (finishSetBlock s).epoch = s.epoch := by
  simp [finishSetBlock]

/-! #### setBlockActive -/

@[simp] theorem setBlockActive_seq (b : Nat) (s : State) : (setBlockActive b s).seq = s.seq := by
  simp [setBlockActive]
@[simp] theorem setBlockActive_frameCtx (b : Nat) (s : State) :
    (setBlockActive b s).frameCtx = s.frameCtx := by
  simp [setBlockActive]
@[simp] theorem setBlockActive_busy (b : Nat) (s : State) : (setBlockActive b s).busy = s.busy := by
  simp [setBlockActive]
@[simp] theorem setBlockActive_underflow (b : Nat) (s : State) :
    (setBlockActive b s).underflow = false := by
  simp [setBlockActive]
@[simp] theorem setBlockActive_initResult (b : Nat) (s : State) :
    (setBlockActive b s).initResult = s.initResult := by
  simp [setBlockActive]
@[simp] theorem setBlockActive_faultCode (b : Nat) (s : State) :
    (setBlockActive b s).faultCode = s.faultCode := by
  simp [setBlockActive]
@[simp] theorem setBlockActive_cmdErr (b : Nat) (s : State) : (setBlockActive b s).cmdErr = s.cmdErr := by
  simp [setBlockActive]
@[simp] theorem setBlockActive_sticky (b : Nat) (s : State) : (setBlockActive b s).sticky = s.sticky := by
  simp [setBlockActive]
@[simp] theorem setBlockActive_intEnable (b : Nat) (s : State) :
    (setBlockActive b s).intEnable = s.intEnable := by
  simp [setBlockActive]
@[simp] theorem setBlockActive_cfg (b : Nat) (s : State) : (setBlockActive b s).cfg = s.cfg := by
  simp [setBlockActive]
@[simp] theorem setBlockActive_outIx (b : Nat) (s : State) :
    (setBlockActive b s).outIx = RingIx.zero := by
  simp [setBlockActive]
@[simp] theorem setBlockActive_frameCount (b : Nat) (s : State) :
    (setBlockActive b s).frameCount = s.frameCount := by
  simp [setBlockActive]
@[simp] theorem setBlockActive_lastFrames (b : Nat) (s : State) :
    (setBlockActive b s).lastFrames = s.lastFrames := by
  simp [setBlockActive]
@[simp] theorem setBlockActive_mem (b : Nat) (s : State) : (setBlockActive b s).mem = s.mem := by
  simp [setBlockActive]
@[simp] theorem setBlockActive_ringOut (b : Nat) (s : State) :
    (setBlockActive b s).ringOut = s.ringOut := by
  simp [setBlockActive]
@[simp] theorem setBlockActive_tail (b : Nat) (s : State) : (setBlockActive b s).tail = s.tail := by
  simp [setBlockActive]
@[simp] theorem setBlockActive_tb (b : Nat) (s : State) : (setBlockActive b s).tb = s.tb := by
  simp [setBlockActive]
@[simp] theorem setBlockActive_y (b : Nat) (s : State) : (setBlockActive b s).y = s.y := by
  simp [setBlockActive]
@[simp] theorem setBlockActive_res (b : Nat) (s : State) : (setBlockActive b s).res = s.res := by
  simp [setBlockActive]
@[simp] theorem setBlockActive_rst (b : Nat) (s : State) : (setBlockActive b s).rst = s.rst := by
  simp [setBlockActive]
@[simp] theorem setBlockActive_build (b : Nat) (s : State) : (setBlockActive b s).build = s.build := by
  simp [setBlockActive]
@[simp] theorem setBlockActive_port (b : Nat) (s : State) : (setBlockActive b s).port = s.port := by
  simp [setBlockActive]
@[simp] theorem setBlockActive_overlap (b : Nat) (s : State) :
    (setBlockActive b s).overlap = s.overlap := by
  simp [setBlockActive]
@[simp] theorem setBlockActive_transit (b : Nat) (s : State) :
    (setBlockActive b s).transit = s.transit := by
  simp [setBlockActive]
@[simp] theorem setBlockActive_resp (b : Nat) (s : State) : (setBlockActive b s).resp = s.resp := by
  simp [setBlockActive]
@[simp] theorem setBlockActive_adapterOk (b : Nat) (s : State) :
    (setBlockActive b s).adapterOk = s.adapterOk := by
  simp [setBlockActive]
@[simp] theorem setBlockActive_draws (b : Nat) (s : State) : (setBlockActive b s).draws = s.draws := by
  simp [setBlockActive]
@[simp] theorem setBlockActive_epoch (b : Nat) (s : State) : (setBlockActive b s).epoch = s.epoch := by
  simp [setBlockActive]

/-! #### buildWindows -/

@[simp] theorem buildWindows_seq (w : BitVec 8) (N : Nat) (s : State) :
    (buildWindows w N s).seq = s.seq := by
  simp [buildWindows]
@[simp] theorem buildWindows_frameCtx (w : BitVec 8) (N : Nat) (s : State) :
    (buildWindows w N s).frameCtx = s.frameCtx := by
  simp [buildWindows]
@[simp] theorem buildWindows_busy (w : BitVec 8) (N : Nat) (s : State) :
    (buildWindows w N s).busy = s.busy := by
  simp [buildWindows]
@[simp] theorem buildWindows_underflow (w : BitVec 8) (N : Nat) (s : State) :
    (buildWindows w N s).underflow = s.underflow := by
  simp [buildWindows]
@[simp] theorem buildWindows_initResult (w : BitVec 8) (N : Nat) (s : State) :
    (buildWindows w N s).initResult = s.initResult := by
  simp [buildWindows]
@[simp] theorem buildWindows_faultCode (w : BitVec 8) (N : Nat) (s : State) :
    (buildWindows w N s).faultCode = s.faultCode := by
  simp [buildWindows]
@[simp] theorem buildWindows_cmdErr (w : BitVec 8) (N : Nat) (s : State) :
    (buildWindows w N s).cmdErr = s.cmdErr := by
  simp [buildWindows]
@[simp] theorem buildWindows_sticky (w : BitVec 8) (N : Nat) (s : State) :
    (buildWindows w N s).sticky = s.sticky := by
  simp [buildWindows]
@[simp] theorem buildWindows_intEnable (w : BitVec 8) (N : Nat) (s : State) :
    (buildWindows w N s).intEnable = s.intEnable := by
  simp [buildWindows]
@[simp] theorem buildWindows_cfg (w : BitVec 8) (N : Nat) (s : State) :
    (buildWindows w N s).cfg = s.cfg := by
  simp [buildWindows]
@[simp] theorem buildWindows_act (w : BitVec 8) (N : Nat) (s : State) :
    (buildWindows w N s).act = s.act := by
  simp [buildWindows]
@[simp] theorem buildWindows_inIx (w : BitVec 8) (N : Nat) (s : State) :
    (buildWindows w N s).inIx = s.inIx := by
  simp [buildWindows]
@[simp] theorem buildWindows_outIx (w : BitVec 8) (N : Nat) (s : State) :
    (buildWindows w N s).outIx = s.outIx := by
  simp [buildWindows]
@[simp] theorem buildWindows_frameCount (w : BitVec 8) (N : Nat) (s : State) :
    (buildWindows w N s).frameCount = s.frameCount := by
  simp [buildWindows]
@[simp] theorem buildWindows_lastFrames (w : BitVec 8) (N : Nat) (s : State) :
    (buildWindows w N s).lastFrames = s.lastFrames := by
  simp [buildWindows]
@[simp] theorem buildWindows_ringIn (w : BitVec 8) (N : Nat) (s : State) :
    (buildWindows w N s).ringIn = s.ringIn := by
  simp [buildWindows]
@[simp] theorem buildWindows_ringOut (w : BitVec 8) (N : Nat) (s : State) :
    (buildWindows w N s).ringOut = s.ringOut := by
  simp [buildWindows]
@[simp] theorem buildWindows_tail (w : BitVec 8) (N : Nat) (s : State) :
    (buildWindows w N s).tail = s.tail := by
  simp [buildWindows]
@[simp] theorem buildWindows_tb (w : BitVec 8) (N : Nat) (s : State) :
    (buildWindows w N s).tb = s.tb := by
  simp [buildWindows]
@[simp] theorem buildWindows_y (w : BitVec 8) (N : Nat) (s : State) : (buildWindows w N s).y = s.y := by
  simp [buildWindows]
@[simp] theorem buildWindows_res (w : BitVec 8) (N : Nat) (s : State) :
    (buildWindows w N s).res = s.res := by
  simp [buildWindows]
@[simp] theorem buildWindows_rst (w : BitVec 8) (N : Nat) (s : State) :
    (buildWindows w N s).rst = s.rst := by
  simp [buildWindows]
@[simp] theorem buildWindows_build (w : BitVec 8) (N : Nat) (s : State) :
    (buildWindows w N s).build = s.build := by
  simp [buildWindows]
@[simp] theorem buildWindows_port (w : BitVec 8) (N : Nat) (s : State) :
    (buildWindows w N s).port = s.port := by
  simp [buildWindows]
@[simp] theorem buildWindows_overlap (w : BitVec 8) (N : Nat) (s : State) :
    (buildWindows w N s).overlap = s.overlap := by
  simp [buildWindows]
@[simp] theorem buildWindows_transit (w : BitVec 8) (N : Nat) (s : State) :
    (buildWindows w N s).transit = s.transit := by
  simp [buildWindows]
@[simp] theorem buildWindows_resp (w : BitVec 8) (N : Nat) (s : State) :
    (buildWindows w N s).resp = s.resp := by
  simp [buildWindows]
@[simp] theorem buildWindows_adapterOk (w : BitVec 8) (N : Nat) (s : State) :
    (buildWindows w N s).adapterOk = s.adapterOk := by
  simp [buildWindows]
@[simp] theorem buildWindows_draws (w : BitVec 8) (N : Nat) (s : State) :
    (buildWindows w N s).draws = s.draws := by
  simp [buildWindows]
@[simp] theorem buildWindows_epoch (w : BitVec 8) (N : Nat) (s : State) :
    (buildWindows w N s).epoch = s.epoch := by
  simp [buildWindows]

/-! #### buildCola -/

@[simp] theorem buildCola_seq (N hop : Nat) (s : State) : (buildCola N hop s).seq = s.seq := by
  simp [buildCola]
@[simp] theorem buildCola_frameCtx (N hop : Nat) (s : State) :
    (buildCola N hop s).frameCtx = s.frameCtx := by
  simp [buildCola]
@[simp] theorem buildCola_busy (N hop : Nat) (s : State) : (buildCola N hop s).busy = s.busy := by
  simp [buildCola]
@[simp] theorem buildCola_underflow (N hop : Nat) (s : State) :
    (buildCola N hop s).underflow = s.underflow := by
  simp [buildCola]
@[simp] theorem buildCola_initResult (N hop : Nat) (s : State) :
    (buildCola N hop s).initResult = s.initResult := by
  simp [buildCola]
@[simp] theorem buildCola_faultCode (N hop : Nat) (s : State) :
    (buildCola N hop s).faultCode = s.faultCode := by
  simp [buildCola]
@[simp] theorem buildCola_cmdErr (N hop : Nat) (s : State) : (buildCola N hop s).cmdErr = s.cmdErr := by
  simp [buildCola]
@[simp] theorem buildCola_sticky (N hop : Nat) (s : State) : (buildCola N hop s).sticky = s.sticky := by
  simp [buildCola]
@[simp] theorem buildCola_intEnable (N hop : Nat) (s : State) :
    (buildCola N hop s).intEnable = s.intEnable := by
  simp [buildCola]
@[simp] theorem buildCola_cfg (N hop : Nat) (s : State) : (buildCola N hop s).cfg = s.cfg := by
  simp [buildCola]
@[simp] theorem buildCola_act (N hop : Nat) (s : State) : (buildCola N hop s).act = s.act := by
  simp [buildCola]
@[simp] theorem buildCola_inIx (N hop : Nat) (s : State) : (buildCola N hop s).inIx = s.inIx := by
  simp [buildCola]
@[simp] theorem buildCola_outIx (N hop : Nat) (s : State) : (buildCola N hop s).outIx = s.outIx := by
  simp [buildCola]
@[simp] theorem buildCola_frameCount (N hop : Nat) (s : State) :
    (buildCola N hop s).frameCount = s.frameCount := by
  simp [buildCola]
@[simp] theorem buildCola_lastFrames (N hop : Nat) (s : State) :
    (buildCola N hop s).lastFrames = s.lastFrames := by
  simp [buildCola]
@[simp] theorem buildCola_ringIn (N hop : Nat) (s : State) : (buildCola N hop s).ringIn = s.ringIn := by
  simp [buildCola]
@[simp] theorem buildCola_ringOut (N hop : Nat) (s : State) :
    (buildCola N hop s).ringOut = s.ringOut := by
  simp [buildCola]
@[simp] theorem buildCola_tail (N hop : Nat) (s : State) : (buildCola N hop s).tail = s.tail := by
  simp [buildCola]
@[simp] theorem buildCola_tb (N hop : Nat) (s : State) : (buildCola N hop s).tb = s.tb := by
  simp [buildCola]
@[simp] theorem buildCola_y (N hop : Nat) (s : State) : (buildCola N hop s).y = s.y := by
  simp [buildCola]
@[simp] theorem buildCola_res (N hop : Nat) (s : State) : (buildCola N hop s).res = s.res := by
  simp [buildCola]
@[simp] theorem buildCola_rst (N hop : Nat) (s : State) : (buildCola N hop s).rst = s.rst := by
  simp [buildCola]
@[simp] theorem buildCola_build (N hop : Nat) (s : State) : (buildCola N hop s).build = s.build := by
  simp [buildCola]
@[simp] theorem buildCola_port (N hop : Nat) (s : State) : (buildCola N hop s).port = s.port := by
  simp [buildCola]
@[simp] theorem buildCola_overlap (N hop : Nat) (s : State) :
    (buildCola N hop s).overlap = s.overlap := by
  simp [buildCola]
@[simp] theorem buildCola_transit (N hop : Nat) (s : State) :
    (buildCola N hop s).transit = s.transit := by
  simp [buildCola]
@[simp] theorem buildCola_resp (N hop : Nat) (s : State) : (buildCola N hop s).resp = s.resp := by
  simp [buildCola]
@[simp] theorem buildCola_adapterOk (N hop : Nat) (s : State) :
    (buildCola N hop s).adapterOk = s.adapterOk := by
  simp [buildCola]
@[simp] theorem buildCola_draws (N hop : Nat) (s : State) : (buildCola N hop s).draws = s.draws := by
  simp [buildCola]
@[simp] theorem buildCola_epoch (N hop : Nat) (s : State) : (buildCola N hop s).epoch = s.epoch := by
  simp [buildCola]

/-! #### buildTables -/

@[simp] theorem buildTables_seq (q : CfgRegs) (s : State) : (buildTables q s).seq = s.seq := by
  simp [buildTables]
@[simp] theorem buildTables_frameCtx (q : CfgRegs) (s : State) :
    (buildTables q s).frameCtx = s.frameCtx := by
  simp [buildTables]
@[simp] theorem buildTables_busy (q : CfgRegs) (s : State) : (buildTables q s).busy = s.busy := by
  simp [buildTables]
@[simp] theorem buildTables_underflow (q : CfgRegs) (s : State) :
    (buildTables q s).underflow = s.underflow := by
  simp [buildTables]
@[simp] theorem buildTables_initResult (q : CfgRegs) (s : State) :
    (buildTables q s).initResult = s.initResult := by
  simp [buildTables]
@[simp] theorem buildTables_faultCode (q : CfgRegs) (s : State) :
    (buildTables q s).faultCode = s.faultCode := by
  simp [buildTables]
@[simp] theorem buildTables_cmdErr (q : CfgRegs) (s : State) : (buildTables q s).cmdErr = s.cmdErr := by
  simp [buildTables]
@[simp] theorem buildTables_sticky (q : CfgRegs) (s : State) : (buildTables q s).sticky = s.sticky := by
  simp [buildTables]
@[simp] theorem buildTables_intEnable (q : CfgRegs) (s : State) :
    (buildTables q s).intEnable = s.intEnable := by
  simp [buildTables]
@[simp] theorem buildTables_cfg (q : CfgRegs) (s : State) : (buildTables q s).cfg = s.cfg := by
  simp [buildTables]
@[simp] theorem buildTables_act (q : CfgRegs) (s : State) : (buildTables q s).act = s.act := by
  simp [buildTables]
@[simp] theorem buildTables_inIx (q : CfgRegs) (s : State) : (buildTables q s).inIx = s.inIx := by
  simp [buildTables]
@[simp] theorem buildTables_outIx (q : CfgRegs) (s : State) : (buildTables q s).outIx = s.outIx := by
  simp [buildTables]
@[simp] theorem buildTables_frameCount (q : CfgRegs) (s : State) :
    (buildTables q s).frameCount = s.frameCount := by
  simp [buildTables]
@[simp] theorem buildTables_lastFrames (q : CfgRegs) (s : State) :
    (buildTables q s).lastFrames = s.lastFrames := by
  simp [buildTables]
@[simp] theorem buildTables_ringIn (q : CfgRegs) (s : State) : (buildTables q s).ringIn = s.ringIn := by
  simp [buildTables]
@[simp] theorem buildTables_ringOut (q : CfgRegs) (s : State) :
    (buildTables q s).ringOut = s.ringOut := by
  simp [buildTables]
@[simp] theorem buildTables_tail (q : CfgRegs) (s : State) : (buildTables q s).tail = s.tail := by
  simp [buildTables]
@[simp] theorem buildTables_tb (q : CfgRegs) (s : State) : (buildTables q s).tb = s.tb := by
  simp [buildTables]
@[simp] theorem buildTables_y (q : CfgRegs) (s : State) : (buildTables q s).y = s.y := by
  simp [buildTables]
@[simp] theorem buildTables_res (q : CfgRegs) (s : State) : (buildTables q s).res = s.res := by
  simp [buildTables]
@[simp] theorem buildTables_rst (q : CfgRegs) (s : State) : (buildTables q s).rst = s.rst := by
  simp [buildTables]
@[simp] theorem buildTables_build (q : CfgRegs) (s : State) : (buildTables q s).build = s.build := by
  simp [buildTables]
@[simp] theorem buildTables_port (q : CfgRegs) (s : State) : (buildTables q s).port = s.port := by
  simp [buildTables]
@[simp] theorem buildTables_overlap (q : CfgRegs) (s : State) :
    (buildTables q s).overlap = s.overlap := by
  simp [buildTables]
@[simp] theorem buildTables_transit (q : CfgRegs) (s : State) :
    (buildTables q s).transit = s.transit := by
  simp [buildTables]
@[simp] theorem buildTables_resp (q : CfgRegs) (s : State) : (buildTables q s).resp = s.resp := by
  simp [buildTables]
@[simp] theorem buildTables_adapterOk (q : CfgRegs) (s : State) :
    (buildTables q s).adapterOk = s.adapterOk := by
  simp [buildTables]
@[simp] theorem buildTables_draws (q : CfgRegs) (s : State) : (buildTables q s).draws = s.draws + 1 := by
  simp [buildTables]
@[simp] theorem buildTables_epoch (q : CfgRegs) (s : State) : (buildTables q s).epoch = s.epoch := by
  simp [buildTables]

/-! #### buildEffsyn -/

@[simp] theorem buildEffsyn_seq (N hop : Nat) (s : State) : (buildEffsyn N hop s).seq = s.seq := by
  simp [buildEffsyn]
@[simp] theorem buildEffsyn_frameCtx (N hop : Nat) (s : State) :
    (buildEffsyn N hop s).frameCtx = s.frameCtx := by
  simp [buildEffsyn]
@[simp] theorem buildEffsyn_busy (N hop : Nat) (s : State) : (buildEffsyn N hop s).busy = s.busy := by
  simp [buildEffsyn]
@[simp] theorem buildEffsyn_underflow (N hop : Nat) (s : State) :
    (buildEffsyn N hop s).underflow = s.underflow := by
  simp [buildEffsyn]
@[simp] theorem buildEffsyn_initResult (N hop : Nat) (s : State) :
    (buildEffsyn N hop s).initResult = s.initResult := by
  simp [buildEffsyn]
@[simp] theorem buildEffsyn_faultCode (N hop : Nat) (s : State) :
    (buildEffsyn N hop s).faultCode = s.faultCode := by
  simp [buildEffsyn]
@[simp] theorem buildEffsyn_cmdErr (N hop : Nat) (s : State) :
    (buildEffsyn N hop s).cmdErr = s.cmdErr := by
  simp [buildEffsyn]
@[simp] theorem buildEffsyn_sticky (N hop : Nat) (s : State) :
    (buildEffsyn N hop s).sticky = s.sticky := by
  simp [buildEffsyn]
@[simp] theorem buildEffsyn_intEnable (N hop : Nat) (s : State) :
    (buildEffsyn N hop s).intEnable = s.intEnable := by
  simp [buildEffsyn]
@[simp] theorem buildEffsyn_cfg (N hop : Nat) (s : State) : (buildEffsyn N hop s).cfg = s.cfg := by
  simp [buildEffsyn]
@[simp] theorem buildEffsyn_act (N hop : Nat) (s : State) : (buildEffsyn N hop s).act = s.act := by
  simp [buildEffsyn]
@[simp] theorem buildEffsyn_inIx (N hop : Nat) (s : State) : (buildEffsyn N hop s).inIx = s.inIx := by
  simp [buildEffsyn]
@[simp] theorem buildEffsyn_outIx (N hop : Nat) (s : State) : (buildEffsyn N hop s).outIx = s.outIx := by
  simp [buildEffsyn]
@[simp] theorem buildEffsyn_frameCount (N hop : Nat) (s : State) :
    (buildEffsyn N hop s).frameCount = s.frameCount := by
  simp [buildEffsyn]
@[simp] theorem buildEffsyn_lastFrames (N hop : Nat) (s : State) :
    (buildEffsyn N hop s).lastFrames = s.lastFrames := by
  simp [buildEffsyn]
@[simp] theorem buildEffsyn_ringIn (N hop : Nat) (s : State) :
    (buildEffsyn N hop s).ringIn = s.ringIn := by
  simp [buildEffsyn]
@[simp] theorem buildEffsyn_ringOut (N hop : Nat) (s : State) :
    (buildEffsyn N hop s).ringOut = s.ringOut := by
  simp [buildEffsyn]
@[simp] theorem buildEffsyn_tail (N hop : Nat) (s : State) : (buildEffsyn N hop s).tail = s.tail := by
  simp [buildEffsyn]
@[simp] theorem buildEffsyn_tb (N hop : Nat) (s : State) : (buildEffsyn N hop s).tb = s.tb := by
  simp [buildEffsyn]
@[simp] theorem buildEffsyn_y (N hop : Nat) (s : State) : (buildEffsyn N hop s).y = s.y := by
  simp [buildEffsyn]
@[simp] theorem buildEffsyn_res (N hop : Nat) (s : State) : (buildEffsyn N hop s).res = s.res := by
  simp [buildEffsyn]
@[simp] theorem buildEffsyn_rst (N hop : Nat) (s : State) : (buildEffsyn N hop s).rst = s.rst := by
  simp [buildEffsyn]
@[simp] theorem buildEffsyn_build (N hop : Nat) (s : State) : (buildEffsyn N hop s).build = s.build := by
  simp [buildEffsyn]
@[simp] theorem buildEffsyn_port (N hop : Nat) (s : State) : (buildEffsyn N hop s).port = s.port := by
  simp [buildEffsyn]
@[simp] theorem buildEffsyn_overlap (N hop : Nat) (s : State) :
    (buildEffsyn N hop s).overlap = s.overlap := by
  simp [buildEffsyn]
@[simp] theorem buildEffsyn_transit (N hop : Nat) (s : State) :
    (buildEffsyn N hop s).transit = s.transit := by
  simp [buildEffsyn]
@[simp] theorem buildEffsyn_resp (N hop : Nat) (s : State) : (buildEffsyn N hop s).resp = s.resp := by
  simp [buildEffsyn]
@[simp] theorem buildEffsyn_adapterOk (N hop : Nat) (s : State) :
    (buildEffsyn N hop s).adapterOk = s.adapterOk := by
  simp [buildEffsyn]
@[simp] theorem buildEffsyn_draws (N hop : Nat) (s : State) : (buildEffsyn N hop s).draws = s.draws := by
  simp [buildEffsyn]
@[simp] theorem buildEffsyn_epoch (N hop : Nat) (s : State) : (buildEffsyn N hop s).epoch = s.epoch := by
  simp [buildEffsyn]

/-! #### finishCommit -/

@[simp] theorem finishCommit_seq (s : State) : (finishCommit s).seq = .ready := by
  simp [finishCommit]
@[simp] theorem finishCommit_frameCtx (s : State) :
    (finishCommit s).frameCtx = s.frameCtx := by
  simp [finishCommit]
@[simp] theorem finishCommit_busy (s : State) : (finishCommit s).busy = s.busy := by
  simp [finishCommit]
@[simp] theorem finishCommit_underflow (s : State) : (finishCommit s).underflow = false := by
  simp [finishCommit]
@[simp] theorem finishCommit_initResult (s : State) : (finishCommit s).initResult = .ok := by
  simp [finishCommit]
@[simp] theorem finishCommit_faultCode (s : State) : (finishCommit s).faultCode = .none := by
  simp [finishCommit]
@[simp] theorem finishCommit_cmdErr (s : State) : (finishCommit s).cmdErr = s.cmdErr := by
  simp [finishCommit]
@[simp] theorem finishCommit_sticky (s : State) : (finishCommit s).sticky = s.sticky := by
  simp [finishCommit]
@[simp] theorem finishCommit_intEnable (s : State) :
    (finishCommit s).intEnable = s.intEnable := by
  simp [finishCommit]
@[simp] theorem finishCommit_cfg (s : State) : (finishCommit s).cfg = s.cfg := by
  simp [finishCommit]
@[simp] theorem finishCommit_inIx (s : State) :
    (finishCommit s).inIx = { rd := 0, wr := padding s.N s.B, avail := padding s.N s.B } := by
  simp [finishCommit]
@[simp] theorem finishCommit_outIx (s : State) : (finishCommit s).outIx = RingIx.zero := by
  simp [finishCommit]
@[simp] theorem finishCommit_frameCount (s : State) : (finishCommit s).frameCount = 0#32 := by
  simp [finishCommit]
@[simp] theorem finishCommit_lastFrames (s : State) : (finishCommit s).lastFrames = 0#32 := by
  simp [finishCommit]
@[simp] theorem finishCommit_mem (s : State) :
    (finishCommit s).mem = (s.mem.zeroRegion .specIn).zeroRegion .specOut := by
  simp [finishCommit]
@[simp] theorem finishCommit_ringOut (s : State) : (finishCommit s).ringOut = s.ringOut := by
  simp [finishCommit]
@[simp] theorem finishCommit_tail (s : State) : (finishCommit s).tail = .filled posZero := by
  simp [finishCommit]
@[simp] theorem finishCommit_tb (s : State) : (finishCommit s).tb = s.tb := by
  simp [finishCommit]
@[simp] theorem finishCommit_y (s : State) : (finishCommit s).y = s.y := by
  simp [finishCommit]
@[simp] theorem finishCommit_res (s : State) : (finishCommit s).res = s.res := by
  simp [finishCommit]
@[simp] theorem finishCommit_rst (s : State) : (finishCommit s).rst = s.rst := by
  simp [finishCommit]
@[simp] theorem finishCommit_build (s : State) : (finishCommit s).build = s.build := by
  simp [finishCommit]
@[simp] theorem finishCommit_port (s : State) : (finishCommit s).port = s.port := by
  simp [finishCommit]
@[simp] theorem finishCommit_overlap (s : State) : (finishCommit s).overlap = s.overlap := by
  simp [finishCommit]
@[simp] theorem finishCommit_transit (s : State) : (finishCommit s).transit = s.transit := by
  simp [finishCommit]
@[simp] theorem finishCommit_resp (s : State) : (finishCommit s).resp = s.resp := by
  simp [finishCommit]
@[simp] theorem finishCommit_adapterOk (s : State) :
    (finishCommit s).adapterOk = s.adapterOk := by
  simp [finishCommit]
@[simp] theorem finishCommit_draws (s : State) : (finishCommit s).draws = s.draws := by
  simp [finishCommit]
@[simp] theorem finishCommit_epoch (s : State) : (finishCommit s).epoch = s.epoch := by
  simp [finishCommit]

/-! #### initCommit -/

@[simp] theorem initCommit_seq (q : CfgRegs) (s : State) : (initCommit q s).seq = .ready := by
  simp [initCommit]
@[simp] theorem initCommit_frameCtx (q : CfgRegs) (s : State) :
    (initCommit q s).frameCtx = s.frameCtx := by
  simp [initCommit]
@[simp] theorem initCommit_busy (q : CfgRegs) (s : State) : (initCommit q s).busy = s.busy := by
  simp [initCommit]
@[simp] theorem initCommit_underflow (q : CfgRegs) (s : State) : (initCommit q s).underflow = false := by
  simp [initCommit]
@[simp] theorem initCommit_initResult (q : CfgRegs) (s : State) : (initCommit q s).initResult = .ok := by
  simp [initCommit]
@[simp] theorem initCommit_faultCode (q : CfgRegs) (s : State) : (initCommit q s).faultCode = .none := by
  simp [initCommit]
@[simp] theorem initCommit_cmdErr (q : CfgRegs) (s : State) : (initCommit q s).cmdErr = s.cmdErr := by
  simp [initCommit]
@[simp] theorem initCommit_sticky (q : CfgRegs) (s : State) : (initCommit q s).sticky = s.sticky := by
  simp [initCommit]
@[simp] theorem initCommit_intEnable (q : CfgRegs) (s : State) :
    (initCommit q s).intEnable = s.intEnable := by
  simp [initCommit]
@[simp] theorem initCommit_cfg (q : CfgRegs) (s : State) : (initCommit q s).cfg = s.cfg := by
  simp [initCommit]
@[simp] theorem initCommit_outIx (q : CfgRegs) (s : State) : (initCommit q s).outIx = RingIx.zero := by
  simp [initCommit]
@[simp] theorem initCommit_frameCount (q : CfgRegs) (s : State) : (initCommit q s).frameCount = 0#32 := by
  simp [initCommit]
@[simp] theorem initCommit_lastFrames (q : CfgRegs) (s : State) : (initCommit q s).lastFrames = 0#32 := by
  simp [initCommit]
@[simp] theorem initCommit_mem (q : CfgRegs) (s : State) :
    (initCommit q s).mem = (s.mem.zeroRegion .specIn).zeroRegion .specOut := by
  simp [initCommit]
@[simp] theorem initCommit_ringOut (q : CfgRegs) (s : State) : (initCommit q s).ringOut = s.ringOut := by
  simp [initCommit]
@[simp] theorem initCommit_tail (q : CfgRegs) (s : State) : (initCommit q s).tail = .filled posZero := by
  simp [initCommit]
@[simp] theorem initCommit_tb (q : CfgRegs) (s : State) : (initCommit q s).tb = s.tb := by
  simp [initCommit]
@[simp] theorem initCommit_y (q : CfgRegs) (s : State) : (initCommit q s).y = s.y := by
  simp [initCommit]
@[simp] theorem initCommit_res (q : CfgRegs) (s : State) : (initCommit q s).res = s.res := by
  simp [initCommit]
@[simp] theorem initCommit_rst (q : CfgRegs) (s : State) : (initCommit q s).rst = s.rst := by
  simp [initCommit]
@[simp] theorem initCommit_build (q : CfgRegs) (s : State) : (initCommit q s).build = s.build := by
  simp [initCommit]
@[simp] theorem initCommit_port (q : CfgRegs) (s : State) : (initCommit q s).port = s.port := by
  simp [initCommit]
@[simp] theorem initCommit_overlap (q : CfgRegs) (s : State) : (initCommit q s).overlap = s.overlap := by
  simp [initCommit]
@[simp] theorem initCommit_transit (q : CfgRegs) (s : State) : (initCommit q s).transit = s.transit := by
  simp [initCommit]
@[simp] theorem initCommit_resp (q : CfgRegs) (s : State) : (initCommit q s).resp = s.resp := by
  simp [initCommit]
@[simp] theorem initCommit_adapterOk (q : CfgRegs) (s : State) :
    (initCommit q s).adapterOk = s.adapterOk := by
  simp [initCommit]
@[simp] theorem initCommit_draws (q : CfgRegs) (s : State) : (initCommit q s).draws = s.draws := by
  simp [initCommit]
@[simp] theorem initCommit_epoch (q : CfgRegs) (s : State) : (initCommit q s).epoch = s.epoch := by
  simp [initCommit]

end Sys2Proof.Machine
end

