-- ==== Sys2Proof/Laws/Commands.lean ====
section
/-! SUPPORT. What the port, the acceptance and a point of a command can do, said once for each. -/

namespace Sys2Proof.Machine

/-! ### Where an access goes -/

/-- An aligned offset of the CSR page is reached at BASE plus the offset. -/
theorem locate_csr {b : Build} (h : b.base % Config.windowBytes = 0) {off : Nat} (ho : off < 0x1000)
    (h4 : off % 4 = 0) : locate b (b.base + off) 32 = .csr off := by
  unfold locate
  rw [show Config.windowBytes = 0x08000000 from rfl] at *
  rw [if_neg (by omega), if_neg (by omega), if_neg (by omega), Nat.add_sub_cancel_left, if_pos ho]

theorem commandWord_cmd {b : Build} (h : b.base % Config.windowBytes = 0) (w : Word) :
    commandWord b (.write (b.base + 0x020) 32 w) = some w := by
  unfold commandWord
  dsimp only
  rw [locate_csr h (by omega) (by omega)]
  exact if_pos rfl

/-! ### Acceptance -/

theorem guarded_rejected {i : Instr} {run : State → State} {s : State} {e : CmdErr}
    (h : rejection s i = some e) : guarded i run s = .next (rejectCmd e s) := by
  unfold guarded; rw [h]

theorem guarded_accepted {i : Instr} {run : State → State} {s : State} (h : rejection s i = none) :
    guarded i run s = .next (run s) := by
  unfold guarded; rw [h]

/-- What a command does once it is accepted. -/
def runOf : Instr → State → State
  | .nop _ => runNop
  | .init _ => runInit
  | .setBlock b => runSetBlock b
  | .write n => runWrite n
  | .read n => runRead n
  | .xdone _ => runXdone
  | .sreset _ => runSreset

/-- A command is rejected or it runs. -/
theorem exec_cases (i : Instr) (s : State) :
    (∃ e, rejection s i = some e ∧ exec i s = .next (rejectCmd e s)) ∨
      (rejection s i = none ∧ exec i s = .next (runOf i s)) := by
  cases h : rejection s i with
  | some e => exact .inl ⟨e, rfl, by cases i <;> exact guarded_rejected h⟩
  | none => exact .inr ⟨rfl, by cases i <;> exact guarded_accepted h⟩

theorem exec_rejected {i : Instr} {s : State} {e : CmdErr} (h : rejection s i = some e) :
    exec i s = .next (rejectCmd e s) := by
  cases i <;> exact guarded_rejected h

theorem exec_accepted {i : Instr} {s : State} (h : rejection s i = none) :
    exec i s = .next (runOf i s) := by
  cases i <;> exact guarded_accepted h

/-- An idle block accepts what the matrix and the operand check accept. -/
theorem rejection_none {s : State} {i : Instr} (hb : s.busy = false) (ha : accepts s.seq i = true)
    (ho : operandError s i = none) : rejection s i = none := by
  unfold rejection
  rw [hb, if_neg Bool.false_ne_true, if_pos ha, ho]

/-! ### Points of a command -/

/-- With no write in transit, none reaches the RAM. -/
theorem tickLate_nil {s : State} (h : s.transit.late = []) : tickLate s = s := by
  unfold tickLate reachRam
  ext1
  all_goals simp [h, Memory.setWords]
  exact congrArg (fun l => { s.transit with late := l }) h.symm

theorem tickLate_none {s : State} (h : s.transit = .none) : tickLate s = s :=
  tickLate_nil (congrArg Transit.late h)

/-- With no read still to land and none landed, no value is noted. -/
theorem noteGiven_unwatched {s : State} (h : s.transit.watched = []) (hd : s.transit.drawn = [])
    (wrote : Nat → Bool) (old : State) : noteGiven wrote old s = s := by
  unfold noteGiven
  ext1 <;> simp [h, hd]
  exact congrArg₂ (fun l d => { s.transit with watched := l, drawn := d }) h.symm hd.symm

/-- With no read in transit, no value is noted. -/
theorem noteGiven_none {s : State} (h : s.transit = .none) (wrote : Nat → Bool) (old : State) :
    noteGiven wrote old s = s :=
  noteGiven_unwatched (congrArg Transit.watched h) (congrArg Transit.drawn h) wrote old

/-- With no read to land, none is watched. -/
theorem watchReads_nil {s : State} (ho : s.overlap = []) (ht : s.transit = .none) : watchReads s = s := by
  unfold watchReads watchedReads
  ext1 <;> simp [ho, ht]

theorem acceptCmd_nil {s : State} (ho : s.overlap = []) (ht : s.transit = .none) :
    acceptCmd s = { s with busy := true } := by
  unfold acceptCmd; rw [watchReads_nil ho ht]

/-- With no input left to land, a point lets the waiting writes go on. -/
theorem atPoint_tick {s : State} (h : s.overlap = []) (k : State → State) : atPoint k s = k (tickLate s) := by
  unfold atPoint
  rw [h]

/-- With nothing to land, a point does nothing. -/
theorem atPoint_nil {s : State} (h : s.overlap = []) (ht : s.transit = .none) (k : State → State) :
    atPoint k s = k s := by
  unfold atPoint
  split
  · rw [tickLate_none ht]
  · rename_i hc; rw [h] at hc; cases hc

/-- One input, the last to land, at a point. -/
theorem atPoint_one {s : State} {l : Landing} (h : s.overlap = [[l]]) (hl : s.transit.late = [])
    (hb : (busyInput l { s with overlap := [] }).busy = true) (k : State → State) :
    atPoint k s = k (busyInput l { s with overlap := [] }) := by
  unfold atPoint
  split
  · rename_i hc; rw [h] at hc; cases hc
  · rename_i now later hc
    rw [h] at hc
    obtain ⟨rfl, rfl⟩ := List.cons.inj hc
    rw [tickLate_nil hl]
    have he : busyInputs [l] { s with overlap := [] } = busyInput l { s with overlap := [] } := by
      unfold busyInputs
      rw [if_pos hb]
      rfl
    rw [he, if_pos hb]

/-- A point at which no input lands, though some will. -/
theorem atPoint_skip {s : State} {later : List (List Landing)} (h : s.overlap = [] :: later)
    (hl : s.transit.late = []) (hb : s.busy = true) (k : State → State) :
    atPoint k s = k { s with overlap := later } := by
  unfold atPoint
  split
  · rename_i hc; rw [h] at hc; cases hc
  · rename_i now later' hc
    rw [h] at hc
    obtain ⟨rfl, rfl⟩ := List.cons.inj hc
    rw [tickLate_nil hl]
    exact if_pos hb

/-- With nothing to land, a piece of a command is its effect. -/
theorem piece_nil {f : State → State} {wrote : State → Nat → Bool} {k : State → State} {s : State}
    (h : (f s).overlap = []) (ht : (f s).transit = .none) : piece f wrote k s = k (f s) := by
  unfold piece
  rw [noteGiven_none ht, atPoint_nil h ht]

/-- A point either hands a state that is still busy to the rest of the command, or ends it. -/
theorem atPoint_cases (k : State → State) (s : State) :
    (s.overlap = [] ∧ atPoint k s = k (tickLate s)) ∨
      ∃ now later, s.overlap = now :: later ∧
        ((busyInputs now { tickLate s with overlap := later }).busy = true ∧
            atPoint k s = k (busyInputs now { tickLate s with overlap := later }) ∨
          (busyInputs now { tickLate s with overlap := later }).busy = false ∧
            atPoint k s = busyInputs now { tickLate s with overlap := later }) := by
  unfold atPoint
  split
  · exact .inl ⟨‹_›, rfl⟩
  · rename_i now later h
    refine .inr ⟨now, later, h, ?_⟩
    split
    · exact .inl ⟨‹_›, rfl⟩
    · exact .inr ⟨eq_false_of_ne_true ‹_›, rfl⟩

/-! ### When a command has ended -/

/-! ### A RAM access during a command -/

/-- A host read of a RAM word that lands during a command (70_reset_and_hazards.md R432). -/
theorem busyInput_readRam {s : State} {addr off d : Nat} {r : Region} (h : locate s.build addr 32 = .ram r off) :
    busyInput { input := .access (.read addr 32), draw := d } s = drawRead off d (hostWord s off) s := by
  simp only [busyInput, commandWord, busyAccess, busyRead, h]

/-- A host write of a writable RAM word that lands during a command (70_reset_and_hazards.md R432). -/
theorem busyInput_writeRam {s : State} {addr off d : Nat} {r : Region} {v : Word}
    (h : locate s.build addr 32 = .ram r off) (hr : regionReadOnly r = false) :
    busyInput { input := .access (.write addr 32 v), draw := d } s =
      respond writeDone (lateWrite off v d s) := by
  simp [busyInput, commandWord, busyAccess, busyWrite, h, hr]

/-- The last response is the one a drawn read at its place resolves. -/
theorem resolveRead_last (rs : List Response) (r : Response) {d : DrawnRead} (h : d.index = rs.length) :
    resolveRead (rs ++ [r]) d = rs ++ [{ r with data := r.data.map (drawnWord d) }] := by
  unfold resolveRead
  rw [h]
  generalize drawnWord d = f
  clear h
  induction rs with
  | nil => rfl
  | cons a rest ih => simpa using ih

/-- With nothing in transit there is nothing to settle. -/
theorem settleTransit_none {s : State} (h : s.transit = .none) : settleTransit s = s := by
  unfold settleTransit
  ext1 <;> simp [h, Memory.setWords]

/-- With nothing in transit and no input left, the end of a command changes nothing. -/
theorem requeue_quiet {s : State} (ho : s.overlap = []) (h : s.transit = .none) : requeue s = s := by
  unfold requeue
  rw [settleTransit_none h]
  ext1 <;> simp [ho]

/-! ### The step -/

theorem submit_next (w : Word) (s : State) : ∃ t, submit w s = .next t := by
  unfold submit
  split
  · rcases exec_cases ‹Instr› s with ⟨e, _, h⟩ | ⟨_, h⟩ <;> exact ⟨_, h⟩
  · exact ⟨_, rfl⟩

theorem performInput_next (i : Input) (s : State) : ∃ t, performInput i s = .next t := by
  unfold performInput
  split
  · exact ⟨_, rfl⟩
  · exact ⟨_, rfl⟩
  · split
    · exact ⟨_, rfl⟩
    · split
      · exact submit_next _ _
      · exact ⟨_, rfl⟩

/-- What a step does: nothing on an empty port, else it performs the first arrival. -/
theorem step_cases (s : State) :
    (s.port = [] ∧ step s = .next { s with resp := [] }) ∨
      ∃ a rest t, s.port = a :: rest ∧ performInput a.input (takeArrival a rest s) = .next t ∧
        step s = .next (requeue t) := by
  unfold step serve
  cases h : s.port with
  | nil => exact .inl ⟨rfl, rfl⟩
  | cons a rest =>
    obtain ⟨t, ht⟩ := performInput_next a.input (takeArrival a rest s)
    exact .inr ⟨a, rest, t, rfl, ht, by dsimp only; rw [ht]; rfl⟩

end Sys2Proof.Machine
end

