-- ==== Sys2Proof/Laws/Encoding.lean ====
section
/-! SUPPORT. The fields of a command word as numbers, and what the decoder and the encoder give. -/

namespace Sys2Proof

theorem opcField_eq (w : Word) : opcField w = w.toNat / 2 ^ 24 := by
  have := w.isLt
  unfold opcField
  rw [BitVec.extractLsb'_toNat, Nat.shiftRight_eq_div_pow]
  omega

theorem argField_eq (w : Word) : argField w = w.toNat % 2 ^ 24 := by
  unfold argField
  rw [BitVec.extractLsb'_toNat, Nat.shiftRight_zero]

theorem argField_lt (w : Word) : argField w < 2 ^ 24 := by
  rw [argField_eq]; omega

/-- The two fields make the word. -/
theorem toNat_eq_fields (w : Word) : w.toNat = opcField w * 2 ^ 24 + argField w := by
  rw [opcField_eq, argField_eq]; omega

theorem opcode_le (i : Instr) : opcode i ≤ 6 := by cases i <;> simp [opcode]

theorem toNat_encode (i : Instr) : (encode i).toNat = opcode i * 2 ^ 24 + i.arg % 2 ^ 24 := by
  have h := opcode_le i
  unfold encode
  rw [BitVec.toNat_append, BitVec.toNat_ofNat, BitVec.toNat_ofNat,
    ← Nat.shiftLeft_add_eq_or_of_lt (Nat.mod_lt _ (by omega)), Nat.shiftLeft_eq]
  omega

theorem opcField_encode (i : Instr) : opcField (encode i) = opcode i := by
  have h := opcode_le i
  rw [opcField_eq, toNat_encode]; omega

theorem argField_encode {i : Instr} (h : i.wellFormed = true) : argField (encode i) = i.arg := by
  have h' : i.arg < 2 ^ 24 := of_decide_eq_true h
  rw [argField_eq, toNat_encode]; omega

end Sys2Proof
end

