-- ==== Sys2Proof/Laws/Store.lean ====
section
/-! SUPPORT. What storage holds after a write, and that every write keeps the canonical form. -/

namespace Sys2Proof.Machine

variable {α : Type}

/-! ### Cells -/

theorem cellsGet_cellsPut (a : Nat) (v : α) (l : List (Nat × α)) (b : Nat) :
    cellsGet (cellsPut a v l) b = if a = b then some v else cellsGet l b := by
  induction l with
  | nil => simp [cellsPut, cellsGet]
  | cons c rest ih =>
    obtain ⟨k, w⟩ := c
    unfold cellsPut
    split
    · simp [cellsGet]
    · split
      · subst_vars; simp only [cellsGet]; split <;> rfl
      · simp only [cellsGet, ih]
        by_cases hkb : k = b
        · subst hkb; simp_all
        · simp [hkb]

theorem cellsGet_cellsDrop (a : Nat) (l : List (Nat × α)) (b : Nat) :
    cellsGet (cellsDrop a l) b = if a = b then none else cellsGet l b := by
  induction l with
  | nil => simp [cellsDrop, cellsGet]
  | cons c rest ih =>
    obtain ⟨k, w⟩ := c
    unfold cellsDrop
    split
    · subst_vars
      rw [ih]
      by_cases hkb : k = b <;> simp [cellsGet, hkb]
    · simp only [cellsGet, ih]
      by_cases hkb : k = b
      · subst hkb; simp_all [eq_comm]
      · simp [hkb]

theorem mem_cellsDrop {a : Nat} {l : List (Nat × α)} {c : Nat × α} (h : c ∈ cellsDrop a l) : c ∈ l := by
  induction l with
  | nil => simp [cellsDrop] at h
  | cons d rest ih =>
    obtain ⟨k, w⟩ := d
    unfold cellsDrop at h
    split at h
    · exact List.mem_cons_of_mem _ (ih h)
    · rcases List.mem_cons.1 h with h | h
      · exact h ▸ List.mem_cons_self
      · exact List.mem_cons_of_mem _ (ih h)

theorem mem_cellsPut {a : Nat} {v : α} {l : List (Nat × α)} {c : Nat × α} (h : c ∈ cellsPut a v l) :
    c = (a, v) ∨ c ∈ l := by
  induction l with
  | nil => simpa [cellsPut] using h
  | cons d rest ih =>
    obtain ⟨k, w⟩ := d
    unfold cellsPut at h
    split at h
    · exact List.mem_cons.1 h
    · split at h
      · exact (List.mem_cons.1 h).imp_right (List.mem_cons_of_mem _)
      · rcases List.mem_cons.1 h with h | h
        · exact Or.inr (h ▸ List.mem_cons_self)
        · exact (ih h).imp_right (List.mem_cons_of_mem _)

/-- The keys strictly rise. -/
abbrev Rising (l : List (Nat × α)) : Prop := (l.map Prod.fst).Pairwise (· < ·)

theorem rising_cellsDrop {a : Nat} {l : List (Nat × α)} (h : Rising l) : Rising (cellsDrop a l) := by
  induction l with
  | nil => exact h
  | cons d rest ih =>
    obtain ⟨k, w⟩ := d
    obtain ⟨hd, ht⟩ := List.pairwise_cons.1 h
    unfold cellsDrop
    split
    · exact ih ht
    · refine List.pairwise_cons.2 ⟨fun x hx => hd x ?_, ih ht⟩
      obtain ⟨c, hc, rfl⟩ := List.mem_map.1 hx
      exact List.mem_map.2 ⟨c, mem_cellsDrop hc, rfl⟩

theorem rising_cellsPut {a : Nat} {v : α} {l : List (Nat × α)} (h : Rising l) :
    Rising (cellsPut a v l) := by
  induction l with
  | nil => simp [cellsPut, Rising]
  | cons d rest ih =>
    obtain ⟨k, w⟩ := d
    obtain ⟨hd, ht⟩ := List.pairwise_cons.1 h
    unfold cellsPut
    split
    · refine List.pairwise_cons.2 ⟨fun x hx => ?_, h⟩
      rcases List.mem_cons.1 hx with rfl | hx
      · assumption
      · exact lt_trans ‹a < k› (hd x hx)
    · split
      · subst_vars; exact List.pairwise_cons.2 ⟨hd, ht⟩
      · refine List.pairwise_cons.2 ⟨fun x hx => ?_, ih ht⟩
        obtain ⟨c, hc, rfl⟩ := List.mem_map.1 hx
        rcases mem_cellsPut hc with rfl | hc
        · have : k < a := by omega
          exact this
        · exact hd _ (List.mem_map.2 ⟨c, hc, rfl⟩)

/-! ### Storage -/

theorem Store.get?_unspecified (a : Nat) : (Store.unspecified : Store α).get? a = none := rfl

theorem Store.get?_filled (v : α) (a : Nat) : (Store.filled v).get? a = some v := rfl

variable [DecidableEq α]

@[simp] theorem Store.set_fill (st : Store α) (a : Nat) (v : α) : (st.set a v).fill = st.fill := rfl

/-- Read after write: the written element holds the value, every other one what it held. -/
theorem Store.get?_set (st : Store α) (a : Nat) (v : α) (b : Nat) :
    (st.set a v).get? b = if a = b then some v else st.get? b := by
  unfold Store.set Store.get?
  by_cases hf : st.fill = some v
  · simp only [hf, if_true, cellsGet_cellsDrop]
    by_cases hab : a = b <;> simp [hab]
  · simp only [hf, if_false, cellsGet_cellsPut]
    by_cases hab : a = b <;> simp [hab]

/-- A write keeps the canonical form. -/
theorem Store.wf_set {st : Store α} (h : st.wf) (a : Nat) (v : α) : (st.set a v).wf := by
  unfold Store.set
  by_cases hf : st.fill = some v
  · simp only [hf, if_true]
    exact ⟨rising_cellsDrop h.1, fun c hc => by rw [← hf]; exact h.2 c (mem_cellsDrop hc)⟩
  · simp only [hf, if_false]
    refine ⟨rising_cellsPut h.1, fun c hc => ?_⟩
    rcases mem_cellsPut hc with rfl | hc
    · exact hf
    · exact h.2 c hc

theorem Store.wf_unspecified : (Store.unspecified : Store α).wf := ⟨List.Pairwise.nil, by simp⟩

theorem Store.wf_filled (v : α) : (Store.filled v).wf := ⟨List.Pairwise.nil, by simp⟩

@[simp] theorem Store.setAll_nil (st : Store α) : st.setAll [] = st := rfl

theorem Store.setAll_cons (st : Store α) (kv : Nat × α) (kvs : List (Nat × α)) :
    st.setAll (kv :: kvs) = (st.set kv.1 kv.2).setAll kvs := rfl

/-- A run of writes keeps the canonical form. -/
theorem Store.wf_setAll {st : Store α} (h : st.wf) (kvs : List (Nat × α)) : (st.setAll kvs).wf := by
  induction kvs generalizing st with
  | nil => exact h
  | cons kv rest ih => exact ih (Store.wf_set h _ _)

/-- A run of writes leaves every other element alone. -/
theorem Store.get?_setAll_of_notMem {st : Store α} {kvs : List (Nat × α)} {b : Nat}
    (h : ∀ kv ∈ kvs, kv.1 ≠ b) : (st.setAll kvs).get? b = st.get? b := by
  induction kvs generalizing st with
  | nil => rfl
  | cons kv rest ih =>
    rw [Store.setAll_cons, ih fun x hx => h x (List.mem_cons_of_mem _ hx), Store.get?_set,
      if_neg (h kv List.mem_cons_self)]

/-- A run of writes to distinct elements leaves each with its value. -/
theorem Store.get?_setAll_of_mem {st : Store α} {kvs : List (Nat × α)} {kv : Nat × α}
    (hm : kv ∈ kvs) (hn : (kvs.map Prod.fst).Nodup) : (st.setAll kvs).get? kv.1 = some kv.2 := by
  induction kvs generalizing st with
  | nil => simp at hm
  | cons c rest ih =>
    rw [List.map_cons, List.nodup_cons] at hn
    rw [Store.setAll_cons]
    rcases List.mem_cons.1 hm with rfl | hm
    · rw [Store.get?_setAll_of_notMem, Store.get?_set, if_pos rfl]
      rintro x hx rfl'
      exact hn.1 (rfl' ▸ List.mem_map.2 ⟨x, hx, rfl⟩)
    · exact ih hm hn.2

/-! ### Loops over streams, channels and samples -/

theorem mem_pairs {a b : Nat} {p : Nat × Nat} : p ∈ pairs a b ↔ p.1 < a ∧ p.2 < b := by
  obtain ⟨x, y⟩ := p
  simp [pairs]

theorem nodup_pairs (a b : Nat) : (pairs a b).Nodup := by
  unfold pairs
  rw [List.nodup_flatMap]
  refine ⟨fun t _ => (List.nodup_range).map fun x y h => (Prod.mk.inj h).2, ?_⟩
  refine List.nodup_range.imp_of_mem fun {x y} _ _ hxy p hp hq => ?_
  simp only [List.mem_map] at hp hq
  obtain ⟨_, _, rfl⟩ := hp
  obtain ⟨_, _, h⟩ := hq
  exact hxy (Prod.mk.inj h).1.symm

theorem mem_sweep {a b n : Nat} {key : Nat → Nat → Nat → Nat} {val : Nat → Nat → Nat → Word}
    {kv : Nat × Word} :
    kv ∈ sweep a b n key val ↔ ∃ t c f, t < a ∧ c < b ∧ f < n ∧ kv = (key t c f, val t c f) := by
  simp only [sweep, List.mem_flatMap, List.mem_map, List.mem_range, mem_pairs, Prod.exists]
  constructor
  · rintro ⟨t, c, ⟨ht, hc⟩, f, hf, rfl⟩; exact ⟨t, c, f, ht, hc, hf, rfl⟩
  · rintro ⟨t, c, f, ht, hc, hf, rfl⟩; exact ⟨t, c, ⟨ht, hc⟩, f, hf, rfl⟩

/-- The keys of a loop are distinct when the key function separates its indices. -/
theorem nodup_sweep_keys {a b n : Nat} {key : Nat → Nat → Nat → Nat} {val : Nat → Nat → Nat → Word}
    (h : ∀ t c f t' c' f', t < a → c < b → f < n → t' < a → c' < b → f' < n →
      key t c f = key t' c' f' → t = t' ∧ c = c' ∧ f = f') :
    ((sweep a b n key val).map Prod.fst).Nodup := by
  unfold sweep
  rw [List.map_flatMap, List.nodup_flatMap]
  refine ⟨fun p hp => ?_, ?_⟩
  · have hp := mem_pairs.1 hp
    rw [List.map_map]
    refine (List.nodup_range).map_on fun x hx y hy hxy => ?_
    exact (h _ _ _ _ _ _ hp.1 hp.2 (List.mem_range.1 hx) hp.1 hp.2 (List.mem_range.1 hy) hxy).2.2
  · refine (nodup_pairs a b).imp_of_mem fun {p q} hp hq hpq x hx hy => ?_
    have hp := mem_pairs.1 hp
    have hq := mem_pairs.1 hq
    simp only [List.map_map, List.mem_map, List.mem_range, Function.comp] at hx hy
    obtain ⟨i, hi, rfl⟩ := hx
    obtain ⟨j, hj, hij⟩ := hy
    obtain ⟨h1, h2, _⟩ := h _ _ _ _ _ _ hq.1 hq.2 hj hp.1 hp.2 hi hij
    exact hpq (Prod.ext h1.symm h2.symm)

/-- What a loop of writes leaves at one of its elements. -/
theorem Store.get?_setAll_sweep {st : Store Word} {a b n : Nat} {key : Nat → Nat → Nat → Nat}
    {val : Nat → Nat → Nat → Word}
    (h : ∀ t c f t' c' f', t < a → c < b → f < n → t' < a → c' < b → f' < n →
      key t c f = key t' c' f' → t = t' ∧ c = c' ∧ f = f')
    {t c f : Nat} (ht : t < a) (hc : c < b) (hf : f < n) :
    (st.setAll (sweep a b n key val)).get? (key t c f) = some (val t c f) :=
  Store.get?_setAll_of_mem (kv := (key t c f, val t c f))
    (mem_sweep.2 ⟨t, c, f, ht, hc, hf, rfl⟩) (nodup_sweep_keys h)

/-! ### The linear keys separate their indices -/

/-- A row-major key with stride n. -/
theorem rowMajor_inj {n q q' i i' : Nat} (hi : i < n) (hi' : i' < n) (h : q * n + i = q' * n + i') :
    q = q' ∧ i = i' := by
  have hn : 0 < n := by omega
  have h1 : (q * n + i) / n = q := by
    rw [Nat.mul_comm, Nat.mul_add_div hn, Nat.div_eq_of_lt hi, Nat.add_zero]
  have h2 : (q' * n + i') / n = q' := by
    rw [Nat.mul_comm, Nat.mul_add_div hn, Nat.div_eq_of_lt hi', Nat.add_zero]
  have hq : q = q' := by rw [← h1, ← h2, h]
  subst hq
  exact ⟨rfl, by omega⟩

theorem channelKey_inj {n t c i t' c' i' : Nat} (hc : c < Config.chMax) (hc' : c' < Config.chMax)
    (hi : i < n) (hi' : i' < n)
    (h : (t * Config.chMax + c) * n + i = (t' * Config.chMax + c') * n + i') :
    t = t' ∧ c = c' ∧ i = i' := by
  obtain ⟨h1, h2⟩ := rowMajor_inj hi hi' h
  obtain ⟨h3, h4⟩ := rowMajor_inj hc hc' h1
  exact ⟨h3, h4, h2⟩

end Sys2Proof.Machine
end

