-- ==== Sys2Proof/Laws/Memory.lean ====
section
/-! SUPPORT. The host-visible RAM: where elements lie, what memory holds after a write, and that every
memory operation keeps the canonical form. -/

namespace Sys2Proof.Machine

/-! ### Regions -/

theorem regionOf_eq_some {off : Nat} {r : Region} :
    regionOf off = some r ↔ regionBase r ≤ off ∧ off < regionEnd r := by
  constructor
  · intro h
    have := List.find?_some h
    simpa using this
  · intro h
    obtain ⟨h1, h2⟩ := h
    have aux : ∀ {l : List Region}, (∀ x ∈ l, x ≠ r → ¬ (regionBase x ≤ off ∧ off < regionEnd x)) →
        r ∈ l → (l.find? fun x => decide (regionBase x ≤ off) && decide (off < regionEnd x)) = some r := by
      intro l
      induction l with
      | nil => intro _ h; simp at h
      | cons x l ih =>
        intro hl hr
        by_cases hx : x = r
        · subst hx; simp [h1, h2]
        · have hn := hl x List.mem_cons_self hx
          rw [List.find?_cons_of_neg (by simpa using hn)]
          exact ih (fun y hy => hl y (List.mem_cons_of_mem _ hy)) ((List.mem_cons.1 hr).resolve_left (Ne.symm hx))
    refine aux ?_ (by cases r <;> simp [allRegions])
    intro x _ hxr
    clear aux
    revert h1 h2
    cases r <;> cases x <;> first | exact absurd rfl hxr | (simp only [regionBase, regionEnd]; omega)

/-- The four byte lanes of an aligned word lie in one region. -/
theorem regionOf_lane {off i : Nat} {r : Region} (ha : off % 4 = 0) (hi : i < 4)
    (h : regionOf off = some r) : regionOf (off + i) = some r := by
  rw [regionOf_eq_some] at *
  cases r <;> simp [regionBase, regionEnd] at * <;> omega

/-! ### Replacing the RAM of a region -/

@[simp] theorem Memory.ram_setRam_same (m : Memory) (r : Region) (x : Ram) : (m.setRam r x).ram r = x := by
  cases r <;> rfl

theorem Memory.ram_setRam_ne (m : Memory) {r r' : Region} (x : Ram) (h : r ≠ r') :
    (m.setRam r x).ram r' = m.ram r' := by
  cases r <;> cases r' <;> first | rfl | exact absurd rfl h

theorem mem_allRegions (r : Region) : r ∈ allRegions := by cases r <;> simp [allRegions]

theorem Memory.wf_setRam {m : Memory} (h : m.wf) (r : Region) {x : Ram} (hx : x.wf)
    (hk : ∀ c ∈ x.cells, regionOf c.1 = some r) : (m.setRam r x).wf := by
  intro r' hr'
  by_cases hrr : r = r'
  · subst hrr
    rw [Memory.ram_setRam_same]
    exact ⟨hx, hk⟩
  · rw [Memory.ram_setRam_ne m x hrr]
    exact h r' hr'

/-! ### Canonical form -/

theorem Memory.wf_atReset : Memory.atReset.wf := by
  intro r _
  cases r <;> exact ⟨Store.wf_unspecified, by simp [Memory.ram, Memory.atReset]⟩

theorem Store.mem_set_cells {st : Store Byte} {a : Nat} {v : Byte} {c : Nat × Byte}
    (h : c ∈ (st.set a v).cells) : c = (a, v) ∨ c ∈ st.cells := by
  unfold Store.set at h
  split at h
  · exact Or.inr (mem_cellsDrop h)
  · exact mem_cellsPut h

theorem Memory.wf_setByte {m : Memory} (h : m.wf) (off : Nat) (b : Byte) : (m.setByte off b).wf := by
  unfold Memory.setByte
  split
  · rename_i r hr
    refine Memory.wf_setRam h r (Store.wf_set (h r (mem_allRegions r)).1 _ _) fun c hc => ?_
    rcases Store.mem_set_cells hc with rfl | hc
    · exact hr
    · exact (h r (mem_allRegions r)).2 c hc
  · exact h

theorem Memory.wf_setWord {m : Memory} (h : m.wf) (off : Nat) (w : Word) : (m.setWord off w).wf :=
  Memory.wf_setByte (Memory.wf_setByte (Memory.wf_setByte (Memory.wf_setByte h _ _) _ _) _ _) _ _

theorem Memory.wf_setWords {m : Memory} (h : m.wf) (kvs : List (Nat × Word)) : (m.setWords kvs).wf := by
  induction kvs generalizing m with
  | nil => exact h
  | cons kv rest ih => exact ih (Memory.wf_setWord h _ _)

theorem Memory.wf_zeroRegion {m : Memory} (h : m.wf) (r : Region) : (m.zeroRegion r).wf :=
  Memory.wf_setRam h r (Store.wf_filled _) (by simp)

/-! ### Bytes -/

theorem Memory.get?_setByte (m : Memory) {a : Nat} {r : Region} (ha : regionOf a = some r) (b : Byte)
    (o : Nat) : (m.setByte a b).get? o = if a = o then some b else m.get? o := by
  unfold Memory.setByte Memory.get?
  rw [ha]
  by_cases hao : a = o
  · subst hao; simp [ha, Store.get?_set]
  · simp only [hao, if_false]
    cases hro : regionOf o with
    | none => rfl
    | some r' =>
      by_cases hrr : r = r'
      · subst hrr; simp [Store.get?_set, hao]
      · simp [Memory.ram_setRam_ne m _ hrr]

theorem Memory.get?_setByte_ne (m : Memory) {a o : Nat} (h : a ≠ o) (b : Byte) :
    (m.setByte a b).get? o = m.get? o := by
  cases ha : regionOf a with
  | none => simp [Memory.setByte, ha]
  | some r => rw [Memory.get?_setByte m ha, if_neg h]

/-- A word write leaves every byte outside the word alone. -/
theorem Memory.get?_setWord_outside (m : Memory) {a o : Nat} (h : o < a ∨ a + 4 ≤ o) (w : Word) :
    (m.setWord a w).get? o = m.get? o := by
  unfold Memory.setWord
  rw [Memory.get?_setByte_ne _ (by omega), Memory.get?_setByte_ne _ (by omega),
    Memory.get?_setByte_ne _ (by omega), Memory.get?_setByte_ne _ (by omega)]

/-- A word write leaves its byte lanes. -/
theorem Memory.get?_setWord_lane (m : Memory) {a i : Nat} {r : Region} (ha : a % 4 = 0)
    (hr : regionOf a = some r) (hi : i < 4) (w : Word) :
    (m.setWord a w).get? (a + i) = some (byteLane w i) := by
  have h1 := regionOf_lane ha (show 1 < 4 by omega) hr
  have h2 := regionOf_lane ha (show 2 < 4 by omega) hr
  have h3 := regionOf_lane ha (show 3 < 4 by omega) hr
  unfold Memory.setWord
  rw [Memory.get?_setByte _ h3, Memory.get?_setByte _ h2, Memory.get?_setByte _ h1,
    Memory.get?_setByte _ hr]
  have : i = 0 ∨ i = 1 ∨ i = 2 ∨ i = 3 := by omega
  rcases this with rfl | rfl | rfl | rfl <;> simp

@[simp] theorem Memory.setWords_nil (m : Memory) : m.setWords [] = m := rfl

theorem Memory.setWords_cons (m : Memory) (kv : Nat × Word) (kvs : List (Nat × Word)) :
    m.setWords (kv :: kvs) = (m.setWord kv.1 kv.2).setWords kvs := rfl

/-- A run of word writes leaves every byte outside the words alone. -/
theorem Memory.get?_setWords_outside {m : Memory} {kvs : List (Nat × Word)} {o : Nat}
    (h : ∀ kv ∈ kvs, o < kv.1 ∨ kv.1 + 4 ≤ o) : (m.setWords kvs).get? o = m.get? o := by
  induction kvs generalizing m with
  | nil => rfl
  | cons kv rest ih =>
    rw [Memory.setWords_cons, ih fun x hx => h x (List.mem_cons_of_mem _ hx),
      Memory.get?_setWord_outside _ (h kv List.mem_cons_self)]

/-- A run of writes of distinct aligned words leaves each with its byte lanes. -/
theorem Memory.get?_setWords_lane {m : Memory} {kvs : List (Nat × Word)} {kv : Nat × Word}
    (hm : kv ∈ kvs) (hn : (kvs.map Prod.fst).Nodup) (ha : ∀ kv ∈ kvs, kv.1 % 4 = 0)
    {r : Region} (hr : regionOf kv.1 = some r) {i : Nat} (hi : i < 4) :
    (m.setWords kvs).get? (kv.1 + i) = some (byteLane kv.2 i) := by
  induction kvs generalizing m with
  | nil => simp at hm
  | cons c rest ih =>
    rw [List.map_cons, List.nodup_cons] at hn
    rw [Memory.setWords_cons]
    rcases List.mem_cons.1 hm with rfl | hm
    · rw [Memory.get?_setWords_outside, Memory.get?_setWord_lane _ (ha _ List.mem_cons_self) hr hi]
      intro x hx
      have hne : x.1 ≠ kv.1 := fun he => hn.1 (he ▸ List.mem_map.2 ⟨x, hx, rfl⟩)
      have h1 := ha x (List.mem_cons_of_mem _ hx)
      have h2 := ha kv List.mem_cons_self
      omega
    · exact ih hm hn.2 fun x hx => ha x (List.mem_cons_of_mem _ hx)

/-- A whole zeroed region holds zero bytes; the others keep theirs. -/
theorem Memory.get?_zeroRegion (m : Memory) (r : Region) (o : Nat) :
    (m.zeroRegion r).get? o = if regionOf o = some r then some 0#8 else m.get? o := by
  unfold Memory.zeroRegion Memory.get?
  cases hro : regionOf o with
  | none => simp
  | some r' =>
    by_cases hrr : r = r'
    · subst hrr; simp [Store.get?]; rfl
    · simp [Memory.ram_setRam_ne m _ hrr, Ne.symm hrr]

/-! ### Words -/

/-- The lanes of a word make the word. -/
@[simp] theorem wordOfLanes_byteLane (w : Word) :
    wordOfLanes (byteLane w 0) (byteLane w 1) (byteLane w 2) (byteLane w 3) = w := by
  unfold wordOfLanes byteLane
  ext i hi
  simp only [BitVec.getElem_append, BitVec.getElem_extractLsb']
  simp only [← BitVec.getLsbD_eq_getElem]
  split
  · simp
  · split
    · congr 1; omega
    · split
      · congr 1; omega
      · congr 1; omega

/-- The byte a state reads depends on its memory and its epoch alone. -/
theorem State.byteAt_congr {s t : State} {o : Nat} (hm : t.mem.get? o = s.mem.get? o)
    (he : t.epoch = s.epoch) : t.byteAt o = s.byteAt o := by
  unfold State.byteAt
  rw [hm, he]

/-- The word a state reads where its memory holds the four lanes of w. -/
theorem State.wordAt_of_lanes {s : State} {o : Nat} {w : Word}
    (h : ∀ i, i < 4 → s.mem.get? (o + i) = some (byteLane w i)) : s.wordAt o = w := by
  have h0 := h 0 (by omega)
  unfold State.wordAt State.byteAt
  rw [Nat.add_zero] at h0
  rw [h0, h 1 (by omega), h 2 (by omega), h 3 (by omega)]
  simp

theorem State.wordAt_congr {s t : State} {o : Nat}
    (h : ∀ i, i < 4 → t.byteAt (o + i) = s.byteAt (o + i)) : t.wordAt o = s.wordAt o := by
  have h0 := h 0 (by omega)
  rw [Nat.add_zero] at h0
  unfold State.wordAt
  rw [h0, h 1 (by omega), h 2 (by omega), h 3 (by omega)]

/-! ### Where elements lie (20_memory.md R121 to R125) -/

theorem tableOff_mod (r : Region) (n : Nat) : tableOff r n % 4 = 0 := by
  unfold tableOff; cases r <;> simp only [regionBase] <;> omega

theorem stageOff_mod (b : Build) (r : Region) (t c f : Nat) : stageOff b r t c f % 4 = 0 := by
  unfold stageOff; cases r <;> simp only [regionBase] <;> omega

theorem specOff_mod (b : Build) (r : Region) (t c k : Nat) : specOff b r t c k % 8 = 0 := by
  unfold specOff; cases r <;> simp only [regionBase] <;> omega

theorem nMax_le {b : Build} (h : b.Valid) : b.nMax ≤ 2 ^ 20 := by
  obtain ⟨k, hk, e⟩ := h.nMax_pow
  rw [e]
  exact Nat.pow_le_pow_right (by omega) (by omega)

/-- A table region: every region but the staging and spectrum RAMs. -/
abbrev isTable (r : Region) : Prop :=
  r ≠ .stageIn ∧ r ≠ .stageOut ∧ r ≠ .specIn ∧ r ≠ .specOut

/-- Table entries lie in their region. -/
theorem regionOf_tableOff {b : Build} (hb : b.Valid) {r : Region} (hr : isTable r) {n : Nat}
    (hn : n < b.nMax) : regionOf (tableOff r n) = some r := by
  have := nMax_le hb
  rw [regionOf_eq_some, tableOff]
  cases r <;> simp [regionBase, regionEnd] at * <;> omega

/-- Three indices below their bounds give a linear index below the product. -/
theorem linear_lt {a t c n f : Nat} (ht : t < a) (hc : c < 255) (hf : f < n) :
    (t * 255 + c) * n + f < a * 255 * n := by
  have h1 : t * 255 + c + 1 ≤ a * 255 := by omega
  calc (t * 255 + c) * n + f < (t * 255 + c) * n + n := by omega
    _ = (t * 255 + c + 1) * n := by ring
    _ ≤ a * 255 * n := Nat.mul_le_mul_right n h1

theorem regionOf_stageIn {b : Build} (hb : b.Valid) {t c f : Nat} (ht : t < b.inMax)
    (hc : c < 255) (hf : f < b.stageFrames) : regionOf (stageOff b .stageIn t c f) = some .stageIn := by
  have h := linear_lt ht hc hf
  have h2 : b.inMax * 255 * b.stageFrames ≤ 2 ^ 23 := hb.stageIn_fits
  rw [regionOf_eq_some, stageOff, Config.chMax]
  simp only [regionBase, regionEnd]
  omega

theorem regionOf_stageOut {b : Build} (hb : b.Valid) {t c f : Nat} (ht : t < b.outMax)
    (hc : c < 255) (hf : f < b.stageFrames) :
    regionOf (stageOff b .stageOut t c f) = some .stageOut := by
  have h := linear_lt ht hc hf
  have h2 : b.outMax * 255 * b.stageFrames ≤ 2 ^ 23 := hb.stageOut_fits
  rw [regionOf_eq_some, stageOff, Config.chMax]
  simp only [regionBase, regionEnd]
  omega

theorem spec_bound {n a : Nat} (h : a * 255 * (n + 2) ≤ 2 ^ 22) : 2 * (a * 255 * (n / 2 + 1)) ≤ 2 ^ 22 := by
  have : 2 * (a * 255 * (n / 2 + 1)) = a * 255 * (2 * (n / 2 + 1)) := by ring
  rw [this]
  exact le_trans (Nat.mul_le_mul_left _ (by omega)) h

theorem regionOf_specIn {b : Build} (hb : b.Valid) {t c k : Nat} (ht : t < b.inMax)
    (hc : c < 255) (hk : k < b.nMax / 2 + 1) : regionOf (specOff b .specIn t c k) = some .specIn := by
  have h := linear_lt ht hc hk
  have h2 := spec_bound hb.specIn_fits
  rw [regionOf_eq_some, specOff, Config.chMax]
  simp only [regionBase, regionEnd]
  omega

theorem regionOf_specOut {b : Build} (hb : b.Valid) {t c k : Nat} (ht : t < b.outMax)
    (hc : c < 255) (hk : k < b.nMax / 2 + 1) : regionOf (specOff b .specOut t c k) = some .specOut := by
  have h := linear_lt ht hc hk
  have h2 := spec_bound hb.specOut_fits
  rw [regionOf_eq_some, specOff, Config.chMax]
  simp only [regionBase, regionEnd]
  omega

/-- Staging elements have addresses of their own. -/
theorem stageOff_inj {b : Build} {r : Region} {t c f t' c' f' : Nat} (hc : c < 255) (hc' : c' < 255)
    (hf : f < b.stageFrames) (hf' : f' < b.stageFrames)
    (h : stageOff b r t c f = stageOff b r t' c' f') : t = t' ∧ c = c' ∧ f = f' := by
  unfold stageOff at h
  exact channelKey_inj hc hc' hf hf' (by omega)

/-- Spectrum elements have addresses of their own. -/
theorem specOff_inj {b : Build} {r : Region} {t c k t' c' k' : Nat} (hc : c < 255) (hc' : c' < 255)
    (hk : k < b.nMax / 2 + 1) (hk' : k' < b.nMax / 2 + 1)
    (h : specOff b r t c k = specOff b r t' c' k') : t = t' ∧ c = c' ∧ k = k' := by
  unfold specOff at h
  exact channelKey_inj hc hc' hk hk' (by omega)

end Sys2Proof.Machine
end

