-- ==== Sys2Proof/Laws/Rings.lean ====
section
/-! SUPPORT. The sizes of an active configuration, and what the rings and the frame buffers hold after each
of their operations. -/

namespace Sys2Proof.Machine

/-! ### Sizes -/

theorem State.C_le (s : State) : s.C ≤ 255 := by
  have := s.act.channels.isLt
  unfold State.C; omega

/-- A supported size is a power of two between 2 and N_MAX. -/
theorem supports_cases {b : Build} (hb : b.Valid) {N : Nat} (h : b.supports N = true) :
    (∃ k, 1 ≤ k ∧ k < 32 ∧ N = 2 ^ k) ∧ 2 ≤ N ∧ N ≤ b.nMax := by
  unfold Build.supports at h
  rw [List.any_eq_true] at h
  obtain ⟨k, hk, h⟩ := h
  simp only [List.mem_range, Bool.and_eq_true, decide_eq_true_eq] at hk h
  obtain ⟨⟨h1, h2⟩, rfl⟩ := h
  refine ⟨⟨k, h1, hk, rfl⟩, ?_, (hb.fftSizes_ok k hk h2).2⟩
  calc 2 = 2 ^ 1 := rfl
    _ ≤ 2 ^ k := Nat.pow_le_pow_right (by omega) h1

/-- The bounds every size of an active configuration meets. -/
structure Bounds (s : State) : Prop where
  N_ge : 2 ≤ s.N
  N_le : s.N ≤ s.build.nMax
  nMax_le : s.build.nMax ≤ 2 ^ 20
  hop_pos : 1 ≤ s.hop
  hop_le : s.hop ≤ s.N
  B_lt : s.B < 2 ^ 24
  C_le : s.C ≤ 255
  K_le : s.K ≤ s.build.nMax / 2 + 1
  Cin_ge : s.N + 1 ≤ s.Cin
  Cin_le : s.Cin ≤ s.build.inCapMax
  Cout_ge : 2 * s.hop ≤ s.Cout
  Cout_le : s.Cout ≤ s.build.outCapMax

theorem ActiveOk.bounds {s : State} (hb : s.build.Valid) (h : ActiveOk s) : Bounds s := by
  obtain ⟨_, hN2, hN⟩ := supports_cases hb h.fft_supported
  have hn := nMax_le hb
  have h1 := h.overlap_lt
  have h2 := h.hop_eq
  have h3 := h.block_ok
  have h4 := hb.bMax_ok
  have h5 := h.inCap_eq
  have h6 := h.outCap_eq
  refine ⟨hN2, hN, hn, by omega, by omega, by omega, s.C_le, ?_, by omega, ?_, by omega, ?_⟩
  · rw [h.bins_eq]; omega
  · unfold Build.inCapMax; omega
  · unfold Build.outCapMax; omega

/-! ### Ring positions -/

/-- Fewer samples than the capacity go to positions of their own. -/
theorem ring_pos_inj {a cap f f' : Nat} (hf : f < cap) (hf' : f' < cap)
    (h : (a + f) % cap = (a + f') % cap) : f = f' := by
  have h' : f ≡ f' [MOD cap] := Nat.ModEq.add_left_cancel' a h
  exact Nat.ModEq.eq_of_lt_of_lt h' hf hf'

theorem ring_pos_lt {cap : Nat} (h : 0 < cap) (a f : Nat) : (a + f) % cap < cap := Nat.mod_lt _ h

/-! ### Storage words -/

theorem State.cell_of_get {s : State} {id : StoreId} {st : Store Word} {key : Nat} {v : Word}
    (h : st.get? key = some v) : s.cell id st key = v := by
  unfold State.cell; rw [h]; rfl

theorem State.cell_congr {s t : State} {id : StoreId} {st st' : Store Word} {key : Nat}
    (h : st'.get? key = st.get? key) (he : t.epoch = s.epoch) : t.cell id st' key = s.cell id st key := by
  unfold State.cell; rw [h, he]

/-- What a loop of writes over a block array leaves at an element of the loop. -/
theorem blockSweep_get {b : Build} {st : Store Word} {a m n : Nat} {val : Nat → Nat → Nat → Word}
    (hm : m ≤ 255) (hn : n ≤ b.nMax) {t c i : Nat} (ht : t < a) (hc : c < m) (hi : i < n) :
    (st.setAll (sweep a m n (blockKey b) val)).get? (blockKey b t c i) = some (val t c i) :=
  Store.get?_setAll_sweep (fun _ _ _ _ _ _ _ h1 h2 _ h4 h5 h6 =>
    channelKey_inj (lt_of_lt_of_le h1 hm) (lt_of_lt_of_le h4 hm) (lt_of_lt_of_le h2 hn)
      (lt_of_lt_of_le h5 hn) h6) ht hc hi

/-! ### Output rings -/

/-- RB_WRITE leaves the samples at their positions. -/
theorem rbWrite_ringOutAt {s : State} {src : Nat → Nat → Nat → F32} {n : Nat} (hn : n ≤ s.Cout)
    (hcap : s.Cout ≤ s.build.outCapMax) {j c f : Nat} (hj : j < s.J) (hc : c < s.C) (hf : f < n) :
    (rbWrite src n s).ringOutAt j c ((s.outIx.wr + f) % s.Cout) = src j c f := by
  have hC := s.C_le
  refine State.cell_of_get (Store.get?_setAll_sweep
    (key := fun j c f => ringOutKey s.build j c ((s.outIx.wr + f) % s.Cout)) ?_ hj hc hf)
  intro t c f t' c' f' _ h1 h2 _ h4 h5 h6
  have hp : 0 < s.Cout := by omega
  obtain ⟨e1, e2, e3⟩ := channelKey_inj (show c < 255 by omega) (show c' < 255 by omega)
    (lt_of_lt_of_le (ring_pos_lt hp _ _) hcap) (lt_of_lt_of_le (ring_pos_lt hp _ _) hcap) h6
  exact ⟨e1, e2, ring_pos_inj (by omega) (by omega) e3⟩

/-- RB_WRITE leaves every other position of the active rings alone. -/
theorem rbWrite_ringOutAt_other {s : State} {src : Nat → Nat → Nat → F32} {n : Nat}
    (hcap : s.Cout ≤ s.build.outCapMax) {j c i : Nat} (hc : c < s.C) (hi : i < s.Cout)
    (h : ∀ f, f < n → i ≠ (s.outIx.wr + f) % s.Cout) :
    (rbWrite src n s).ringOutAt j c i = s.ringOutAt j c i := by
  have hC := s.C_le
  refine State.cell_congr (Store.get?_setAll_of_notMem ?_) rfl
  intro kv hkv he
  obtain ⟨t, c', f, _, hc', hf, rfl⟩ := mem_sweep.1 hkv
  obtain ⟨_, _, e⟩ := channelKey_inj (show c' < 255 by omega) (show c < 255 by omega)
    (lt_of_lt_of_le (ring_pos_lt (by omega) _ _) hcap) (lt_of_lt_of_le hi hcap) he
  exact h f hf e.symm

/-! ### Input rings -/

/-- ORB_WRITE leaves the samples at their positions. -/
theorem orbWrite_ringInAt {s : State} {src : Nat → Nat → Nat → F32} {n : Nat} (hn : n ≤ s.Cin)
    (hcap : s.Cin ≤ s.build.inCapMax) {u c f : Nat} (hu : u < s.I) (hc : c < s.C) (hf : f < n) :
    (orbWrite src n s).ringInAt u c ((s.inIx.wr + f) % s.Cin) = src u c f := by
  have hC := s.C_le
  refine State.cell_of_get (Store.get?_setAll_sweep
    (key := fun t c f => ringInKey s.build t c ((s.inIx.wr + f) % s.Cin)) ?_ hu hc hf)
  intro t c f t' c' f' _ h1 h2 _ h4 h5 h6
  have hp : 0 < s.Cin := by omega
  obtain ⟨e1, e2, e3⟩ := channelKey_inj (show c < 255 by omega) (show c' < 255 by omega)
    (lt_of_lt_of_le (ring_pos_lt hp _ _) hcap) (lt_of_lt_of_le (ring_pos_lt hp _ _) hcap) h6
  exact ⟨e1, e2, ring_pos_inj (by omega) (by omega) e3⟩

/-- ORB_WRITE leaves every other position of the active rings alone. -/
theorem orbWrite_ringInAt_other {s : State} {src : Nat → Nat → Nat → F32} {n : Nat}
    (hcap : s.Cin ≤ s.build.inCapMax) {u c i : Nat} (hc : c < s.C) (hi : i < s.Cin)
    (h : ∀ f, f < n → i ≠ (s.inIx.wr + f) % s.Cin) :
    (orbWrite src n s).ringInAt u c i = s.ringInAt u c i := by
  have hC := s.C_le
  refine State.cell_congr (Store.get?_setAll_of_notMem ?_) rfl
  intro kv hkv he
  obtain ⟨t, c', f, _, hc', hf, rfl⟩ := mem_sweep.1 hkv
  obtain ⟨_, _, e⟩ := channelKey_inj (show c' < 255 by omega) (show c < 255 by omega)
    (lt_of_lt_of_le (ring_pos_lt (by omega) _ _) hcap) (lt_of_lt_of_le hi hcap) he
  exact h f hf e.symm

/-- ORB_READ leaves the window in the time blocks. -/
theorem orbRead_tbAt {s : State} (hN : s.N ≤ s.build.nMax) {u c i : Nat} (hu : u < s.I) (hc : c < s.C)
    (hi : i < s.N) : (orbRead s).tbAt u c i = orbSample s u c i :=
  State.cell_of_get (blockSweep_get s.C_le hN hu hc hi)

/-- The padding leaves zeros at the padded positions. -/
theorem orbPad_ringInAt {s : State} (hN : s.N ≤ s.build.inCapMax) {u c f : Nat} (hu : u < s.I)
    (hc : c < s.C) (hf : f < s.N - s.B) : (orbPad s).ringInAt u c f = 0#32 := by
  have hC := s.C_le
  refine State.cell_of_get (Store.get?_setAll_sweep (key := ringInKey s.build) ?_ hu hc hf)
  intro t c f t' c' f' _ h1 h2 _ h4 h5 h6
  unfold padding at h2 h5
  exact channelKey_inj (show c < 255 by omega) (show c' < 255 by omega)
    (show f < s.build.inCapMax by omega) (show f' < s.build.inCapMax by omega) h6

/-- ORB_CLEAR_AND_PAD leaves zeros at the padded positions. -/
theorem orbClearAndPad_ringInAt {s : State} (hN : s.N ≤ s.build.inCapMax) {u c f : Nat} (hu : u < s.I)
    (hc : c < s.C) (hf : f < s.N - s.B) : (orbClearAndPad s).ringInAt u c f = 0#32 :=
  orbPad_ringInAt (s := orbClear s) hN hu hc hf

/-! ### Index triples -/

/-- The cleared index triple. -/
theorem ringOk_zero {cap : Nat} (h : 0 < cap) : RingOk RingIx.zero cap :=
  ⟨h, h, Nat.zero_le _, (Nat.zero_mod cap).symm⟩

/-- An append of n samples that fit. -/
theorem RingOk.append {ix : RingIx} {cap : Nat} (h : RingOk ix cap) {n : Nat}
    (hn : ix.avail + n ≤ cap) :
    RingOk { ix with wr := (ix.wr + n) % cap, avail := ix.avail + n } cap := by
  have hp : 0 < cap := lt_of_le_of_lt (Nat.zero_le _) h.rd_lt
  refine ⟨h.rd_lt, Nat.mod_lt _ hp, hn, ?_⟩
  dsimp only
  rw [h.wr_eq, Nat.mod_add_mod, Nat.add_assoc]

/-- A removal of n samples that are held. -/
theorem RingOk.remove {ix : RingIx} {cap : Nat} (h : RingOk ix cap) {n : Nat} (hn : n ≤ ix.avail) :
    RingOk { ix with rd := (ix.rd + n) % cap, avail := ix.avail - n } cap := by
  have hp : 0 < cap := lt_of_le_of_lt (Nat.zero_le _) h.rd_lt
  refine ⟨Nat.mod_lt _ hp, h.wr_lt, le_trans (Nat.sub_le _ _) h.avail_le, ?_⟩
  dsimp only
  rw [h.wr_eq, Nat.mod_add_mod]
  congr 1
  omega

end Sys2Proof.Machine
end

