-- ==== Sys2Proof/Laws/Tables.lean ====
section
/-! SUPPORT. What the RAM regions hold after each operation that writes them. -/

namespace Sys2Proof.Machine

/-! ### Runs of word writes -/

/-- The word a state reads where a run of writes of distinct aligned words stored it. -/
theorem wordAt_setWords {t : State} {kvs : List (Nat × Word)} {m : Memory} {kv : Nat × Word}
    (ht : t.mem = m.setWords kvs) (hm : kv ∈ kvs) (hn : (kvs.map Prod.fst).Nodup)
    (ha : ∀ kv ∈ kvs, kv.1 % 4 = 0) {r : Region} (hr : regionOf kv.1 = some r) :
    t.wordAt kv.1 = kv.2 :=
  State.wordAt_of_lanes fun i hi => by rw [ht]; exact Memory.get?_setWords_lane hm hn ha hr hi

/-- Words are read alike where no byte differs. -/
theorem c32At_congr {s t : State} {o : Nat}
    (h : ∀ i, i < 8 → t.byteAt (o + i) = s.byteAt (o + i)) : t.c32At o = s.c32At o := by
  have h1 : t.wordAt o = s.wordAt o := State.wordAt_congr fun i hi => h i (by omega)
  have h2 : t.wordAt (o + 4) = s.wordAt (o + 4) :=
    State.wordAt_congr fun i hi => by rw [Nat.add_assoc]; exact h (4 + i) (by omega)
  unfold State.c32At
  rw [h1, h2]

/-- A word none of whose bytes lies in a region is read alike when only that region changes. -/
theorem wordAt_of_outside {s t : State} {o : Nat} {r r' : Region} (ho : o % 4 = 0)
    (hr : regionOf o = some r) (hne : r ≠ r')
    (h : ∀ off, regionOf off ≠ some r' → t.byteAt off = s.byteAt off) : t.wordAt o = s.wordAt o :=
  State.wordAt_congr fun i hi => h _ (by
    rw [regionOf_lane ho hi hr]; exact fun e => hne (Option.some.inj e))

/-! ### Tables -/

theorem tableOff_inj {r : Region} {n n' : Nat} (h : tableOff r n = tableOff r n') : n = n' := by
  unfold tableOff at h; omega

/-- A table write leaves every byte of the other regions alone. -/
theorem writeTable_byteAt {r : Region} {len : Nat} {val : Nat → F32} {s : State} (hb : s.build.Valid)
    (hr : isTable r) (hlen : len ≤ s.build.nMax) {off : Nat} (ho : regionOf off ≠ some r) :
    (writeTable r len val s).byteAt off = s.byteAt off := by
  refine State.byteAt_congr ?_ rfl
  show (Memory.setWords _ _).get? off = _
  rw [Memory.get?_setWords_outside, Memory.get?_zeroRegion, if_neg ho]
  intro kv hkv
  obtain ⟨n, hn, rfl⟩ := List.mem_map.1 hkv
  by_contra hc
  refine ho ?_
  have hm := tableOff_mod r n
  have h1 := regionOf_tableOff hb hr (lt_of_lt_of_le (List.mem_range.1 hn) hlen)
  have h2 := regionOf_lane (i := off - tableOff r n) hm (by dsimp only at hc; omega) h1
  rwa [show tableOff r n + (off - tableOff r n) = off by dsimp only at hc; omega] at h2

/-- A table write leaves the entries below len. -/
theorem writeTable_wordAt {r : Region} {len : Nat} {val : Nat → F32} {s : State} (hb : s.build.Valid)
    (hr : isTable r) (hlen : len ≤ s.build.nMax) {n : Nat} (hn : n < len) :
    (writeTable r len val s).wordAt (tableOff r n) = val n := by
  refine wordAt_setWords (kv := (tableOff r n, val n)) rfl
    (List.mem_map.2 ⟨n, List.mem_range.2 hn, rfl⟩) ?_ ?_
    (regionOf_tableOff hb hr (lt_of_lt_of_le hn hlen))
  · rw [List.map_map]
    exact List.nodup_range.map fun x y h => tableOff_inj h
  · intro kv hkv
    obtain ⟨n, _, rfl⟩ := List.mem_map.1 hkv
    exact tableOff_mod r n

/-- A table write leaves `+0.0` in the entries from len. -/
theorem writeTable_wordAt_rest {r : Region} {len : Nat} {val : Nat → F32} {s : State}
    (hb : s.build.Valid) (hr : isTable r) {n : Nat} (hn : len ≤ n) (hn' : n < s.build.nMax) :
    (writeTable r len val s).wordAt (tableOff r n) = 0#32 := by
  have hz : ∀ i, i < 4 → (writeTable r len val s).mem.get? (tableOff r n + i) = some 0#8 := by
    intro i hi
    show (Memory.setWords _ _).get? _ = _
    rw [Memory.get?_setWords_outside, Memory.get?_zeroRegion,
      if_pos (regionOf_lane (tableOff_mod r n) hi (regionOf_tableOff hb hr hn'))]
    intro kv hkv
    obtain ⟨m, hm, rfl⟩ := List.mem_map.1 hkv
    have := List.mem_range.1 hm
    dsimp only [tableOff]
    omega
  refine State.wordAt_of_lanes fun i hi => ?_
  rw [hz i hi]
  have : i = 0 ∨ i = 1 ∨ i = 2 ∨ i = 3 := by omega
  rcases this with rfl | rfl | rfl | rfl <;> rfl

/-! ### Spectra -/

theorem mem_specSweep {bd : Build} {r : Region} {a b n : Nat} {bin : Nat → Nat → Nat → C32}
    {kv : Nat × Word} :
    kv ∈ specSweep bd r a b n bin ↔ ∃ t c k, t < a ∧ c < b ∧ k < n ∧
      (kv = (specOff bd r t c k, (bin t c k).re) ∨ kv = (specOff bd r t c k + 4, (bin t c k).im)) := by
  simp only [specSweep, List.mem_flatMap, List.mem_range, mem_pairs, Prod.exists, List.mem_cons,
    List.not_mem_nil, or_false]
  constructor
  · rintro ⟨t, c, ⟨ht, hc⟩, k, hk, h⟩; exact ⟨t, c, k, ht, hc, hk, h⟩
  · rintro ⟨t, c, k, ht, hc, hk, h⟩; exact ⟨t, c, ⟨ht, hc⟩, k, hk, h⟩

theorem specSweep_aligned {bd : Build} {r : Region} {a b n : Nat} {bin : Nat → Nat → Nat → C32} :
    ∀ kv ∈ specSweep bd r a b n bin, kv.1 % 4 = 0 := by
  intro kv hkv
  obtain ⟨t, c, k, _, _, _, h⟩ := mem_specSweep.1 hkv
  have := specOff_mod bd r t c k
  rcases h with rfl | rfl <;> dsimp only <;> omega

theorem nodup_specSweep_keys {bd : Build} {r : Region} {a b n : Nat} {bin : Nat → Nat → Nat → C32}
    (hb : b ≤ 255) (hn : n ≤ bd.nMax / 2 + 1) :
    ((specSweep bd r a b n bin).map Prod.fst).Nodup := by
  unfold specSweep
  rw [List.map_flatMap, List.nodup_flatMap]
  constructor
  · intro p hp
    have hp := mem_pairs.1 hp
    rw [List.map_flatMap, List.nodup_flatMap]
    refine ⟨fun k _ => by simp, List.nodup_range.imp_of_mem fun {x y} hx hy hxy => ?_⟩
    intro o ho ho'
    have h1 := specOff_mod bd r p.1 p.2 x
    have h2 := specOff_mod bd r p.1 p.2 y
    refine hxy (specOff_inj (b := bd) (r := r) (t := p.1) (c := p.2) (t' := p.1) (c' := p.2)
      (show p.2 < 255 by omega) (show p.2 < 255 by omega)
      (lt_of_lt_of_le (List.mem_range.1 hx) hn) (lt_of_lt_of_le (List.mem_range.1 hy) hn) ?_).2.2
    simp at ho ho'
    omega
  · refine (nodup_pairs a b).imp_of_mem fun {p q} hp hq hpq o ho ho' => ?_
    have hp := mem_pairs.1 hp
    have hq := mem_pairs.1 hq
    simp only [List.map_flatMap, List.mem_flatMap, List.mem_range, List.map_cons, List.map_nil,
      List.mem_cons, List.not_mem_nil, or_false] at ho ho'
    obtain ⟨x, hx, ho⟩ := ho
    obtain ⟨y, hy, ho'⟩ := ho'
    have h1 := specOff_mod bd r p.1 p.2 x
    have h2 := specOff_mod bd r q.1 q.2 y
    obtain ⟨e1, e2, _⟩ := specOff_inj (b := bd) (r := r) (t := p.1) (c := p.2) (k := x) (t' := q.1)
      (c' := q.2) (k' := y) (show p.2 < 255 by omega) (show q.2 < 255 by omega)
      (lt_of_lt_of_le hx hn) (lt_of_lt_of_le hy hn) (by omega)
    exact hpq (Prod.ext e1 e2)

/-- What a loop of spectrum writes leaves at one of its elements. -/
theorem c32At_specSweep {t : State} {m : Memory} {bd : Build} {r : Region} {a b n : Nat}
    {bin : Nat → Nat → Nat → C32} (ht : t.mem = m.setWords (specSweep bd r a b n bin))
    (hb : b ≤ 255) (hn : n ≤ bd.nMax / 2 + 1) {u c k : Nat} (hu : u < a) (hc : c < b) (hk : k < n)
    (hr : regionOf (specOff bd r u c k) = some r) : t.c32At (specOff bd r u c k) = bin u c k := by
  have hr4 : regionOf (specOff bd r u c k + 4) = some r := by
    have hm := specOff_mod bd r u c k
    have h := regionOf_eq_some.1 hr
    rw [regionOf_eq_some]
    cases r <;> simp only [regionBase, regionEnd] at * <;> omega
  unfold State.c32At
  rw [wordAt_setWords (kv := (specOff bd r u c k, (bin u c k).re)) ht
      (mem_specSweep.2 ⟨u, c, k, hu, hc, hk, Or.inl rfl⟩) (nodup_specSweep_keys hb hn)
      specSweep_aligned hr,
    wordAt_setWords (kv := (specOff bd r u c k + 4, (bin u c k).im)) ht
      (mem_specSweep.2 ⟨u, c, k, hu, hc, hk, Or.inr rfl⟩) (nodup_specSweep_keys hb hn)
      specSweep_aligned hr4]

/-- A loop of spectrum writes leaves every byte outside its elements alone. -/
theorem byteAt_specSweep {s t : State} {bd : Build} {r : Region} {a b n : Nat}
    {bin : Nat → Nat → Nat → C32} (ht : t.mem = s.mem.setWords (specSweep bd r a b n bin))
    (he : t.epoch = s.epoch) {off : Nat}
    (h : ∀ u c k, u < a → c < b → k < n → off < specOff bd r u c k ∨ specOff bd r u c k + 8 ≤ off) :
    t.byteAt off = s.byteAt off := by
  refine State.byteAt_congr ?_ he
  rw [ht]
  refine Memory.get?_setWords_outside fun kv hkv => ?_
  obtain ⟨u, c, k, hu, hc, hk, hkv⟩ := mem_specSweep.1 hkv
  have := h u c k hu hc hk
  rcases hkv with rfl | rfl <;> dsimp only <;> omega

/-- A byte that is not in a spectrum RAM is outside its elements. -/
theorem outside_spec {bd : Build} {r : Region} {u c k off : Nat}
    (hr : regionOf (specOff bd r u c k) = some r) (ho : regionOf off ≠ some r) :
    off < specOff bd r u c k ∨ specOff bd r u c k + 8 ≤ off := by
  by_contra hc
  refine ho ?_
  have hm := specOff_mod bd r u c k
  have h := regionOf_eq_some.1 hr
  rw [regionOf_eq_some]
  cases r <;> simp only [regionBase, regionEnd] at * <;> omega

/-- ANALYZE leaves the transforms in SPEC_IN. -/
theorem analyzeAll_c32At {s : State} (hb : s.build.Valid) (hK : s.K ≤ s.build.nMax / 2 + 1)
    (hI : s.I ≤ s.build.inMax) {u c k : Nat} (hu : u < s.I) (hc : c < s.C) (hk : k < s.K) :
    (analyzeAll s).c32At (specOff s.build .specIn u c k) = analyzedBin s u c k := by
  have hC := s.C_le
  exact c32At_specSweep (m := s.mem) rfl hC hK hu hc hk
    (regionOf_specIn hb (lt_of_lt_of_le hu hI) (show c < 255 by omega) (lt_of_lt_of_le hk hK))

/-- ANALYZE changes no byte outside SPEC_IN. -/
theorem analyzeAll_byteAt {s : State} (hb : s.build.Valid) (hK : s.K ≤ s.build.nMax / 2 + 1)
    (hI : s.I ≤ s.build.inMax) {off : Nat} (ho : regionOf off ≠ some .specIn) :
    (analyzeAll s).byteAt off = s.byteAt off := by
  have hC := s.C_le
  exact byteAt_specSweep (s := s) (t := analyzeAll s) (a := s.I) (b := s.C) rfl rfl
    fun u c k hu hc hk => outside_spec (regionOf_specIn hb (lt_of_lt_of_le hu hI) (show c < 255 by omega) (lt_of_lt_of_le hk hK)) ho

/-- The copy of IDENTITY and INPLACE leaves SPEC_IN's elements in SPEC_OUT. -/
theorem identityCopy_c32At {s : State} (hb : s.build.Valid) (hK : s.K ≤ s.build.nMax / 2 + 1)
    {c k : Nat} (hc : c < s.C) (hk : k < s.K) :
    (identityCopy s).c32At (specOff s.build .specOut 0 c k) =
      s.c32At (specOff s.build .specIn 0 c k) := by
  have hC := s.C_le
  have hJ := hb.outMax_ok
  exact c32At_specSweep (t := identityCopy s) (m := s.mem) (a := 1) (u := 0)
    (bin := fun _ c k => s.c32At (specOff s.build .specIn 0 c k)) rfl hC hK (by omega) hc hk
    (regionOf_specOut hb (show 0 < s.build.outMax by omega) (show c < 255 by omega)
      (lt_of_lt_of_le hk hK))

/-- The copy changes no byte outside SPEC_OUT. -/
theorem identityCopy_byteAt {s : State} (hb : s.build.Valid) (hK : s.K ≤ s.build.nMax / 2 + 1)
    {off : Nat} (ho : regionOf off ≠ some .specOut) : (identityCopy s).byteAt off = s.byteAt off := by
  have hC := s.C_le
  have hJ := hb.outMax_ok
  exact byteAt_specSweep (s := s) (t := identityCopy s) (a := 1) (b := s.C) rfl rfl
    fun u c k hu hc hk => outside_spec (regionOf_specOut hb (show u < s.build.outMax by omega) (show c < 255 by omega)
      (lt_of_lt_of_le hk hK)) ho

/-! ### STAGE_OUT -/

/-- READ's words in STAGE_OUT. -/
theorem stageOutput_wordAt {s : State} {n : Nat} {val : Nat → Nat → Nat → F32} (hb : s.build.Valid)
    (hn : n ≤ s.build.stageFrames) (hJ : s.J ≤ s.build.outMax) {j c f : Nat} (hj : j < s.J)
    (hc : c < s.C) (hf : f < n) :
    (stageOutput n val s).wordAt (stageOff s.build .stageOut j c f) = val j c f := by
  have hC := s.C_le
  refine wordAt_setWords (m := s.mem)
    (kv := (stageOff s.build .stageOut j c f, val j c f)) rfl
    (mem_sweep.2 ⟨j, c, f, hj, hc, hf, rfl⟩) ?_ ?_
    (regionOf_stageOut hb (lt_of_lt_of_le hj hJ) (show c < 255 by omega) (lt_of_lt_of_le hf hn))
  · refine nodup_sweep_keys fun t c f t' c' f' _ h1 h2 _ h4 h5 h6 => ?_
    exact stageOff_inj (show c < 255 by omega) (show c' < 255 by omega) (lt_of_lt_of_le h2 hn)
      (lt_of_lt_of_le h5 hn) h6
  · intro kv hkv
    obtain ⟨_, _, _, _, _, _, rfl⟩ := mem_sweep.1 hkv
    exact stageOff_mod _ _ _ _ _

/-- READ changes no byte outside those words. -/
theorem stageOutput_byteAt {s : State} {n : Nat} {val : Nat → Nat → Nat → F32} {off : Nat}
    (h : ∀ j c f, j < s.J → c < s.C → f < n →
      off < stageOff s.build .stageOut j c f ∨ stageOff s.build .stageOut j c f + 4 ≤ off) :
    (stageOutput n val s).byteAt off = s.byteAt off := by
  refine State.byteAt_congr (Memory.get?_setWords_outside fun kv hkv => ?_) rfl
  obtain ⟨j, c, f, hj, hc, hf, rfl⟩ := mem_sweep.1 hkv
  exact h j c f hj hc hf

/-- A byte that is not in STAGE_OUT is outside its elements. -/
theorem outside_stageOut {bd : Build} {j c f off : Nat}
    (hr : regionOf (stageOff bd .stageOut j c f) = some .stageOut)
    (ho : regionOf off ≠ some .stageOut) :
    off < stageOff bd .stageOut j c f ∨ stageOff bd .stageOut j c f + 4 ≤ off := by
  by_contra hc
  refine ho ?_
  have hm := stageOff_mod bd .stageOut j c f
  have h := regionOf_lane (i := off - stageOff bd .stageOut j c f) hm (by omega) hr
  rwa [show stageOff bd .stageOut j c f + (off - stageOff bd .stageOut j c f) = off by omega] at h

end Sys2Proof.Machine
end

