-- ==== Sys2Proof/Laws/Frames.lean ====
section
/-! SUPPORT. What a frame computes, and the rounds of the frame loop when no input lands in it. -/

namespace Sys2Proof.Machine

/-! ### SYNTHESIZE -/

/-- Step 1: the inverse transforms. -/
theorem inverseAll_yAt {s : State} (hN : s.N ≤ s.build.nMax) {j c i : Nat} (hj : j < s.J) (hc : c < s.C)
    (hi : i < s.N) : (inverseAll s).yAt j c i = inverseSample s j c i :=
  State.cell_of_get (blockSweep_get (val := inverseSample s) s.C_le hN hj hc hi)

/-- Steps 2 and 3: the overlap-add results. -/
theorem overlapAddAll_resAt {s : State} (hN : s.N ≤ s.build.nMax) {j c i : Nat} (hj : j < s.J)
    (hc : c < s.C) (hi : i < s.N) : (overlapAddAll s).resAt j c i = synthResult s j c i :=
  State.cell_of_get (blockSweep_get (val := synthResult s) s.C_le hN hj hc hi)

/-- Step 5: the new tails. -/
theorem storeTails_tailAt {s : State} (hN : s.N - s.hop ≤ s.build.nMax) {j c i : Nat} (hj : j < s.J)
    (hc : c < s.C) (hi : i < s.N - s.hop) : (storeTails s).tailAt j c i = s.resAt j c (s.hop + i) :=
  State.cell_of_get
    (blockSweep_get (val := fun j c i => s.resAt j c (s.hop + i)) s.C_le hN hj hc hi)

theorem storeTails_resAt (s : State) (j c i : Nat) : (storeTails s).resAt j c i = s.resAt j c i := rfl

/-- One entry of a result, from the state before the frame is synthesised (43_fft_analyzer.md R257). -/
theorem synthResult_inverseAll {s : State} (hN : s.N ≤ s.build.nMax) {j c i : Nat} (hj : j < s.J)
    (hc : c < s.C) (hi : i < s.N) :
    synthResult (inverseAll s) j c i =
      fadd (s.nan (.synthAdd j c i)) (synthBase s j c i)
        (fmul (s.nan (.synthMul j c i)) (inverseSample s j c i) (s.wordAt (tableOff .effsyn i))) := by
  unfold synthResult
  rw [inverseAll_yAt hN hj hc hi]
  rfl

/-- The results of a whole frame. -/
theorem synthesizeAll_resAt {s : State} (hN : s.N ≤ s.build.nMax) {j c i : Nat} (hj : j < s.J)
    (hc : c < s.C) (hi : i < s.N) :
    (synthesizeAll s).resAt j c i = synthResult (inverseAll s) j c i := by
  unfold synthesizeAll
  rw [storeTails_resAt]
  exact overlapAddAll_resAt (s := inverseAll s) hN hj hc hi

/-- The tails a whole frame leaves. -/
theorem synthesizeAll_tailAt {s : State} (hN : s.N ≤ s.build.nMax) (hh : s.hop ≤ s.N) {j c i : Nat}
    (hj : j < s.J) (hc : c < s.C) (hi : i < s.N - s.hop) :
    (synthesizeAll s).tailAt j c i = synthResult (inverseAll s) j c (s.hop + i) := by
  unfold synthesizeAll
  have h := storeTails_tailAt (s := overlapAddAll (inverseAll s)) (j := j) (c := c) (i := i)
    (le_trans (Nat.sub_le _ _) hN) hj hc hi
  rw [h]
  exact overlapAddAll_resAt (s := inverseAll s) hN hj hc (show s.hop + i < s.N by omega)

/-! ### The frame loop with nothing to land in it -/

theorem faultFrame_nil {code : FaultCode} {s : State} (ho : s.overlap = []) (ht : s.transit = .none) :
    faultFrame code s = raiseFault code s :=
  piece_nil (f := enterFault code) ho ht

theorem pauseFrame_nil {s : State} (ho : s.overlap = []) (ht : s.transit = .none) :
    pauseFrame s = xwaitEnter s := by
  unfold pauseFrame
  rw [noteGiven_none (s := saveFrame s) ht, settleTransit_none (s := saveFrame s) ht,
    atPoint_nil (s := saveFrame s) ho ht]
  rfl

theorem headPieces_nil {k : State → State} {s : State} (ho : s.overlap = []) (ht : s.transit = .none) :
    headPieces k s = k (frameHead s) := by
  unfold headPieces
  rw [piece_nil (by simpa using ho) (by simpa using ht),
    piece_nil (by simpa using ho) (by simpa using ht)]
  rfl

theorem copyPiece_nil {k : State → State} {s : State} (ho : s.overlap = []) (ht : s.transit = .none) :
    copyPiece k s = k (identityCopy s) :=
  piece_nil (f := identityCopy) ho ht

/-- No whole window: the WRITE completes (44_engine_commands.md R296, R303). -/
theorem frameLoop_complete {f : Nat} {s : State} (h : s.inIx.avail < s.N) :
    frameLoop (f + 1) s = completeCmd s := by
  conv_lhs => unfold frameLoop
  rw [if_pos h]

/-- No room for the next frame: OUT_OVERFLOW (44_engine_commands.md R297). -/
theorem frameLoop_fault {f : Nat} {s : State} (ho : s.overlap = []) (ht : s.transit = .none)
    (h : s.N ≤ s.inIx.avail) (h2 : s.Cout < s.outIx.avail + s.hop) :
    frameLoop (f + 1) s = raiseFault .outOverflow s := by
  conv_lhs => unfold frameLoop
  rw [if_neg (by omega), if_pos h2, faultFrame_nil ho ht]

/-- IDENTITY: one whole frame, then the rest of the loop (44_engine_commands.md R295). -/
theorem frameLoop_identity {f : Nat} {s : State} (ho : s.overlap = []) (ht : s.transit = .none)
    (hm : s.tmode = .identity) (h : s.N ≤ s.inIx.avail) (h2 : s.outIx.avail + s.hop ≤ s.Cout) :
    frameLoop (f + 1) s = frameLoop f (frameTail (identityCopy (frameHead s))) := by
  conv_lhs => unfold frameLoop
  rw [if_neg (by omega), if_neg (by omega), hm]
  dsimp only
  rw [headPieces_nil ho ht, copyPiece_nil (by simpa using ho) (by simpa using ht),
    piece_nil (by simpa using ho) (by simpa using ht)]

/-- EXTERNAL: the frame pauses (45_transform.md R341, R343). -/
theorem frameLoop_external {f : Nat} {s : State} (ho : s.overlap = []) (ht : s.transit = .none)
    (hm : s.tmode = .external) (h : s.N ≤ s.inIx.avail) (h2 : s.outIx.avail + s.hop ≤ s.Cout) :
    frameLoop (f + 1) s = xwaitEnter (frameHead s) := by
  conv_lhs => unfold frameLoop
  rw [if_neg (by omega), if_neg (by omega), hm]
  dsimp only
  rw [headPieces_nil ho ht, pauseFrame_nil (by simpa using ho) (by simpa using ht)]

/-- INPLACE: the frame pauses with SPEC_OUT a copy of SPEC_IN (45_transform.md R342, R343). -/
theorem frameLoop_inplace {f : Nat} {s : State} (ho : s.overlap = []) (ht : s.transit = .none)
    (hm : s.tmode = .inplace) (h : s.N ≤ s.inIx.avail) (h2 : s.outIx.avail + s.hop ≤ s.Cout) :
    frameLoop (f + 1) s = xwaitEnter (identityCopy (frameHead s)) := by
  conv_lhs => unfold frameLoop
  rw [if_neg (by omega), if_neg (by omega), hm]
  dsimp only
  rw [headPieces_nil ho ht, copyPiece_nil (by simpa using ho) (by simpa using ht),
    pauseFrame_nil (by simpa using ho) (by simpa using ht)]

/-! ### The commands with nothing to land in them -/

theorem runNop_nil {s : State} (ho : s.overlap = []) (ht : s.transit = .none) :
    runNop s = completeCmd { s with busy := true } := by
  unfold runNop
  rw [acceptCmd_nil ho ht]
  exact atPoint_nil (s := { s with busy := true }) ho ht _

theorem runSreset_nil {s : State} (ho : s.overlap = []) (ht : s.transit = .none) :
    runSreset s = finishSreset (abandonFrame { s with busy := true }) := by
  unfold runSreset
  rw [acceptCmd_nil ho ht]
  exact (atPoint_nil (s := { s with busy := true }) ho ht _).trans (piece_nil (f := abandonFrame) ho ht)

/-- The rest of SET_BLOCK once CFG_BLOCK is written (44_engine_commands.md R286). -/
theorem setBlockRings_nil {s : State} (ho : s.overlap = []) (ht : s.transit = .none) (b : Nat) :
    setBlockRings b s = completeCmd (if s.seq = .ready then setBlockActive b s else s) := by
  unfold setBlockRings
  split
  · rw [piece_nil (by simpa using ho) (by simpa using ht),
      piece_nil (by simpa using ho) (by simpa using ht)]
    rfl
  · rfl

theorem runSetBlock_nil {s : State} (ho : s.overlap = []) (ht : s.transit = .none) (b : Nat) :
    runSetBlock b s =
      completeCmd (if s.seq = .ready then setBlockActive b (setCfgBlock b { s with busy := true })
        else setCfgBlock b { s with busy := true }) := by
  unfold runSetBlock
  rw [acceptCmd_nil ho ht]
  refine (atPoint_nil (s := { s with busy := true }) ho ht _).trans ?_
  rw [piece_nil (f := setCfgBlock b) (by simpa using ho) (by simpa using ht)]
  exact setBlockRings_nil (s := setCfgBlock b { s with busy := true }) ho ht b

theorem failInit_nil {s : State} (ho : s.overlap = []) (ht : s.transit = .none) (code : InitResult) :
    failInit code s = completeFailed (initFailed code s) :=
  piece_nil (f := initFailed code) ho ht

/-- Step 6 and INIT_COMMIT (44_engine_commands.md R280). -/
theorem initFinish_nil {s : State} (ho : s.overlap = []) (ht : s.transit = .none) (q : CfgRegs) :
    initFinish q s = completeCmd (initCommit q (buildEffsyn q.fftSize.toNat (cfgHop q) s)) := by
  unfold initFinish
  rw [piece_nil (by simpa using ho) (by simpa using ht),
    piece_nil (f := beginCommit q) (by simpa using ho) (by simpa using ht),
    piece_nil (by simpa using ho) (by simpa using ht)]
  rfl

theorem initValidate_nil {s : State} (ho : s.overlap = []) (ht : s.transit = .none) (q : CfgRegs) :
    initValidate q s =
      if colaValid (cfgHop q) s then
        completeCmd (initCommit q (buildEffsyn q.fftSize.toNat (cfgHop q) s))
      else completeFailed (initFailed .windowInvalid s) := by
  unfold initValidate
  rw [initFinish_nil ho ht, failInit_nil ho ht]

/-- INIT (44_engine_commands.md R280): the first failing step decides the error. -/
theorem runInit_nil {s : State} (ho : s.overlap = []) (ht : s.transit = .none) :
    runInit s =
      if configValid s.build s.cfg = false then
        completeFailed (initFailed .configInvalid { s with busy := true })
      else if s.adapterOk = false then completeFailed (initFailed .fftInitFailed { s with busy := true })
      else if colaValid (cfgHop s.cfg) (buildTables s.cfg { s with busy := true }) then
        completeCmd (initCommit s.cfg
          (buildEffsyn s.cfg.fftSize.toNat (cfgHop s.cfg) (buildTables s.cfg { s with busy := true })))
      else completeFailed (initFailed .windowInvalid (buildTables s.cfg { s with busy := true })) := by
  unfold runInit
  rw [acceptCmd_nil ho ht]
  refine (atPoint_nil (s := { s with busy := true }) ho ht _).trans ?_
  unfold initChecked
  rw [failInit_nil (s := { s with busy := true }) ho ht, failInit_nil (s := { s with busy := true }) ho ht,
    piece_nil (by simpa using ho) (by simpa using ht),
    initValidate_nil (by simpa using ho) (by simpa using ht)]
  cases configValid s.build s.cfg <;> cases s.adapterOk <;> simp

theorem runWrite_nil {s : State} (ho : s.overlap = []) (ht : s.transit = .none) (n : Nat) :
    runWrite n s =
      if s.Cin < s.inIx.avail + n then raiseFault .inOverflow (startCount { s with busy := true })
      else runFrames (appendStaged n (startCount { s with busy := true })) := by
  unfold runWrite
  rw [acceptCmd_nil ho ht]
  refine (atPoint_nil (s := { s with busy := true }) ho ht _).trans ?_
  rw [piece_nil (f := startCount) (by simpa using ho) (by simpa using ht)]
  unfold writeFrames
  rw [faultFrame_nil (by simpa using ho) (by simpa using ht),
    piece_nil (by simpa using ho) (by simpa using ht)]
  rfl

theorem runRead_nil {s : State} (ho : s.overlap = []) (ht : s.transit = .none) (n : Nat) :
    runRead n s = completeCmd (readEffect n { s with busy := true }) := by
  unfold runRead
  rw [acceptCmd_nil ho ht]
  refine (atPoint_nil (s := { s with busy := true }) ho ht _).trans ?_
  refine piece_nil ?_ ?_ <;> unfold readEffect <;> split <;> assumption

theorem runXdone_nil {s : State} (ho : s.overlap = []) (ht : s.transit = .none) :
    runXdone s = runFrames (frameTail (leaveXwait s)) := by
  unfold runXdone
  rw [watchReads_nil ho ht, piece_nil (f := leaveXwait) ho ht]
  unfold resumeFrames
  exact piece_nil (by simpa using ho) (by simpa using ht)

end Sys2Proof.Machine
end

