-- ==== Sys2Proof/Laws/Overlap.lean ====
section
/-! SUPPORT. Said once: what the inputs that land while a command runs can do to the state, and what holds
at the end of a point and of a piece of a command. -/

namespace Sys2Proof.Machine

/-- A word of RAM a host may write. -/
def HostWord (off : Nat) : Prop := off % 4 = 0 ∧ ∃ r, regionOf off = some r ∧ regionReadOnly r = false

/-- Every host write in transit is of a word a host may write. -/
def LateOk (s : State) : Prop := ∀ e ∈ s.transit.late, HostWord e.off

/-- The state t differs from s only by what inputs that land during a command may change: configuration
and interrupt registers, status of rejected commands, writable RAM, the port's record. -/
structure Disturbed (s t : State) : Prop where
  eq : t = { s with
    cfg := t.cfg, intEnable := t.intEnable, sticky := t.sticky, cmdErr := t.cmdErr, mem := t.mem,
    resp := t.resp, adapterOk := t.adapterOk, overlap := t.overlap, transit := t.transit }
  wf : s.mem.wf → t.mem.wf
  late : LateOk s → LateOk t
  readOnly : LateOk s → ∀ off r, regionOf off = some r → regionReadOnly r = true →
    t.mem.get? off = s.mem.get? off

theorem Disturbed.refl (s : State) : Disturbed s s := ⟨rfl, id, id, fun _ _ _ _ _ => rfl⟩

theorem Disturbed.trans {s t u : State} (h : Disturbed s t) (h' : Disturbed t u) : Disturbed s u :=
  ⟨by rw [h'.eq, h.eq], h'.wf ∘ h.wf, h'.late ∘ h.late, fun hl off r hr ho =>
    (h'.readOnly (h.late hl) off r hr ho).trans (h.readOnly hl off r hr ho)⟩

/-- A change of registers and port alone, no write set in transit. -/
theorem Disturbed.of_eq {s t : State}
    (h : t = { s with
      cfg := t.cfg, intEnable := t.intEnable, sticky := t.sticky, cmdErr := t.cmdErr,
      resp := t.resp, adapterOk := t.adapterOk, overlap := t.overlap, transit := t.transit })
    (hl : t.transit.late = s.transit.late) : Disturbed s t := by
  refine ⟨?_, fun hw => ?_, fun h e he => h e (hl ▸ he), fun _ _ _ _ _ => ?_⟩
  · rw [h]
  · rw [h]; exact hw
  · rw [h]

theorem Disturbed.overlap (s : State) (ov : List (List Landing)) :
    Disturbed s { s with overlap := ov } :=
  Disturbed.of_eq rfl rfl

theorem Disturbed.busy_eq {s t : State} (h : Disturbed s t) : t.busy = s.busy := by rw [h.eq]

/-- A write of words a host may write changes no read-only RAM. -/
theorem get?_setWords_readOnly {m : Memory} {kvs : List (Nat × Word)} (h : ∀ kv ∈ kvs, HostWord kv.1)
    {off : Nat} {r : Region} (hr : regionOf off = some r) (hro : regionReadOnly r = true) :
    (m.setWords kvs).get? off = m.get? off := by
  refine Memory.get?_setWords_outside fun kv hkv => ?_
  obtain ⟨h4, r', hr', hw⟩ := h kv hkv
  by_contra hc
  have h2 := regionOf_lane (i := off - kv.1) h4 (by omega) hr'
  rw [show kv.1 + (off - kv.1) = off by omega, hr] at h2
  cases h2
  rw [hro] at hw; cases hw

/-- The writes that reach the RAM. -/
theorem reachRam_disturbs (s : State) : Disturbed s (reachRam s) where
  eq := rfl
  wf h := Memory.wf_setWords h _
  late h e he := h e (List.mem_filter.1 he).1
  readOnly h off r hr hro := by
    refine get?_setWords_readOnly (fun kv hkv => ?_) hr hro
    obtain ⟨e, he, rfl⟩ := List.mem_map.1 hkv
    exact h e (List.mem_filter.1 he).1

/-- A change of the writes in transit alone. -/
theorem Disturbed.of_late {s : State} {l : List LateWrite} (h : LateOk s → ∀ e ∈ l, HostWord e.off) :
    Disturbed s { s with transit := { s.transit with late := l } } :=
  ⟨rfl, id, h, fun _ _ _ _ _ => rfl⟩

theorem tickLate_disturbs (s : State) : Disturbed s (tickLate s) := by
  refine Disturbed.trans (Disturbed.of_late fun h e he => ?_) (reachRam_disturbs _)
  obtain ⟨e', he', rfl⟩ := List.mem_map.1 he
  exact h e' he'

theorem lateWrite_disturbs {s : State} {off : Nat} (ho : HostWord off) (v : Word) (wait : Nat) :
    Disturbed s (lateWrite off v wait s) := by
  refine Disturbed.trans (Disturbed.of_late fun h e he => ?_) (reachRam_disturbs _)
  rcases List.mem_append.1 he with he | he
  · obtain ⟨e', he', rfl⟩ := List.mem_map.1 he
    split <;> exact h e' he'
  · rw [List.mem_singleton.1 he]; exact ho

theorem noteGiven_disturbs (wrote : Nat → Bool) (old s : State) : Disturbed s (noteGiven wrote old s) :=
  Disturbed.of_eq rfl rfl

theorem settleTransit_disturbs (s : State) : Disturbed s (settleTransit s) where
  eq := rfl
  wf h := Memory.wf_setWords h _
  late _ _ he := nomatch he
  readOnly h off r hr hro := by
    refine get?_setWords_readOnly (fun kv hkv => ?_) hr hro
    obtain ⟨e, he, rfl⟩ := List.mem_map.1 hkv
    exact h e he

theorem watchReads_disturbs (s : State) : Disturbed s (watchReads s) := Disturbed.of_eq rfl rfl

/-- Where an access that reaches a RAM word reaches. -/
theorem locate_eq_ram {b : Build} {addr width off : Nat} {r : Region}
    (h : locate b addr width = .ram r off) : regionOf off = some r ∧ (b.base % 4 = 0 → off % 4 = 0) := by
  unfold locate at h
  repeat' split at h
  all_goals first | (simp at h; done) | skip
  rename_i _ h4 _ _ _ r' hr' _
  obtain ⟨rfl, rfl⟩ := Target.ram.inj h
  exact ⟨hr', fun hb => by omega⟩

/-- A bus write of the register page. -/
theorem csrWriteAt_disturbs (s : State) (off : Nat) (v : Word) : Disturbed s (csrWriteAt s off v) := by
  unfold csrWriteAt
  split
  · rename_i c _
    cases c <;> exact Disturbed.of_eq rfl rfl
  · exact Disturbed.refl s

theorem respond_disturbs (r : Response) (s : State) : Disturbed s (respond r s) := Disturbed.of_eq rfl rfl

/-- A word a bus write reaches, unless it is refused, is one a host may write. -/
theorem locate_hostWord {b : Build} (hb : b.base % 4 = 0) {addr width off : Nat} {r : Region}
    (h : locate b addr width = .ram r off) (hro : ¬regionReadOnly r = true) : HostWord off :=
  have h' := locate_eq_ram h
  ⟨h'.2 hb, r, h'.1, eq_false_of_ne_true hro⟩

/-- A host write of a word of RAM. -/
theorem hostStore_disturbs {s : State} {off : Nat} (ho : HostWord off) (v : Word) :
    Disturbed s { s with mem := s.mem.setWord off v } :=
  ⟨rfl, fun h => Memory.wf_setWord h _ _, id, fun _ _ _ hr hro =>
    get?_setWords_readOnly (kvs := [(off, v)]) (fun _ hkv => by rw [List.mem_singleton.1 hkv]; exact ho)
      hr hro⟩

/-- A bus access on an idle block. -/
theorem performAccess_disturbs {s : State} (hb : s.build.base % 4 = 0) (a : BusAccess) :
    Disturbed s (performAccess a s) := by
  unfold performAccess
  split
  · exact respond_disturbs _ _
  · unfold busWrite
    split
    · exact (csrWriteAt_disturbs s _ _).trans (respond_disturbs _ _)
    · split
      · exact respond_disturbs _ _
      · exact (hostStore_disturbs (locate_hostWord hb ‹_› ‹_›) _).trans (respond_disturbs _ _)
    · exact respond_disturbs _ _

/-- A bus access while a command runs. -/
theorem busyAccess_disturbs {s : State} (hb : s.build.base % 4 = 0) (a : BusAccess) (draw : Nat) :
    Disturbed s (busyAccess a draw s) := by
  unfold busyAccess
  split
  · unfold busyRead
    split
    · split
      · exact Disturbed.of_eq rfl rfl
      · exact respond_disturbs _ _
    · exact Disturbed.of_eq rfl rfl
    · exact respond_disturbs _ _
  · unfold busyWrite
    split
    · exact (csrWriteAt_disturbs s _ _).trans (respond_disturbs _ _)
    · split
      · exact respond_disturbs _ _
      · exact (lateWrite_disturbs (locate_hostWord hb ‹_› ‹_›) _ _).trans (respond_disturbs _ _)
    · exact respond_disturbs _ _

/-- One input during a command: a reset, or a disturbance. -/
theorem busyInput_cases {s : State} (hb : s.build.base % 4 = 0) (l : Landing) :
    Disturbed s (busyInput l s) ∨ busyInput l s = hardReset s := by
  unfold busyInput
  split
  · exact .inr rfl
  · exact .inl (Disturbed.refl s)
  · exact .inl (Disturbed.of_eq rfl rfl)
  · split
    · exact .inl (Disturbed.of_eq rfl rfl)
    · exact .inl (busyAccess_disturbs hb _ _)

/-- The inputs of a point: a disturbance that leaves the command running, or a reset that ends it. -/
theorem busyInputs_cases {s : State} (hb : s.build.base % 4 = 0) (hs : s.busy = true)
    (l : List Landing) :
    (Disturbed s (busyInputs l s) ∧ (busyInputs l s).busy = true) ∨
      ∃ u ov, Disturbed s u ∧ busyInputs l s = { hardReset u with overlap := ov } := by
  induction l generalizing s with
  | nil => exact .inl ⟨Disturbed.refl s, hs⟩
  | cons i rest ih =>
    unfold busyInputs
    rcases busyInput_cases hb i with h | h
    · have hbusy : (busyInput i s).busy = true := by rw [h.busy_eq, hs]
      rw [if_pos hbusy]
      have hb' : (busyInput i s).build.base % 4 = 0 := by
        have : (busyInput i s).build = s.build := by rw [h.eq]
        rw [this]; exact hb
      rcases ih hb' hbusy with ⟨h1, h2⟩ | ⟨u, ov, h1, h2⟩
      · exact .inl ⟨h.trans h1, h2⟩
      · exact .inr ⟨u, ov, h.trans h1, h2⟩
    · refine .inr ⟨s, rest :: s.overlap, Disturbed.refl s, ?_⟩
      rw [if_neg (by rw [h]; exact Bool.false_ne_true), h]
      rfl

/-- What holds at the end of a point: P holds before it and whatever disturbs the state keeps P; a reset
from P gives Q; and the rest of the command takes P to Q. -/
theorem atPoint_induct {P Q : State → Prop} {k : State → State} {s : State} (hs : s.busy = true)
    (hP : P s) (hbase : ∀ u, P u → u.build.base % 4 = 0)
    (hdist : ∀ u v, P u → Disturbed u v → P v)
    (hreset : ∀ u ov, P u → Q { hardReset u with overlap := ov })
    (hk : ∀ u, u.busy = true → P u → Q (k u)) : Q (atPoint k s) := by
  have ht := hdist s _ hP (tickLate_disturbs s)
  rcases atPoint_cases k s with ⟨_, h⟩ | ⟨now, later, _, h⟩
  · rw [h]; exact hk _ (by simpa using hs) ht
  · have hov := hdist _ _ ht (Disturbed.overlap (tickLate s) later)
    rcases busyInputs_cases (hbase _ hov) (s := { tickLate s with overlap := later })
      (by simpa using hs) now with ⟨h1, h2⟩ | ⟨u, ov, h1, h2⟩
    · rcases h with ⟨_, h⟩ | ⟨hc, _⟩
      · rw [h]; exact hk _ h2 (hdist _ _ hov h1)
      · rw [h2] at hc; exact absurd hc (by simp)
    · rcases h with ⟨hc, _⟩ | ⟨_, h⟩
      · rw [h2] at hc; exact absurd hc Bool.false_ne_true
      · rw [h, h2]; exact hreset u ov (hdist _ _ hov h1)

/-- The same of a piece of a command's effect, P holding once the piece is done. -/
theorem piece_induct {P Q : State → Prop} {f : State → State} {wrote : State → Nat → Bool}
    {k : State → State} {s : State} (hs : (f s).busy = true) (hP : P (f s))
    (hbase : ∀ u, P u → u.build.base % 4 = 0) (hdist : ∀ u v, P u → Disturbed u v → P v)
    (hreset : ∀ u ov, P u → Q { hardReset u with overlap := ov })
    (hk : ∀ u, u.busy = true → P u → Q (k u)) : Q (piece f wrote k s) :=
  atPoint_induct (by simpa using hs) (hdist _ _ hP (noteGiven_disturbs _ _ _)) hbase hdist hreset hk

/-- The same of a pause, P holding once the frame is saved. -/
theorem pauseFrame_induct {P Q : State → Prop} {s : State} (hs : s.busy = true) (hP : P (saveFrame s))
    (hbase : ∀ u, P u → u.build.base % 4 = 0) (hdist : ∀ u v, P u → Disturbed u v → P v)
    (hreset : ∀ u ov, P u → Q { hardReset u with overlap := ov })
    (hk : ∀ u, u.busy = true → P u → Q (releaseBusy u)) : Q (pauseFrame s) :=
  atPoint_induct (by simpa using hs)
    (hdist _ _ (hdist _ _ hP (noteGiven_disturbs _ _ _)) (settleTransit_disturbs _)) hbase hdist hreset hk

end Sys2Proof.Machine
end

