-- ==== Sys2Proof/Laws/PerInstr.lean ====
section
/-! SUPPORT. Facts about each command as syntax. -/

namespace Sys2Proof.Laws.EncodedFields

/-- The word of a well-formed command holds its opcode in OPC and its operand in ARG
(30_encoding.md R160, R161). -/
def Statement (i : Instr) : Prop :=
  i.wellFormed = true → opcField (encode i) = opcode i ∧ argField (encode i) = i.arg

theorem nop (arg : Nat) : Statement (.nop arg) := fun h => ⟨opcField_encode _, argField_encode h⟩

theorem init (arg : Nat) : Statement (.init arg) := fun h => ⟨opcField_encode _, argField_encode h⟩

theorem setBlock (b : Nat) : Statement (.setBlock b) := fun h => ⟨opcField_encode _, argField_encode h⟩

theorem write (n : Nat) : Statement (.write n) := fun h => ⟨opcField_encode _, argField_encode h⟩

theorem read (n : Nat) : Statement (.read n) := fun h => ⟨opcField_encode _, argField_encode h⟩

theorem xdone (arg : Nat) : Statement (.xdone arg) := fun h => ⟨opcField_encode _, argField_encode h⟩

theorem sreset (arg : Nat) : Statement (.sreset arg) := fun h => ⟨opcField_encode _, argField_encode h⟩

end Sys2Proof.Laws.EncodedFields
end

