-- ==== Sys2Proof/Laws/Registers.lean ====
section
/-! SUPPORT. The bits of INT_PENDING, and where the elements of the RAM regions are on the bus. -/

namespace Sys2Proof.Machine

/-- INT_PENDING, bit by bit. -/
theorem pendingBits_getLsbD (s : State) (k : Nat) :
    (pendingBits s).getLsbD k =
      match k with
      | 0 => s.sticky.done
      | 1 => xreq s
      | 2 => faultLevel s
      | 3 => s.sticky.cmdErr
      | 4 => s.sticky.initErr
      | 5 => s.sticky.underflow
      | _ => false := by
  unfold pendingBits
  generalize s.sticky = k', xreq s = x, faultLevel s = f
  obtain ⟨a, b, c, d⟩ := k'
  match k with
  | 0 => cases a <;> cases b <;> cases c <;> cases d <;> cases x <;> cases f <;> rfl
  | 1 => cases a <;> cases b <;> cases c <;> cases d <;> cases x <;> cases f <;> rfl
  | 2 => cases a <;> cases b <;> cases c <;> cases d <;> cases x <;> cases f <;> rfl
  | 3 => cases a <;> cases b <;> cases c <;> cases d <;> cases x <;> cases f <;> rfl
  | 4 => cases a <;> cases b <;> cases c <;> cases d <;> cases x <;> cases f <;> rfl
  | 5 => cases a <;> cases b <;> cases c <;> cases d <;> cases x <;> cases f <;> rfl
  | k + 6 => exact BitVec.getLsbD_of_ge _ _ (by omega)

/-- A window offset of a RAM region is reached at BASE plus the offset. -/
theorem locate_ram {b : Build} (hb : b.Valid) {r : Region} {off : Nat} (h4 : off % 4 = 0)
    (hr : regionOf off = some r) (hw : (off - regionBase r) / 4 < regionWords b r) :
    locate b (b.base + off) 32 = .ram r off := by
  have hbase : b.base % 0x08000000 = 0 := hb.base_aligned
  have h := regionOf_eq_some.1 hr
  have hlt : off < 0x08000000 := by cases r <;> simp only [regionEnd] at h <;> omega
  have hge : 0x1000 ≤ off := by cases r <;> simp only [regionBase] at h <;> omega
  unfold locate
  rw [show Config.windowBytes = 0x08000000 from rfl]
  rw [if_neg (by omega), if_neg (by omega), if_neg (by omega), Nat.add_sub_cancel_left,
    if_neg (by omega), hr]
  exact if_pos hw

/-- Where a table entry is on the bus (20_memory.md R122). -/
theorem locate_table {b : Build} (hb : b.Valid) {r : Region} {n : Nat} (hr : isTable r)
    (hn : n < b.nMax) : locate b (b.base + tableOff r n) 32 = .ram r (tableOff r n) := by
  refine locate_ram hb (tableOff_mod r n) (regionOf_tableOff hb hr hn) ?_
  rw [tableOff, Nat.add_sub_cancel_left, Nat.mul_div_cancel_left n (by omega)]
  cases r <;> simp_all [isTable, regionWords]

/-- Where a STAGE_IN element is on the bus (20_memory.md R125, R126). -/
theorem locate_stageIn {b : Build} (hb : b.Valid) {t c f : Nat} (ht : t < b.inMax) (hc : c < 255)
    (hf : f < b.stageFrames) :
    locate b (b.base + stageOff b .stageIn t c f) 32 = .ram .stageIn (stageOff b .stageIn t c f) := by
  refine locate_ram hb (stageOff_mod b _ t c f) (regionOf_stageIn hb ht hc hf) ?_
  rw [stageOff, Nat.add_sub_cancel_left, Nat.mul_div_cancel_left _ (by omega)]
  exact linear_lt ht hc hf

/-- Where a STAGE_OUT element is on the bus (20_memory.md R125, R126). -/
theorem locate_stageOut {b : Build} (hb : b.Valid) {t c f : Nat} (ht : t < b.outMax) (hc : c < 255)
    (hf : f < b.stageFrames) :
    locate b (b.base + stageOff b .stageOut t c f) 32 = .ram .stageOut (stageOff b .stageOut t c f) := by
  refine locate_ram hb (stageOff_mod b _ t c f) (regionOf_stageOut hb ht hc hf) ?_
  rw [stageOff, Nat.add_sub_cancel_left, Nat.mul_div_cancel_left _ (by omega)]
  exact linear_lt ht hc hf

/-- Where the real (d = 0) and the imaginary (d = 4) word of an element of SPEC_IN are on the bus
(20_memory.md R124). -/
theorem locate_specIn {b : Build} (hb : b.Valid) {t c k d : Nat} (ht : t < b.inMax) (hc : c < 255)
    (hk : k < b.nMax / 2 + 1) (hd : d = 0 ∨ d = 4) :
    locate b (b.base + (specOff b .specIn t c k + d)) 32 = .ram .specIn (specOff b .specIn t c k + d) := by
  have hl := linear_lt ht hc hk
  have hm := specOff_mod b .specIn t c k
  have hr := regionOf_specIn hb ht hc hk
  refine locate_ram hb (by omega) ?_ ?_
  · rw [regionOf_eq_some] at hr ⊢
    simp only [regionBase, regionEnd] at *
    omega
  · show (specOff b .specIn t c k + d - regionBase .specIn) / 4 < 2 * _
    rw [specOff]
    simp only [Config.chMax, regionBase] at *
    omega

/-- Where the real (d = 0) and the imaginary (d = 4) word of an element of SPEC_OUT are on the bus
(20_memory.md R124). -/
theorem locate_specOut {b : Build} (hb : b.Valid) {t c k d : Nat} (ht : t < b.outMax) (hc : c < 255)
    (hk : k < b.nMax / 2 + 1) (hd : d = 0 ∨ d = 4) :
    locate b (b.base + (specOff b .specOut t c k + d)) 32 =
      .ram .specOut (specOff b .specOut t c k + d) := by
  have hl := linear_lt ht hc hk
  have hm := specOff_mod b .specOut t c k
  have hr := regionOf_specOut hb ht hc hk
  refine locate_ram hb (by omega) ?_ ?_
  · rw [regionOf_eq_some] at hr ⊢
    simp only [regionBase, regionEnd] at *
    omega
  · show (specOff b .specOut t c k + d - regionBase .specOut) / 4 < 2 * _
    rw [specOff]
    simp only [Config.chMax, regionBase] at *
    omega

/-- A word of an element of a RAM region is reached at BASE plus its offset. -/
theorem locate_elementWord {b : Build} (hb : b.Valid) {off : Nat} (h : IsElementWord b off) :
    ∃ r, locate b (b.base + off) 32 = .ram r off := by
  rcases h with ⟨r, n, hr, hn, rfl⟩ | ⟨_, _, _, hu, hc, hf, rfl⟩ | ⟨_, _, _, hu, hc, hf, rfl⟩ |
    ⟨_, _, _, hu, hc, hk, rfl | rfl⟩ | ⟨_, _, _, hu, hc, hk, rfl | rfl⟩
  · refine ⟨r, locate_table hb ?_ hn⟩
    simp only [List.mem_cons, List.not_mem_nil, or_false] at hr
    rcases hr with rfl | rfl | rfl | rfl | rfl | rfl <;> simp [isTable]
  · exact ⟨_, locate_stageIn hb hu hc hf⟩
  · exact ⟨_, locate_stageOut hb hu hc hf⟩
  · exact ⟨_, locate_specIn hb hu hc hk (.inl rfl)⟩
  · exact ⟨_, locate_specIn hb hu hc hk (.inr rfl)⟩
  · exact ⟨_, locate_specOut hb hu hc hk (.inl rfl)⟩
  · exact ⟨_, locate_specOut hb hu hc hk (.inr rfl)⟩

end Sys2Proof.Machine
end

