-- ==== Sys2Proof/Laws/Window.lean ====
section
/-! SUPPORT. The built-in window has the two properties 42_window_cola.md R220 gives it: it is symmetric, and
the COLA check passes with it for every overlap, whatever the draws. -/

namespace Sys2Proof.Machine

/-! ### Symmetry -/

theorem symmetricTable_symm {N n : Nat} (h : n < N) :
    Config.symmetricTable N n = Config.symmetricTable N (N - 1 - n) := by
  unfold Config.symmetricTable
  rw [show N - 1 - (N - 1 - n) = n by omega, min_comm]

theorem hamming_symm {N n : Nat} (h : n < N) : hamming N n = hamming N (N - 1 - n) := by
  unfold hamming
  rw [symmetricTable_symm h]

/-! ### A draw decides no comparison -/

theorem f32IsNan_quietNan (d : Word) : f32IsNan (quietNan d) = true := by
  have h : ∀ i, i < 32 → (0x7FC00000#32).getLsbD i = true → (quietNan d).getLsbD i = true := by
    intro i _ hi
    unfold quietNan
    rw [BitVec.getLsbD_or, hi, Bool.or_true]
  have he : (quietNan d).extractLsb' 23 8 = 255#8 := by
    ext i hi
    have hk : ∀ i, i < 8 → (0x7FC00000#32).getLsbD (23 + i) = true ∧ (255#8).getLsbD i = true := by decide
    rw [BitVec.getElem_extractLsb', h _ (by omega) (hk i hi).1, ← BitVec.getLsbD_eq_getElem, (hk i hi).2]
  have hf : (quietNan d).extractLsb' 0 23 ≠ 0#23 := by
    intro hc
    have h22 := congrArg (·.getLsbD 22) hc
    simp only [BitVec.getLsbD_extractLsb'] at h22
    rw [h 22 (by omega) (by decide)] at h22
    exact absurd h22 (by decide)
  unfold f32IsNan f32Exp f32Frac
  rw [he]
  simp only [Bool.and_eq_true, decide_eq_true_eq]
  exact ⟨by decide, fun hc => hf (BitVec.eq_of_toNat_eq hc)⟩

/-- Two words are the same, or both are NaN. -/
def SameOrNan (x y : F32) : Prop := x = y ∨ f32IsNan x = true ∧ f32IsNan y = true

theorem SameOrNan.refl (x : F32) : SameOrNan x x := .inl rfl

/-- A NaN operand gives the NaN that the draw stands for. -/
theorem fadd_nan {d a b : Word} (h : f32IsNan a = true ∨ f32IsNan b = true) : fadd d a b = quietNan d := by
  unfold fadd
  rw [if_pos (by rcases h with h | h <;> simp [h])]

theorem fmul_nan {d a b : Word} (h : f32IsNan a = true ∨ f32IsNan b = true) : fmul d a b = quietNan d := by
  unfold fmul
  rw [if_pos (by rcases h with h | h <;> simp [h])]

theorem SameOrNan.of_quiet (d d' : Word) : SameOrNan (quietNan d) (quietNan d') :=
  .inr ⟨f32IsNan_quietNan d, f32IsNan_quietNan d'⟩

theorem fadd_sameOrNan {d d' a a' b b' : Word} (ha : SameOrNan a a') (hb : SameOrNan b b') :
    SameOrNan (fadd d a b) (fadd d' a' b') := by
  rcases ha with rfl | ⟨h, h'⟩
  · rcases hb with rfl | ⟨h, h'⟩
    · unfold fadd
      repeat' split
      all_goals first | exact SameOrNan.refl _ | exact SameOrNan.of_quiet _ _
    · rw [fadd_nan (.inr h), fadd_nan (.inr h')]; exact SameOrNan.of_quiet _ _
  · rw [fadd_nan (.inl h), fadd_nan (.inl h')]; exact SameOrNan.of_quiet _ _

theorem fmul_sameOrNan (d d' a b : Word) : SameOrNan (fmul d a b) (fmul d' a b) := by
  unfold fmul
  dsimp only
  repeat' split
  all_goals first | exact SameOrNan.refl _ | exact SameOrNan.of_quiet _ _

theorem fgt_sameOrNan {x y : F32} (h : SameOrNan x y) (e : F32) : fgt x e = fgt y e := by
  rcases h with rfl | ⟨h, h'⟩
  · rfl
  · unfold fgt; rw [h, h']; rfl

/-- The draws of a COLA sum decide at most which NaN it is. -/
theorem colaSum_sameOrNan (m n m' n' : Nat → Word) (a b : Nat → F32) (N hop i : Nat) :
    SameOrNan (colaSum m n a b N hop i) (colaSum m' n' a b N hop i) := by
  unfold colaSum
  generalize List.range (colaTerms N hop i) = ks
  have h : ∀ x y, SameOrNan x y →
      SameOrNan (ks.foldl (fun acc k => fadd (n k) acc (fmul (m k) (a (i + k * hop)) (b (i + k * hop)))) x)
        (ks.foldl (fun acc k => fadd (n' k) acc (fmul (m' k) (a (i + k * hop)) (b (i + k * hop)))) y) := by
    induction ks with
    | nil => exact fun _ _ h => h
    | cons k ks ih => exact fun _ _ h => ih _ _ (fadd_sameOrNan h (fmul_sameOrNan _ _ _ _))
  exact h _ _ (SameOrNan.refl _)

/-- The sum looks only at the entries below N. -/
theorem colaSum_congr {m n : Nat → Word} {a a' b b' : Nat → F32} {N hop i : Nat} (hh : 0 < hop) (hi : i < hop)
    (ha : ∀ k, k < N → a k = a' k) (hb : ∀ k, k < N → b k = b' k) :
    colaSum m n a b N hop i = colaSum m n a' b' N hop i := by
  unfold colaSum
  refine List.foldl_ext _ _ _ fun acc k hk => ?_
  have hk := List.mem_range.1 hk
  have hlt : i + k * hop < N := by
    unfold colaTerms at hk
    have h1 := (Nat.le_div_iff_mul_le hh).1 (Nat.succ_le_of_lt hk)
    rw [Nat.succ_mul] at h1
    omega
  rw [ha _ hlt, hb _ hlt]

/-! ### The table of 1.0 passes the check -/

/-- A value of at least 1 rounds to a word from 1.0 to infinity. -/
theorem roundF32_ge_one {m : Nat} {e : Int} (hm : m ≠ 0) (h : 0 ≤ (Nat.log2 m : Int) + e) :
    0x3F800000 ≤ (roundF32 false m e).toNat ∧ (roundF32 false m e).toNat ≤ 0x7F800000 := by
  have hl : 2 ^ Nat.log2 m ≤ m := (Nat.le_log2 hm).1 (le_refl _)
  unfold roundF32
  rw [if_neg hm]
  dsimp only
  rw [max_eq_left (by omega : (-149 : Int) ≤ (Nat.log2 m : Int) + e - 23)]
  set q := if (Nat.log2 m : Int) + e - 23 ≤ e then m * 2 ^ (e - ((Nat.log2 m : Int) + e - 23)).toNat
    else roundShift m ((Nat.log2 m : Int) + e - 23 - e).toNat with hq
  have hq23 : 2 ^ 23 ≤ q := by
    rw [hq]
    split
    · rename_i h1
      obtain ⟨k, hk⟩ : ∃ k, (e - ((Nat.log2 m : Int) + e - 23)).toNat = k ∧ Nat.log2 m + k = 23 := ⟨_, rfl, by omega⟩
      rw [hk.1]
      calc 2 ^ 23 = 2 ^ Nat.log2 m * 2 ^ k := by rw [← Nat.pow_add, hk.2]
        _ ≤ m * 2 ^ k := Nat.mul_le_mul_right _ hl
    · rename_i h1
      obtain ⟨k, hk⟩ : ∃ k, ((Nat.log2 m : Int) + e - 23 - e).toNat = k ∧ Nat.log2 m = 23 + k := ⟨_, rfl, by omega⟩
      rw [hk.1]
      have hdiv : 2 ^ 23 ≤ m / 2 ^ k := by
        rw [Nat.le_div_iff_mul_le (by positivity), ← Nat.pow_add, ← hk.2]
        exact hl
      unfold roundShift
      dsimp only
      rw [if_neg (by omega)]
      repeat' split
      all_goals omega
  have hu : 126 ≤ ((Nat.log2 m : Int) + e - 23 + 149).toNat := by omega
  unfold f32Word f32InfMagnitude
  rw [if_neg Bool.false_ne_true, BitVec.toNat_ofNat]
  generalize ((Nat.log2 m : Int) + e - 23 + 149).toNat = u at *
  constructor <;> rw [Nat.mod_eq_of_lt (by omega)] <;> omega

/-- The word is one from 1.0 to infinity. -/
def AtLeastOne (x : F32) : Prop := 0x3F800000 ≤ x.toNat ∧ x.toNat ≤ 0x7F800000

theorem AtLeastOne.fields {x : F32} (h : AtLeastOne x) :
    f32Neg x = false ∧ f32Exp x = x.toNat / 2 ^ 23 ∧ f32Frac x = x.toNat % 2 ^ 23 := by
  obtain ⟨h1, h2⟩ := h
  refine ⟨?_, ?_, ?_⟩
  · unfold f32Neg
    rw [BitVec.getLsbD, Nat.testBit_eq_false_of_lt (by omega)]
  · unfold f32Exp
    rw [BitVec.extractLsb'_toNat, Nat.shiftRight_eq_div_pow, Nat.mod_eq_of_lt (by omega)]
  · unfold f32Frac
    rw [BitVec.extractLsb'_toNat, Nat.shiftRight_zero]

theorem AtLeastOne.not_nan {x : F32} (h : AtLeastOne x) : f32IsNan x = false := by
  obtain ⟨_, he, hf⟩ := h.fields
  obtain ⟨h1, h2⟩ := h
  unfold f32IsNan
  rw [he, hf, Bool.and_eq_false_iff, decide_eq_false_iff_not, decide_eq_false_iff_not]
  omega

/-- Such a word passes the check of 42_window_cola.md R224. -/
theorem AtLeastOne.passes {x : F32} (h : AtLeastOne x) : fgt x Config.eps = true := by
  have hn := h.not_nan
  obtain ⟨hneg, _, _⟩ := h.fields
  unfold fgt
  rw [hn, show f32IsNan Config.eps = false by decide]
  simp only [Bool.not_false, Bool.true_and, decide_eq_true_eq]
  rw [show f32Order Config.eps = 0x358637BD by decide]
  unfold f32Order
  rw [hneg, if_neg Bool.false_ne_true, BitVec.extractLsb'_toNat, Nat.shiftRight_zero,
    Nat.mod_eq_of_lt (by obtain ⟨_, h2⟩ := h; omega)]
  obtain ⟨h1, _⟩ := h
  omega

theorem fmul_one_one (d : Word) : fmul d f32One f32One = f32One := by
  unfold fmul
  rw [show f32IsNan f32One = false by decide, show f32IsInf f32One = false by decide]
  simp only [Bool.or_self, Bool.false_eq_true, if_false]
  decide

theorem f32Signed_one : f32Signed f32One = ((2 ^ 23 : Nat) : Int) := by decide

theorem f32Scale_one : f32Scale f32One = -23 := by decide

/-- The scale and the significand of a word from 1.0 on. -/
theorem AtLeastOne.finite {x : F32} (h : AtLeastOne x) :
    -23 ≤ f32Scale x ∧ f32Signed x = ((f32Frac x + 2 ^ 23 : Nat) : Int) := by
  obtain ⟨hneg, he, hf⟩ := h.fields
  obtain ⟨h1, h2⟩ := h
  have hexp : 127 ≤ f32Exp x := by rw [he]; omega
  constructor
  · unfold f32Scale
    rw [max_eq_left (by omega)]
    omega
  · unfold f32Signed f32Significand
    rw [hneg, if_neg Bool.false_ne_true, if_neg (by omega)]

/-- Adding 1.0 keeps a word from 1.0 to infinity one. -/
theorem fadd_one {d x : Word} (h : AtLeastOne x) : AtLeastOne (fadd d x f32One) := by
  have hn := h.not_nan
  unfold fadd
  rw [hn, show f32IsNan f32One = false by decide, show f32IsInf f32One = false by decide,
    show f32Neg f32One = false by decide, h.fields.1]
  simp only [Bool.or_self, Bool.false_eq_true, if_false, Bool.false_and]
  split
  · exact h
  · obtain ⟨hsc, hsig⟩ := h.finite
    rw [f32Scale_one, min_eq_right hsc, hsig, f32Signed_one, sub_self, Int.toNat_zero]
    obtain ⟨S, hS, hge⟩ : ∃ S : Nat,
        ((f32Frac x + 2 ^ 23 : Nat) : Int) * 2 ^ (f32Scale x - -23).toNat + ((2 ^ 23 : Nat) : Int) * 2 ^ 0 =
          (S : Int) ∧ 2 ^ 23 ≤ S :=
      ⟨(f32Frac x + 2 ^ 23) * 2 ^ (f32Scale x - -23).toNat + 2 ^ 23, by push_cast; ring,
        Nat.le_add_left _ _⟩
    rw [hS]
    have hS0 : S ≠ 0 := fun hc => by
      rw [hc] at hge
      exact absurd hge (by decide)
    rw [if_neg (Int.natCast_ne_zero.2 hS0), decide_eq_false (not_lt.2 (Int.natCast_nonneg S)),
      Int.natAbs_natCast]
    have hl := (Nat.le_log2 hS0).2 hge
    exact roundF32_ge_one hS0 (by omega)

/-- The COLA sum of the table of 1.0 is 1.0 or more. -/
theorem colaSum_ones {N hop i : Nat} (hh : 0 < hop) (hi : i < N) (m n : Nat → Word) :
    AtLeastOne (colaSum m n (fun _ => f32One) (fun _ => f32One) N hop i) := by
  unfold colaSum
  have hpos : 0 < colaTerms N hop i := by
    unfold colaTerms
    exact Nat.div_pos (by omega) hh
  obtain ⟨T, hT⟩ : ∃ T, colaTerms N hop i = T + 1 := ⟨_, (Nat.succ_pred_eq_of_pos hpos).symm⟩
  rw [hT]
  clear hT hpos
  induction T with
  | zero =>
    rw [show List.range 1 = [0] from rfl, List.foldl_cons, List.foldl_nil, fmul_one_one]
    have h : ∀ d, fadd d posZero f32One = f32One := by
      intro d
      unfold fadd
      rw [show f32IsNan posZero = false by decide, show f32IsNan f32One = false by decide,
        show f32IsInf posZero = false by decide, show f32IsInf f32One = false by decide]
      simp only [Bool.or_self, Bool.false_eq_true, if_false]
      decide
    rw [h]
    exact ⟨by decide, by decide⟩
  | succ T ih =>
    rw [List.range_succ, List.foldl_append, List.foldl_cons, List.foldl_nil, fmul_one_one]
    exact fadd_one ih

/-! ### The built-in window -/

/-- The second property of 42_window_cola.md R220: the check of R224 passes for every overlap. -/
theorem windowPasses_hamming (N : Nat) : windowPasses (hamming N) N = true := by
  by_cases h : windowPasses (Config.symmetricTable N) N = true
  · have he : hamming N = Config.symmetricTable N := by
      funext n; unfold hamming; rw [if_pos h]
    rw [he]; exact h
  · have he : hamming N = fun _ => f32One := by
      funext n; unfold hamming; rw [if_neg h]
    rw [he]
    unfold windowPasses
    simp only [List.all_eq_true, List.mem_range]
    exact fun O hO i hi => (colaSum_ones (by omega) (by omega) _ _).passes

/-- The same of the sum that COLA_BUILD computes, whatever its draws (42_window_cola.md R220, R224). -/
theorem hamming_passes {N O i : Nat} (hO : O < N) (hi : i < N - O) (m n : Nat → Word) :
    fgt (colaSum m n (hamming N) (hamming N) N (N - O) i) Config.eps = true := by
  have h := windowPasses_hamming N
  unfold windowPasses at h
  simp only [List.all_eq_true, List.mem_range] at h
  rw [fgt_sameOrNan (colaSum_sameOrNan m n _ _ _ _ _ _ _)]
  exact h O hO i hi

end Sys2Proof.Machine
end

