-- ==== Sys2Proof/Tests/Slice0.lean ====
section
/-! SUPPORT. Tests, and a state that meets the hypotheses of each statement. Expected words are those of
95_test_vectors.md or worked by hand from the rule named. -/

namespace Sys2Proof.Machine.Tests

open Sys2Proof

/-! ### Syntax and encoding -/

/-- An operand that needs a 25th bit has no command word (30_encoding.md R161). -/
theorem test_wide_operand_is_ill_formed : (Instr.write 0x1000000).wellFormed = false := by decide

theorem test_widest_operand_is_well_formed : (Instr.write 0xFFFFFF).wellFormed = true := by decide

/-- NOP takes no operand in assembly (30_encoding.md R168). -/
theorem test_operand_on_nop_does_not_assemble : (Instr.nop 1).assembles = false := by decide

theorem test_operand_on_write_assembles : (Instr.write 1).assembles = true := by decide

/-! Words written out from 30_encoding.md R160 and R162: OPC in the top byte, ARG below. -/

theorem test_decode_nop : decode 0b00000000_000000000000000000000000#32 = some (.nop 0) := by decide

theorem test_decode_init : decode 0b00000001_000000000000000100100011#32 = some (.init 0x123) := by
  decide

theorem test_decode_set_block : decode 0b00000010_000000000000001000000000#32 = some (.setBlock 512) := by
  decide

theorem test_decode_write : decode 0b00000011_111111111111111111111111#32 = some (.write 16777215) := by
  decide

theorem test_decode_read : decode 0b00000100_000000000000000000100000#32 = some (.read 32) := by decide

theorem test_decode_xdone : decode 0b00000101_000000000000000000000000#32 = some (.xdone 0) := by decide

theorem test_decode_sreset : decode 0b00000110_000000000000000000000001#32 = some (.sreset 1) := by decide

theorem test_decode_reserved : decode 0b00000111_000000000000000000000000#32 = none := by decide

theorem test_encode_read : encode (.read 33) = 0x04000021#32 := by decide

/-! ### Small states -/

/-- A table of the RAM whose first n words are v: the top two bytes of each are listed. -/
def table (r : Region) (hi lo : Byte) (n : Nat) : Ram :=
  { fill := some 0#8,
    cells := (List.range n).flatMap fun i =>
      (if lo = 0#8 then [] else [(tableOff r i + 2, lo)]) ++ [(tableOff r i + 3, hi)] }

/-- RAM with rectangular tables of N = 4, hop = 2: 1.0, COLA 2.0, EFFSYN 0.5. -/
def rectMemory : Memory :=
  { Memory.atReset with
    wsrcA := table .wsrcA 0x3F#8 0x80#8 4, wsrcS := table .wsrcS 0x3F#8 0x80#8 4,
    actA := table .actA 0x3F#8 0x80#8 4, actS := table .actS 0x3F#8 0x80#8 4,
    cola := table .cola 0x40#8 0x00#8 2, effsyn := table .effsyn 0x3F#8 0x00#8 4 }

/-- N = 4, O = 2, B = 2, one channel, one stream each way, and the transform mode m. -/
def smallAct (m : BitVec 2) : ActRegs :=
  { fftSize := 4#32, windowSize := 4#32, overlap := 2#32, hop := 2#32, block := 2#32, channels := 1#8,
    window := 1#8, streams := m ++ 0x0101#16, latency := 2#32, spectrumSize := 3#32, inCap := 6#32,
    outCap := 16#32 }

/-- A block with that configuration active, a samples in the input ring and o in the output ring. -/
def small (q : SeqState) (m : BitVec 2) (a o : Nat) : State :=
  { State.reset with
    seq := q, frameCtx := decide (q = .xwait), initResult := .ok,
    faultCode := if q = .fault then .inOverflow else .none,
    act := smallAct m, mem := rectMemory, ringIn := .filled 0#32, ringOut := .filled 0#32,
    tail := .filled 0#32,
    inIx := { rd := 0, wr := a % 6, avail := a }, outIx := { rd := 0, wr := o % 16, avail := o } }

/-- A block after reset, configured for N = 4, O = 2, B = 2 with window w and c channels. -/
def configured (w c : BitVec 8) : State :=
  { State.reset with
    cfg := { channels := c, fftSize := 4#32, overlap := 2#32, window := w, block := 2#32,
             streams := 0x101#18 },
    mem := { Memory.atReset with
      wsrcA := table .wsrcA 0x3F#8 0x80#8 4, wsrcS := table .wsrcS 0x3F#8 0x80#8 4 } }

/-- The state a next outcome gives. -/
def after (o : Host.Outcome State Fault Refusal) : State :=
  match o with
  | .next t => t
  | .fault _ => State.reset
  | .refused _ => State.reset

theorem reference_valid : Config.referenceBuild.Valid where
  nMax_pow := ⟨12, by decide, by decide⟩
  nMax_ge := by decide
  fftSizes_ok := by decide
  fftSizes_2048 := by decide
  inMax_ok := by decide
  outMax_ok := by decide
  bMax_ok := by decide
  stage_ok := by decide
  base_aligned := by decide
  stageIn_fits := by decide
  stageOut_fits := by decide
  specIn_fits := by decide
  specOut_fits := by decide

theorem reset_memory_wf : Memory.wf Memory.atReset := by decide

theorem rect_memory_wf : Memory.wf rectMemory := by decide +kernel

theorem small_active (q : SeqState) (m : BitVec 2) (a o : Nat) (hm : m ≠ 3#2) : ActiveOk (small q m a o) := by
  have h : ∀ m : BitVec 2, m ≠ 3#2 → streamsMode (m ++ 0x0101#16) ≠ .reserved ∧
      (streamsMode (m ++ 0x0101#16) = .inplace → streamsIn (m ++ 0x0101#16) = 1 ∧ streamsOut (m ++ 0x0101#16) = 1) ∧
      streamsIn (m ++ 0x0101#16) = 1 ∧ streamsOut (m ++ 0x0101#16) = 1 := by decide
  obtain ⟨h1, h2, h3, h4⟩ := h m hm
  exact
    { fft_supported := by show Config.referenceBuild.supports 4 = true; decide
      overlap_lt := by show 2 < 4; decide
      hop_eq := rfl
      window_size := rfl
      block_ok := by show 1 ≤ 2 ∧ 2 ≤ 4096; decide
      channels_ok := Nat.le_refl 1
      inputs_ok := by
        show 1 ≤ streamsIn (m ++ 0x0101#16) ∧ streamsIn (m ++ 0x0101#16) ≤ 4
        rw [h3]; decide
      outputs_ok := by
        show 1 ≤ streamsOut (m ++ 0x0101#16) ∧ streamsOut (m ++ 0x0101#16) ≤ 4
        rw [h4]; decide
      window_ok := .inr rfl
      mode_ok := h1
      inplace_ok := h2
      bins_eq := by show 3 = 4 / 2 + 1; decide
      inCap_eq := rfl
      outCap_eq := rfl
      latency_eq := by show 2#32 = wordOfNat (latencyOf 4 2 2); decide }

theorem small_in_ring (q : SeqState) (m : BitVec 2) (a o : Nat) (ha : a ≤ 6) :
    RingOk (small q m a o).inIx (small q m a o).Cin where
  rd_lt := by show 0 < 6; decide
  wr_lt := Nat.mod_lt a (by decide)
  avail_le := ha
  wr_eq := by show a % 6 = (0 + a) % 6; rw [Nat.zero_add]

theorem small_out_ring (q : SeqState) (m : BitVec 2) (a o : Nat) (ho : o ≤ 16) :
    RingOk (small q m a o).outIx (small q m a o).Cout where
  rd_lt := by show 0 < 16; decide
  wr_lt := Nat.mod_lt o (by decide)
  avail_le := ho
  wr_eq := by show o % 16 = (0 + o) % 16; rw [Nat.zero_add]

theorem small_cola (q : SeqState) (m : BitVec 2) (a o : Nat) :
    colaValid (small q m a o).hop (small q m a o) = true := by
  have h : ∀ i ∈ List.range 2,
      fgt (wordOfLanes (((rectMemory.get? (tableOff .cola i)).getD 0#8))
        ((rectMemory.get? (tableOff .cola i + 1)).getD 0#8)
        ((rectMemory.get? (tableOff .cola i + 2)).getD 0#8)
        ((rectMemory.get? (tableOff .cola i + 3)).getD 0#8)) Config.eps = true ∧
      ∀ j, j < 4 → (rectMemory.get? (tableOff .cola i + j)).isSome = true := by decide +kernel
  have hb : ∀ off, (rectMemory.get? off).isSome = true →
      (small q m a o).byteAt off = (rectMemory.get? off).getD 0#8 := by
    intro off ho
    obtain ⟨b, hb⟩ := Option.isSome_iff_exists.1 ho
    show (rectMemory.get? off).getD _ = _
    rw [hb]; rfl
  refine List.all_eq_true.2 fun i hi => ?_
  obtain ⟨h1, h2⟩ := h i hi
  unfold State.wordAt
  rw [hb (tableOff .cola i) (h2 0 (by decide)), hb _ (h2 1 (by decide)), hb _ (h2 2 (by decide)),
    hb _ (h2 3 (by decide))]
  exact h1

theorem filled_wf : Store.wf (Store.filled 0#32) := by decide

theorem unspecified_wf : Store.wf (Store.unspecified : Store Word) := by decide

theorem small_inv (q : SeqState) (m : BitVec 2) (a o : Nat) (hq : q ≠ .uninit) (hm : m ≠ 3#2) (ha : a ≤ 6)
    (ho : o ≤ 16) (hr : q = .ready → a < 4) (hx : q = .xwait → o + 2 ≤ 16) : Inv (small q m a o) where
  build_valid := reference_valid
  storage_wf := ⟨rect_memory_wf, filled_wf, filled_wf, filled_wf, unspecified_wf, unspecified_wf, unspecified_wf⟩
  quiet := ⟨rfl, rfl, rfl⟩
  context := by cases q <;> simp [small]
  cause := by cases q <;> simp [small]
  uninit h := absurd h hq
  active _ := ⟨rfl, small_active q m a o hm⟩
  inRing _ := small_in_ring q m a o ha
  outRing _ := small_out_ring q m a o ho
  cola _ := small_cola q m a o
  ready := hr
  xwait := hx

/-! ### One step of each command -/

theorem test_placed_nop_sets_done : (after (step (State.reset.withFetchWord 32 0))).sticky.done = true := by
  decide

theorem test_nop_keeps_xwait : (after (exec (.nop 7) (small .xwait 1#2 2 0))).seq = .xwait := by decide

/-- N = 4, O = 2, rectangular windows: COLA = 1·1 + 1·1, EFFSYN = 1 / COLA, LATENCY = N - B (hop mod B = 0). -/
theorem test_init_builds_tables :
    let t := after (exec (.init 0) (configured 1#8 1#8))
    t.seq = .ready ∧ t.act.latency = 2#32 ∧ t.wordAt (tableOff .cola 1) = 0x40000000#32 ∧
      t.wordAt (tableOff .effsyn 3) = 0x3F000000#32 := by decide +kernel

/-- No channel is set after reset: CONFIG_INVALID (70_reset_and_hazards.md R421). -/
theorem test_init_after_reset_is_invalid :
    (after (exec (.init 0) State.reset)).initResult = .configInvalid := by decide

/-- B = 3 does not divide hop = 2 and is below N: LATENCY = N, capacities 7 and 24, one sample of padding. -/
theorem test_set_block_rebuilds :
    let t := after (exec (.setBlock 3) (small .ready 0#2 2 5))
    t.act.latency = 4#32 ∧ t.act.inCap = 7#32 ∧ t.act.outCap = 24#32 ∧ t.inIx.avail = 1 ∧
      t.outIx.avail = 0 := by decide

/-- The latencies of 95_test_vectors.md section 1.1. -/
theorem test_latency_boundaries : [latencyOf 8 4 4, latencyOf 8 4 3, latencyOf 8 4 16] = [4, 8, 16] := by
  decide

theorem test_write_pauses_in_external_mode :
    let t := after (exec (.write 2) (small .ready 1#2 2 0))
    t.seq = .xwait ∧ t.inIx.avail = 2 ∧ t.outIx.avail = 0 ∧ t.sticky.done = false := by decide

theorem test_write_overflow_faults :
    let t := after (exec (.write 5) (small .ready 0#2 2 0))
    t.seq = .fault ∧ t.faultCode = .inOverflow ∧ t.inIx.avail = 2 := by decide

theorem test_read_underflows :
    let t := after (exec (.read 3) (small .ready 0#2 2 2))
    t.underflow = true ∧ t.outIx.avail = 2 ∧ t.sticky.done = true := by decide

theorem test_read_drains :
    let t := after (exec (.read 2) (small .ready 0#2 2 2))
    t.underflow = false ∧ t.outIx.avail = 0 ∧ t.wordAt (stageOff t.build .stageOut 0 0 1) = 0#32 := by
  decide +kernel

theorem test_xdone_emits_a_hop :
    let t := after (exec (.xdone 0) (small .xwait 1#2 2 0))
    t.seq = .ready ∧ t.outIx.avail = 2 ∧ t.lastFrames = 1#32 := by decide

theorem test_xdone_in_ready_is_rejected :
    (after (exec (.xdone 0) (small .ready 1#2 2 0))).cmdErr = .badState := by decide

theorem test_sreset_leaves_fault :
    let t := after (exec (.sreset 9) (small .fault 0#2 2 0))
    t.seq = .uninit ∧ t.faultCode = .none ∧ t.act = ActRegs.zero ∧ t.cfg = CfgRegs.atReset := by decide

/-- A read of INT_PENDING that lands at the first point of a command, every draw, and after it a write w at an
offset: what the read returns. -/
def pendingBefore (run : State → State) (k : Sticky) (off : Nat) (w : Word) : List (Option Word) :=
  (List.range 6).map fun d =>
    let s := small .ready 0#2 2 2
    let t := run { s with
      sticky := k,
      overlap := [[{ input := .access (.read 0x028 32), draw := d },
                   { input := .access (.write off 32 w), draw := 0 }]] }
    (settleTransit t).resp.head?.bind Response.data

/-- R431: no draw shows an earlier read what a later host access does: a WRITE gives INT_PENDING no value, so a
rejected command word and a clear of DONE stay unseen. -/
theorem test_write_gives_no_pending_bit :
    pendingBefore (runWrite 0) Sticky.zero 0x020 0#32 = List.replicate 6 (some 0#32) ∧
      pendingBefore (runWrite 0) { Sticky.zero with done := true } 0x028 1#32 =
        List.replicate 6 (some 1#32) := by decide

/-- R311, R431: the UNDERFLOW of a READ of three samples, of which there are two, can be seen early, the
CMDERR of the rejected word after the read cannot. -/
theorem test_read_gives_underflow_alone :
    pendingBefore (runRead 3) Sticky.zero 0x020 0#32 =
      [some 0#32, some 0#32, some 0x20#32, some 0#32, some 0#32, some 0x20#32] := by decide +kernel

/-- What a register read at an offset returns that lands at the second point of an SRESET in XWAIT, and
draws d. INT_PENDING is 0x22 before the command. -/
def readDuringSreset (off d : Nat) : Option Word :=
  let s := small .xwait 1#2 2 0
  let t := runSreset { s with
    sticky := { s.sticky with underflow := true },
    overlap := [[], [{ input := .access (.read (s.build.base + off) 32), draw := d }]] }
  (settleTransit t).resp.getLast?.bind Response.data

/-- R319: state <- UNINIT stands before busy <- 0, everything else that is cleared after it (R431). -/
theorem test_sreset_clears_registers_with_busy :
    (List.range 3).map (readDuringSreset 0x028) = [some 0x20#32, some 0x22#32, some 0x20#32] ∧
      (List.range 3).map (readDuringSreset 0x060) = [some 4#32, some 4#32, some 4#32] ∧
      readDuringSreset 0x024 0 = some 0x104#32 := by decide

/-- R138: once the state is XWAIT a read sees the effects of the command and of the host's own writes,
whatever the draw; STATUS still shows BUSY. -/
theorem test_pause_shows_every_effect :
    let read (off d : Nat) : Landing := { input := .access (.read off 32), draw := d }
    let s : State := { small .ready 1#2 4 0 with
      busy := true, overlap := [[read 0x024 0, read 0x090 1, read 0x06000000 1]],
      transit := { watched := [{ off := 0x090, values := [7#32] },
                               { off := 0x06000000, values := [8#32, 9#32] }],
                   late := [{ off := 0x06000000, data := 5#32, wait := 9 }], drawn := [] } }
    (settleTransit (pauseFrame s)).resp.map Response.data = [some 0x106#32, some 4#32, some 5#32] := by
  decide

/-! ### Arithmetic (00_scope.md R16), worked by hand -/

theorem test_add_rounds_ties_to_even :
    fadd 0#32 0x4B800000#32 0x3F800000#32 = 0x4B800000#32 ∧
      fadd 0#32 0x4B800001#32 0x3F800000#32 = 0x4B800002#32 := by decide

theorem test_product_of_subnormals : fmul 0#32 0x00000003#32 0x3F000000#32 = 0x00000002#32 := by decide

theorem test_one_third : fdiv 0#32 0x3F800000#32 0x40400000#32 = 0x3EAAAAAB#32 := by decide

theorem test_comparison_with_nan : fgt 0x7FC00000#32 0#32 = false ∧ fgt 0x358637BE#32 Config.eps = true ∧
    fgt Config.eps Config.eps = false := by decide

/-! ### Bus -/

/-- A word written to a source window reads back, its low byte at the lowest address
(20_memory.md R129, R132). -/
theorem test_little_endian_ram :
    let t := busWrite State.reset 0x00400004 32 0x3F80AA55#32
    (readResponse t 0x00400004 32).data = some 0x3F80AA55#32 ∧ t.byteAt 0x00400004 = 0x55#8 := by
  decide +kernel

theorem test_misaligned_and_narrow_accesses_are_refused :
    (readResponse State.reset 0x00400002 32).error = true ∧
      (readResponse State.reset 0x00400000 16).error = true ∧
      (readResponse State.reset 0x01C00000 32).error = true := by decide

/-! ### A state that meets the hypotheses of each statement, at the boundaries of its clauses -/

theorem witness_DecodeOfEncodeIsIdentity :
    (Instr.setBlock 0xFFFFFF).wellFormed = true ∧ (Instr.setBlock 0).wellFormed = true := by decide

theorem witness_DecodedWordReencodes :
    decode 0x06FFFFFF#32 = some (.sreset 0xFFFFFF) ∧ decode 0x00000000#32 = some (.nop 0) := by decide

theorem witness_OpcodeMapSelectsByTopByte :
    0x00FFFFFF#32 &&& 0xFF000000#32 = 0x00000000#32 ∧ 0x01000000#32 &&& 0xFF000000#32 = 0x01000000#32 ∧
    0x02FFFFFF#32 &&& 0xFF000000#32 = 0x02000000#32 ∧ 0x03000000#32 &&& 0xFF000000#32 = 0x03000000#32 ∧
    0x04FFFFFF#32 &&& 0xFF000000#32 = 0x04000000#32 ∧ 0x05000000#32 &&& 0xFF000000#32 = 0x05000000#32 ∧
    0x06FFFFFF#32 &&& 0xFF000000#32 = 0x06000000#32 ∧ 0x07000000#32 ≤ 0x07000000#32 ∧
    0x07000000#32 ≤ 0xFFFFFFFF#32 := by decide

theorem witness_IgnoredOperandsHaveNoEffect : decode 0x03FFFFFF#32 = some (.write 0xFFFFFF) := by decide

/-- A state with one arrival at the port. -/
def arriving (s : State) (i : Input) : State := { s with port := [{ input := i, during := [] }] }

theorem witness_StepExecutesSubmittedCommand :
    let s := arriving (small .ready 0#2 2 0) (.access (.write 0x020 32 0x03000002#32))
    s.rst = false ∧ s.build.base % Config.windowBytes = 0 ∧
      s.port = { input := .access (.write (s.build.base + 0x020) 32 0x03000002#32), during := [] } :: [] ∧
      decode 0x03000002#32 = some (.write 2) := by decide

/-- A reserved word at the port, of an idle block and of one that runs a command. -/
theorem witness_StepExecutesSubmittedCommand_reserved :
    let s := arriving (small .ready 0#2 2 0) (.access (.write 0x020 32 0x07000000#32))
    s.rst = false ∧ s.build.base % Config.windowBytes = 0 ∧
      s.port = { input := .access (.write (s.build.base + 0x020) 32 0x07000000#32), during := [] } :: [] ∧
      decode 0x07000000#32 = none ∧ s.busy = false ∧ { s with busy := true }.busy = true := by decide

theorem witness_PlacedCommandWordIsRunNext :
    State.reset.build.base % Config.windowBytes = 0 ∧ 0x06FFFFFF < 2 ^ 32 ∧
      decode (BitVec.ofNat 32 0x06FFFFFF) = some (.sreset 0xFFFFFF) := by decide

theorem witness_IdleBlockKeepsItsState : State.reset.port = [] := rfl

/-- One command at each clause: busy; a state that does not accept; a count, a capacity and a block
just out of range. -/
theorem witness_RejectedCommandsChangeOnlyCmdErr :
    { small .ready 0#2 2 0 with busy := true }.busy = true ∧
    (small .xwait 1#2 2 0).seq = .xwait ∧ (small .ready 0#2 2 0).seq ≠ .xwait ∧
    (small .fault 0#2 2 0).seq ≠ .ready ∧
    (small .ready 0#2 2 0).busy = false ∧ (small .ready 0#2 2 0).seq = .ready ∧
    (small .ready 0#2 2 0).build.stageFrames < 4097 ∧ (small .ready 0#2 2 0).Cout < 17 ∧
    (small .ready 0#2 2 0).build.bMax < 4097 := by decide

theorem witness_ReservedOpcodeIsRejected :
    0x07000000#32 ≤ 0x07000000#32 ∧ 0x07000000#32 ≤ 0xFFFFFFFF#32 ∧ State.reset.busy = false ∧
      { State.reset with busy := true }.busy = true := by decide

theorem witness_OverlappedCommandIsRejectedBusy :
    let s := small .ready 0#2 2 4
    Quiet s ∧ s.build.base % Config.windowBytes = 0 ∧ rejection s (.nop 0) = none ∧
      rejection s (.setBlock 4096) = none ∧ rejection s (.read 16) = none := by decide

theorem witness_StatusReadDuringCommandShowsBusy :
    Quiet (small .fault 0#2 2 0) ∧ (small .fault 0#2 2 0).build.base % Config.windowBytes = 0 := by decide

/-- The last sample of a READ that leaves none, and the first of one that underflows. -/
theorem witness_OverlappedReadDrawsOldOrNew :
    Inv (small .ready 0#2 2 5) ∧
    let s := small .ready 0#2 2 5
    s.seq = .ready ∧ 5 ≤ s.build.stageFrames ∧ 5 ≤ s.Cout ∧ 0 < s.J ∧ 0 < s.C ∧ 4 < 5 ∧ 0 < 6 ∧ 1 < 2 ∧
      (∃ t, exec (.read 5) s = .next t) ∧ 6 ≤ s.Cout ∧ s.outIx.avail < 6 ∧ ∃ t, exec (.read 6) s = .next t :=
  ⟨small_inv _ _ _ _ (by decide) (by decide) (by decide) (by decide) (by decide) (by decide),
    by decide, by decide, by decide, by decide, by decide, by decide, by decide, by decide,
    ⟨_, exec_accepted (by decide)⟩, by decide, by decide, _, exec_accepted (by decide)⟩

/-- The two samples of a WRITE of two. -/
theorem witness_OverlappedWritesAreDrawnPerWord :
    Inv (small .ready 0#2 1 0) ∧
    let s := small .ready 0#2 1 0
    s.seq = .ready ∧ 2 ≤ s.build.stageFrames ∧ s.inIx.avail + 2 < s.N ∧ 0 < s.I ∧ 0 < s.C ∧ 0 < 2 ∧ 1 < 2 ∧
      (0, 0, 0) ≠ (0, 0, 1) :=
  ⟨small_inv _ _ _ _ (by decide) (by decide) (by decide) (by decide) (by decide) (by decide), by decide⟩

theorem witness_NopOnlySetsDone : Quiet (small .xwait 2#2 2 0) := by decide

theorem witness_SresetClearsAllButConfigurationAndRam : Quiet (small .xwait 1#2 2 0) := by decide

theorem witness_SresetKeepsEveryRamByte : Quiet (small .ready 0#2 3 16) := by decide

theorem witness_SresetReadsAsNewEngine : Quiet (small .fault 0#2 2 0) := by decide

theorem witness_SetBlockOutsideReadyWritesOnlyCfgBlock :
    Quiet State.reset ∧ State.reset.seq = .uninit ∧ Quiet (small .fault 0#2 2 0) ∧
      (small .fault 0#2 2 0).seq = .fault ∧ 1 ≤ 4096 ∧ 4096 ≤ State.reset.build.bMax := by decide

/-- Block sizes on each branch of the latency: 2 divides hop, 3 is below N, 4096 is not. -/
theorem witness_SetBlockInReadyRebuildsRings :
    Inv (small .ready 0#2 3 16) ∧ (small .ready 0#2 3 16).seq = .ready ∧
      (small .ready 0#2 3 16).hop % 2 = 0 ∧ (small .ready 0#2 3 16).hop % 3 ≠ 0 ∧
      3 < (small .ready 0#2 3 16).N ∧ (small .ready 0#2 3 16).hop % 4096 ≠ 0 ∧
      4096 ≤ (small .ready 0#2 3 16).build.bMax :=
  ⟨small_inv _ _ _ _ (by decide) (by decide) (by decide) (by decide) (by decide) (by decide), by decide⟩

/-- The three failures: no channel; an adapter that reports failure; windows of +0.0 (COLA 0). -/
theorem witness_FailedInitLeavesUninit :
    (Quiet State.reset ∧ State.reset.seq ≠ .xwait ∧
      configValid State.reset.build State.reset.cfg = false) ∧
    (let s := { configured 1#8 1#8 with adapterOk := false }
     Quiet s ∧ s.seq ≠ .xwait ∧ configValid s.build s.cfg = true ∧ s.adapterOk = false) ∧
    let s := { configured 1#8 1#8 with
      mem := { Memory.atReset with wsrcA := .filled 0#8, wsrcS := .filled 0#8 } }
    Quiet s ∧ s.seq ≠ .xwait ∧ configValid s.build s.cfg = true ∧ s.adapterOk = true ∧
      colaValid (cfgHop s.cfg) (buildTables s.cfg (acceptCmd s)) = false := by decide +kernel

theorem witness_FailedInitLeavesUninit_build :
    State.reset.build.Valid ∧ (configured 1#8 1#8).build.Valid := ⟨reference_valid, reference_valid⟩

theorem witness_SuccessfulInitCommitsConfiguration :
    (configured 1#8 1#8).build.Valid ∧
    let s := configured 1#8 1#8
    Quiet s ∧ s.seq ≠ .xwait ∧ configValid s.build s.cfg = true ∧ s.adapterOk = true ∧
      colaValid (cfgHop s.cfg) (buildTables s.cfg (acceptCmd s)) = true :=
  ⟨reference_valid, by decide +kernel⟩

theorem witness_InitBuildsWindowTables :
    (configured 1#8 1#8).build.Valid ∧ Quiet (configured 1#8 1#8) ∧ (configured 1#8 1#8).seq ≠ .xwait ∧
      ∃ t, exec (.init 0) (configured 1#8 1#8) = .next t ∧ t.seq = .ready ∧ 3 < t.N ∧
        t.N ≤ 4 ∧ t.N ≤ 4095 :=
  ⟨reference_valid, by decide, by decide, _, exec_accepted (by decide), by decide +kernel⟩

theorem witness_HammingInitSucceeds :
    (configured 0#8 1#8).build.Valid ∧
    let s := configured 0#8 1#8
    Quiet s ∧ s.seq ≠ .xwait ∧ configValid s.build s.cfg = true ∧ s.adapterOk = true ∧ s.cfg.window = 0#8 ∧
      3 < s.cfg.fftSize.toNat :=
  ⟨reference_valid, by decide⟩

theorem witness_InitBuildsColaAndEffectiveWindow :
    (configured 1#8 1#8).build.Valid ∧ Quiet (configured 1#8 1#8) ∧ (configured 1#8 1#8).seq ≠ .xwait ∧
      ∃ t, exec (.init 0) (configured 1#8 1#8) = .next t ∧ t.seq = .ready ∧ 1 < t.hop ∧ t.hop ≤ 2 ∧
        3 < t.N ∧ t.N ≤ 4 :=
  ⟨reference_valid, by decide, by decide, _, exec_accepted (by decide), by decide +kernel⟩

/-- Two samples held, five more than the capacity of six takes. -/
theorem witness_WriteFaultsOnInputOverflow :
    let s := small .ready 0#2 2 0
    Quiet s ∧ s.seq = .ready ∧ 5 ≤ s.build.stageFrames ∧ s.Cin < s.inIx.avail + 5 := by decide

theorem witness_WriteBelowAWindowOnlyAppends :
    Inv (small .ready 0#2 1 0) ∧
    let s := small .ready 0#2 1 0
    s.seq = .ready ∧ 2 ≤ s.build.stageFrames ∧ s.inIx.avail + 2 < s.N ∧ s.inIx.avail + 0 < s.N :=
  ⟨small_inv _ _ _ _ (by decide) (by decide) (by decide) (by decide) (by decide) (by decide), by decide⟩

/-- Two frames that just fit the output ring. -/
theorem witness_IdentityWriteCompletesItsFrames :
    Inv (small .ready 0#2 2 12) ∧
    let s := small .ready 0#2 2 12
    s.seq = .ready ∧ s.tmode = .identity ∧ 4 ≤ s.build.stageFrames ∧ s.inIx.avail + 4 ≤ s.Cin ∧
      s.outIx.avail + framesOf s.N s.hop s.inIx.avail 4 * s.hop ≤ s.Cout :=
  ⟨small_inv _ _ _ _ (by decide) (by decide) (by decide) (by decide) (by decide) (by decide), by decide⟩

/-- The fewest and the most samples that give one frame, which just fits the output ring. -/
theorem witness_IdentityWriteOfOneFrameReconstructs :
    Inv (small .ready 0#2 2 14) ∧
    let s := small .ready 0#2 2 14
    s.seq = .ready ∧ s.tmode = .identity ∧ 3 ≤ s.build.stageFrames ∧ s.N ≤ s.inIx.avail + 2 ∧
      s.inIx.avail + 3 < s.N + s.hop ∧ s.inIx.avail + 3 ≤ s.Cin ∧ s.outIx.avail + s.hop ≤ s.Cout :=
  ⟨small_inv _ _ _ _ (by decide) (by decide) (by decide) (by decide) (by decide) (by decide), by decide⟩

/-- Two frames of which the second just fails to fit; and a first frame that just fails to, in each of the
other modes. -/
theorem witness_WriteFaultsOnOutputOverflow :
    (Inv (small .ready 0#2 2 13) ∧ Inv (small .ready 1#2 2 15) ∧ Inv (small .ready 2#2 2 15)) ∧
    (let s := small .ready 0#2 2 13
     s.seq = .ready ∧ s.tmode = .identity ∧ 4 ≤ s.build.stageFrames ∧ s.inIx.avail + 4 ≤ s.Cin ∧
       s.Cout < s.outIx.avail + framesOf s.N s.hop s.inIx.avail 4 * s.hop) ∧
    (let s := small .ready 1#2 2 15
     s.seq = .ready ∧ 2 ≤ s.build.stageFrames ∧ s.N ≤ s.inIx.avail + 2 ∧ s.inIx.avail + 2 ≤ s.Cin ∧
       s.Cout < s.outIx.avail + s.hop) ∧
    let s := small .ready 2#2 2 15
    s.seq = .ready ∧ 4 ≤ s.build.stageFrames ∧ s.N ≤ s.inIx.avail + 4 ∧ s.inIx.avail + 4 ≤ s.Cin ∧
      s.Cout < s.outIx.avail + s.hop :=
  ⟨⟨small_inv _ _ _ _ (by decide) (by decide) (by decide) (by decide) (by decide) (by decide),
    small_inv _ _ _ _ (by decide) (by decide) (by decide) (by decide) (by decide) (by decide),
    small_inv _ _ _ _ (by decide) (by decide) (by decide) (by decide) (by decide) (by decide)⟩,
    by decide⟩

/-- The frame just fits the output ring, in each of the two modes. -/
theorem witness_WritePausesForTheTransformAgent :
    (Inv (small .ready 1#2 2 14) ∧ Inv (small .ready 2#2 2 14)) ∧
    (let s := small .ready 1#2 2 14
     s.seq = .ready ∧ s.tmode = .external ∧ 2 ≤ s.build.stageFrames ∧ s.N ≤ s.inIx.avail + 2 ∧
       s.inIx.avail + 2 ≤ s.Cin ∧ s.outIx.avail + s.hop ≤ s.Cout) ∧
    let s := small .ready 2#2 2 14
    s.seq = .ready ∧ s.tmode = .inplace ∧ 4 ≤ s.build.stageFrames ∧ s.N ≤ s.inIx.avail + 4 ∧
      s.inIx.avail + 4 ≤ s.Cin ∧ s.outIx.avail + s.hop ≤ s.Cout :=
  ⟨⟨small_inv _ _ _ _ (by decide) (by decide) (by decide) (by decide) (by decide) (by decide),
    small_inv _ _ _ _ (by decide) (by decide) (by decide) (by decide) (by decide) (by decide)⟩, by decide⟩

theorem witness_XdoneSynthesizesThePausedFrame :
    Inv (small .xwait 1#2 3 14) ∧ (small .xwait 1#2 3 14).seq = .xwait ∧
      (small .xwait 1#2 3 14).inIx.avail < (small .xwait 1#2 3 14).N :=
  ⟨small_inv _ _ _ _ (by decide) (by decide) (by decide) (by decide) (by decide) (by decide), by decide⟩

/-- A next frame that just fits, and one that just does not. -/
theorem witness_XdoneContinuesTheFrameLoop :
    (Inv (small .xwait 1#2 4 12) ∧ Inv (small .xwait 2#2 4 13)) ∧
    (let s := small .xwait 1#2 4 12
     s.seq = .xwait ∧ s.tmode ≠ .identity ∧ s.N ≤ s.inIx.avail ∧ s.outIx.avail + 2 * s.hop ≤ s.Cout) ∧
    let s := small .xwait 2#2 4 13
    s.seq = .xwait ∧ s.tmode ≠ .identity ∧ s.N ≤ s.inIx.avail ∧ s.Cout < s.outIx.avail + 2 * s.hop :=
  ⟨⟨small_inv _ _ _ _ (by decide) (by decide) (by decide) (by decide) (by decide) (by decide),
    small_inv _ _ _ _ (by decide) (by decide) (by decide) (by decide) (by decide) (by decide)⟩, by decide⟩

/-- A WRITE of two frames. -/
theorem witness_InplaceUntouchedEqualsIdentity :
    Inv (small .ready 2#2 2 0) ∧ (small .ready 2#2 2 0).seq = .ready ∧
      (small .ready 2#2 2 0).tmode = .inplace ∧
      ∃ t, exec (.write 4) (withIdentity (small .ready 2#2 2 0)) = .next t :=
  ⟨small_inv _ _ _ _ (by decide) (by decide) (by decide) (by decide) (by decide) (by decide), by decide,
    by decide, _, exec_accepted (by decide)⟩

theorem witness_ReadReturnsTheOldestSamples :
    Inv (small .ready 0#2 2 5) ∧
    let s := small .ready 0#2 2 5
    s.seq = .ready ∧ 5 ≤ s.build.stageFrames ∧ 5 ≤ s.outIx.avail :=
  ⟨small_inv _ _ _ _ (by decide) (by decide) (by decide) (by decide) (by decide) (by decide), by decide⟩

theorem witness_UnderflowingReadReturnsZeros :
    Inv (small .ready 0#2 2 5) ∧
    let s := small .ready 0#2 2 5
    s.seq = .ready ∧ 16 ≤ s.build.stageFrames ∧ 16 ≤ s.Cout ∧ s.outIx.avail < 6 ∧ s.outIx.avail < 16 :=
  ⟨small_inv _ _ _ _ (by decide) (by decide) (by decide) (by decide) (by decide) (by decide), by decide⟩

/-- Rings that an append just fills, and a whole window to read. -/
theorem witness_RingStorageRefinesSequences :
    let s := small .xwait 1#2 4 14
    s.build.Valid ∧ ActiveOk s ∧ RingOk s.inIx s.Cin ∧ RingOk s.outIx s.Cout ∧
      s.outIx.avail + 2 ≤ s.Cout ∧ s.inIx.avail + 2 ≤ s.Cin ∧ 14 ≤ s.outIx.avail ∧
      s.N ≤ s.inIx.avail ∧ 0 < s.I ∧ 0 < s.J ∧ 0 < s.C :=
  ⟨reference_valid, small_active _ _ _ _ (by decide), small_in_ring _ _ _ _ (by decide),
    small_out_ring _ _ _ _ (by decide), by decide⟩

theorem witness_SuccessiveWindowsOverlap :
    let s := small .xwait 1#2 4 0
    s.build.Valid ∧ ActiveOk s ∧ RingOk s.inIx s.Cin ∧ s.N ≤ s.inIx.avail ∧
      s.N ≤ s.inIx.avail - s.hop + 2 ∧ s.inIx.avail - s.hop + 4 ≤ s.Cin ∧ 1 < s.N - s.hop :=
  ⟨reference_valid, small_active _ _ _ _ (by decide), small_in_ring _ _ _ _ (by decide), by decide⟩

/-- The first and the last word of the register page and of a table are read; what lies beyond is not. -/
theorem witness_BusReadsAreRefusedExactly :
    State.reset.build.Valid ∧ (readResponse State.reset 0x000 32).error = false ∧
      (readResponse State.reset 0xFFC 32).error = false ∧
      (readResponse State.reset 0x1000 32).error = true ∧
      (readResponse State.reset 0x00403FFC 32).error = false ∧
      (readResponse State.reset 0x00404000 32).error = true ∧
      (readResponse State.reset 0x02FEFFFC 32).error = false ∧
      (readResponse State.reset 0x02FF0000 32).error = true :=
  ⟨reference_valid, by decide⟩

theorem witness_RefusedWritesHaveNoEffect :
    State.reset.build.Valid ∧ (readResponse State.reset 0x021 32).error = true ∧
      Region.effsyn ∈ [Region.actA, .actS, .cola, .effsyn] ∧ 4095 < State.reset.build.nMax :=
  ⟨reference_valid, by decide⟩

/-- The last element of each kind of region, and the first. -/
theorem witness_RamWriteReadsBack :
    State.reset.build.Valid ∧
    let b := State.reset.build
    0 < b.nMax ∧ 4095 < b.nMax ∧ 3 < b.inMax ∧ 3 < b.outMax ∧ 254 < 255 ∧ 4095 < b.stageFrames ∧
      2048 < b.nMax / 2 + 1 := ⟨reference_valid, by decide⟩

/-- The offset on each side of CMD, those on each side of the writable registers, and the boundaries of the
reserved ranges. -/
theorem witness_OtherCsrWritesHaveNoEffect :
    (0x01C ≠ 0x020 ∧ ¬(0x028 ≤ 0x01C ∧ 0x01C ≤ 0x044)) ∧ (0x024 ≠ 0x020 ∧ ¬(0x028 ≤ 0x024 ∧ 0x024 ≤ 0x044)) ∧
      (0x048 ≠ 0x020 ∧ ¬(0x028 ≤ 0x048 ∧ 0x048 ≤ 0x044)) ∧ 0x048 ≤ 0x05C ∧ 0x0A0 ≤ 0x0A0 := by decide

/-- A register written at the port: the first and the last offset of the page beside CMD. -/
theorem witness_WritableRegistersReadBack :
    State.reset.build.base % Config.windowBytes = 0 ∧ 0x01C < 0x1000 ∧ 0x01C % 4 = 0 ∧ 0x01C ≠ 0x020 ∧
      0xFFC < 0x1000 ∧ 0xFFC % 4 = 0 ∧
      let s := arriving (small .ready 0#2 2 0) (.access (.write 0x034 32 8#32))
      s.rst = false ∧ (0x034 ≠ s.build.base + 0x020 ∨ 32 ≠ 32) ∧
        s.port = { input := .access (.write 0x034 32 8#32), during := [] } :: [] := by decide

/-- A block whose last INIT failed. -/
def failed : State := { State.reset with mem := rectMemory, initResult := .windowInvalid }

theorem failed_inv : Inv failed where
  build_valid := reference_valid
  storage_wf := ⟨rect_memory_wf, by decide, by decide, by decide, by decide, by decide, by decide⟩
  quiet := ⟨rfl, rfl, rfl⟩
  context := by decide
  cause := by decide
  uninit _ := by decide
  active h := absurd rfl h
  inRing h := absurd rfl h
  outRing h := absurd rfl h
  cola h := absurd rfl h
  ready h := by cases h
  xwait h := by cases h

/-- A read of a register at the port, both ends of the page, the first and the last element of a region of
each shape, and a block in UNINIT. -/
theorem witness_BusReadsReturnCurrentValues :
    (let s := arriving (small .ready 0#2 2 0) (.access (.read 0x024 32))
     s.rst = false ∧ s.port = { input := .access (.read 0x024 32), during := [] } :: [] ∧
       s.build.base % Config.windowBytes = 0 ∧ 0x000 < 0x1000 ∧ 0xFFC < 0x1000 ∧ 0xFFC % 4 = 0) ∧
    (State.reset.build.Valid ∧ IsElementWord State.reset.build 0x00C00000 ∧
      IsElementWord State.reset.build 0x01803FFC ∧
      IsElementWord State.reset.build (stageOff State.reset.build .stageOut 3 254 4095) ∧
      IsElementWord State.reset.build (specOff State.reset.build .specIn 3 254 2048 + 4)) ∧
    Inv failed ∧ failed.seq = .uninit ∧ 0x060 ≤ 0x09C :=
  ⟨by decide, ⟨reference_valid, .inl ⟨.actA, 0, by decide, by decide, by decide⟩,
    .inl ⟨.effsyn, 4095, by decide, by decide, by decide⟩,
    .inr (.inr (.inl ⟨3, 254, 4095, by decide, by decide, by decide, rfl⟩)),
    .inr (.inr (.inr (.inl ⟨3, 254, 2048, by decide, by decide, by decide, .inr rfl⟩)))⟩,
    failed_inv, rfl, by decide⟩

theorem witness_HardwareResetRestoresResetState :
    (arriving (small .xwait 1#2 2 0) (.rst true)).port = { input := .rst true, during := [] } :: [] ∧
    (arriving (small .xwait 1#2 2 0) (.rst false)).port = { input := .rst false, during := [] } :: [] ∧
    let s := { arriving State.reset (.access (.write 0x020 32 0#32)) with rst := true }
    s.rst = true ∧ s.port = { input := .access (.write 0x020 32 0#32), during := [] } :: [] := by decide

theorem small_storage_wf (q : SeqState) (m : BitVec 2) (a o : Nat) (p : List Arrival) :
    StorageWf { small q m a o with port := p } :=
  ⟨rect_memory_wf, filled_wf, filled_wf, filled_wf, unspecified_wf, unspecified_wf, unspecified_wf⟩

theorem witness_StepKeepsInvariant :
    ∃ t, Inv (small .ready 1#2 3 14) ∧ step (small .ready 1#2 3 14) = .next t :=
  ⟨_, small_inv _ _ _ _ (by decide) (by decide) (by decide) (by decide) (by decide) (by decide), rfl⟩

theorem witness_StepKeepsStorageCanonical :
    let s := arriving (small .ready 1#2 3 14) (.access (.write 0x034 32 8#32))
    StorageWf s ∧ ∃ t, step s = .next t :=
  ⟨small_storage_wf _ _ _ _ _, _, rfl⟩

theorem witness_TablesChangeOnlyByInit :
    Inv (small .ready 0#2 3 16) ∧ (∀ a, Instr.read 16 ≠ .init a) ∧
      (∃ t, exec (.read 16) (small .ready 0#2 3 16) = .next t) ∧
      regionOf 0x01400000 = some .cola ∧ Region.cola ∈ [Region.actA, .actS, .cola, .effsyn] :=
  ⟨small_inv _ _ _ _ (by decide) (by decide) (by decide) (by decide) (by decide) (by decide),
    fun _ => Instr.noConfusion, ⟨_, exec_accepted (by decide)⟩, by decide, by decide⟩

theorem witness_FaultIsLeftOnlyByInitOrSreset :
    Quiet (small .fault 0#2 2 0) ∧ (small .fault 0#2 2 0).seq = .fault ∧
      (∀ a, Instr.setBlock 8 ≠ .init a) ∧ (∀ a, Instr.setBlock 8 ≠ .sreset a) ∧
      ∃ t, exec (.setBlock 8) (small .fault 0#2 2 0) = .next t :=
  ⟨by decide, by decide, fun _ => Instr.noConfusion, fun _ => Instr.noConfusion, _,
    exec_accepted (by decide)⟩

/-- +∞ + -∞, 0 · ∞ and 0 / 0 are NaN. -/
theorem witness_NanResultsAreQuiet :
    f32IsNan (fadd 0#32 0x7F800000#32 0xFF800000#32) = true ∧
      f32IsNan (fmul 0#32 0#32 0x7F800000#32) = true ∧ f32IsNan (fdiv 0#32 0#32 0#32) = true := by decide

/-- Halves that go down to 2 and up to 4. -/
theorem witness_RoundingIsToNearestEven :
    2 * 5 = (2 * roundShift 5 1 + 1) * 2 ^ 1 ∧ 2 * roundShift 7 1 * 2 ^ 1 = 2 * 7 + 2 ^ 1 := by decide

/-- Words on each side of every clause: a NaN, the smallest subnormal, an infinity, the zeros and a negative. -/
theorem witness_FloatIdentitiesAndCommutation :
    f32IsNan 0x7FC00000#32 = true ∧ f32IsNan 0x00000001#32 = false ∧ f32IsNan 0xFF800000#32 = false ∧
      f32IsNan 0x80000000#32 = false ∧ BitVec.getLsbD 0x7F800000#32 31 = false ∧
      BitVec.getLsbD 0x80000000#32 31 = true := by decide

/-- A finite divisor that is no zero and one that is, operands of sum 0, and the words at the ends of the
finite range. -/
theorem witness_ArithmeticIsCorrectlyRounded :
    (f32Finite 0x00000001#32 = true ∧ f32Finite 0xFF7FFFFF#32 = true ∧ f32Finite 0x80000000#32 = true) ∧
      f32Value 0x00000001#32 ≠ 0 ∧ f32Value 0x80000000#32 = 0 ∧
      f32Value 0x3F800000#32 + f32Value 0xBF800000#32 = 0 := by
  have h1 : f32Signed 0x00000001#32 = 1 := by decide
  have h2 : f32Signed 0x80000000#32 = 0 := by decide
  have h3 : f32Signed 0xBF800000#32 = -f32Signed 0x3F800000#32 := by decide
  have h4 : f32Scale 0xBF800000#32 = f32Scale 0x3F800000#32 := by decide
  refine ⟨by decide, ?_, ?_, ?_⟩
  · unfold f32Value; rw [h1]; positivity
  · unfold f32Value; rw [h2]; simp
  · unfold f32Value; rw [h3, h4]; push_cast; ring

/-- The largest value plus half a unit of its last place is an infinity, plus a quarter it stays. -/
theorem test_add_overflows_at_half_a_unit :
    fadd 0#32 0x7F7FFFFF#32 0x73000000#32 = 0x7F800000#32 ∧
      fadd 0#32 0x7F7FFFFF#32 0x72800000#32 = 0x7F7FFFFF#32 := by decide

end Sys2Proof.Machine.Tests
end

section
/-! SUPPORT. The fields of a binary32 word, words assembled from a sign and a magnitude, and when an
operation gives a NaN (00_scope.md R16, R17). -/

namespace Sys2Proof.Machine

/-! ### The fields of a word -/

theorem f32Neg_eq_toNat (w : F32) : f32Neg w = decide (2 ^ 31 ≤ w.toNat) := by
  have hw : w.toNat < 2 ^ 32 := w.isLt
  rw [f32Neg, BitVec.getLsbD, Nat.testBit_eq_decide_div_mod_eq]
  exact decide_eq_decide.2 (by omega)

theorem f32Exp_eq_toNat (w : F32) : f32Exp w = w.toNat / 2 ^ 23 % 2 ^ 8 := by
  rw [f32Exp, BitVec.extractLsb'_toNat, Nat.shiftRight_eq_div_pow]

theorem f32Frac_eq_toNat (w : F32) : f32Frac w = w.toNat % 2 ^ 23 := by
  rw [f32Frac, BitVec.extractLsb'_toNat, Nat.shiftRight_zero]

theorem f32Exp_lt (w : F32) : f32Exp w < 2 ^ 8 := (w.extractLsb' 23 8).isLt

theorem f32Frac_lt (w : F32) : f32Frac w < 2 ^ 23 := (w.extractLsb' 0 23).isLt

theorem f32Significand_lt (w : F32) : f32Significand w < 2 ^ 24 := by
  have := f32Frac_lt w
  unfold f32Significand
  split <;> omega

theorem f32Scale_ge (w : F32) : -149 ≤ f32Scale w := by
  unfold f32Scale
  omega

/-- A zero significand is a zero word. -/
theorem f32IsZero_iff (w : F32) : f32IsZero w = true ↔ f32Significand w = 0 := by
  rw [f32IsZero, Bool.and_eq_true, decide_eq_true_iff, decide_eq_true_iff]
  unfold f32Significand
  split <;> omega

theorem f32IsNan_of_finite {w : F32} (h : f32Finite w = true) : f32IsNan w = false := by
  rw [f32Finite, decide_eq_true_iff] at h
  rw [f32IsNan, decide_eq_false (by omega), Bool.false_and]

theorem f32IsInf_of_finite {w : F32} (h : f32Finite w = true) : f32IsInf w = false := by
  rw [f32Finite, decide_eq_true_iff] at h
  rw [f32IsInf, decide_eq_false (by omega), Bool.false_and]

/-! ### Words from a sign and a magnitude -/

theorem f32Word_toNat {n : Nat} (neg : Bool) (hn : n < 2 ^ 31) :
    (f32Word neg n).toNat = n + if neg then 2 ^ 31 else 0 := by
  rw [f32Word, BitVec.toNat_ofNat]
  exact Nat.mod_eq_of_lt (by split <;> omega)

theorem f32Neg_f32Word {n : Nat} (neg : Bool) (hn : n < 2 ^ 31) : f32Neg (f32Word neg n) = neg := by
  rw [f32Neg_eq_toNat, f32Word_toNat neg hn]
  cases neg with
  | false => simpa using hn
  | true => simp

theorem f32Exp_f32Word {n : Nat} (neg : Bool) (hn : n < 2 ^ 31) : f32Exp (f32Word neg n) = n / 2 ^ 23 := by
  rw [f32Exp_eq_toNat, f32Word_toNat neg hn]
  split <;> omega

theorem f32Frac_f32Word {n : Nat} (neg : Bool) (hn : n < 2 ^ 31) : f32Frac (f32Word neg n) = n % 2 ^ 23 := by
  rw [f32Frac_eq_toNat, f32Word_toNat neg hn]
  split <;> omega

theorem f32Word_getLsbD_zero {n : Nat} (neg : Bool) (hn : n < 2 ^ 31) :
    (f32Word neg n).getLsbD 0 = decide (n % 2 = 1) := by
  rw [BitVec.getLsbD, Nat.testBit_eq_decide_div_mod_eq, f32Word_toNat neg hn]
  exact decide_eq_decide.2 (by split <;> omega)

theorem f32Finite_f32Word {n : Nat} (neg : Bool) (hn : n < f32InfMagnitude) :
    f32Finite (f32Word neg n) = true := by
  unfold f32InfMagnitude at hn
  rw [f32Finite, f32Exp_f32Word neg (by omega), decide_eq_true_iff]
  omega

theorem f32IsNan_f32Word {n : Nat} (neg : Bool) (hn : n ≤ f32InfMagnitude) :
    f32IsNan (f32Word neg n) = false := by
  unfold f32InfMagnitude at hn
  rw [f32IsNan, f32Exp_f32Word neg (by omega), f32Frac_f32Word neg (by omega), Bool.and_eq_false_iff,
    decide_eq_false_iff_not, decide_eq_false_iff_not]
  omega

/-- A rounded word is a sign and a magnitude up to that of the infinity. -/
theorem roundF32_eq_f32Word (neg : Bool) (m : Nat) (e : Int) :
    ∃ n ≤ f32InfMagnitude, roundF32 neg m e = f32Word neg n := by
  unfold roundF32
  split
  · exact ⟨0, Nat.zero_le _, rfl⟩
  · exact ⟨_, min_le_right _ _, rfl⟩

theorem f32IsNan_roundF32 (neg : Bool) (m : Nat) (e : Int) : f32IsNan (roundF32 neg m e) = false := by
  obtain ⟨n, hn, h⟩ := roundF32_eq_f32Word neg m e
  rw [h, f32IsNan_f32Word neg hn]

theorem f32Neg_roundF32 (neg : Bool) (m : Nat) (e : Int) : f32Neg (roundF32 neg m e) = neg := by
  obtain ⟨n, hn, h⟩ := roundF32_eq_f32Word neg m e
  rw [h, f32Neg_f32Word neg (lt_of_le_of_lt hn (by decide))]

/-! ### An operation gives its NaN draw or no NaN

The cases follow the branches of each operation: NaN operands, infinities, a zero divisor, rounding. -/

theorem fadd_eq_quietNan_or (d a b : Word) : fadd d a b = quietNan d ∨ f32IsNan (fadd d a b) = false := by
  unfold fadd
  dsimp only
  by_cases hnan : (f32IsNan a || f32IsNan b) = true
  · rw [if_pos hnan]
    exact .inl rfl
  · rw [if_neg hnan]
    rw [Bool.or_eq_true, not_or, Bool.not_eq_true, Bool.not_eq_true] at hnan
    split
    · split
      · exact .inl rfl
      · exact .inr hnan.1
    · split
      · exact .inr hnan.2
      · split
        · exact .inr (f32IsNan_f32Word _ (Nat.zero_le _))
        · exact .inr (f32IsNan_roundF32 _ _ _)

theorem fmul_eq_quietNan_or (d a b : Word) : fmul d a b = quietNan d ∨ f32IsNan (fmul d a b) = false := by
  unfold fmul
  dsimp only
  split
  · exact .inl rfl
  · split
    · split
      · exact .inl rfl
      · exact .inr (f32IsNan_f32Word _ le_rfl)
    · exact .inr (f32IsNan_roundF32 _ _ _)

theorem fdiv_eq_quietNan_or (d a b : Word) : fdiv d a b = quietNan d ∨ f32IsNan (fdiv d a b) = false := by
  unfold fdiv
  dsimp only
  split
  · exact .inl rfl
  · split
    · split
      · exact .inl rfl
      · exact .inr (f32IsNan_f32Word _ le_rfl)
    · split
      · exact .inr (f32IsNan_f32Word _ (Nat.zero_le _))
      · split
        · split
          · exact .inl rfl
          · exact .inr (f32IsNan_f32Word _ le_rfl)
        · exact .inr (f32IsNan_roundF32 _ _ _)

/-- A draw made quiet has the exponent and the top fraction bit set. -/
theorem quietNan_and_mask (d : Word) : quietNan d &&& 0x7FC00000#32 = 0x7FC00000#32 := by
  unfold quietNan
  ext i hi
  rw [BitVec.getElem_and, BitVec.getElem_or, Bool.or_comm, Bool.and_comm]
  exact inf_sup_self

/-- Settles O57: a result that is NaN is the operation's draw made quiet. -/
theorem nanResultsAreQuiet : Obligations.NanResultsAreQuiet := by
  unfold Obligations.NanResultsAreQuiet
  intro d a b r hr hnan
  have hdraw : r = quietNan d ∨ f32IsNan r = false := by
    rcases hr with rfl | rfl | rfl
    · exact fadd_eq_quietNan_or d a b
    · exact fmul_eq_quietNan_or d a b
    · exact fdiv_eq_quietNan_or d a b
  rcases hdraw with rfl | hno
  · exact quietNan_and_mask d
  · rw [hno] at hnan
    exact absurd hnan Bool.false_ne_true

end Sys2Proof.Machine
end

section
/-! SUPPORT. Rounding of an exact value to the nearest binary32 word, ties to even (00_scope.md R16). A value is
first rounded to a number of units of its last place; roundShift does that on integers. No finite word is nearer:
one on the same or a coarser scale is a multiple of that unit, and one on a finer scale is too small. -/

namespace Sys2Proof.Machine

/-! ### Values with a sign -/

/-- The value y with a sign. -/
def withSign (neg : Bool) (y : ℚ) : ℚ := if neg then -y else y

theorem withSign_zero (neg : Bool) : withSign neg 0 = 0 := by
  cases neg <;> simp [withSign]

theorem withSign_sub (neg : Bool) (x y : ℚ) : withSign neg (x - y) = withSign neg x - withSign neg y := by
  cases neg <;> simp [withSign]; ring

theorem withSign_withSign (neg : Bool) (y : ℚ) : withSign neg (withSign neg y) = y := by
  cases neg <;> simp [withSign]

theorem abs_withSign (neg : Bool) (y : ℚ) : |withSign neg y| = |y| := by
  cases neg <;> simp [withSign]

theorem withSign_mul_withSign (p q : Bool) (x y : ℚ) :
    withSign p x * withSign q y = withSign (p != q) (x * y) := by
  cases p <;> cases q <;> simp [withSign]

theorem withSign_div_withSign (p q : Bool) (x y : ℚ) :
    withSign p x / withSign q y = withSign (p != q) (x / y) := by
  cases p <;> cases q <;> simp [withSign, neg_div, div_neg]

/-- The value of a finite word without its sign. -/
def f32Abs (w : F32) : ℚ := f32Significand w * 2 ^ f32Scale w

theorem f32Abs_nonneg (w : F32) : 0 ≤ f32Abs w := by
  unfold f32Abs
  positivity

theorem f32Value_eq_withSign (w : F32) : f32Value w = withSign (f32Neg w) (f32Abs w) := by
  unfold f32Value f32Signed withSign f32Abs
  split <;> push_cast <;> ring

theorem f32Value_eq_zero_iff (w : F32) : f32Value w = 0 ↔ f32Significand w = 0 := by
  rw [← abs_eq_zero, f32Value_eq_withSign, abs_withSign, abs_eq_zero, f32Abs, mul_eq_zero, Nat.cast_eq_zero,
    or_iff_left (zpow_ne_zero _ two_ne_zero)]

theorem f32IsZero_iff_value (w : F32) : f32IsZero w = true ↔ f32Value w = 0 :=
  (f32IsZero_iff w).trans (f32Value_eq_zero_iff w).symm

/-! ### Rounding to the nearest multiple -/

/-- The natural number q is nearest to z, and even if z lies half way. -/
def NearestEven (z : ℚ) (q : ℕ) : Prop :=
  |z - q| ≤ 1 / 2 ∧ (|z - q| = 1 / 2 → q % 2 = 0)

theorem nearestEven_natCast (q : ℕ) : NearestEven q q := by
  simp [NearestEven]

/-- The remainder says on which side of the middle m lies. -/
theorem roundShift_succ (m k : ℕ) :
    roundShift m (k + 1) =
      if 2 ^ k < m % 2 ^ (k + 1) ∨ m % 2 ^ (k + 1) = 2 ^ k ∧ m / 2 ^ (k + 1) % 2 = 1 then
        m / 2 ^ (k + 1) + 1
      else m / 2 ^ (k + 1) := by
  unfold roundShift
  dsimp only
  rw [if_neg (Nat.succ_ne_zero k), Nat.add_sub_cancel, ite_or]

/-- In units of half the last place, m lies within one of twice its rounded quotient, and the quotient is
even where it lies at that distance. -/
theorem roundShift_spec (m k : ℕ) :
    2 * roundShift m (k + 1) * 2 ^ k ≤ m + 2 ^ k ∧ m ≤ (2 * roundShift m (k + 1) + 1) * 2 ^ k ∧
      ((2 * roundShift m (k + 1) * 2 ^ k = m + 2 ^ k ∨ m = (2 * roundShift m (k + 1) + 1) * 2 ^ k) →
        roundShift m (k + 1) % 2 = 0) := by
  have hdm := Nat.div_add_mod m (2 ^ (k + 1))
  have hr := Nat.mod_lt m (Nat.two_pow_pos (k + 1))
  have hk := Nat.two_pow_pos k
  rw [roundShift_succ]
  generalize m / 2 ^ (k + 1) = q at *
  generalize m % 2 ^ (k + 1) = r at *
  rw [pow_succ] at hdm hr
  generalize 2 ^ k = h at *
  rw [show h * 2 * q = 2 * q * h by ring] at hdm
  split
  · rw [show 2 * (q + 1) * h = 2 * q * h + 2 * h by ring,
      show (2 * (q + 1) + 1) * h = 2 * q * h + 3 * h by ring]
    omega
  · rw [show (2 * q + 1) * h = 2 * q * h + h by ring]
    omega

/-- The integer m stands for z: it is z, or it is odd and large and z lies between its even neighbours. The
rounding position then lies above its last bit, so that z rounds as m does. -/
def StandsFor (m : ℕ) (z : ℚ) : Prop :=
  z = m ∨ m % 2 = 1 ∧ 2 ^ 25 ≤ m ∧ (m - 1 : ℤ) < z ∧ z < (m + 1 : ℤ)

/-- Even integers lie on the same side of m and of what it stands for. -/
theorem StandsFor.lt_iff {m : ℕ} {z : ℚ} (h : StandsFor m z) {t : ℤ} (ht : t % 2 = 0 ∨ z = m) :
    ((t : ℚ) < z ↔ t < m) ∧ (z < t ↔ m < t) := by
  rcases h with rfl | ⟨hodd, _, hlow, hhigh⟩
  · exact ⟨by exact_mod_cast Iff.rfl, by exact_mod_cast Iff.rfl⟩
  · rcases ht with ht | rfl
    · refine ⟨⟨fun h => ?_, fun h => ?_⟩, ⟨fun h => ?_, fun h => ?_⟩⟩
      · have := Int.cast_lt.1 (h.trans hhigh)
        omega
      · exact lt_of_le_of_lt (Int.cast_le.2 (by omega)) hlow
      · have := Int.cast_lt.1 (hlow.trans h)
        omega
      · exact lt_of_lt_of_le hhigh (Int.cast_le.2 (by omega))
    · exact ⟨by exact_mod_cast Iff.rfl, by exact_mod_cast Iff.rfl⟩

theorem StandsFor.eq_of_eq {m : ℕ} {z : ℚ} (h : StandsFor m z) {t : ℤ} (ht : t % 2 = 0 ∨ z = m) (hz : z = t) :
    (m : ℤ) = t := by
  obtain ⟨hl, hu⟩ := h.lt_iff ht
  have h1 := mt hl.2 hz.le.not_gt
  have h2 := mt hu.2 hz.ge.not_gt
  omega

/-- Shifting m out by k + 1 places rounds what m stands for, if the half way points are even integers or m
is exact. -/
theorem StandsFor.nearestEven_roundShift {m k : ℕ} {z : ℚ} (h : StandsFor m z) (hk : k ≠ 0 ∨ z = m) :
    NearestEven (z / 2 ^ (k + 1)) (roundShift m (k + 1)) := by
  obtain ⟨hlow, hhigh, htie⟩ := roundShift_spec m k
  generalize roundShift m (k + 1) = q at *
  have heven : ∀ j : ℤ, j * 2 ^ k % 2 = 0 ∨ z = m := fun j => hk.imp_left fun hk =>
    Int.emod_eq_zero_of_dvd (Dvd.dvd.mul_left (dvd_pow_self 2 hk) j)
  have hlow' : ((2 * q - 1 : ℤ) * 2 ^ k : ℤ) ≤ z := not_lt.1 <| mt (h.lt_iff (heven _)).2.1 <| by
    zify at hlow
    linarith
  have hhigh' : z ≤ ((2 * q + 1 : ℤ) * 2 ^ k : ℤ) := not_lt.1 <| mt (h.lt_iff (heven _)).1.1 <| by
    zify at hhigh
    linarith
  have hpos : (0 : ℚ) < 2 ^ k := by positivity
  have hz : z / 2 ^ (k + 1) - q = (z / 2 ^ k - 2 * q) / 2 := by
    rw [pow_succ]
    field_simp
  rw [NearestEven, hz, abs_div, abs_two, div_le_div_iff_of_pos_right two_pos,
    div_left_inj' two_ne_zero, abs_le, abs_eq one_pos.le]
  push_cast at hlow' hhigh'
  refine ⟨⟨?_, ?_⟩, ?_⟩
  · rw [neg_le_sub_iff_le_add, ← sub_le_iff_le_add, le_div_iff₀ hpos]
    exact hlow'
  · rw [sub_le_iff_le_add, div_le_iff₀ hpos, add_comm]
    exact hhigh'
  · zify at htie ⊢
    rintro (htop | hbot)
    · refine htie (.inr (h.eq_of_eq (heven _) ?_))
      rw [sub_eq_iff_eq_add', div_eq_iff hpos.ne'] at htop
      exact_mod_cast htop
    · have := h.eq_of_eq (heven (2 * q - 1)) (by
        rw [sub_eq_iff_eq_add', div_eq_iff hpos.ne'] at hbot
        rw [hbot]
        push_cast
        ring)
      exact htie (.inl (by linarith))

/-- A value below t rounds to t at most. -/
theorem NearestEven.le_natCast {z : ℚ} {q t : ℕ} (h : NearestEven z q) (hz : z < t) : q ≤ t := by
  obtain ⟨hlow, _⟩ := abs_le.1 h.1
  have : (q : ℚ) < t + 1 := by linarith
  exact Nat.lt_succ_iff.1 (by exact_mod_cast this)

/-- A value from t on rounds to t at least. -/
theorem NearestEven.natCast_le {z : ℚ} {q t : ℕ} (h : NearestEven z q) (hz : t ≤ z) : t ≤ q := by
  obtain ⟨_, hhigh⟩ := abs_le.1 h.1
  have : (t : ℚ) < q + 1 := by linarith
  exact Nat.lt_succ_iff.1 (by exact_mod_cast this)

/-- No integer is nearer, and another one is as near only if q is even. -/
theorem NearestEven.best {z : ℚ} {q : ℕ} (h : NearestEven z q) (t : ℤ) :
    |z - q| ≤ |z - t| ∧ (|z - q| = |z - t| → (t : ℚ) ≠ q → q % 2 = 0) := by
  by_cases ht : t = q
  · rw [ht, Int.cast_natCast]
    exact ⟨le_rfl, fun _ hne => absurd rfl hne⟩
  · have hone : (1 : ℚ) ≤ |(t : ℚ) - q| := by
      exact_mod_cast Int.one_le_abs (sub_ne_zero.2 ht)
    have htri : |(t : ℚ) - q| ≤ |z - t| + |z - q| := by
      rw [abs_sub_comm z t]
      exact abs_sub_le _ _ _
    have hhalf := h.1
    exact ⟨by linarith, fun heq _ => h.2 (by linarith)⟩

/-! ### Rounding to a word -/

/-- The value y ≥ 0 is q units 2^u after rounding: u is the unit of the last place of y, that of the subnormals
or one in which y has 24 digits. -/
structure RoundedAt (y : ℚ) (u : ℤ) (q : ℕ) : Prop where
  nonneg : 0 ≤ y
  unit_ge : -149 ≤ u
  normal : u = -149 ∨ 2 ^ 23 ≤ y / 2 ^ u
  digits : y / 2 ^ u < 2 ^ 24
  nearest : NearestEven (y / 2 ^ u) q

theorem RoundedAt.zero : RoundedAt 0 (-149) 0 :=
  ⟨le_rfl, le_rfl, .inl rfl, by norm_num, by simpa using nearestEven_natCast 0⟩

theorem RoundedAt.quotient_le {y : ℚ} {u : ℤ} {q : ℕ} (h : RoundedAt y u q) : q ≤ 2 ^ 24 :=
  h.nearest.le_natCast (by exact_mod_cast h.digits)

theorem RoundedAt.quotient_ge {y : ℚ} {u : ℤ} {q : ℕ} (h : RoundedAt y u q) : u = -149 ∨ 2 ^ 23 ≤ q :=
  h.normal.imp_right fun hz => h.nearest.natCast_le (by exact_mod_cast hz)

/-- Bits 30:0 of the rounded word before the infinity bounds them: a carry out of the significand goes into the
exponent. -/
def magnitudeAt (u : ℤ) (q : ℕ) : ℕ := (u + 149).toNat * 2 ^ 23 + q

/-- Magnitudes reach the infinity exactly from the largest finite value plus half a unit of its last place. -/
theorem RoundedAt.overflow_iff {y : ℚ} {u : ℤ} {q : ℕ} (h : RoundedAt y u q) :
    f32InfMagnitude ≤ magnitudeAt u q ↔ 2 ^ 128 - 2 ^ 103 ≤ y := by
  have hq := h.quotient_le
  have hpos : (0 : ℚ) < 2 ^ u := by positivity
  unfold f32InfMagnitude magnitudeAt
  rcases lt_trichotomy u 104 with hu | rfl | hu
  · have hy := (div_lt_iff₀ hpos).1 h.digits
    have hle : (2 : ℚ) ^ u ≤ 2 ^ (103 : ℤ) := zpow_le_zpow_right₀ one_le_two (by omega)
    refine iff_of_false (by omega) (not_le.2 ?_)
    norm_num at hle hy ⊢
    linarith
  · have hy : 2 ^ 128 - 2 ^ 103 ≤ y ↔ 2 ^ 24 - 1 / 2 ≤ y / 2 ^ (104 : ℤ) := by
      rw [le_div_iff₀ hpos]
      norm_num
    rw [hy]
    obtain ⟨hhalf, htie⟩ := h.nearest
    constructor
    · intro hinf
      have : (2 : ℚ) ^ 24 ≤ q := by exact_mod_cast (by omega : 2 ^ 24 ≤ q)
      linarith [(abs_le.1 hhalf).1]
    · intro hz
      by_contra hinf
      have hlast : q = 2 ^ 24 - 1 := by
        have : ((2 ^ 24 - 1 : ℕ) : ℚ) ≤ q := by
          push_cast
          linarith [(abs_le.1 hhalf).2]
        have := Nat.cast_le.1 this
        omega
      have heven := htie (le_antisymm hhalf (by
        rw [hlast]
        push_cast
        exact le_trans (by linarith) (le_abs_self _)))
      omega
  · have hy := (le_div_iff₀ hpos).1 (h.normal.resolve_left (by omega))
    have hge : (2 : ℚ) ^ (105 : ℤ) ≤ 2 ^ u := zpow_le_zpow_right₀ one_le_two (by omega)
    have hq' := h.quotient_ge.resolve_left (by omega)
    refine iff_of_true (by omega) ?_
    norm_num at hge hy ⊢
    linarith

/-- The word of a rounded value has that value. -/
theorem f32Abs_f32Word {u : ℤ} {q : ℕ} (neg : Bool) (hu : -149 ≤ u) (hlow : u = -149 ∨ 2 ^ 23 ≤ q)
    (hhigh : q ≤ 2 ^ 24) (hfin : magnitudeAt u q < f32InfMagnitude) :
    f32Abs (f32Word neg (magnitudeAt u q)) = q * 2 ^ u := by
  have hn : magnitudeAt u q < 2 ^ 31 := hfin.trans (by decide)
  unfold f32Abs f32Significand f32Scale
  rw [f32Exp_f32Word neg hn, f32Frac_f32Word neg hn]
  obtain ⟨k, rfl⟩ : ∃ k : ℕ, u = k - 149 := ⟨(u + 149).toNat, by omega⟩
  have hmag : magnitudeAt (k - 149) q = k * 2 ^ 23 + q := by
    rw [magnitudeAt, sub_add_cancel, Int.toNat_natCast]
  rw [hmag]
  rcases lt_or_ge q (2 ^ 23) with hsub | hnorm
  · obtain rfl : k = 0 := by omega
    rw [if_pos (by omega), show max ((0 * 2 ^ 23 + q) / 2 ^ 23) 1 = 1 by omega,
      show (0 * 2 ^ 23 + q) % 2 ^ 23 = q by omega]
    rfl
  · rcases Nat.lt_or_eq_of_le hhigh with hlt | rfl
    · rw [if_neg (by omega), show max ((k * 2 ^ 23 + q) / 2 ^ 23) 1 = k + 1 by omega,
        show (k * 2 ^ 23 + q) % 2 ^ 23 + 2 ^ 23 = q by omega]
      congr 2
      push_cast
      ring
    · rw [if_neg (by omega), show max ((k * 2 ^ 23 + 2 ^ 24) / 2 ^ 23) 1 = k + 2 by omega,
        show (k * 2 ^ 23 + 2 ^ 24) % 2 ^ 23 + 2 ^ 23 = 2 ^ 23 by omega]
      rw [show ((k + 2 : ℕ) : ℤ) - 150 = (k - 149) + 1 by push_cast; ring, zpow_add_one₀ two_ne_zero]
      push_cast
      ring

/-- In units of the last place of y no finite value is nearer to y than its rounded quotient, and another one is
as near only if the quotient is even. -/
theorem RoundedAt.best {y : ℚ} {u : ℤ} {q : ℕ} (h : RoundedAt y u q) {s c : ℤ} (hs : |s| < 2 ^ 24)
    (hc : -149 ≤ c) {v : ℚ} (hv : v = s * 2 ^ c / 2 ^ u) :
    |y / 2 ^ u - q| ≤ |y / 2 ^ u - v| ∧ (|y / 2 ^ u - q| = |y / 2 ^ u - v| → v ≠ q → q % 2 = 0) := by
  rw [mul_div_assoc, ← zpow_sub₀ two_ne_zero] at hv
  rcases le_or_gt u c with huc | hcu
  · obtain ⟨k, hk⟩ := Int.eq_ofNat_of_zero_le (sub_nonneg.2 huc)
    rw [hk, zpow_natCast] at hv
    rw [show v = ((s * 2 ^ k : ℤ) : ℚ) by rw [hv]; push_cast; rfl]
    exact h.nearest.best _
  · have hz : 2 ^ 23 ≤ y / 2 ^ u := h.normal.resolve_left (by omega)
    have hlt : v < 2 ^ 23 := by
      have hs' : (s : ℚ) < 2 ^ 24 := by exact_mod_cast (abs_lt.1 hs).2
      have hle : (2 : ℚ) ^ (c - u) ≤ 2 ^ (-1 : ℤ) := zpow_le_zpow_right₀ one_le_two (by omega)
      have hpos : (0 : ℚ) < 2 ^ (c - u) := by positivity
      have hprod := mul_lt_mul_of_pos_right hs' hpos
      norm_num at hle
      rw [hv]
      linarith
    have hbest := (h.nearest.best (2 ^ 23)).1
    rw [Int.cast_pow, Int.cast_ofNat, abs_of_nonneg (sub_nonneg.2 hz)] at hbest
    have hfar : |y / 2 ^ u - q| < |y / 2 ^ u - v| := by
      rw [abs_of_pos (sub_pos.2 (hlt.trans_le hz))]
      linarith
    exact ⟨hfar.le, fun heq => absurd heq hfar.ne⟩

theorem abs_f32Signed (w : F32) : |f32Signed w| = f32Significand w := by
  unfold f32Signed
  split <;> simp

/-- The value of a word, whatever its sign, is a short significand times a power of 2. -/
theorem withSign_f32Value (neg : Bool) (w : F32) :
    ∃ s : ℤ, |s| < 2 ^ 24 ∧ withSign neg (f32Value w) = s * 2 ^ f32Scale w := by
  have hs : |f32Signed w| < 2 ^ 24 := by
    rw [abs_f32Signed]
    exact_mod_cast f32Significand_lt w
  cases neg with
  | false => exact ⟨f32Signed w, hs, rfl⟩
  | true => exact ⟨-f32Signed w, by rwa [abs_neg], by simp [withSign, f32Value]⟩

/-- A value rounded to a multiple of the unit of its last place is rounded to the nearest word. -/
theorem RoundedAt.roundsTo {y : ℚ} {u : ℤ} {q : ℕ} (h : RoundedAt y u q) (neg : Bool) :
    RoundsTo (f32Word neg (min (magnitudeAt u q) f32InfMagnitude)) (withSign neg y) := by
  have hover := h.overflow_iff
  refine ⟨fun hx => ?_, fun hx => ?_, fun hx => ?_⟩
  · rw [abs_withSign, abs_of_nonneg h.nonneg] at hx
    have hfin : magnitudeAt u q < f32InfMagnitude := not_le.1 (mt hover.1 hx.not_ge)
    rw [min_eq_left hfin.le]
    have hn : magnitudeAt u q < 2 ^ 31 := hfin.trans (by decide)
    refine ⟨f32Finite_f32Word neg hfin, fun w _ => ?_⟩
    have hpos : (0 : ℚ) < 2 ^ u := by positivity
    have hdist : ∀ v : ℚ, |withSign neg y - v| = |y / 2 ^ u - withSign neg v / 2 ^ u| * 2 ^ u := fun v => by
      rw [← abs_withSign neg (_ - v), withSign_sub, withSign_withSign, ← sub_div, abs_div, abs_of_pos hpos,
        div_mul_cancel₀ _ hpos.ne']
    have hval : withSign neg (f32Value (f32Word neg (magnitudeAt u q))) / 2 ^ u = q := by
      rw [f32Value_eq_withSign, f32Neg_f32Word neg hn, withSign_withSign,
        f32Abs_f32Word neg h.unit_ge h.quotient_ge h.quotient_le hfin, mul_div_cancel_right₀ _ hpos.ne']
    obtain ⟨s, hs, hw⟩ := withSign_f32Value neg w
    obtain ⟨hle, htie⟩ := h.best hs (f32Scale_ge w) (congrArg (· / 2 ^ u) hw)
    rw [hdist, hdist (f32Value w), hval, mul_le_mul_iff_left₀ hpos, mul_left_inj' hpos.ne']
    refine ⟨hle, fun heq hne => ?_⟩
    have heven := htie heq fun hc => hne (by
      rw [← hval, div_left_inj' hpos.ne'] at hc
      rw [← withSign_withSign neg (f32Value w), hc, withSign_withSign])
    rw [f32Word_getLsbD_zero neg hn, decide_eq_false_iff_not, magnitudeAt]
    omega
  · cases neg with
    | false => rw [min_eq_right (hover.2 hx)]; rfl
    | true => exact absurd hx (not_le.2 (lt_of_le_of_lt (neg_nonpos.2 h.nonneg) (by norm_num)))
  · cases neg with
    | false => exact absurd hx (not_le.2 (lt_of_lt_of_le (by norm_num) h.nonneg))
    | true => rw [min_eq_right (hover.2 (neg_le_neg_iff.1 hx))]; rfl

/-- The unit of the last place that roundF32 takes. -/
def lastPlace (m : ℕ) (e : ℤ) : ℤ := max ((Nat.log2 m : ℤ) + e - 23) (-149)

/-- How many units of the last place roundF32 takes. -/
def unitsAt (m : ℕ) (e u : ℤ) : ℕ := if u ≤ e then m * 2 ^ (e - u).toNat else roundShift m (u - e).toNat

theorem roundF32_of_ne_zero (neg : Bool) {m : ℕ} (e : ℤ) (hm : m ≠ 0) :
    roundF32 neg m e =
      f32Word neg (min (magnitudeAt (lastPlace m e) (unitsAt m e (lastPlace m e))) f32InfMagnitude) :=
  if_neg hm

/-- What m stands for has as many digits as m. -/
theorem StandsFor.log2_bounds {m : ℕ} {z : ℚ} (h : StandsFor m z) (hm : m ≠ 0) :
    (2 : ℚ) ^ Nat.log2 m ≤ z ∧ z < 2 ^ (Nat.log2 m + 1) := by
  have hlow : 2 ^ Nat.log2 m ≤ m := (Nat.le_log2 hm).1 le_rfl
  have hhigh : m < 2 ^ (Nat.log2 m + 1) := (Nat.log2_lt hm).1 (Nat.lt_succ_self _)
  have heven : ∀ n, (n = 0 → z = m) → ((2 ^ n : ℕ) : ℤ) % 2 = 0 ∨ z = m := fun n hn => by
    cases n with
    | zero => exact .inr (hn rfl)
    | succ n => exact .inl (by omega)
  have hone : Nat.log2 m = 0 → z = m := fun hl => h.resolve_right fun ⟨_, hbig, _⟩ => by
    rw [hl] at hhigh
    omega
  have h1 := mt (h.lt_iff (heven _ hone)).2.1 (not_lt.2 (Int.ofNat_le.2 hlow))
  have h2 := (h.lt_iff (heven _ fun hc => absurd hc (Nat.succ_ne_zero _))).2.2 (Int.ofNat_lt.2 hhigh)
  push_cast at h1 h2
  exact ⟨not_lt.1 h1, h2⟩

/-- roundF32 rounds what m · 2^e stands for. -/
theorem StandsFor.roundedAt {m : ℕ} {z : ℚ} (h : StandsFor m z) (hm : m ≠ 0) (e : ℤ) :
    RoundedAt (z * 2 ^ e) (lastPlace m e) (unitsAt m e (lastPlace m e)) := by
  obtain ⟨hlow, hhigh⟩ := h.log2_bounds hm
  have hscale : z * 2 ^ e / 2 ^ lastPlace m e = z * 2 ^ (e - lastPlace m e) := by
    rw [mul_div_assoc, ← zpow_sub₀ two_ne_zero]
  refine ⟨mul_nonneg (le_trans (by positivity) hlow) (by positivity), le_max_right _ _, ?_, ?_, ?_⟩
  · refine or_iff_not_imp_left.2 fun hne => ?_
    have hu : lastPlace m e = Nat.log2 m + e - 23 := by
      unfold lastPlace at *
      omega
    rw [hscale, hu]
    calc (2 : ℚ) ^ 23 = 2 ^ Nat.log2 m * 2 ^ (e - (Nat.log2 m + e - 23) : ℤ) := by
          rw [← zpow_natCast, ← zpow_natCast, ← zpow_add₀ two_ne_zero]
          congr 1
          push_cast
          ring
      _ ≤ z * 2 ^ (e - (Nat.log2 m + e - 23) : ℤ) := by gcongr
  · rw [hscale]
    calc z * 2 ^ (e - lastPlace m e) < 2 ^ (Nat.log2 m + 1) * 2 ^ (e - lastPlace m e) := by gcongr
      _ = 2 ^ (Nat.log2 m + 1 + (e - lastPlace m e) : ℤ) := by
          rw [zpow_add₀ two_ne_zero]
          norm_cast
      _ ≤ 2 ^ (24 : ℤ) := zpow_le_zpow_right₀ one_le_two (by unfold lastPlace; omega)
      _ = 2 ^ 24 := by norm_num
  · rw [hscale, unitsAt]
    split_ifs with hue
    · obtain ⟨k, hk⟩ : ∃ k : ℕ, e - lastPlace m e = k := Int.eq_ofNat_of_zero_le (sub_nonneg.2 hue)
      have hexact : z = m := h.resolve_right fun ⟨_, hbig, _⟩ => by
        have := (Nat.le_log2 hm).2 hbig
        unfold lastPlace at hk
        omega
      rw [hk, Int.toNat_natCast, zpow_natCast, hexact]
      exact_mod_cast nearestEven_natCast (m * 2 ^ k)
    · obtain ⟨k, hk⟩ : ∃ k : ℕ, lastPlace m e - e = (k + 1 : ℕ) :=
        ⟨(lastPlace m e - e - 1).toNat, by omega⟩
      rw [hk, Int.toNat_natCast, ← neg_sub, hk, zpow_neg, zpow_natCast, ← div_eq_mul_inv]
      refine h.nearestEven_roundShift (or_iff_not_imp_right.2 fun hne => ?_)
      obtain ⟨_, hbig, _⟩ := h.resolve_left hne
      have := (Nat.le_log2 hm).2 hbig
      unfold lastPlace at hk
      omega

theorem f32Word_zero_roundsTo (neg : Bool) : RoundsTo (f32Word neg 0) 0 := by
  have h := RoundedAt.zero.roundsTo neg
  rwa [withSign_zero, show min (magnitudeAt (-149) 0) f32InfMagnitude = 0 by decide] at h

/-- roundF32 gives the word nearest to what m · 2^e stands for. -/
theorem StandsFor.roundF32_roundsTo {m : ℕ} {z : ℚ} (h : StandsFor m z) (neg : Bool) (e : ℤ) :
    RoundsTo (roundF32 neg m e) (withSign neg (z * 2 ^ e)) := by
  by_cases hm : m = 0
  · obtain rfl : z = 0 := by
      have := h.resolve_right fun ⟨hodd, _⟩ => by omega
      rw [this, hm, Nat.cast_zero]
    rw [hm, zero_mul, withSign_zero, roundF32, if_pos rfl]
    exact f32Word_zero_roundsTo neg
  · rw [roundF32_of_ne_zero neg e hm]
    exact (h.roundedAt hm e).roundsTo neg

theorem roundF32_roundsTo (neg : Bool) (m : ℕ) (e : ℤ) :
    RoundsTo (roundF32 neg m e) (withSign neg (m * 2 ^ e)) :=
  StandsFor.roundF32_roundsTo (.inl rfl) neg e

end Sys2Proof.Machine
end

section
/-! SUPPORT. Addition, multiplication, division and comparison of finite words against the exact values
(00_scope.md R16, R17). -/

namespace Sys2Proof.Machine

/-! ### The operations on finite words -/

/-- The sum of the significands of two finite words at their common scale. -/
def alignedSum (a b : F32) : ℤ :=
  f32Signed a * 2 ^ (f32Scale a - min (f32Scale a) (f32Scale b)).toNat +
    f32Signed b * 2 ^ (f32Scale b - min (f32Scale a) (f32Scale b)).toNat

theorem fadd_finite {a b : F32} (d : Word) (ha : f32Finite a = true) (hb : f32Finite b = true) :
    fadd d a b =
      if alignedSum a b = 0 then f32Word (f32Neg a && f32Neg b) 0
      else roundF32 (decide (alignedSum a b < 0)) (alignedSum a b).natAbs (min (f32Scale a) (f32Scale b)) := by
  unfold fadd
  rw [f32IsNan_of_finite ha, f32IsNan_of_finite hb, f32IsInf_of_finite ha, f32IsInf_of_finite hb]
  simp only [Bool.or_self, Bool.false_eq_true, if_false]
  rfl

theorem fmul_finite {a b : F32} (d : Word) (ha : f32Finite a = true) (hb : f32Finite b = true) :
    fmul d a b =
      roundF32 (f32Neg a != f32Neg b) (f32Significand a * f32Significand b) (f32Scale a + f32Scale b) := by
  unfold fmul
  rw [f32IsNan_of_finite ha, f32IsNan_of_finite hb, f32IsInf_of_finite ha, f32IsInf_of_finite hb]
  simp only [Bool.or_self, Bool.false_eq_true, if_false]

/-- The quotient of two significands that fdiv rounds, its last bit standing for the remainder. -/
def stickyQuotient (a b : ℕ) : ℕ :=
  2 * (a * 2 ^ quotientBits / b) + if a * 2 ^ quotientBits % b = 0 then 0 else 1

theorem fdiv_finite {a b : F32} (d : Word) (ha : f32Finite a = true) (hb : f32Finite b = true) :
    fdiv d a b =
      if f32IsZero b = true then
        if f32IsZero a = true then quietNan d else f32Word (f32Neg a != f32Neg b) f32InfMagnitude
      else roundF32 (f32Neg a != f32Neg b) (stickyQuotient (f32Significand a) (f32Significand b))
        (f32Scale a - f32Scale b - quotientBits - 1) := by
  unfold fdiv
  rw [f32IsNan_of_finite ha, f32IsNan_of_finite hb, f32IsInf_of_finite ha, f32IsInf_of_finite hb]
  simp only [Bool.or_self, Bool.false_eq_true, if_false]
  rfl

/-- Aligning the significands loses nothing. -/
theorem alignedSum_value (a b : F32) :
    f32Value a + f32Value b = alignedSum a b * 2 ^ min (f32Scale a) (f32Scale b) := by
  have halign : ∀ c e : ℤ, e ≤ c → (2 : ℚ) ^ c = 2 ^ (c - e).toNat * 2 ^ e := fun c e hle => by
    rw [← zpow_natCast, ← zpow_add₀ two_ne_zero, Int.toNat_of_nonneg (sub_nonneg.2 hle), sub_add_cancel]
  unfold f32Value alignedSum
  rw [halign _ _ (min_le_left (f32Scale a) (f32Scale b)), halign _ _ (min_le_right (f32Scale a) (f32Scale b))]
  push_cast
  ring

theorem withSign_natAbs (n : ℤ) (y : ℚ) : withSign (decide (n < 0)) (n.natAbs * y) = n * y := by
  rw [Nat.cast_natAbs, Int.cast_abs]
  rcases lt_or_ge n 0 with hn | hn
  · rw [decide_eq_true hn, abs_of_neg (Int.cast_lt_zero.2 hn)]
    simp [withSign]
  · rw [decide_eq_false hn.not_gt, abs_of_nonneg (Int.cast_nonneg hn)]
    rfl

theorem fadd_roundsTo {a b : F32} (d : Word) (ha : f32Finite a = true) (hb : f32Finite b = true) :
    RoundsTo (fadd d a b) (f32Value a + f32Value b) := by
  rw [fadd_finite d ha hb, alignedSum_value]
  split_ifs with hsum
  · rw [hsum, Int.cast_zero, zero_mul]
    exact f32Word_zero_roundsTo _
  · rw [← withSign_natAbs]
    exact roundF32_roundsTo _ _ _

theorem fmul_roundsTo {a b : F32} (d : Word) (ha : f32Finite a = true) (hb : f32Finite b = true) :
    RoundsTo (fmul d a b) (f32Value a * f32Value b) := by
  have hexact : f32Abs a * f32Abs b =
      ((f32Significand a * f32Significand b : ℕ) : ℚ) * 2 ^ (f32Scale a + f32Scale b) := by
    rw [f32Abs, f32Abs, zpow_add₀ two_ne_zero]
    push_cast
    ring
  rw [fmul_finite d ha hb, f32Value_eq_withSign, f32Value_eq_withSign, withSign_mul_withSign, hexact]
  exact roundF32_roundsTo _ _ _

/-- The quotient of significands keeps so many digits that its sticky bit lies below the rounding position. -/
theorem stickyQuotient_standsFor {a b : ℕ} (hb : 0 < b) (hlt : b < 2 ^ 24) :
    StandsFor (stickyQuotient a b) (2 * (a * 2 ^ quotientBits) / b) := by
  have hb' : (0 : ℚ) < b := Nat.cast_pos.2 hb
  have hdm := Nat.div_add_mod (a * 2 ^ quotientBits) b
  have hr := Nat.mod_lt (a * 2 ^ quotientBits) hb
  have hbig : a * 2 ^ quotientBits % b ≠ 0 → 2 ^ 28 ≤ a * 2 ^ quotientBits / b := fun hrem => by
    have ha : a ≠ 0 := fun hc => hrem (by rw [hc, zero_mul, Nat.zero_mod])
    rw [Nat.le_div_iff_mul_le hb]
    unfold quotientBits
    omega
  rw [show (a : ℚ) * 2 ^ quotientBits = (a * 2 ^ quotientBits : ℕ) by push_cast; rfl]
  unfold stickyQuotient
  generalize a * 2 ^ quotientBits / b = q at *
  generalize a * 2 ^ quotientBits % b = r at *
  rw [← hdm]
  split_ifs with hrem
  · left
    rw [div_eq_iff hb'.ne', hrem]
    push_cast
    ring
  · have hbig := hbig hrem
    have hr0 : (0 : ℚ) < r := Nat.cast_pos.2 (Nat.pos_of_ne_zero hrem)
    have hrb : (r : ℚ) < b := Nat.cast_lt.2 hr
    refine .inr ⟨by omega, by omega, ?_, ?_⟩
    · rw [lt_div_iff₀ hb']
      push_cast
      linarith
    · rw [div_lt_iff₀ hb']
      push_cast
      linarith

theorem fdiv_roundsTo {a b : F32} (d : Word) (ha : f32Finite a = true) (hb : f32Finite b = true)
    (hne : f32Value b ≠ 0) : RoundsTo (fdiv d a b) (f32Value a / f32Value b) := by
  have hsig : f32Significand b ≠ 0 := mt (f32Value_eq_zero_iff b).2 hne
  have hexact : f32Abs a / f32Abs b =
      2 * (f32Significand a * 2 ^ quotientBits) / f32Significand b *
        2 ^ (f32Scale a - f32Scale b - quotientBits - 1) := by
    rw [f32Abs, f32Abs, zpow_sub₀ two_ne_zero, zpow_sub₀ two_ne_zero, zpow_sub₀ two_ne_zero, zpow_natCast]
    field_simp
  rw [fdiv_finite d ha hb, if_neg (mt (f32IsZero_iff b).1 hsig), f32Value_eq_withSign, f32Value_eq_withSign,
    withSign_div_withSign, hexact]
  exact (stickyQuotient_standsFor (Nat.pos_of_ne_zero hsig) (f32Significand_lt b)).roundF32_roundsTo _ _

theorem f32Word_zero_eq (neg : Bool) : f32Word neg 0 = if neg then 0x80000000#32 else 0x00000000#32 := by
  cases neg <;> rfl

theorem f32Word_inf_eq (neg : Bool) :
    f32Word neg f32InfMagnitude = if neg then 0xFF800000#32 else 0x7F800000#32 := by
  cases neg <;> rfl

/-- A sum of 0 is -0.0 only of two negatives. -/
theorem fadd_of_value_add_eq_zero {a b : F32} (d : Word) (ha : f32Finite a = true) (hb : f32Finite b = true)
    (hzero : f32Value a + f32Value b = 0) : fadd d a b = f32Word (f32Neg a && f32Neg b) 0 := by
  rw [alignedSum_value, mul_eq_zero, or_iff_left (zpow_ne_zero _ two_ne_zero), Int.cast_eq_zero] at hzero
  rw [fadd_finite d ha hb, if_pos hzero]

theorem fmul_neg {a b : F32} (d : Word) (ha : f32Finite a = true) (hb : f32Finite b = true) :
    f32Neg (fmul d a b) = (f32Neg a != f32Neg b) := by
  rw [fmul_finite d ha hb, f32Neg_roundF32]

theorem fdiv_neg {a b : F32} (d : Word) (ha : f32Finite a = true) (hb : f32Finite b = true)
    (hne : f32Value b ≠ 0) : f32Neg (fdiv d a b) = (f32Neg a != f32Neg b) := by
  rw [fdiv_finite d ha hb, if_neg (mt (f32IsZero_iff_value b).1 hne), f32Neg_roundF32]

theorem fdiv_of_divisor_zero {a b : F32} (d : Word) (ha : f32Finite a = true) (hb : f32Finite b = true)
    (hzero : f32Value b = 0) :
    fdiv d a b =
      if f32Value a = 0 then quietNan d else f32Word (f32Neg a != f32Neg b) f32InfMagnitude := by
  rw [fdiv_finite d ha hb, if_pos ((f32IsZero_iff_value b).2 hzero)]
  exact if_congr (f32IsZero_iff_value a) rfl rfl

/-! ### Order -/

/-- Bits 30:0 of a word. -/
def f32Magnitude (w : F32) : ℕ := (w.extractLsb' 0 31).toNat

theorem f32Magnitude_eq (w : F32) : f32Magnitude w = f32Exp w * 2 ^ 23 + f32Frac w := by
  rw [f32Magnitude, BitVec.extractLsb'_toNat, Nat.shiftRight_zero, f32Exp_eq_toNat, f32Frac_eq_toNat]
  omega

/-- A larger magnitude is a larger value: the same scale with a larger significand, or a larger scale with a
significand of 24 bits. -/
theorem f32Abs_lt_of_magnitude_lt {a b : F32} (h : f32Magnitude a < f32Magnitude b) : f32Abs a < f32Abs b := by
  rw [f32Magnitude_eq, f32Magnitude_eq] at h
  have hfa := f32Frac_lt a
  have hfb := f32Frac_lt b
  rcases lt_or_ge (f32Scale a) (f32Scale b) with hlt | hge
  · have hsa : (f32Significand a : ℚ) < 2 ^ 24 := by exact_mod_cast f32Significand_lt a
    have hsb : (2 : ℚ) ^ 23 ≤ f32Significand b := by
      have : 2 ^ 23 ≤ f32Significand b := by
        unfold f32Scale at hlt
        unfold f32Significand
        rw [if_neg (by omega)]
        omega
      exact_mod_cast this
    calc f32Abs a < 2 ^ 24 * 2 ^ f32Scale a := mul_lt_mul_of_pos_right hsa (by positivity)
      _ = 2 ^ 23 * 2 ^ (f32Scale a + 1) := by rw [zpow_add_one₀ two_ne_zero]; ring
      _ ≤ f32Significand b * 2 ^ f32Scale b := by
          gcongr
          · exact one_le_two
          · omega
  · have hscale : f32Scale a = f32Scale b := by
      unfold f32Scale at *
      omega
    have hsig : f32Significand a < f32Significand b := by
      unfold f32Scale at hscale
      unfold f32Significand
      split <;> split <;> omega
    rw [f32Abs, f32Abs, hscale]
    exact mul_lt_mul_of_pos_right (Nat.cast_lt.2 hsig) (by positivity)

theorem f32Abs_eq_of_magnitude_eq {a b : F32} (h : f32Magnitude a = f32Magnitude b) : f32Abs a = f32Abs b := by
  rw [f32Magnitude_eq, f32Magnitude_eq] at h
  have hfa := f32Frac_lt a
  have hfb := f32Frac_lt b
  have hexp : f32Exp a = f32Exp b := by omega
  have hfrac : f32Frac a = f32Frac b := by omega
  rw [f32Abs, f32Abs, f32Significand, f32Significand, f32Scale, f32Scale, hexp, hfrac]

theorem f32Abs_lt_iff (a b : F32) : f32Abs a < f32Abs b ↔ f32Magnitude a < f32Magnitude b := by
  refine ⟨fun h => ?_, f32Abs_lt_of_magnitude_lt⟩
  by_contra hc
  rcases Nat.lt_or_eq_of_le (not_lt.1 hc) with hlt | heq
  · exact lt_asymm h (f32Abs_lt_of_magnitude_lt hlt)
  · exact h.ne (f32Abs_eq_of_magnitude_eq heq.symm)

theorem f32Abs_pos_iff (w : F32) : 0 < f32Abs w ↔ 0 < f32Magnitude w := by
  have h := f32Abs_lt_iff 0#32 w
  rwa [show f32Abs 0#32 = 0 by simp [f32Abs, show f32Significand 0#32 = 0 by decide],
    show f32Magnitude 0#32 = 0 by decide] at h

theorem f32Order_eq (w : F32) : f32Order w = if f32Neg w then -(f32Magnitude w : ℤ) else f32Magnitude w := rfl

theorem neg_lt_iff_pos_or_pos {α : Type} [CommRing α] [LinearOrder α] [IsStrictOrderedRing α] {x y : α}
    (hx : 0 ≤ x) (hy : 0 ≤ y) : -y < x ↔ 0 < x ∨ 0 < y := by
  constructor
  · intro h
    by_contra! hc
    linarith [hc.1, hc.2]
  · rintro (h | h) <;> linarith

/-- The order of the words is that of their values. -/
theorem f32Order_lt_iff (a b : F32) : f32Order b < f32Order a ↔ f32Value b < f32Value a := by
  have hna := f32Abs_nonneg a
  have hnb := f32Abs_nonneg b
  have hma := Int.natCast_nonneg (f32Magnitude a)
  have hmb := Int.natCast_nonneg (f32Magnitude b)
  rw [f32Value_eq_withSign, f32Value_eq_withSign, f32Order_eq, f32Order_eq]
  unfold withSign
  cases f32Neg a with
  | false =>
    cases f32Neg b with
    | false => exact Nat.cast_lt.trans (f32Abs_lt_iff b a).symm
    | true =>
      simp only [if_true, Bool.false_eq_true, if_false]
      rw [neg_lt_iff_pos_or_pos hma hmb, neg_lt_iff_pos_or_pos hna hnb, f32Abs_pos_iff, f32Abs_pos_iff,
        Int.natCast_pos, Int.natCast_pos]
  | true =>
    cases f32Neg b with
    | false =>
      simp only [if_true, Bool.false_eq_true, if_false]
      exact iff_of_false (by omega) (by linarith)
    | true =>
      simp only [if_true]
      rw [neg_lt_neg_iff, neg_lt_neg_iff, Nat.cast_lt, f32Abs_lt_iff]

theorem fgt_finite {a b : F32} (ha : f32Finite a = true) (hb : f32Finite b = true) :
    fgt a b = true ↔ f32Value b < f32Value a := by
  rw [fgt, f32IsNan_of_finite ha, f32IsNan_of_finite hb, Bool.not_false, Bool.true_and, Bool.true_and,
    decide_eq_true_iff, f32Order_lt_iff]

/-- Settles O60: each operation rounds its exact result once, and the order of the words is that of their
values. -/
theorem arithmeticIsCorrectlyRounded : Obligations.ArithmeticIsCorrectlyRounded := by
  unfold Obligations.ArithmeticIsCorrectlyRounded
  intro d a b ha hb
  refine ⟨fadd_roundsTo d ha hb, fmul_roundsTo d ha hb, fdiv_roundsTo d ha hb, fgt_finite ha hb, ?_,
    fmul_neg d ha hb, fdiv_neg d ha hb, ?_, ?_⟩
  · intro hsum
    rw [fadd_of_value_add_eq_zero d ha hb hsum]
    exact f32Word_zero_eq _
  · intro hzero hne
    rw [fdiv_of_divisor_zero d ha hb hzero, if_neg hne]
    exact f32Word_inf_eq _
  · intro hzero hzero'
    rw [fdiv_of_divisor_zero d ha hb hzero, if_pos hzero', f32IsNan_quietNan]

end Sys2Proof.Machine
end

section
/-! SUPPORT. Said once: what every state meets while a command runs, what of it the inputs that land meanwhile
leave alone, and that each operation keeps the canonical storage and the parameters. -/

namespace Sys2Proof.Machine

/-! ### Canonical storage -/

section
variable {s : State}

theorem storageWf_rbWrite (h : StorageWf s) (src : Nat → Nat → Nat → F32) (n : Nat) :
    StorageWf (rbWrite src n s) :=
  { h with ringOut := Store.wf_setAll h.ringOut _ }

theorem storageWf_orbWrite (h : StorageWf s) (src : Nat → Nat → Nat → F32) (n : Nat) :
    StorageWf (orbWrite src n s) :=
  { h with ringIn := Store.wf_setAll h.ringIn _ }

theorem storageWf_orbRead (h : StorageWf s) : StorageWf (orbRead s) :=
  { h with tb := Store.wf_setAll h.tb _ }

theorem storageWf_finishRebuild (h : StorageWf s) : StorageWf (finishRebuild s) :=
  { h with ringIn := Store.wf_setAll h.ringIn _ }

theorem storageWf_writeTable (h : StorageWf s) (r : Region) (len : Nat) (val : Nat → F32) :
    StorageWf (writeTable r len val s) :=
  { h with mem := Memory.wf_setWords (Memory.wf_zeroRegion h.mem r) _ }

theorem storageWf_freshDraws (h : StorageWf s) : StorageWf (freshDraws s) := { h with }

theorem storageWf_buildTables (h : StorageWf s) (q : CfgRegs) : StorageWf (buildTables q s) :=
  storageWf_writeTable (storageWf_writeTable (storageWf_writeTable (storageWf_freshDraws h) _ _ _) _ _ _) _ _ _

theorem storageWf_initClear (h : StorageWf s) : StorageWf (initClear s) :=
  { h with
    tail := Store.wf_filled _, mem := Memory.wf_zeroRegion (Memory.wf_zeroRegion h.mem _) _ }

theorem storageWf_analyzeAll (h : StorageWf s) : StorageWf (analyzeAll s) :=
  { h with mem := Memory.wf_setWords h.mem _ }

theorem storageWf_identityCopy (h : StorageWf s) : StorageWf (identityCopy s) :=
  { h with mem := Memory.wf_setWords h.mem _ }

theorem storageWf_synthesizeAll (h : StorageWf s) : StorageWf (synthesizeAll s) :=
  { h with
    y := Store.wf_setAll h.y _, res := Store.wf_setAll h.res _, tail := Store.wf_setAll h.tail _ }

theorem storageWf_countFrame (h : StorageWf s) : StorageWf (countFrame s) := { h with }

theorem storageWf_frameTail (h : StorageWf s) : StorageWf (frameTail s) :=
  storageWf_countFrame (storageWf_rbWrite (storageWf_synthesizeAll h) _ _)

theorem storageWf_readEffect (h : StorageWf s) (n : Nat) : StorageWf (readEffect n s) := by
  unfold readEffect
  split <;> exact { h with mem := Memory.wf_setWords h.mem _ }

theorem storageWf_hardReset (s : State) : StorageWf (hardReset s) where
  mem := Memory.wf_atReset
  ringIn := Store.wf_unspecified
  ringOut := Store.wf_unspecified
  tail := Store.wf_unspecified
  tb := Store.wf_unspecified
  y := Store.wf_unspecified
  res := Store.wf_unspecified

theorem Disturbed.storageWf {t : State} (d : Disturbed s t) (h : StorageWf s) : StorageWf t := by
  have hm := d.wf h.mem
  rw [d.eq]
  exact { h with mem := hm }

end

/-! ### What holds at every moment -/

/-- What holds of every state, also while a command runs: valid parameters, canonical storage, and host writes
in transit to host-writable words alone. -/
structure Sound (s : State) : Prop where
  build_valid : s.build.Valid
  storage : StorageWf s
  late : LateOk s

theorem Sound.base_mod {s : State} (h : Sound s) : s.build.base % 4 = 0 := by
  have := h.build_valid.base_aligned
  rw [show Config.windowBytes = 0x08000000 from rfl] at this
  omega

/-- A change of registers alone. -/
theorem Sound.of_eq {s t : State} (h : Sound s)
    (e : t = { t with
      build := s.build, mem := s.mem, ringIn := s.ringIn, ringOut := s.ringOut, tail := s.tail, tb := s.tb,
      y := s.y, res := s.res, transit := { t.transit with late := s.transit.late } }) : Sound t := by
  rw [e]
  exact ⟨h.build_valid, { h.storage with }, h.late⟩

/-- A change that sends no host write on its way. -/
theorem Sound.update {s t : State} (h : Sound s) (hb : t.build = s.build) (ht : t.transit = s.transit)
    (hw : StorageWf t) : Sound t where
  build_valid := hb ▸ h.build_valid
  storage := hw
  late := by unfold LateOk; rw [ht]; exact h.late

theorem Disturbed.sound {s t : State} (d : Disturbed s t) (h : Sound s) : Sound t where
  build_valid := by rw [d.eq]; exact h.build_valid
  storage := d.storageWf h.storage
  late := d.late h.late

/-! ### The COLA table -/

/-- Every byte of COLA is the same in both states. -/
def SameCola (s t : State) : Prop := ∀ off, regionOf off = some .cola → t.byteAt off = s.byteAt off

theorem SameCola.of_mem {s t : State} (hm : t.mem = s.mem) (he : t.epoch = s.epoch) : SameCola s t :=
  fun _ _ => State.byteAt_congr (by rw [hm]) he

/-- The check of 42_window_cola.md R224 looks at COLA alone. -/
theorem SameCola.colaValid_eq {s t : State} (h : SameCola s t) (hb : s.build.Valid) {hop : Nat}
    (hh : hop ≤ s.build.nMax) : colaValid hop t = colaValid hop s := by
  have hw : ∀ i < hop, t.wordAt (tableOff .cola i) = s.wordAt (tableOff .cola i) := fun i hi =>
    State.wordAt_congr fun j hj => h _ (regionOf_lane (tableOff_mod _ i) hj
      (regionOf_tableOff hb (by simp [isTable]) (lt_of_lt_of_le hi hh)))
  rw [Bool.eq_iff_iff]
  simp only [colaValid, List.all_eq_true, List.mem_range]
  exact forall₂_congr fun i hi => by rw [hw i hi]

/-! ### What inputs that land during a command leave alone -/

/-- The state t agrees with s in all that the invariant speaks of beside `Sound`: the sequencer, the active
configuration, the index triples, the counters and the COLA table. -/
structure Alike (s t : State) : Prop where
  seq : t.seq = s.seq
  frameCtx : t.frameCtx = s.frameCtx
  initResult : t.initResult = s.initResult
  faultCode : t.faultCode = s.faultCode
  act : t.act = s.act
  inIx : t.inIx = s.inIx
  outIx : t.outIx = s.outIx
  frameCount : t.frameCount = s.frameCount
  lastFrames : t.lastFrames = s.lastFrames
  build : t.build = s.build
  cola : SameCola s t

theorem Disturbed.alike {s t : State} (d : Disturbed s t) (hl : LateOk s) : Alike s t := by
  have hc : SameCola s t := fun off ho =>
    State.byteAt_congr (d.readOnly hl off .cola ho rfl) (by rw [d.eq])
  constructor
  case cola => exact hc
  all_goals rw [d.eq]

/-- The registers that the invariant does not speak of: interrupts, CFG_*, command errors, `busy`, `rst` and the
bookkeeping of the port. -/
theorem Alike.of_eq {s t : State}
    (h : t = { s with
      busy := t.busy, rst := t.rst, port := t.port, overlap := t.overlap, transit := t.transit, resp := t.resp,
      sticky := t.sticky, cmdErr := t.cmdErr, underflow := t.underflow, cfg := t.cfg,
      intEnable := t.intEnable, adapterOk := t.adapterOk }) : Alike s t := by
  have hc : SameCola s t := SameCola.of_mem (by rw [h]) (by rw [h])
  constructor
  case cola => exact hc
  all_goals rw [h]

end Sys2Proof.Machine
end

section
/-! SUPPORT. The invariant by the sequencer state, and what a point of a command keeps of it. -/

namespace Sys2Proof.Machine

/-! ### The configuration -/

/-- The legality of the active configuration is a matter of the active registers and the parameters. -/
theorem ActiveOk.congr {s t : State} (h : ActiveOk s) (ha : t.act = s.act) (hb : t.build = s.build) :
    ActiveOk t := by
  have e : t = { t with act := s.act, build := s.build } := by rw [← ha, ← hb]
  rw [e]
  exact { h with }

/-- An INIT succeeded and its configuration is active. -/
structure Configured (s : State) : Prop where
  init_ok : s.initResult = .ok
  active : ActiveOk s
  inRing : RingOk s.inIx s.Cin
  outRing : RingOk s.outIx s.Cout
  cola : colaValid s.hop s = true

/-- No configuration is active and no sample is held. -/
structure Unconfigured (s : State) : Prop where
  act : s.act = ActRegs.zero
  inIx : s.inIx = RingIx.zero
  outIx : s.outIx = RingIx.zero
  frameCount : s.frameCount = 0#32
  lastFrames : s.lastFrames = 0#32
  init_ne_ok : s.initResult ≠ .ok

/-- A change of the fills alone that keeps them within the rings. -/
theorem Configured.update {s t : State} (h : Configured s) (hb : s.build.Valid)
    (hi : t.initResult = s.initResult) (ha : t.act = s.act) (hbd : t.build = s.build) (hc : SameCola s t)
    (hin : RingOk t.inIx s.Cin) (hout : RingOk t.outIx s.Cout) : Configured t where
  init_ok := hi.trans h.init_ok
  active := h.active.congr ha hbd
  inRing := by rw [State.Cin_of_act ha]; exact hin
  outRing := by rw [State.Cout_of_act ha]; exact hout
  cola := by
    have hh := h.active.bounds hb
    rw [State.hop_of_act ha, hc.colaValid_eq hb (hh.hop_le.trans hh.N_le)]
    exact h.cola

theorem Configured.alike {s t : State} (h : Configured s) (hb : s.build.Valid) (a : Alike s t) :
    Configured t :=
  h.update hb a.initResult a.act a.build a.cola (a.inIx ▸ h.inRing) (a.outIx ▸ h.outRing)

theorem Unconfigured.alike {s t : State} (h : Unconfigured s) (a : Alike s t) : Unconfigured t where
  act := a.act.trans h.act
  inIx := a.inIx.trans h.inIx
  outIx := a.outIx.trans h.outIx
  frameCount := a.frameCount.trans h.frameCount
  lastFrames := a.lastFrames.trans h.lastFrames
  init_ne_ok := by rw [a.initResult]; exact h.init_ne_ok

/-! ### The invariant by the sequencer state -/

/-- What the invariant says of the state s when its sequencer is in the given state. -/
def Phase (s : State) : SeqState → Prop
  | .uninit => s.frameCtx = false ∧ s.faultCode = .none ∧ Unconfigured s
  | .ready => s.frameCtx = false ∧ s.faultCode = .none ∧ Configured s ∧ s.inIx.avail < s.N
  | .xwait => s.frameCtx = true ∧ s.faultCode = .none ∧ Configured s ∧ s.outIx.avail + s.hop ≤ s.Cout
  | .fault => s.frameCtx = false ∧ s.faultCode ≠ .none ∧ Configured s

theorem Phase.alike {s t : State} {q : SeqState} (h : Phase s q) (hb : s.build.Valid) (a : Alike s t) :
    Phase t q := by
  cases q with
  | uninit =>
    obtain ⟨hctx, hcause, hu⟩ := h
    exact ⟨a.frameCtx.trans hctx, a.faultCode.trans hcause, hu.alike a⟩
  | ready =>
    obtain ⟨hctx, hcause, hconf, hav⟩ := h
    refine ⟨a.frameCtx.trans hctx, a.faultCode.trans hcause, hconf.alike hb a, ?_⟩
    rw [a.inIx, State.N_of_act a.act]
    exact hav
  | xwait =>
    obtain ⟨hctx, hcause, hconf, hroom⟩ := h
    refine ⟨a.frameCtx.trans hctx, a.faultCode.trans hcause, hconf.alike hb a, ?_⟩
    rw [a.outIx, State.hop_of_act a.act, State.Cout_of_act a.act]
    exact hroom
  | fault =>
    obtain ⟨hctx, hcause, hconf⟩ := h
    exact ⟨a.frameCtx.trans hctx, by rw [a.faultCode]; exact hcause, hconf.alike hb a⟩

/-- The invariant but for `Quiet`. -/
structure Resting (s : State) : Prop extends Sound s where
  phase : Phase s s.seq

theorem Resting.alike {s t : State} (h : Resting s) (ht : Sound t) (a : Alike s t) : Resting t :=
  ⟨ht, by rw [a.seq]; exact h.phase.alike h.build_valid a⟩

theorem Resting.frameCtx_eq {s : State} (h : Resting s) : s.frameCtx = decide (s.seq = .xwait) := by
  have hp := h.phase
  cases hq : s.seq <;> simp_all [Phase]

theorem Resting.faultCode_iff {s : State} (h : Resting s) : s.faultCode ≠ .none ↔ s.seq = .fault := by
  have hp := h.phase
  cases hq : s.seq <;> simp_all [Phase]

theorem Resting.configured {s : State} (h : Resting s) (hq : s.seq ≠ .uninit) : Configured s := by
  have hp := h.phase
  generalize s.seq = q at *
  cases q with
  | uninit => exact absurd rfl hq
  | ready => exact hp.2.2.1
  | xwait => exact hp.2.2.1
  | fault => exact hp.2.2

theorem Resting.of_seq {s : State} {q : SeqState} (h : Sound s) (hq : s.seq = q) (hp : Phase s q) :
    Resting s := ⟨h, hq ▸ hp⟩

theorem Resting.phase_of_seq {s : State} {q : SeqState} (h : Resting s) (hq : s.seq = q) : Phase s q :=
  hq ▸ h.phase

/-- The invariant is `Resting` of a quiet state. -/
theorem inv_iff {s : State} : Inv s ↔ Resting s ∧ Quiet s := by
  constructor
  · intro h
    refine ⟨⟨⟨h.build_valid, h.storage_wf, ?_⟩, ?_⟩, h.quiet⟩
    · obtain ⟨_, _, ht⟩ := h.quiet
      unfold LateOk
      rw [ht]
      exact fun _ he => nomatch he
    · have hconf : s.seq ≠ .uninit → Configured s := fun hq =>
        ⟨(h.active hq).1, (h.active hq).2, h.inRing hq, h.outRing hq, h.cola hq⟩
      have hctx := h.context
      have hcause := h.cause
      cases hq : s.seq with
      | uninit =>
        obtain ⟨ha, hi, ho, hf, hl, hr⟩ := h.uninit hq
        exact ⟨by simpa [hq] using hctx, by simpa [hq] using hcause, ha, hi, ho, hf, hl, hr⟩
      | ready =>
        exact ⟨by simpa [hq] using hctx, by simpa [hq] using hcause, hconf (by simp [hq]), h.ready hq⟩
      | xwait =>
        exact ⟨hctx.2 hq, by simpa [hq] using hcause, hconf (by simp [hq]), h.xwait hq⟩
      | fault => exact ⟨by simpa [hq] using hctx, hcause.2 hq, hconf (by simp [hq])⟩
  · rintro ⟨h, hquiet⟩
    exact
      { build_valid := h.build_valid
        storage_wf := h.storage
        quiet := hquiet
        context := by rw [h.frameCtx_eq, decide_eq_true_iff]
        cause := h.faultCode_iff
        uninit := fun hq => by
          obtain ⟨-, -, hu⟩ := h.phase_of_seq hq
          exact ⟨hu.act, hu.inIx, hu.outIx, hu.frameCount, hu.lastFrames, hu.init_ne_ok⟩
        active := fun hq => ⟨(h.configured hq).init_ok, (h.configured hq).active⟩
        inRing := fun hq => (h.configured hq).inRing
        outRing := fun hq => (h.configured hq).outRing
        cola := fun hq => (h.configured hq).cola
        ready := fun hq => by
          obtain ⟨-, -, -, hav⟩ := h.phase_of_seq hq
          exact hav
        xwait := fun hq => by
          obtain ⟨-, -, -, hroom⟩ := h.phase_of_seq hq
          exact hroom }

/-! ### The course of a command -/

/-- A command has ended well. -/
def Ended (s : State) : Prop := Resting s ∧ s.busy = false

/-- What inputs that land during a command cannot break, a hardware reset aside. -/
structure Survives (P : State → Prop) : Prop where
  sound : ∀ {s}, P s → Sound s
  alike : ∀ {s t}, P s → Sound t → Alike s t → P t

theorem Survives.disturbed {P : State → Prop} (hP : Survives P) {s t : State} (h : P s)
    (d : Disturbed s t) : P t :=
  hP.alike h (d.sound (hP.sound h)) (d.alike (hP.sound h).late)

/-- `Sound` together with what `Alike` keeps. -/
theorem survives_of_alike {R : State → Prop} (hR : ∀ s t, s.build.Valid → R s → Alike s t → R t) :
    Survives fun s => Sound s ∧ R s where
  sound h := h.1
  alike := fun ⟨hs, hr⟩ ht a => ⟨ht, hR _ _ hs.build_valid hr a⟩

theorem survives_resting : Survives Resting := ⟨fun h => h.toSound, Resting.alike⟩

theorem sound_hardReset {s : State} (h : Sound s) : Sound (hardReset s) :=
  ⟨h.build_valid, storageWf_hardReset s, fun _ he => nomatch he⟩

/-- The block right after a hardware reset (70_reset_and_hazards.md R420), whatever is still to land. -/
theorem ended_hardReset {s : State} (h : Sound s) (ov : List (List Landing)) :
    Ended { hardReset s with overlap := ov } := by
  refine ⟨Resting.of_seq (q := .uninit) ((sound_hardReset h).of_eq rfl) rfl ⟨rfl, rfl, ?_⟩, rfl⟩
  exact ⟨rfl, rfl, rfl, rfl, rfl, show InitResult.none ≠ .ok by decide⟩

section
variable {P : State → Prop} (hP : Survives P) {k : State → State} {s : State}
include hP

theorem atPoint_ended (hb : s.busy = true) (h : P s) (hk : ∀ u, u.busy = true → P u → Ended (k u)) :
    Ended (atPoint k s) :=
  atPoint_induct hb h (fun _ hu => (hP.sound hu).base_mod) (fun _ _ => hP.disturbed)
    (fun _ ov hu => ended_hardReset (hP.sound hu) ov) hk

theorem piece_ended {f : State → State} {wrote : State → Nat → Bool} (hb : (f s).busy = true) (h : P (f s))
    (hk : ∀ u, u.busy = true → P u → Ended (k u)) : Ended (piece f wrote k s) :=
  piece_induct hb h (fun _ hu => (hP.sound hu).base_mod) (fun _ _ => hP.disturbed)
    (fun _ ov hu => ended_hardReset (hP.sound hu) ov) hk

end

theorem Resting.ended_completeCmd {s : State} (h : Resting s) : Ended (completeCmd s) :=
  ⟨h.alike (h.of_eq rfl) (Alike.of_eq rfl), rfl⟩

theorem Resting.ended_releaseBusy {s : State} (h : Resting s) : Ended (releaseBusy s) :=
  ⟨h.alike (h.of_eq rfl) (Alike.of_eq rfl), rfl⟩

/-- A pause: what overlapped the WRITE is settled, then a point, then `busy <- 0` (45_transform.md R343). -/
theorem pauseFrame_ended {s : State} (hb : s.busy = true) (h : Resting (saveFrame s)) :
    Ended (pauseFrame s) :=
  pauseFrame_induct hb h (fun _ hu => hu.base_mod) (fun _ _ => survives_resting.disturbed)
    (fun _ ov hu => ended_hardReset hu.toSound ov) fun _ _ hu => hu.ended_releaseBusy

/-- A WRITE ends in a fault (60_exceptions.md R376). -/
theorem faultFrame_ended {s : State} {code : FaultCode} (hb : s.busy = true)
    (h : Resting (enterFault code s)) : Ended (faultFrame code s) :=
  piece_ended survives_resting hb h fun _ _ hu => hu.ended_releaseBusy

/-- The first point of an accepted command. -/
theorem accepted_ended {s : State} {k : State → State} (h : Resting s)
    (hk : ∀ u, u.busy = true → Resting u → u.seq = s.seq → u.build = s.build → Ended (k u)) :
    Ended (atPoint k (acceptCmd s)) := by
  have hP : Survives fun u => Resting u ∧ u.seq = s.seq ∧ u.build = s.build :=
    ⟨fun hu => hu.1.toSound, fun hu ht a => ⟨hu.1.alike ht a, a.seq.trans hu.2.1, a.build.trans hu.2.2⟩⟩
  refine atPoint_ended hP rfl ?_ fun u hb hu => hk u hb hu.1 hu.2.1 hu.2.2
  exact ⟨h.alike (h.of_eq rfl) (Alike.of_eq rfl), rfl, rfl⟩

end Sys2Proof.Machine
end

section
/-! SUPPORT. Every command ends in a state that meets the invariant, whatever lands while it runs; and so does
every step. -/

namespace Sys2Proof.Machine

/-! ### The frame loop (44_engine_commands.md R295 to R301) -/

/-- READY while the frames of a WRITE or of an XDONE are processed: the input rings may hold a window. -/
structure Running (s : State) : Prop extends Sound s where
  seq : s.seq = .ready
  context : s.frameCtx = false
  cause : s.faultCode = .none
  conf : Configured s

/-- A change of the fills and of storage that keeps COLA. -/
theorem Running.update {s t : State} (h : Running s) (ht : Sound t) (hq : t.seq = s.seq)
    (hctx : t.frameCtx = s.frameCtx) (hcause : t.faultCode = s.faultCode)
    (hi : t.initResult = s.initResult) (ha : t.act = s.act) (hbd : t.build = s.build) (hc : SameCola s t)
    (hin : RingOk t.inIx s.Cin) (hout : RingOk t.outIx s.Cout) : Running t :=
  { ht with
    seq := hq.trans h.seq
    context := hctx.trans h.context
    cause := hcause.trans h.cause
    conf := h.conf.update h.build_valid hi ha hbd hc hin hout }

theorem Running.alike {s t : State} (h : Running s) (ht : Sound t) (a : Alike s t) : Running t :=
  h.update ht a.seq a.frameCtx a.faultCode a.initResult a.act a.build a.cola (a.inIx ▸ h.conf.inRing)
    (a.outIx ▸ h.conf.outRing)

theorem Running.bounds {s : State} (h : Running s) : Bounds s := h.conf.active.bounds h.build_valid

/-- A WRITE that faults. -/
theorem Running.resting_enterFault {s : State} (h : Running s) {code : FaultCode} (hcode : code ≠ .none) :
    Resting (enterFault code s) :=
  Resting.of_seq (q := .fault) (h.of_eq rfl) rfl ⟨h.context, hcode,
    h.conf.update h.build_valid rfl rfl rfl (SameCola.of_mem rfl rfl) h.conf.inRing h.conf.outRing⟩

/-- Between commands in READY, in_avail < N (10_state.md R94). -/
theorem Running.resting {s : State} (h : Running s) (hav : s.inIx.avail < s.N) : Resting s :=
  Resting.of_seq h.toSound h.seq ⟨h.context, h.cause, h.conf, hav⟩

/-- Within a frame: fewer than n samples are left and the output rings have room for its hop. -/
structure Framing (n : Nat) (s : State) : Prop extends Running s where
  avail_lt : s.inIx.avail < n
  room : s.outIx.avail + s.hop ≤ s.Cout

theorem Framing.update {n : Nat} {s t : State} (h : Framing n s) (hr : Running t)
    (hin : t.inIx.avail < n) (hout : t.outIx = s.outIx) (ha : t.act = s.act) : Framing n t :=
  { hr with
    avail_lt := hin
    room := by rw [hout, State.hop_of_act ha, State.Cout_of_act ha]; exact h.room }

theorem survives_framing (n : Nat) : Survives (Framing n) where
  sound h := h.toSound
  alike h ht a := h.update (h.toRunning.alike ht a) (by rw [a.inIx]; exact h.avail_lt) a.outIx a.act

theorem survives_runningBelow (n : Nat) : Survives fun s => Running s ∧ s.inIx.avail < n where
  sound h := h.1.toSound
  alike h ht a := ⟨h.1.alike ht a, by rw [a.inIx]; exact h.2⟩

/-- ORB_READ takes hop ≥ 1 samples. -/
theorem framing_orbRead {n : Nat} {s : State} (h : Running s) (hav : s.inIx.avail < n + 1)
    (hN : s.N ≤ s.inIx.avail) (hroom : s.outIx.avail + s.hop ≤ s.Cout) : Framing n (orbRead s) := by
  have hb := h.bounds
  have hpos := hb.hop_pos
  have hle := hb.hop_le
  have hr : Running (orbRead s) :=
    h.update (h.toSound.update rfl rfl (storageWf_orbRead h.storage)) rfl rfl rfl rfl rfl rfl
      (SameCola.of_mem rfl rfl) (h.conf.inRing.remove (by omega)) h.conf.outRing
  refine { hr with avail_lt := ?_, room := hroom }
  show s.inIx.avail - s.hop < n
  omega

theorem framing_analyzeAll {n : Nat} {s : State} (h : Framing n s) : Framing n (analyzeAll s) := by
  have hr : Running (analyzeAll s) :=
    h.toRunning.update (h.toSound.update rfl rfl (storageWf_analyzeAll h.storage)) rfl rfl rfl rfl rfl rfl
      (fun off ho => analyzeAll_byteAt h.build_valid h.bounds.K_le h.conf.active.inputs_ok.2 (by simp [ho]))
      h.conf.inRing h.conf.outRing
  exact h.update hr h.avail_lt rfl rfl

theorem framing_identityCopy {n : Nat} {s : State} (h : Framing n s) : Framing n (identityCopy s) := by
  have hr : Running (identityCopy s) :=
    h.toRunning.update (h.toSound.update rfl rfl (storageWf_identityCopy h.storage)) rfl rfl rfl rfl rfl rfl
      (fun off ho => identityCopy_byteAt h.build_valid h.bounds.K_le (by simp [ho]))
      h.conf.inRing h.conf.outRing
  exact h.update hr h.avail_lt rfl rfl

/-- FRAME_TAIL appends the hop for which there is room. -/
theorem running_frameTail {n : Nat} {s : State} (h : Framing n s) :
    Running (frameTail s) ∧ (frameTail s).inIx.avail < n := by
  have ht : Sound (frameTail s) :=
    h.toSound.update (frameTail_build s) (frameTail_transit s) (storageWf_frameTail h.storage)
  refine ⟨h.toRunning.update ht (frameTail_seq s) (frameTail_frameCtx s) (frameTail_faultCode s)
    (frameTail_initResult s) (frameTail_act s) (frameTail_build s)
    (SameCola.of_mem (frameTail_mem s) (frameTail_epoch s)) ?_ ?_, ?_⟩
  · rw [frameTail_inIx]; exact h.conf.inRing
  · rw [frameTail_outIx]; exact h.conf.outRing.append h.room
  · rw [frameTail_inIx]; exact h.avail_lt

/-- A paused frame: the room for its hop was checked (44_engine_commands.md R297). -/
theorem resting_saveFrame {n : Nat} {s : State} (h : Framing n s) : Resting (saveFrame s) :=
  Resting.of_seq (q := .xwait) (h.of_eq rfl) rfl ⟨rfl, h.cause,
    h.conf.update h.build_valid rfl rfl rfl (SameCola.of_mem rfl rfl) h.conf.inRing h.conf.outRing, h.room⟩

theorem headPieces_ended {n : Nat} {s : State} {k : State → State} (hb : s.busy = true)
    (h : Framing n (orbRead s)) (hk : ∀ u, u.busy = true → Framing n u → Ended (k u)) :
    Ended (headPieces k s) :=
  piece_ended (survives_framing n) hb h fun _ hbu hu =>
    piece_ended (survives_framing n) hbu (framing_analyzeAll hu) hk

theorem copyPiece_ended {n : Nat} {s : State} {k : State → State} (hb : s.busy = true) (h : Framing n s)
    (hk : ∀ u, u.busy = true → Framing n u → Ended (k u)) : Ended (copyPiece k s) :=
  piece_ended (survives_framing n) hb (framing_identityCopy h) hk

/-- The frame loop ends well when its fuel exceeds the samples held: each round takes at least one. -/
theorem frameLoop_ended (fuel : Nat) {s : State} (hb : s.busy = true) (h : Running s)
    (hav : s.inIx.avail < fuel) : Ended (frameLoop fuel s) := by
  induction fuel generalizing s with
  | zero => omega
  | succ fuel ih =>
    unfold frameLoop
    split
    · exact (h.resting ‹_›).ended_completeCmd
    · split
      · exact faultFrame_ended hb (h.resting_enterFault (by decide))
      · have hf := framing_orbRead h hav (by omega) (by omega)
        have hpause : ∀ u, u.busy = true → Framing fuel u → Ended (pauseFrame u) := fun u hbu hu =>
          pauseFrame_ended hbu (resting_saveFrame hu)
        split
        case h_1 =>
          refine headPieces_ended hb hf fun u hbu hu => copyPiece_ended hbu hu fun v hbv hv => ?_
          exact piece_ended (survives_runningBelow fuel) ((frameTail_busy v).trans hbv) (running_frameTail hv)
            fun w hbw hw => ih hbw hw.1 hw.2
        case h_2 => exact headPieces_ended hb hf hpause
        case h_3 => exact headPieces_ended hb hf fun u hbu hu => copyPiece_ended hbu hu hpause
        case h_4 => exact headPieces_ended hb hf hpause

theorem runFrames_ended {s : State} (hb : s.busy = true) (h : Running s) : Ended (runFrames s) :=
  frameLoop_ended _ hb h (Nat.lt_succ_self _)

/-! ### WRITE, XDONE and READ -/

theorem Resting.running {s : State} (h : Resting s) (hq : s.seq = .ready) : Running s := by
  obtain ⟨hctx, hcause, hconf, -⟩ := h.phase_of_seq hq
  exact { h.toSound with seq := hq, context := hctx, cause := hcause, conf := hconf }

theorem survives_running : Survives Running := ⟨fun h => h.toSound, Running.alike⟩

theorem writeFrames_ended {s : State} (n : Nat) (hb : s.busy = true) (h : Running s) :
    Ended (writeFrames n s) := by
  unfold writeFrames
  split
  · exact faultFrame_ended hb (h.resting_enterFault (by decide))
  · refine piece_ended survives_running hb ?_ fun u hbu hu => runFrames_ended hbu hu
    exact h.update (h.toSound.update rfl rfl (storageWf_orbWrite h.storage _ n)) rfl rfl rfl rfl rfl rfl
      (SameCola.of_mem rfl rfl) (h.conf.inRing.append (by omega)) h.conf.outRing

theorem runWrite_ended {s : State} (n : Nat) (h : Resting s) (hq : s.seq = .ready) : Ended (runWrite n s) :=
  accepted_ended h fun _ hb hu hqu _ =>
    have hr := hu.running (hqu.trans hq)
    have hs : Running (startCount _) :=
      hr.update (hr.of_eq rfl) rfl rfl rfl rfl rfl rfl (SameCola.of_mem rfl rfl) hr.conf.inRing hr.conf.outRing
    piece_ended survives_running hb hs fun _ hbv hv => writeFrames_ended n hbv hv

theorem runXdone_ended {s : State} (h : Resting s) (hq : s.seq = .xwait) : Ended (runXdone s) := by
  obtain ⟨-, hcause, hconf, hroom⟩ := h.phase_of_seq hq
  have hf : Framing (s.inIx.avail + 1) (leaveXwait (watchReads s)) :=
    { h.toSound.of_eq (t := leaveXwait (watchReads s)) rfl with
      seq := rfl
      context := rfl
      cause := hcause
      conf := hconf.update h.build_valid rfl rfl rfl (SameCola.of_mem rfl rfl) hconf.inRing hconf.outRing
      avail_lt := Nat.lt_succ_self _
      room := hroom }
  exact piece_ended (survives_framing _) rfl hf fun u hbu hu =>
    piece_ended survives_running ((frameTail_busy u).trans hbu) (running_frameTail hu).1 fun v hbv hv =>
      runFrames_ended hbv hv

/-- READ removes no more than is held, and writes STAGE_OUT alone. -/
theorem running_readEffect {s : State} {n : Nat} (h : Running s) (hn : n ≤ s.build.stageFrames) :
    Running (readEffect n s) := by
  have hc : ∀ u val, u.act = s.act → u.build = s.build → SameCola u (stageOutput n val u) := by
    intro u val ha hbd off ho
    refine stageOutput_byteAt fun j c f hj hcc hf =>
      outside_stageOut (regionOf_stageOut ?_ ?_ ?_ ?_) (by simp [ho])
    · rw [hbd]; exact h.build_valid
    · rw [hbd]; exact lt_of_lt_of_le (State.J_of_act ha ▸ hj) h.conf.active.outputs_ok.2
    · exact lt_of_lt_of_le hcc u.C_le
    · rw [hbd]; omega
  have hsound : Sound (readEffect n s) := by
    refine h.toSound.update ?_ ?_ (storageWf_readEffect h.storage n) <;> unfold readEffect <;> split <;> rfl
  unfold readEffect at hsound ⊢
  split at hsound
  · rw [if_pos ‹_›]
    exact h.update hsound rfl rfl rfl rfl rfl rfl (hc s _ rfl rfl) h.conf.inRing h.conf.outRing
  · rw [if_neg ‹_›]
    exact h.update hsound rfl rfl rfl rfl rfl rfl (hc (rbAdvance n s) _ rfl rfl) h.conf.inRing
      (h.conf.outRing.remove (by omega))

theorem readEffect_inIx (n : Nat) (s : State) : (readEffect n s).inIx = s.inIx := by
  unfold readEffect; split <;> rfl

theorem readEffect_act (n : Nat) (s : State) : (readEffect n s).act = s.act := by
  unfold readEffect; split <;> rfl

theorem readEffect_busy (n : Nat) (s : State) : (readEffect n s).busy = s.busy := by
  unfold readEffect; split <;> rfl

theorem runRead_ended {s : State} {n : Nat} (h : Resting s) (hq : s.seq = .ready)
    (hn : n ≤ s.build.stageFrames) : Ended (runRead n s) :=
  accepted_ended h fun u hb hu hqu hbd => by
    obtain ⟨-, -, -, hav⟩ := hu.phase_of_seq (hqu.trans hq)
    have hr := running_readEffect (hu.running (hqu.trans hq)) (hbd ▸ hn)
    refine piece_ended survives_resting ((readEffect_busy n u).trans hb) (hr.resting ?_) fun _ _ hv =>
      hv.ended_completeCmd
    rw [readEffect_inIx, State.N_of_act (readEffect_act n u)]
    exact hav

/-! ### NOP and SRESET -/

theorem runNop_ended {s : State} (h : Resting s) : Ended (runNop s) :=
  accepted_ended h fun _ _ hu _ _ => hu.ended_completeCmd

theorem finishSreset_ended {s : State} (h : Sound s) (hq : s.seq = .uninit) (hctx : s.frameCtx = false) :
    Ended (finishSreset s) :=
  ⟨Resting.of_seq (h.of_eq rfl) hq
    ⟨hctx, rfl, rfl, rfl, rfl, rfl, rfl, show InitResult.none ≠ .ok by decide⟩, rfl⟩

theorem runSreset_ended {s : State} (h : Resting s) : Ended (runSreset s) :=
  accepted_ended h fun _ hb hu _ _ =>
    piece_ended
      (survives_of_alike (R := fun u => u.seq = .uninit ∧ u.frameCtx = false)
        fun _ _ _ hr a => ⟨a.seq.trans hr.1, a.frameCtx.trans hr.2⟩)
      hb ⟨hu.of_eq rfl, rfl, rfl⟩ fun _ _ ⟨hv, hq, hctx⟩ => finishSreset_ended hv hq hctx

/-! ### RING_REBUILD (44_engine_commands.md R283): SET_BLOCK and INIT -/

theorem wordOfNat_toNat {n : Nat} (h : n < 2 ^ 32) : (wordOfNat n).toNat = n := Nat.mod_eq_of_lt h

/-- The input rings are cleared for a configuration that the rest of RING_REBUILD makes an active one. -/
structure Rebuilding (s : State) : Prop where
  context : s.frameCtx = false
  active : ActiveOk (finishRebuild s)
  cola : colaValid s.hop s = true

theorem finishRebuild_act (s : State) :
    (finishRebuild s).act =
      { s.act with
        outCap := wordOfNat (outCapacity s.B s.hop), latency := wordOfNat (latencyOf s.N s.hop s.B) } := rfl

theorem finishRebuild_N (s : State) : (finishRebuild s).N = s.N := rfl

theorem finishRebuild_hop (s : State) : (finishRebuild s).hop = s.hop := rfl

theorem finishRebuild_act_congr {s t : State} (h : t.act = s.act) :
    (finishRebuild t).act = (finishRebuild s).act := by
  rw [finishRebuild_act, finishRebuild_act, State.N_of_act h, State.hop_of_act h, State.B_of_act h, h]

theorem Rebuilding.bounds {s : State} (hb : s.build.Valid) (h : Rebuilding s) : Bounds (finishRebuild s) :=
  h.active.bounds (finishRebuild_build s ▸ hb)

theorem Rebuilding.alike {s t : State} (hb : s.build.Valid) (h : Rebuilding s) (a : Alike s t) :
    Rebuilding t where
  context := a.frameCtx.trans h.context
  active := h.active.congr (finishRebuild_act_congr a.act) a.build
  cola := by
    have hh : s.hop ≤ s.build.nMax := (h.bounds hb).hop_le.trans (h.bounds hb).N_le
    rw [State.hop_of_act a.act, a.cola.colaValid_eq hb hh]
    exact h.cola

/-- The padded rings hold less than a window (41_ring_buffers.md R200). -/
theorem Rebuilding.resting {s t : State} (hs : Sound s) (h : Rebuilding s) (ht : Sound t)
    (hq : t.seq = .ready) (hctx : t.frameCtx = s.frameCtx) (hcause : t.faultCode = .none)
    (hinit : t.initResult = .ok) (ha : t.act = (finishRebuild s).act) (hbd : t.build = s.build)
    (hin : t.inIx = { rd := 0, wr := padding s.N s.B, avail := padding s.N s.B })
    (hout : t.outIx = RingIx.zero) (hc : SameCola s t) : Resting t := by
  have hb := h.bounds hs.build_valid
  have hpos : 1 ≤ s.B := h.active.block_ok.1
  have hN : 2 ≤ s.N := hb.N_ge
  have hcap : s.N + 1 ≤ t.Cin := by rw [State.Cin_of_act ha]; exact hb.Cin_ge
  have hpad : padding s.N s.B < s.N := by unfold padding; omega
  have hactive : ActiveOk t := h.active.congr ha hbd
  refine Resting.of_seq ht hq ⟨hctx.trans h.context, hcause, ⟨hinit, hactive, ?_, ?_, ?_⟩, ?_⟩
  · rw [hin]
    exact ⟨by dsimp only; omega, by dsimp only; omega, by dsimp only; omega,
      by rw [Nat.zero_add, Nat.mod_eq_of_lt (by dsimp only; omega)]⟩
  · rw [hout]
    have h1 := hb.Cout_ge
    have h2 := hb.hop_pos
    rw [State.Cout_of_act ha]
    exact ringOk_zero (by omega)
  · have hh : s.hop ≤ s.build.nMax := hb.hop_le.trans hb.N_le
    rw [State.hop_of_act ha, finishRebuild_hop, hc.colaValid_eq hs.build_valid hh]
    exact h.cola
  · rw [hin, State.N_of_act ha, finishRebuild_N]
    exact hpad

/-- A legal configuration stays one with a new block size and what RING_REBUILD makes of it. -/
theorem ActiveOk.newBlock {s t : State} (h : ActiveOk s) {B ci co la : Word}
    (ha : t.act = { s.act with block := B, inCap := ci, outCap := co, latency := la })
    (hbd : t.build = s.build) (hB : 1 ≤ B.toNat ∧ B.toNat ≤ s.build.bMax) (hci : ci.toNat = s.N + B.toNat)
    (hco : co.toNat = max (8 * B.toNat) (2 * s.hop)) (hla : la = wordOfNat (latencyOf s.N s.hop B.toNat)) :
    ActiveOk t := by
  have e : t = { t with
      act := { s.act with block := B, inCap := ci, outCap := co, latency := la }, build := s.build } := by
    rw [← ha, ← hbd]
  rw [e]
  exact { h with block_ok := hB, inCap_eq := hci, outCap_eq := hco, latency_eq := hla }

/-- SET_BLOCK in READY: the new block size fits, so RING_REBUILD gives an active configuration. -/
theorem rebuilding_beginSetBlock {s : State} (h : Running s) {b : Nat} (h1 : 1 ≤ b)
    (hmax : b ≤ s.build.bMax) : Rebuilding (beginSetBlock b s) := by
  have hb := h.bounds
  have hN := hb.N_le.trans hb.nMax_le
  have hhop := hb.hop_le
  have hmax' := h.build_valid.bMax_ok.2
  have hB : (wordOfNat b).toNat = b := wordOfNat_toNat (by omega)
  have hc : SameCola s (beginSetBlock b s) := SameCola.of_mem rfl rfl
  refine ⟨h.context, h.conf.active.newBlock (B := wordOfNat b) (finishRebuild_act _) rfl
    ⟨h1.trans_eq hB.symm, hB.trans_le hmax⟩ ?_ ?_ rfl, ?_⟩
  · exact wordOfNat_toNat (n := s.N + (wordOfNat b).toNat) (by omega)
  · exact wordOfNat_toNat (n := max (8 * (wordOfNat b).toNat) (2 * s.hop)) (by omega)
  · rw [show (beginSetBlock b s).hop = s.hop from rfl, hc.colaValid_eq h.build_valid (hhop.trans hb.N_le)]
    exact h.conf.cola

theorem setBlockRings_ended {s : State} {b : Nat} (hb : s.busy = true) (h : Resting s) (h1 : 1 ≤ b)
    (hmax : b ≤ s.build.bMax) : Ended (setBlockRings b s) := by
  unfold setBlockRings
  split
  · rename_i hq
    have hr := h.running hq
    refine piece_ended
      (survives_of_alike (R := fun u =>
        Rebuilding u ∧ u.seq = .ready ∧ u.faultCode = .none ∧ u.initResult = .ok)
        fun _ _ hbv hu a => ⟨hu.1.alike hbv a, a.seq.trans hu.2.1, a.faultCode.trans hu.2.2.1,
          a.initResult.trans hu.2.2.2⟩)
      hb ⟨h.of_eq rfl, rebuilding_beginSetBlock hr h1 hmax, hq, hr.cause, hr.conf.init_ok⟩ ?_
    rintro u hbu ⟨hs, hu, hqu, hcause, hinit⟩
    refine piece_ended survives_resting ((finishSetBlock_busy u).trans hbu) ?_ fun _ _ hv => hv.ended_completeCmd
    have hw : StorageWf (finishSetBlock u) := { storageWf_finishRebuild hs.storage with }
    exact hu.resting hs (hs.update (finishSetBlock_build u) (finishSetBlock_transit u) hw)
      ((finishSetBlock_seq u).trans hqu) (finishSetBlock_frameCtx u) ((finishSetBlock_faultCode u).trans hcause)
      ((finishSetBlock_initResult u).trans hinit) rfl (finishSetBlock_build u) (finishSetBlock_inIx u)
      (finishSetBlock_outIx u) (SameCola.of_mem (finishSetBlock_mem u) (finishSetBlock_epoch u))
  · exact h.ended_completeCmd

theorem runSetBlock_ended {s : State} {b : Nat} (h : Resting s) (h1 : 1 ≤ b) (hmax : b ≤ s.build.bMax) :
    Ended (runSetBlock b s) :=
  accepted_ended h fun _ hb hu _ hbd =>
    piece_ended
      (P := fun v => Resting v ∧ v.build = s.build)
      ⟨fun hv => hv.1.toSound, fun hv ht a => ⟨hv.1.alike ht a, a.build.trans hv.2⟩⟩
      hb ⟨hu.alike (hu.of_eq rfl) (Alike.of_eq rfl), hbd⟩
      fun _ hbv hv => setBlockRings_ended hbv hv.1 h1 (hv.2 ▸ hmax)

/-! ### INIT (44_engine_commands.md R280 to R285) -/

/-- The conditions (a) to (h) of 44_engine_commands.md R282 step 2. -/
structure LegalConfig (b : Build) (q : CfgRegs) : Prop where
  channels : q.channels ≠ 0#8
  fftSize : b.supports q.fftSize.toNat = true
  overlap : q.overlap.toNat < q.fftSize.toNat
  block : 1 ≤ q.block.toNat ∧ q.block.toNat ≤ b.bMax
  inputs : 1 ≤ streamsIn q.streams ∧ streamsIn q.streams ≤ b.inMax
  outputs : 1 ≤ streamsOut q.streams ∧ streamsOut q.streams ≤ b.outMax
  window : q.window = 0#8 ∨ q.window = 1#8
  mode : streamsMode q.streams ≠ .reserved
  inplace : streamsMode q.streams = .inplace → streamsIn q.streams = 1 ∧ streamsOut q.streams = 1

theorem configValid_iff {b : Build} {q : CfgRegs} : configValid b q = true ↔ LegalConfig b q := by
  simp only [configValid, Bool.and_eq_true, decide_eq_true_eq]
  constructor
  · rintro ⟨⟨⟨⟨⟨⟨⟨hc, hf⟩, ho⟩, hb⟩, ⟨⟨hi, hi'⟩, hj⟩, hj'⟩, hw⟩, hm⟩, hp⟩
    exact ⟨hc, hf, ho, hb, ⟨hi, hi'⟩, ⟨hj, hj'⟩, hw, hm, hp⟩
  · rintro ⟨hc, hf, ho, hb, ⟨hi, hi'⟩, ⟨hj, hj'⟩, hw, hm, hp⟩
    exact ⟨⟨⟨⟨⟨⟨⟨hc, hf⟩, ho⟩, hb⟩, ⟨⟨hi, hi'⟩, hj⟩, hj'⟩, hw⟩, hm⟩, hp⟩

theorem LegalConfig.fftSize_le {b : Build} {q : CfgRegs} (h : LegalConfig b q) (hb : b.Valid) :
    q.fftSize.toNat ≤ b.nMax := (supports_cases hb h.fftSize).2.2

/-- An INIT under way with a legal configuration. -/
structure Building (q : CfgRegs) (s : State) : Prop where
  context : s.frameCtx = false
  legal : LegalConfig s.build q

theorem Building.alike {q : CfgRegs} {s t : State} (h : Building q s) (a : Alike s t) : Building q t :=
  ⟨a.frameCtx.trans h.context, a.build ▸ h.legal⟩

theorem failInit_ended {s : State} {code : InitResult} (hb : s.busy = true) (h : Sound s)
    (hctx : s.frameCtx = false) (hcode : code ≠ .ok) : Ended (failInit code s) := by
  refine piece_ended survives_resting hb ?_ fun u _ hu => ?_
  · exact Resting.of_seq (h.of_eq rfl) rfl ⟨hctx, rfl, rfl, rfl, rfl, rfl, rfl, hcode⟩
  · have hi : Resting { u with sticky := { u.sticky with initErr := true } } :=
      hu.alike (hu.of_eq rfl) (Alike.of_eq rfl)
    exact hi.ended_completeCmd

/-- The latched configuration, once RING_REBUILD has given it its capacities, is a legal active one. -/
theorem activeOk_latched {b : Build} {q : CfgRegs} (hb : b.Valid) (h : LegalConfig b q) {t : State}
    {ci co la : Word} {a : ActRegs}
    (ha : t.act = { latchedConfig q a with inCap := ci, outCap := co, latency := la })
    (hbd : t.build = b) (hci : ci.toNat = q.fftSize.toNat + q.block.toNat)
    (hco : co.toNat = max (8 * q.block.toNat) (2 * (wordOfNat (cfgHop q)).toNat))
    (hla : la = wordOfNat (latencyOf q.fftSize.toNat (wordOfNat (cfgHop q)).toNat q.block.toNat)) :
    ActiveOk t := by
  have hN := h.fftSize_le hb
  have hmax := nMax_le hb
  have hh : (wordOfNat (cfgHop q)).toNat = cfgHop q := wordOfNat_toNat (by unfold cfgHop; omega)
  have hK : (wordOfNat (q.fftSize.toNat / 2 + 1)).toNat = q.fftSize.toNat / 2 + 1 := wordOfNat_toNat (by omega)
  have hC : 1 ≤ q.channels.toNat := Nat.pos_of_ne_zero fun hc => h.channels (BitVec.eq_of_toNat_eq hc)
  have e : t = { t with
      act := { latchedConfig q a with inCap := ci, outCap := co, latency := la }, build := b } := by
    rw [← ha, ← hbd]
  rw [e]
  exact
    { fft_supported := h.fftSize
      overlap_lt := h.overlap
      hop_eq := hh
      window_size := rfl
      block_ok := h.block
      channels_ok := hC
      inputs_ok := h.inputs
      outputs_ok := h.outputs
      window_ok := h.window
      mode_ok := h.mode
      inplace_ok := h.inplace
      bins_eq := hK
      inCap_eq := hci
      outCap_eq := hco
      latency_eq := hla }

theorem rebuilding_beginCommit {q : CfgRegs} {s : State} (hs : Sound s) (h : Building q s)
    (hc : colaValid (cfgHop q) s = true) : Rebuilding (beginCommit q s) := by
  have hN := h.legal.fftSize_le hs.build_valid
  have hmax := nMax_le hs.build_valid
  have hB := h.legal.block.2
  have hB' := hs.build_valid.bMax_ok.2
  have hle : cfgHop q ≤ q.fftSize.toNat := Nat.sub_le _ _
  have hh : (wordOfNat (cfgHop q)).toNat = cfgHop q := wordOfNat_toNat (by omega)
  have hsc : SameCola s (beginCommit q s) := SameCola.of_mem rfl rfl
  refine ⟨h.context,
    activeOk_latched (a := s.act) hs.build_valid h.legal (finishRebuild_act _) rfl ?_ ?_ rfl, ?_⟩
  · exact wordOfNat_toNat (n := q.fftSize.toNat + q.block.toNat) (by omega)
  · exact wordOfNat_toNat (n := max (8 * q.block.toNat) (2 * (wordOfNat (cfgHop q)).toNat)) (by omega)
  · rw [show (beginCommit q s).hop = cfgHop q from hh, hsc.colaValid_eq hs.build_valid (hle.trans hN)]
    exact hc

/-- INIT_COMMIT leaves READY with the configuration active. -/
theorem resting_finishCommit {s : State} (hs : Sound s) (h : Rebuilding s) : Resting (finishCommit s) := by
  have hc : SameCola s (finishCommit s) := by
    intro off ho
    refine State.byteAt_congr ?_ (finishCommit_epoch s)
    rw [finishCommit_mem, Memory.get?_zeroRegion, Memory.get?_zeroRegion, if_neg (by simp [ho]),
      if_neg (by simp [ho])]
  exact h.resting hs
    (hs.update (finishCommit_build s) (finishCommit_transit s)
      (storageWf_initClear (storageWf_finishRebuild hs.storage)))
    (finishCommit_seq s) (finishCommit_frameCtx s) (finishCommit_faultCode s) (finishCommit_initResult s) rfl
    (finishCommit_build s) (finishCommit_inIx s) (finishCommit_outIx s) hc

theorem initFinish_ended {q : CfgRegs} {s : State} (hb : s.busy = true) (hs : Sound s) (h : Building q s)
    (hc : colaValid (cfgHop q) s = true) : Ended (initFinish q s) := by
  have hN := h.legal.fftSize_le hs.build_valid
  have hle : cfgHop q ≤ s.build.nMax := (Nat.sub_le _ _).trans hN
  have hsurv : Survives fun u => Sound u ∧ Building q u ∧ colaValid (cfgHop q) u = true :=
    survives_of_alike fun u v hbu ⟨hu, hcu⟩ a => by
      have hle : cfgHop q ≤ u.build.nMax := (Nat.sub_le _ _).trans (hu.legal.fftSize_le hbu)
      exact ⟨hu.alike a, a.cola.colaValid_eq hbu hle ▸ hcu⟩
  have hsc : SameCola s (buildEffsyn q.fftSize.toNat (cfgHop q) s) := fun off ho =>
    writeTable_byteAt hs.build_valid (by simp [isTable]) hN (by simp [ho])
  have hsound : Sound (buildEffsyn q.fftSize.toNat (cfgHop q) s) :=
    hs.update rfl rfl (storageWf_writeTable hs.storage _ _ _)
  refine piece_ended hsurv hb ⟨hsound, ⟨h.context, h.legal⟩, hsc.colaValid_eq hs.build_valid hle ▸ hc⟩ ?_
  rintro u hbu ⟨hus, hu, hcu⟩
  refine piece_ended (survives_of_alike fun _ _ hbv hv a => Rebuilding.alike hbv hv a) hbu
    ⟨hus.of_eq rfl, rebuilding_beginCommit hus hu hcu⟩ ?_
  rintro v hbv ⟨hvs, hv⟩
  exact piece_ended survives_resting ((finishCommit_busy v).trans hbv) (resting_finishCommit hvs hv) fun _ _ hw =>
    hw.ended_completeCmd

theorem initChecked_ended {q : CfgRegs} {s : State} (hb : s.busy = true) (h : Resting s)
    (hq : s.seq ≠ .xwait) : Ended (initChecked q s) := by
  have hctx : s.frameCtx = false := by rw [h.frameCtx_eq]; exact decide_eq_false hq
  unfold initChecked
  split
  · exact failInit_ended hb h.toSound hctx (by decide)
  · rename_i hvalid
    split
    · exact failInit_ended hb h.toSound hctx (by decide)
    · have hlegal : LegalConfig s.build q := configValid_iff.1 (by simpa using hvalid)
      refine piece_ended (survives_of_alike fun _ _ _ hu a => Building.alike (q := q) hu a)
        ((buildTables_busy q s).trans hb)
        ⟨h.toSound.update (buildTables_build q s) (buildTables_transit q s) (storageWf_buildTables h.storage q),
          (buildTables_frameCtx q s).trans hctx, (buildTables_build q s).symm ▸ hlegal⟩ ?_
      rintro u hbu ⟨hus, hu⟩
      unfold initValidate
      split
      · exact initFinish_ended hbu hus hu ‹_›
      · exact failInit_ended hbu hus hu.context (by decide)

theorem runInit_ended {s : State} (h : Resting s) (hq : s.seq ≠ .xwait) : Ended (runInit s) :=
  accepted_ended h fun _ hb hu hqu _ => initChecked_ended hb hu (hqu ▸ hq)

/-! ### Every command and every step -/

theorem rejection_eq_none {s : State} {i : Instr} (h : rejection s i = none) :
    accepts s.seq i = true ∧ operandError s i = none := by
  unfold rejection at h
  split at h
  · cases h
  · split at h
    · exact ⟨‹_›, h⟩
    · cases h

/-- An accepted command ends well. -/
theorem runOf_ended {i : Instr} {s : State} (h : Resting s) (hi : rejection s i = none) :
    Ended (runOf i s) := by
  obtain ⟨hq, ho⟩ := rejection_eq_none hi
  cases i with
  | nop _ => exact runNop_ended h
  | init _ => exact runInit_ended h (of_decide_eq_true hq)
  | setBlock b =>
    have hb : ¬(b = 0 ∨ s.build.bMax < b) := fun hc => by simp [operandError, hc] at ho
    exact runSetBlock_ended h (by omega) (by omega)
  | write n => exact runWrite_ended n h (of_decide_eq_true hq)
  | read n =>
    have hn : ¬(s.build.stageFrames < n ∨ s.Cout < n) := fun hc => by simp [operandError, hc] at ho
    exact runRead_ended h (of_decide_eq_true hq) (by omega)
  | xdone _ => exact runXdone_ended h (of_decide_eq_true hq)
  | sreset _ => exact runSreset_ended h

theorem Ended.of_eq {s t : State} (h : Ended s)
    (e : t = { s with
      rst := t.rst, port := t.port, overlap := t.overlap, resp := t.resp,
      sticky := t.sticky, cmdErr := t.cmdErr, cfg := t.cfg, intEnable := t.intEnable,
      adapterOk := t.adapterOk }) : Ended t := by
  refine ⟨h.1.alike (h.1.of_eq ?_) (Alike.of_eq ?_), ?_⟩
  · rw [e]
  · rw [e]
  · rw [e]; exact h.2

theorem Ended.disturbed {s t : State} (h : Ended s) (d : Disturbed s t) : Ended t :=
  ⟨survives_resting.disturbed h.1 d, d.busy_eq.trans h.2⟩

theorem submit_ended {s t : State} {w : Word} (h : Ended s) (ht : submit w s = .next t) : Ended t := by
  have hreject : ∀ e, Ended (rejectCmd e s) := fun e => h.of_eq rfl
  unfold submit at ht
  split at ht
  · rcases exec_cases ‹Instr› s with ⟨e, _, he⟩ | ⟨hi, he⟩
    · cases he.symm.trans ht
      exact hreject e
    · cases he.symm.trans ht
      exact runOf_ended h.1 hi
  · cases ht
    unfold rejectReserved
    split <;> exact hreject _

/-- An arrival performed on an idle block leaves one that meets the invariant. -/
theorem performInput_ended {s t : State} {i : Input} (h : Ended s) (ht : performInput i s = .next t) :
    Ended t := by
  unfold performInput at ht
  split at ht
  · cases ht
    unfold setRst
    split
    · exact ended_hardReset h.1.toSound s.overlap
    · exact h.of_eq rfl
  · cases ht
    exact h.of_eq rfl
  · split at ht
    · cases ht
      exact h
    · split at ht
      · exact submit_ended (h.of_eq rfl) ht
      · cases ht
        exact h.disturbed (performAccess_disturbs h.1.base_mod _)

/-- The end of a step settles every access in transit. -/
theorem inv_requeue {s : State} (h : Ended s) : Inv (requeue s) := by
  have hs := h.disturbed (settleTransit_disturbs s)
  have hr : Ended (requeue s) := hs.of_eq rfl
  exact inv_iff.2 ⟨hr.1, hr.2, rfl, rfl⟩

/-- Settles O53: a step takes an arrival, performs it, and settles what overlapped it; each command keeps the
invariant at every point at which an input can land. -/
theorem stepKeepsInvariant : Obligations.StepKeepsInvariant := by
  unfold Obligations.StepKeepsInvariant
  intro s t hs ht
  obtain ⟨hrest, hbusy, hov, htr⟩ := inv_iff.1 hs
  rcases step_cases s with ⟨_, hstep⟩ | ⟨a, rest, u, _, hu, hstep⟩
  · cases hstep.symm.trans ht
    have hidle : Ended { s with resp := [] } := Ended.of_eq ⟨hrest, hbusy⟩ rfl
    exact inv_iff.2 ⟨hidle.1, hbusy, hov, htr⟩
  · cases hstep.symm.trans ht
    have htake : Ended (takeArrival a rest s) :=
      ⟨hrest.alike ⟨hrest.build_valid, { hrest.storage with }, fun _ he => nomatch he⟩ (Alike.of_eq rfl),
        hbusy⟩
    exact inv_requeue (performInput_ended htake hu)

end Sys2Proof.Machine
end

section
/-! SUPPORT. The register page as bus accesses see it (10_state.md R44 to R81): the fields of STATUS and of
INT_PENDING, what a register write leaves unchanged, and where the registers lie. -/

namespace Sys2Proof.Machine

/-! ### STATUS (10_state.md R71) -/

theorem status_state (s : State) : (statusWord s).extractLsb' 0 2 = BitVec.ofNat 2 (seqCode s.seq) :=
  BitVec.extractLsb'_append_eq_right

theorem status_busy (s : State) : (statusWord s).getLsbD 2 = s.busy := by
  unfold statusWord
  rw [BitVec.getLsbD_append, if_neg (by decide), BitVec.getLsbD_append, if_pos (by decide)]
  simp

theorem status_underflow (s : State) : (statusWord s).getLsbD 3 = s.underflow := by
  unfold statusWord
  rw [BitVec.getLsbD_append, if_neg (by decide), BitVec.getLsbD_append, if_neg (by decide),
    BitVec.getLsbD_append, if_pos (by decide)]
  simp

/-- The fields of STATUS above UNDERFLOW, from bit 4 on. -/
def statusHigh (s : State) : BitVec 28 :=
  BitVec.ofNat 12 0 ++ BitVec.ofNat 4 (cmdErrCode s.cmdErr) ++ BitVec.ofNat 4 (faultCodeOf s.faultCode) ++
    BitVec.ofNat 4 (initCode s.initResult) ++ BitVec.ofNat 4 0

theorem status_high (s : State) (k len : Nat) :
    (statusWord s).extractLsb' (4 + k) len = (statusHigh s).extractLsb' k len := by
  unfold statusWord
  rw [BitVec.extractLsb'_append_eq_of_le (by omega), BitVec.extractLsb'_append_eq_of_le (by omega),
    BitVec.extractLsb'_append_eq_of_le (by omega), show 4 + k - 2 - 1 - 1 = k by omega]
  rfl

theorem status_reservedLow (s : State) : (statusWord s).extractLsb' 4 4 = 0#4 :=
  (status_high s 0 4).trans BitVec.extractLsb'_append_eq_right

theorem status_initResult (s : State) :
    (statusWord s).extractLsb' 8 4 = BitVec.ofNat 4 (initCode s.initResult) := by
  refine (status_high s 4 4).trans ?_
  unfold statusHigh
  rw [BitVec.extractLsb'_append_eq_of_le (by omega)]
  exact BitVec.extractLsb'_append_eq_right

theorem status_faultCode (s : State) :
    (statusWord s).extractLsb' 12 4 = BitVec.ofNat 4 (faultCodeOf s.faultCode) := by
  refine (status_high s 8 4).trans ?_
  unfold statusHigh
  rw [BitVec.extractLsb'_append_eq_of_le (by omega), BitVec.extractLsb'_append_eq_of_le (by omega)]
  exact BitVec.extractLsb'_append_eq_right

theorem status_cmdErr (s : State) :
    (statusWord s).extractLsb' 16 4 = BitVec.ofNat 4 (cmdErrCode s.cmdErr) := by
  refine (status_high s 12 4).trans ?_
  unfold statusHigh
  rw [BitVec.extractLsb'_append_eq_of_le (by omega), BitVec.extractLsb'_append_eq_of_le (by omega),
    BitVec.extractLsb'_append_eq_of_le (by omega)]
  exact BitVec.extractLsb'_append_eq_right

theorem status_reservedHigh (s : State) : (statusWord s).extractLsb' 20 12 = 0#12 := by
  refine (status_high s 16 12).trans ?_
  unfold statusHigh
  rw [BitVec.extractLsb'_append_eq_of_le (by omega), BitVec.extractLsb'_append_eq_of_le (by omega),
    BitVec.extractLsb'_append_eq_of_le (by omega)]
  exact BitVec.extractLsb'_append_eq_left

theorem csrReadAt_status (s : State) : csrReadAt s 0x024 = statusWord s := rfl

/-- Settles O41: STATUS is the fields of R71 side by side, each the code of its name. -/
theorem statusHasItsLayout : Obligations.StatusHasItsLayout := by
  unfold Obligations.StatusHasItsLayout
  intro s
  rw [csrReadAt_status]
  refine ⟨?_, status_busy s, status_underflow s, status_reservedLow s, ?_, ?_, ?_, status_reservedHigh s,
    fun _ => rfl, by decide⟩
  · rw [status_state]
    cases s.seq <;> rfl
  · rw [status_initResult]
    cases s.initResult <;> rfl
  · rw [status_faultCode]
    cases s.faultCode <;> rfl
  · rw [status_cmdErr]
    cases s.cmdErr <;> rfl

/-! ### INT_PENDING (10_state.md R78) -/

theorem csrReadAt_intPending (s : State) : csrReadAt s 0x028 = (pendingBits s).setWidth 32 := rfl

theorem csrWriteAt_intPending (s : State) (v : Word) :
    csrWriteAt s 0x028 v = { s with sticky := clearSticky v s.sticky } := rfl

theorem intPending_getLsbD (s : State) {k : Nat} (hk : k < 32) :
    (csrReadAt s 0x028).getLsbD k = (pendingBits s).getLsbD k := by
  rw [csrReadAt_intPending, BitVec.getLsbD_setWidth, decide_eq_true hk, Bool.true_and]

/-- Writing 1 clears a sticky bit; the levels XREQ and FAULT and the reserved bits are not cleared. -/
theorem pendingBits_clearSticky (s : State) (v : Word) (k : Nat) :
    (pendingBits { s with sticky := clearSticky v s.sticky }).getLsbD k =
      ((pendingBits s).getLsbD k && !(v.getLsbD k && (0x00000039#32).getLsbD k)) := by
  have hmask : (0x00000039#32).getLsbD 0 = true ∧ (0x00000039#32).getLsbD 1 = false ∧
      (0x00000039#32).getLsbD 2 = false ∧ (0x00000039#32).getLsbD 3 = true ∧
      (0x00000039#32).getLsbD 4 = true ∧ (0x00000039#32).getLsbD 5 = true := by decide
  obtain ⟨h0, h1, h2, h3, h4, h5⟩ := hmask
  rw [pendingBits_getLsbD, pendingBits_getLsbD]
  match k with
  | 0 => rw [h0, Bool.and_true]; rfl
  | 1 => rw [h1, Bool.and_false, Bool.not_false, Bool.and_true]; rfl
  | 2 => rw [h2, Bool.and_false, Bool.not_false, Bool.and_true]; rfl
  | 3 => rw [h3, Bool.and_true]; rfl
  | 4 => rw [h4, Bool.and_true]; rfl
  | 5 => rw [h5, Bool.and_true]; rfl
  | _ + 6 => rfl

theorem intPending_write (s : State) (v : Word) :
    csrReadAt (csrWriteAt s 0x028 v) 0x028 = csrReadAt s 0x028 &&& ~~~(v &&& 0x00000039#32) := by
  refine BitVec.eq_of_getLsbD_eq fun k hk => ?_
  rw [intPending_getLsbD _ hk, csrWriteAt_intPending, pendingBits_clearSticky, BitVec.getLsbD_and,
    intPending_getLsbD _ hk, BitVec.getLsbD_not, BitVec.getLsbD_and, decide_eq_true hk, Bool.true_and]

theorem intPending_reserved (s : State) : (csrReadAt s 0x028).extractLsb' 6 26 = 0#26 := by
  refine BitVec.eq_of_getLsbD_eq fun k hk => ?_
  rw [BitVec.getLsbD_extractLsb', intPending_getLsbD _ (by omega),
    BitVec.getLsbD_of_ge (pendingBits s) _ (by omega), Bool.and_false, BitVec.getLsbD_zero]

/-- Settles O42: bit by bit, the pending bits after the write are those before it that the write does not
clear. -/
theorem intPendingIsWriteOneToClear : Obligations.IntPendingIsWriteOneToClear := by
  unfold Obligations.IntPendingIsWriteOneToClear
  intro s v
  have hbit : ∀ k, k < 6 → (csrReadAt s 0x028).getLsbD k = (pendingBits s).getLsbD k := fun k hk =>
    intPending_getLsbD s (by omega)
  refine ⟨intPending_write s v, rfl, ?_, ?_, ?_, ?_, ?_, ?_, intPending_reserved s, by decide⟩
  all_goals exact (hbit _ (by omega)).trans (pendingBits_getLsbD s _)

/-! ### Register writes (10_state.md R52 to R58, R79 to R81) -/

/-- A field of k bits reads back what was written to it, the bits above it 0. -/
theorem setWidth_setWidth_word (v : Word) (k : Nat) :
    (v.setWidth k).setWidth 32 = v &&& BitVec.ofNat 32 (2 ^ k - 1) := by
  refine BitVec.eq_of_getLsbD_eq fun i hi => ?_
  rw [BitVec.getLsbD_setWidth, BitVec.getLsbD_setWidth, BitVec.getLsbD_and, BitVec.getLsbD_ofNat,
    Nat.testBit_two_pow_sub_one, decide_eq_true hi, Bool.true_and, Bool.true_and, Bool.and_comm]

/-- A register write leaves the record of the port and of overlapping accesses alone. -/
theorem csrWriteAt_port (s : State) (off : Nat) (v : Word) :
    (csrWriteAt s off v).overlap = s.overlap ∧ (csrWriteAt s off v).transit = s.transit ∧
      (csrWriteAt s off v).resp = s.resp := by
  unfold csrWriteAt
  cases csrAt off with
  | none => exact ⟨rfl, rfl, rfl⟩
  | some c => cases c <;> exact ⟨rfl, rfl, rfl⟩

/-- A bus write on an idle block overlaps nothing. -/
theorem busWrite_overlap (s : State) (addr width : Nat) (v : Word) :
    (busWrite s addr width v).overlap = s.overlap ∧ (busWrite s addr width v).transit = s.transit := by
  unfold busWrite
  split
  · rename_i off _
    obtain ⟨ho, ht, _⟩ := csrWriteAt_port s off v
    exact ⟨ho, ht⟩
  · split <;> exact ⟨rfl, rfl⟩
  · exact ⟨rfl, rfl⟩

/-- An access reaches the register page only at 32 bits, at BASE plus the offset. -/
theorem locate_eq_csr {b : Build} {addr width off : Nat} (h : locate b addr width = .csr off) :
    width = 32 ∧ addr = b.base + off := by
  unfold locate at h
  split at h
  · cases h
  · split at h
    · cases h
    · split at h
      · cases h
      · split at h
        · cases h
          omega
        · split at h
          · cases h
          · split at h <;> cases h

/-- A write that is not a 32-bit one to CMD submits no command. -/
theorem commandWord_write_none {b : Build} {addr width : Nat} {v : Word}
    (h : addr ≠ b.base + 0x020 ∨ width ≠ 32) : commandWord b (.write addr width v) = none := by
  refine if_neg fun hc => ?_
  obtain ⟨hwidth, haddr⟩ := locate_eq_csr hc
  exact h.elim (fun ha => ha haddr) fun hw => hw hwidth

/-- A bus write of the register page and its response. -/
theorem busWrite_csr {s : State} {off : Nat} (hbase : s.build.base % Config.windowBytes = 0)
    (hoff : off < 0x1000) (h4 : off % 4 = 0) (v : Word) :
    busWrite s (s.build.base + off) 32 v =
      { csrWriteAt s off v with resp := s.resp ++ [{ error := false, data := none }] } := by
  obtain ⟨_, _, hresp⟩ := csrWriteAt_port s off v
  unfold busWrite
  rw [locate_csr hbase hoff h4, ← hresp]
  rfl

/-- A step whose arrival is a write other than to CMD performs it. -/
theorem step_write {s : State} {addr width : Nat} {v : Word} {rest : List Arrival} (hrst : s.rst = false)
    (hcmd : addr ≠ s.build.base + 0x020 ∨ width ≠ 32)
    (hport : s.port = { input := .access (.write addr width v), during := [] } :: rest) :
    step s = .next
      (busWrite { s with port := rest, overlap := [], transit := .none, resp := [] } addr width v) := by
  have hperform : performInput (.access (.write addr width v))
      { s with port := rest, overlap := [], transit := .none, resp := [] } =
      .next (busWrite { s with port := rest, overlap := [], transit := .none, resp := [] } addr width v) := by
    unfold performInput
    dsimp only
    rw [if_neg (by rw [hrst]; exact Bool.false_ne_true), commandWord_write_none hcmd]
    rfl
  unfold step serve
  rw [hport]
  dsimp only [takeArrival]
  rw [hperform]
  obtain ⟨ho, ht⟩ :=
    busWrite_overlap { s with port := rest, overlap := [], transit := .none, resp := [] } addr width v
  exact congrArg Host.Outcome.next (requeue_quiet ho ht)

/-- Settles O44: the port performs the write of a register, and each writable register holds the bits it
has. -/
theorem writableRegistersReadBack : Obligations.WritableRegistersReadBack := by
  unfold Obligations.WritableRegistersReadBack
  refine ⟨fun s off v hbase hoff h4 _ => busWrite_csr hbase hoff h4 v,
    fun s addr width v rest hrst hcmd hport => step_write hrst hcmd hport, fun s v => ?_⟩
  exact ⟨⟨setWidth_setWidth_word v 6, rfl⟩, ⟨setWidth_setWidth_word v 8, rfl⟩, ⟨rfl, rfl⟩, ⟨rfl, rfl⟩,
    ⟨setWidth_setWidth_word v 8, rfl⟩, ⟨rfl, rfl⟩, ⟨setWidth_setWidth_word v 18, rfl⟩⟩

/-! ### Where the registers lie (10_state.md R44) -/

/-- The offset of a register; `csrAt_eq_some` ties it to the page. -/
def csrOffset : Csr → Nat
  | .id => 0x000
  | .version => 0x004
  | .capNMax => 0x008
  | .capBMax => 0x00C
  | .capStage => 0x010
  | .capCounts => 0x014
  | .capFft => 0x018
  | .cmd => 0x020
  | .status => 0x024
  | .intPending => 0x028
  | .intEnable => 0x02C
  | .cfgChannels => 0x030
  | .cfgFftSize => 0x034
  | .cfgOverlap => 0x038
  | .cfgWindow => 0x03C
  | .cfgBlock => 0x040
  | .cfgStreams => 0x044
  | .actFftSize => 0x060
  | .actOverlap => 0x064
  | .actHop => 0x068
  | .actWindowSize => 0x06C
  | .actBlock => 0x070
  | .actChannels => 0x074
  | .actWindow => 0x078
  | .actStreams => 0x07C
  | .latency => 0x080
  | .spectrumSize => 0x084
  | .inCap => 0x088
  | .outCap => 0x08C
  | .inAvail => 0x090
  | .outAvail => 0x094
  | .frameCount => 0x098
  | .lastFrames => 0x09C

theorem csrAt_eq_some {off : Nat} {c : Csr} : csrAt off = some c ↔ off = csrOffset c := by
  constructor
  · unfold csrAt
    split
    all_goals
      intro h
      cases h
    all_goals rfl
  · rintro rfl
    cases c <;> rfl

/-- The registers whose content a bus write changes. -/
def csrWritable (c : Csr) : Bool :=
  decide (c ∈ [Csr.intPending, .intEnable, .cfgChannels, .cfgFftSize, .cfgOverlap, .cfgWindow, .cfgBlock,
    .cfgStreams])

theorem csrWrite_readOnly {c : Csr} (h : csrWritable c = false) (s : State) (v : Word) :
    csrWrite s v c = s := by
  cases c
  case intPending | intEnable | cfgChannels | cfgFftSize | cfgOverlap | cfgWindow | cfgBlock | cfgStreams =>
    exact absurd h (by decide)
  all_goals rfl

theorem csrOffset_of_writable {c : Csr} (h : csrWritable c = true) :
    0x028 ≤ csrOffset c ∧ csrOffset c ≤ 0x044 := by
  revert h
  cases c <;> decide

theorem csrOffset_not_reserved (c : Csr) :
    ¬(csrOffset c = 0x01C ∨ (0x048 ≤ csrOffset c ∧ csrOffset c ≤ 0x05C) ∨ 0x0A0 ≤ csrOffset c) := by
  cases c <;> decide

/-- Settles O45: the writable registers lie from 0x028 to 0x044, and no register lies at a reserved offset. -/
theorem otherCsrWritesHaveNoEffect : Obligations.OtherCsrWritesHaveNoEffect := by
  unfold Obligations.OtherCsrWritesHaveNoEffect
  intro s off v
  unfold csrWriteAt csrReadAt
  cases h : csrAt off with
  | none => exact ⟨fun _ _ => rfl, fun _ => rfl⟩
  | some c =>
    rw [csrAt_eq_some] at h
    subst h
    refine ⟨fun _ hrange => csrWrite_readOnly ?_ s v, fun hres => absurd hres (csrOffset_not_reserved c)⟩
    exact eq_false_of_ne_true fun hw => hrange (csrOffset_of_writable hw)

/-- Settles O46: the reset state is one closed value, and every register of it is computed. -/
theorem resetRegistersReadTheirValues : Obligations.ResetRegistersReadTheirValues := by
  unfold Obligations.ResetRegistersReadTheirValues
  decide

end Sys2Proof.Machine
end

section
/-! SUPPORT. What the host sees of the block on the bus (20_memory.md R120 to R134): the response to a read of
a register and of a RAM word, the one step of a read, and what a write of a RAM word leaves. -/

namespace Sys2Proof.Machine

/-! ### Reads (20_memory.md R128, R134) -/

theorem readResponse_csr {s : State} {off : Nat} (hbase : s.build.base % Config.windowBytes = 0)
    (hoff : off < 0x1000) (h4 : off % 4 = 0) :
    readResponse s (s.build.base + off) 32 = { error := false, data := some (csrReadAt s off) } := by
  unfold readResponse
  rw [locate_csr hbase hoff h4]

theorem readResponse_ram {s : State} {addr width off : Nat} {r : Region}
    (h : locate s.build addr width = .ram r off) :
    readResponse s addr width = { error := false, data := some (s.wordAt off) } := by
  unfold readResponse
  rw [h]

/-- A read on a block that is not in reset changes nothing but the responses. -/
theorem performInput_read {s : State} (hrst : s.rst = false) (addr width : Nat) :
    performInput (.access (.read addr width)) s = .next (respond (readResponse s addr width) s) :=
  if_neg (by rw [hrst]; exact Bool.false_ne_true)

/-- A step whose arrival is a read, no other input overlapping it. -/
theorem step_read {s : State} {addr width : Nat} {rest : List Arrival} (hrst : s.rst = false)
    (hport : s.port = { input := .access (.read addr width), during := [] } :: rest) :
    step s = .next
      { s with port := rest, overlap := [], transit := .none, resp := [readResponse s addr width] } := by
  unfold step serve
  rw [hport]
  dsimp only
  rw [performInput_read (s := takeArrival _ rest s) hrst]
  exact congrArg Host.Outcome.next (requeue_quiet rfl rfl)

/-! ### CAP_COUNTS (10_state.md R50) -/

theorem capCounts_chMax (b : Build) : (capCounts b).extractLsb' 0 8 = 255#8 :=
  BitVec.extractLsb'_append_eq_right

theorem capCounts_inMax (b : Build) : (capCounts b).extractLsb' 8 8 = BitVec.ofNat 8 b.inMax := by
  unfold capCounts
  rw [BitVec.extractLsb'_append_eq_of_le (by omega)]
  exact BitVec.extractLsb'_append_eq_right

theorem capCounts_outMax (b : Build) : (capCounts b).extractLsb' 16 8 = BitVec.ofNat 8 b.outMax := by
  unfold capCounts
  rw [BitVec.extractLsb'_append_eq_of_le (by omega), BitVec.extractLsb'_append_eq_of_le (by omega)]
  exact BitVec.extractLsb'_append_eq_right

theorem capCounts_reserved (b : Build) : (capCounts b).extractLsb' 24 8 = 0#8 := by
  unfold capCounts
  rw [BitVec.extractLsb'_append_eq_of_le (by omega), BitVec.extractLsb'_append_eq_of_le (by omega)]
  exact BitVec.extractLsb'_append_eq_left

/-! ### The active configuration in UNINIT (44_engine_commands.md R317) -/

theorem csrRead_uninit {s : State} (h : Inv s) (hq : s.seq = .uninit) {c : Csr}
    (hc : 0x060 ≤ csrOffset c) : csrRead s c = 0#32 := by
  obtain ⟨hact, hin, hout, hcount, hlast, _⟩ := h.uninit hq
  cases c
  case inAvail => exact congrArg (fun ix : RingIx => wordOfNat ix.avail) hin
  case outAvail => exact congrArg (fun ix : RingIx => wordOfNat ix.avail) hout
  case frameCount => exact hcount
  case lastFrames => exact hlast
  case actFftSize | actOverlap | actHop | actWindowSize | actBlock | actChannels | actWindow | actStreams
      | latency | spectrumSize | inCap | outCap =>
    simp only [csrRead, hact]
    rfl
  all_goals exact absurd hc (by decide)

theorem csrReadAt_uninit {s : State} (h : Inv s) (hq : s.seq = .uninit) {off : Nat} (hoff : 0x060 ≤ off) :
    csrReadAt s off = 0#32 := by
  unfold csrReadAt
  cases hc : csrAt off with
  | none => rfl
  | some c => exact csrRead_uninit h hq (csrAt_eq_some.1 hc ▸ hoff)

/-- Settles O50: a read is its response alone, the response is the value at the address, and each register
reads as its field. -/
theorem busReadsReturnCurrentValues : Obligations.BusReadsReturnCurrentValues := by
  unfold Obligations.BusReadsReturnCurrentValues
  refine ⟨fun s addr width rest hrst hport => step_read hrst hport,
    fun s off hbase hoff h4 => readResponse_csr hbase hoff h4, fun s off hb helem => ?_, fun s => ?_,
    fun s off hinv hq hlo _ => csrReadAt_uninit hinv hq hlo⟩
  · obtain ⟨r, hloc⟩ := locate_elementWord hb helem
    exact readResponse_ram hloc
  · exact ⟨rfl, capCounts_chMax _, capCounts_inMax _, capCounts_outMax _, capCounts_reserved _, rfl, rfl, rfl⟩

/-! ### Writes of host-writable RAM (20_memory.md R129, R132) -/

/-- The window offset of a word of an element of a RAM region that a host may write: `IsElementWord` but for
the active tables. -/
def IsHostElementWord (b : Build) (off : Nat) : Prop :=
  (∃ n, n < b.nMax ∧ (off = tableOff .wsrcA n ∨ off = tableOff .wsrcS n)) ∨
  (∃ u c f, u < b.inMax ∧ c < 255 ∧ f < b.stageFrames ∧ off = stageOff b .stageIn u c f) ∨
  (∃ j c f, j < b.outMax ∧ c < 255 ∧ f < b.stageFrames ∧ off = stageOff b .stageOut j c f) ∨
  (∃ u c k, u < b.inMax ∧ c < 255 ∧ k < b.nMax / 2 + 1 ∧
    (off = specOff b .specIn u c k ∨ off = specOff b .specIn u c k + 4)) ∨
  ∃ j c k, j < b.outMax ∧ c < 255 ∧ k < b.nMax / 2 + 1 ∧
    (off = specOff b .specOut j c k ∨ off = specOff b .specOut j c k + 4)

/-- A word a host may write is reached at BASE plus its offset, in a region that is not read-only. -/
theorem locate_hostElementWord {b : Build} (hb : b.Valid) {off : Nat} (h : IsHostElementWord b off) :
    ∃ r, locate b (b.base + off) 32 = .ram r off ∧ regionReadOnly r = false := by
  rcases h with ⟨n, hn, rfl | rfl⟩ | ⟨_, _, _, hu, hc, hf, rfl⟩ | ⟨_, _, _, hu, hc, hf, rfl⟩ |
    ⟨_, _, _, hu, hc, hk, rfl | rfl⟩ | ⟨_, _, _, hu, hc, hk, rfl | rfl⟩
  · exact ⟨_, locate_table hb (by decide) hn, rfl⟩
  · exact ⟨_, locate_table hb (by decide) hn, rfl⟩
  · exact ⟨_, locate_stageIn hb hu hc hf, rfl⟩
  · exact ⟨_, locate_stageOut hb hu hc hf, rfl⟩
  · exact ⟨_, locate_specIn hb hu hc hk (.inl rfl), rfl⟩
  · exact ⟨_, locate_specIn hb hu hc hk (.inr rfl), rfl⟩
  · exact ⟨_, locate_specOut hb hu hc hk (.inl rfl), rfl⟩
  · exact ⟨_, locate_specOut hb hu hc hk (.inr rfl), rfl⟩

/-- A performed write of a RAM word stores the word and gives its response, and does nothing else. -/
theorem busWrite_ram {s : State} {addr width off : Nat} {r : Region}
    (h : locate s.build addr width = .ram r off) (hro : regionReadOnly r = false) (v : Word) :
    busWrite s addr width v =
      { s with mem := s.mem.setWord off v, resp := s.resp ++ [{ error := false, data := none }] } := by
  unfold busWrite
  rw [h]
  exact if_neg (by rw [hro]; exact Bool.false_ne_true)

theorem base_mod_four {b : Build} (hb : b.Valid) : b.base % 4 = 0 := by
  have h : b.base % 0x08000000 = 0 := hb.base_aligned
  omega

/-- A byte of memory that is specified is what the state reads there. -/
theorem State.byteAt_of_get? {s : State} {o : Nat} {x : Byte} (h : s.mem.get? o = some x) :
    s.byteAt o = x := by
  unfold State.byteAt
  rw [h]
  rfl

/-- Settles O49: the write is one word store, whose four lanes the read joins again. -/
theorem ramWriteReadsBack : Obligations.RamWriteReadsBack := by
  unfold Obligations.RamWriteReadsBack
  intro s off v hb helem
  obtain ⟨r, hloc, hro⟩ := locate_hostElementWord hb helem
  obtain ⟨hreg, h4⟩ := locate_eq_ram hloc
  have hlane : ∀ i, i < 4 → (s.mem.setWord off v).get? (off + i) = some (byteLane v i) := fun i hi =>
    Memory.get?_setWord_lane s.mem (h4 (base_mod_four hb)) hreg hi v
  dsimp only
  rw [busWrite_ram hloc hro]
  refine ⟨?_, rfl, fun i hi => State.byteAt_of_get? (hlane i hi), fun o ho => ?_⟩
  · refine Eq.trans (readResponse_ram hloc) ?_
    rw [State.wordAt_of_lanes hlane]
  · exact State.byteAt_congr (Memory.get?_setWord_outside s.mem ho v) rfl

end Sys2Proof.Machine
end

section
/-! SUPPORT. The decoder as an equation between fields (30_encoding.md R160 to R164): a word decodes to the command
whose opcode is OPC and whose operand is ARG, and to none from opcode 7. What a submitted word does then follows. -/

namespace Sys2Proof

/-! ### The fields of a word by masking (30_encoding.md R161, R162) -/

theorem argField_eq_and (w : Word) : argField w = (w &&& 0x00FFFFFF#32).toNat := by
  rw [argField_eq, BitVec.toNat_and]
  exact (Nat.and_two_pow_sub_one_eq_mod w.toNat 24).symm

/-- Masking bits 31:24 keeps OPC. -/
theorem opcField_and_mask (w : Word) : opcField (w &&& 0xFF000000#32) = opcField w := by
  have hw : w.toNat < 2 ^ 32 := w.isLt
  calc opcField (w &&& 0xFF000000#32)
      = (w.toNat &&& 0xFF000000) / 2 ^ 24 := opcField_eq _
    _ = w.toNat / 2 ^ 24 &&& 2 ^ 8 - 1 := Nat.and_div_two_pow
    _ = w.toNat / 2 ^ 24 % 2 ^ 8 := Nat.and_two_pow_sub_one_eq_mod _ 8
    _ = opcField w := by rw [opcField_eq]; omega

theorem seven_le_opcField {w : Word} (h : 0x07000000#32 ≤ w) : 7 ≤ opcField w := by
  have hw : 0x07000000 ≤ w.toNat := h
  rw [opcField_eq]; omega

/-! ### What a word decodes to (30_encoding.md R160 to R164) -/

/-- The decoder reads the opcode from OPC and the operand from ARG. -/
theorem decode_eq_some_iff {w : Word} {i : Instr} :
    decode w = some i ↔ opcode i = opcField w ∧ i.arg = argField w := by
  constructor
  · intro h
    unfold decode at h
    split at h
    case h_8 => cases h
    all_goals
      next hopc =>
      cases h
      exact ⟨hopc.symm, rfl⟩
  · rintro ⟨hopc, harg⟩
    unfold decode
    rw [← hopc, ← harg]
    cases i <;> rfl

/-- No command has an opcode from 7 on. -/
theorem decode_eq_none {w : Word} (h : 7 ≤ opcField w) : decode w = none := by
  refine Option.eq_none_iff_forall_ne_some.2 fun i hi => ?_
  have hopc : opcode i = opcField w := (decode_eq_some_iff.1 hi).1
  have hle : opcode i ≤ 6 := opcode_le i
  omega

theorem wellFormed_of_decode {w : Word} {i : Instr} (h : decode w = some i) : i.wellFormed = true := by
  obtain ⟨_, harg⟩ := decode_eq_some_iff.1 h
  exact decide_eq_true (harg ▸ argField_lt w)

theorem encode_of_decode {w : Word} {i : Instr} (h : decode w = some i) : encode i = w := by
  obtain ⟨hopc, harg⟩ := decode_eq_some_iff.1 h
  refine BitVec.eq_of_toNat_eq ?_
  rw [toNat_encode, hopc, harg, Nat.mod_eq_of_lt (argField_lt w), ← toNat_eq_fields]

/-- The opcode map in the words of R162: OPC is selected by its mask, and the rest of the word is the operand. -/
theorem decode_of_masks {w top : Word} {i : Instr} (htop : w &&& 0xFF000000#32 = top)
    (hopc : opcode i = opcField top) (harg : i.arg = (w &&& 0x00FFFFFF#32).toNat) : decode w = some i := by
  refine decode_eq_some_iff.2 ⟨?_, harg.trans (argField_eq_and w).symm⟩
  rw [hopc, ← htop, opcField_and_mask]

/-- Settles O1: the two fields of the word are the opcode and the operand, and the decoder reads them back. -/
theorem decodeOfEncodeIsIdentity : Obligations.DecodeOfEncodeIsIdentity := by
  unfold Obligations.DecodeOfEncodeIsIdentity
  intro i hwf
  exact decode_eq_some_iff.2 ⟨(opcField_encode i).symm, (argField_encode hwf).symm⟩

/-- Settles O2: the command has the word's two fields, and the two fields make the word. -/
theorem decodedWordReencodes : Obligations.DecodedWordReencodes := by
  unfold Obligations.DecodedWordReencodes
  intro w i h
  exact ⟨wellFormed_of_decode h, encode_of_decode h⟩

/-- Settles O3: each clause is the opcode map by its masks, and from 0x07000000 OPC is 7 or more. -/
theorem opcodeMapSelectsByTopByte : Obligations.OpcodeMapSelectsByTopByte := by
  unfold Obligations.OpcodeMapSelectsByTopByte
  intro w
  exact ⟨fun h => decode_of_masks h rfl rfl, fun h => decode_of_masks h rfl rfl,
    fun h => decode_of_masks h rfl rfl, fun h => decode_of_masks h rfl rfl,
    fun h => decode_of_masks h rfl rfl, fun h => decode_of_masks h rfl rfl,
    fun h => decode_of_masks h rfl rfl, fun h => decode_eq_none (seven_le_opcField h)⟩

end Sys2Proof

namespace Sys2Proof.Machine

/-! ### Ignored operands (30_encoding.md R161) -/

theorem exec_eq_guarded (i : Instr) (s : State) : exec i s = guarded i (runOf i) s := by
  cases i <;> rfl

/-- No check of acceptance reads an operand that is ignored. -/
theorem rejection_withoutIgnored (i : Instr) (s : State) : rejection s i.withoutIgnored = rejection s i := by
  cases i <;> rfl

/-- No command's effect reads an operand that is ignored. -/
theorem runOf_withoutIgnored (i : Instr) : runOf i.withoutIgnored = runOf i := by
  cases i <;> rfl

theorem exec_withoutIgnored (i : Instr) (s : State) : exec i.withoutIgnored s = exec i s := by
  rw [exec_eq_guarded, exec_eq_guarded, guarded, guarded, rejection_withoutIgnored, runOf_withoutIgnored]

/-- Settles O5: the operand is ARG, and neither acceptance nor effect reads it where it is ignored. -/
theorem ignoredOperandsHaveNoEffect : Obligations.IgnoredOperandsHaveNoEffect := by
  unfold Obligations.IgnoredOperandsHaveNoEffect
  refine ⟨fun w i h => ?_, fun a s => ?_⟩
  · obtain ⟨_, harg⟩ := decode_eq_some_iff.1 h
    have hlt : argField w < 2 ^ 24 := argField_lt w
    exact ⟨harg.trans (argField_eq_and w), by omega⟩
  · exact ⟨(exec_withoutIgnored (.nop a) s).symm, (exec_withoutIgnored (.init a) s).symm,
      (exec_withoutIgnored (.xdone a) s).symm, (exec_withoutIgnored (.sreset a) s).symm⟩

/-! ### Reserved opcodes (30_encoding.md R164; 60_exceptions.md R385) -/

theorem submit_reserved {w : Word} (h : decode w = none) (s : State) : submit w s = .next (rejectReserved s) := by
  rw [submit, h]

theorem rejectReserved_idle {s : State} (h : s.busy = false) :
    rejectReserved s = rejectCmd .reservedOpcode s := by
  rw [rejectReserved, h, if_neg Bool.false_ne_true]

theorem rejectReserved_busy {s : State} (h : s.busy = true) : rejectReserved s = rejectCmd .busy s := by
  rw [rejectReserved, if_pos h]

/-- Settles O11: a reserved word decodes to no command, and its rejection writes CMDERR_CODE and
INT_PENDING.CMDERR alone. -/
theorem reservedOpcodeIsRejected : Obligations.ReservedOpcodeIsRejected := by
  unfold Obligations.ReservedOpcodeIsRejected
  intro w s hw
  have hnone : decode w = none := decode_eq_none (seven_le_opcField hw)
  rw [submit_reserved hnone]
  exact ⟨fun hidle => congrArg Host.Outcome.next (rejectReserved_idle hidle),
    fun hbusy => congrArg Host.Outcome.next (rejectReserved_busy hbusy)⟩

end Sys2Proof.Machine
end

section
/-! SUPPORT. The rings as the sequences of the logical view (41_ring_buffers.md R202, R203): what every operation
leaves at each position counted from the oldest sample, and from that what it does to the whole sequence. -/

namespace Sys2Proof.Machine

/-! ### Sequences given by their elements -/

theorem map_range_add {α : Type} (f : Nat → α) (a n : Nat) :
    (List.range (a + n)).map f = (List.range a).map f ++ (List.range n).map fun i => f (a + i) := by
  rw [List.range_add, List.map_append, List.map_map]
  rfl

theorem drop_map_range {α : Type} (f : Nat → α) (a n : Nat) :
    ((List.range a).map f).drop n = (List.range (a - n)).map fun i => f (n + i) :=
  List.ext_getElem (by simp) (by simp)

theorem take_map_range {α : Type} (f : Nat → α) {a n : Nat} (h : n ≤ a) :
    ((List.range a).map f).take n = (List.range n).map f := by
  rw [← List.map_take, List.take_range, Nat.min_eq_left h]

/-! ### Positions from the oldest sample -/

/-- The position WRITE fills f-th is the one f places behind the last sample held. -/
theorem RingOk.write_pos {ix : RingIx} {cap : Nat} (h : RingOk ix cap) (f : Nat) :
    (ix.wr + f) % cap = (ix.rd + (ix.avail + f)) % cap := by
  rw [h.wr_eq, Nat.mod_add_mod, Nat.add_assoc]

/-- An append that fits overwrites no sample held. -/
theorem RingOk.held_pos_ne_write_pos {ix : RingIx} {cap : Nat} (h : RingOk ix cap) {i f : Nat}
    (hi : i < ix.avail) (hf : ix.avail + f < cap) : (ix.rd + i) % cap ≠ (ix.wr + f) % cap := by
  rw [h.write_pos]
  intro he
  have : i = ix.avail + f := ring_pos_inj (by omega) hf he
  omega

/-! ### The samples of the output rings -/

/-- RB_WRITE keeps the samples held. -/
theorem rbSample_rbWrite_held {s : State} (hcap : s.Cout ≤ s.build.outCapMax) (hix : RingOk s.outIx s.Cout)
    {src : Nat → Nat → Nat → F32} {n : Nat} (hn : s.outIx.avail + n ≤ s.Cout) {j c i : Nat} (hc : c < s.C)
    (hi : i < s.outIx.avail) : rbSample (rbWrite src n s) j c i = rbSample s j c i :=
  rbWrite_ringOutAt_other hcap hc (ring_pos_lt (show 0 < s.Cout by omega) _ _) fun _ hf =>
    hix.held_pos_ne_write_pos hi (by omega)

/-- RB_WRITE puts the new samples behind those held. -/
theorem rbSample_rbWrite_new {s : State} (hcap : s.Cout ≤ s.build.outCapMax) (hix : RingOk s.outIx s.Cout)
    {src : Nat → Nat → Nat → F32} {n : Nat} (hn : s.outIx.avail + n ≤ s.Cout) {j c f : Nat} (hj : j < s.J)
    (hc : c < s.C) (hf : f < n) : rbSample (rbWrite src n s) j c (s.outIx.avail + f) = src j c f := by
  have hnew : (rbWrite src n s).ringOutAt j c ((s.outIx.wr + f) % s.Cout) = src j c f :=
    rbWrite_ringOutAt (by omega) hcap hj hc hf
  rw [hix.write_pos] at hnew
  exact hnew

/-- RB_READ(n) makes the n-th sample the oldest. -/
theorem rbSample_rbAdvance (n : Nat) (s : State) (j c i : Nat) :
    rbSample (rbAdvance n s) j c i = rbSample s j c (n + i) := by
  show s.ringOutAt j c (((s.outIx.rd + n) % s.Cout + i) % s.Cout) =
    s.ringOutAt j c ((s.outIx.rd + (n + i)) % s.Cout)
  rw [Nat.mod_add_mod, Nat.add_assoc]

/-! ### The samples of the input rings -/

/-- ORB_WRITE keeps the samples held. -/
theorem orbSample_orbWrite_held {s : State} (hcap : s.Cin ≤ s.build.inCapMax) (hix : RingOk s.inIx s.Cin)
    {src : Nat → Nat → Nat → F32} {n : Nat} (hn : s.inIx.avail + n ≤ s.Cin) {u c i : Nat} (hc : c < s.C)
    (hi : i < s.inIx.avail) : orbSample (orbWrite src n s) u c i = orbSample s u c i :=
  orbWrite_ringInAt_other hcap hc (ring_pos_lt (show 0 < s.Cin by omega) _ _) fun _ hf =>
    hix.held_pos_ne_write_pos hi (by omega)

/-- ORB_WRITE puts the new samples behind those held. -/
theorem orbSample_orbWrite_new {s : State} (hcap : s.Cin ≤ s.build.inCapMax) (hix : RingOk s.inIx s.Cin)
    {src : Nat → Nat → Nat → F32} {n : Nat} (hn : s.inIx.avail + n ≤ s.Cin) {u c f : Nat} (hu : u < s.I)
    (hc : c < s.C) (hf : f < n) : orbSample (orbWrite src n s) u c (s.inIx.avail + f) = src u c f := by
  have hnew : (orbWrite src n s).ringInAt u c ((s.inIx.wr + f) % s.Cin) = src u c f :=
    orbWrite_ringInAt (by omega) hcap hu hc hf
  rw [hix.write_pos] at hnew
  exact hnew

/-- ORB_READ makes the hop-th sample the oldest. -/
theorem orbSample_orbRead (s : State) (u c i : Nat) :
    orbSample (orbRead s) u c i = orbSample s u c (s.hop + i) := by
  show s.ringInAt u c (((s.inIx.rd + s.hop) % s.Cin + i) % s.Cin) =
    s.ringInAt u c ((s.inIx.rd + (s.hop + i)) % s.Cin)
  rw [Nat.mod_add_mod, Nat.add_assoc]

/-- ORB_CLEAR_AND_PAD leaves an active configuration's capacity as it is. -/
theorem orbClearAndPad_Cin {s : State} (h : ActiveOk s) : (orbClearAndPad s).Cin = s.Cin := by
  have hlt : s.Cin < 2 ^ 32 := s.act.inCap.isLt
  show (wordOfNat (s.N + s.B)).toNat = s.Cin
  rw [← h.inCap_eq, wordOfNat_toNat hlt]

/-- The padding is zeros. -/
theorem orbSample_orbClearAndPad {s : State} (hb : s.build.Valid) (h : ActiveOk s) {u c i : Nat} (hu : u < s.I)
    (hc : c < s.C) (hi : i < s.N - s.B) : orbSample (orbClearAndPad s) u c i = 0#32 := by
  have hs : Bounds s := h.bounds hb
  have hCin : s.N + 1 ≤ s.Cin := hs.Cin_ge
  have hmax : s.Cin ≤ s.build.inCapMax := hs.Cin_le
  have hpos : (0 + i) % s.Cin = i := by rw [Nat.zero_add, Nat.mod_eq_of_lt (by omega)]
  rw [orbSample, orbClearAndPad_Cin h, orbClearAndPad_inIx, hpos]
  exact orbClearAndPad_ringInAt (by omega) hu hc hi

/-! ### The sequences (41_ring_buffers.md R202) -/

theorem outQueue_rbWrite {s : State} (hcap : s.Cout ≤ s.build.outCapMax) (hix : RingOk s.outIx s.Cout)
    {src : Nat → Nat → Nat → F32} {n : Nat} (hn : s.outIx.avail + n ≤ s.Cout) {j c : Nat} (hj : j < s.J)
    (hc : c < s.C) : outQueue (rbWrite src n s) j c = outQueue s j c ++ (List.range n).map (src j c) := by
  rw [outQueue, outQueue, rbWrite_outIx, map_range_add]
  congr 1
  · exact List.map_congr_left fun i hi => rbSample_rbWrite_held hcap hix hn hc (List.mem_range.1 hi)
  · exact List.map_congr_left fun f hf => rbSample_rbWrite_new hcap hix hn hj hc (List.mem_range.1 hf)

theorem outQueue_rbAdvance (n : Nat) (s : State) (j c : Nat) :
    outQueue (rbAdvance n s) j c = (outQueue s j c).drop n := by
  rw [outQueue, outQueue, rbAdvance_outIx, drop_map_range]
  exact List.map_congr_left fun i _ => rbSample_rbAdvance n s j c i

theorem outQueue_rbClear (cap : Nat) (s : State) (j c : Nat) : outQueue (rbClear cap s) j c = [] := rfl

theorem inQueue_orbWrite {s : State} (hcap : s.Cin ≤ s.build.inCapMax) (hix : RingOk s.inIx s.Cin)
    {src : Nat → Nat → Nat → F32} {n : Nat} (hn : s.inIx.avail + n ≤ s.Cin) {u c : Nat} (hu : u < s.I)
    (hc : c < s.C) : inQueue (orbWrite src n s) u c = inQueue s u c ++ (List.range n).map (src u c) := by
  rw [inQueue, inQueue, orbWrite_inIx, map_range_add]
  congr 1
  · exact List.map_congr_left fun i hi => orbSample_orbWrite_held hcap hix hn hc (List.mem_range.1 hi)
  · exact List.map_congr_left fun f hf => orbSample_orbWrite_new hcap hix hn hu hc (List.mem_range.1 hf)

theorem inQueue_orbRead (s : State) (u c : Nat) : inQueue (orbRead s) u c = (inQueue s u c).drop s.hop := by
  rw [inQueue, inQueue, orbRead_inIx, drop_map_range]
  exact List.map_congr_left fun i _ => orbSample_orbRead s u c i

/-- The window ORB_READ leaves in the time blocks is the oldest N samples. -/
theorem window_orbRead {s : State} (hN : s.N ≤ s.build.nMax) (havail : s.N ≤ s.inIx.avail) {u c : Nat}
    (hu : u < s.I) (hc : c < s.C) :
    (List.range s.N).map ((orbRead s).tbAt u c) = (inQueue s u c).take s.N := by
  rw [inQueue, take_map_range _ havail]
  exact List.map_congr_left fun i hi => orbRead_tbAt hN hu hc (List.mem_range.1 hi)

theorem inQueue_orbClearAndPad {s : State} (hb : s.build.Valid) (h : ActiveOk s) {u c : Nat} (hu : u < s.I)
    (hc : c < s.C) : inQueue (orbClearAndPad s) u c = List.replicate (s.N - s.B) 0#32 := by
  have hzero : ∀ i ∈ List.range (s.N - s.B), orbSample (orbClearAndPad s) u c i = 0#32 := fun i hi =>
    orbSample_orbClearAndPad hb h hu hc (List.mem_range.1 hi)
  rw [inQueue, orbClearAndPad_inIx, padding, List.map_congr_left hzero, List.map_const', List.length_range]

/-- Settles O39: each operation leaves every sample at its place from the oldest one. -/
theorem ringStorageRefinesSequences : Obligations.RingStorageRefinesSequences := by
  unfold Obligations.RingStorageRefinesSequences
  intro s hb hact hin hout
  have hs : Bounds s := hact.bounds hb
  exact ⟨fun _ _ _ _ hn hj hc => outQueue_rbWrite hs.Cout_le hout hn hj hc,
    fun _ _ _ _ hn hu hc => inQueue_orbWrite hs.Cin_le hin hn hu hc,
    fun n j c _ => outQueue_rbAdvance n s j c,
    fun u c hN hu hc => ⟨window_orbRead hs.N_le hN hu hc, inQueue_orbRead s u c⟩,
    fun cap j c => outQueue_rbClear cap s j c,
    fun _ _ hu hc => inQueue_orbClearAndPad hb hact hu hc⟩

/-! ### Successive windows (41_ring_buffers.md R203) -/

/-- Settles O40: the first read drops hop samples, the append keeps the rest, and the second read finds them
hop places earlier. -/
theorem successiveWindowsOverlap : Obligations.SuccessiveWindowsOverlap := by
  unfold Obligations.SuccessiveWindowsOverlap
  intro s hb hact hix havail src n _ hfit u c i hu hc hi
  have hs : Bounds s := hact.bounds hb
  have hhop : s.hop ≤ s.N := hs.hop_le
  have hread : RingOk (orbRead s).inIx s.Cin := hix.remove (by omega)
  have hheld : i < s.inIx.avail - s.hop := by omega
  calc (orbRead (orbWrite src n (orbRead s))).tbAt u c i
      = orbSample (orbWrite src n (orbRead s)) u c i :=
        orbRead_tbAt (s := orbWrite src n (orbRead s)) hs.N_le hu hc (show i < s.N by omega)
    _ = orbSample (orbRead s) u c i :=
        orbSample_orbWrite_held (s := orbRead s) hs.Cin_le hread hfit hc hheld
    _ = orbSample s u c (i + s.hop) := by rw [orbSample_orbRead, Nat.add_comm]
    _ = (orbRead s).tbAt u c (i + s.hop) := (orbRead_tbAt hs.N_le hu hc (by omega)).symm

end Sys2Proof.Machine
end

section
/-! SUPPORT. The four active tables from INIT to the end of a step (42_window_cola.md R220 to R227): what each
entry is once an INIT has built it, and that no other command changes a byte of them. -/

namespace Sys2Proof.Machine

/-! ### Writing one table after another -/

/-- A table write leaves the entries of the other tables alone. -/
theorem writeTable_wordAt_other {r r' : Region} {len : Nat} {val : Nat → F32} {s : State} (hb : s.build.Valid)
    (hr : isTable r) (hlen : len ≤ s.build.nMax) (hr' : isTable r') (hne : r' ≠ r) {n : Nat}
    (hn : n < s.build.nMax) : (writeTable r len val s).wordAt (tableOff r' n) = s.wordAt (tableOff r' n) :=
  wordAt_of_outside (tableOff_mod r' n) (regionOf_tableOff hb hr' hn) hne
    fun _ ho => writeTable_byteAt hb hr hlen ho

theorem colaValid_iff {hop : Nat} {s : State} :
    colaValid hop s = true ↔ ∀ i < hop, fgt (s.wordAt (tableOff .cola i)) Config.eps = true := by
  simp only [colaValid, List.all_eq_true, List.mem_range]

theorem LegalConfig.cfgHop_pos {b : Build} {q : CfgRegs} (h : LegalConfig b q) : 0 < cfgHop q :=
  Nat.sub_pos_of_lt h.overlap

theorem LegalConfig.cfgHop_le {b : Build} {q : CfgRegs} (h : LegalConfig b q) (hb : b.Valid) :
    cfgHop q ≤ b.nMax :=
  (Nat.sub_le _ _).trans (h.fftSize_le hb)

section
variable {q : CfgRegs} {s : State} (hb : s.build.Valid) (hq : LegalConfig s.build q)
include hb hq

/-! ### The window tables (42_window_cola.md R220 to R222) -/

theorem buildWindows_actA {n : Nat} (hn : n < q.fftSize.toNat) :
    (buildWindows q.window q.fftSize.toNat s).wordAt (tableOff .actA n) =
      windowEntry s q.window .wsrcA q.fftSize.toNat n :=
  have hN := hq.fftSize_le hb
  (writeTable_wordAt_other (s := writeTable .actA _ _ s) hb (by decide) hN (by decide) (by decide)
    (hn.trans_le hN)).trans (writeTable_wordAt hb (by decide) hN hn)

theorem buildWindows_actS {n : Nat} (hn : n < q.fftSize.toNat) :
    (buildWindows q.window q.fftSize.toNat s).wordAt (tableOff .actS n) =
      windowEntry s q.window .wsrcS q.fftSize.toNat n :=
  writeTable_wordAt (s := writeTable .actA _ _ s) hb (by decide) (hq.fftSize_le hb) hn

theorem buildWindows_rest {r : Region} (hr : r = .actA ∨ r = .actS) {n : Nat} (hn : q.fftSize.toNat ≤ n)
    (hn' : n < s.build.nMax) :
    (buildWindows q.window q.fftSize.toNat s).wordAt (tableOff r n) = 0#32 := by
  rcases hr with rfl | rfl
  · exact (writeTable_wordAt_other (s := writeTable .actA _ _ s) hb (by decide) (hq.fftSize_le hb) (by decide)
      (by decide) hn').trans (writeTable_wordAt_rest hb (by decide) hn hn')
  · exact writeTable_wordAt_rest (s := writeTable .actA _ _ s) hb (by decide) hn hn'

/-! ### COLA and the effective synthesis window (42_window_cola.md R223, R225) -/

/-- COLA_BUILD leaves the window tables. -/
theorem buildTables_wordAt_window {r : Region} (hr : r = .actA ∨ r = .actS) {n : Nat} (hn : n < s.build.nMax) :
    (buildTables q s).wordAt (tableOff r n) =
      (buildWindows q.window q.fftSize.toNat (freshDraws s)).wordAt (tableOff r n) := by
  have hhop := hq.cfgHop_le hb
  unfold buildTables buildCola
  rcases hr with rfl | rfl <;>
    exact writeTable_wordAt_other (by simpa using hb) (by decide) (by simpa using hhop) (by decide) (by decide)
      (by simpa using hn)

theorem buildTables_actA {n : Nat} (hn : n < q.fftSize.toNat) :
    (buildTables q s).wordAt (tableOff .actA n) = windowEntry s q.window .wsrcA q.fftSize.toNat n :=
  (buildTables_wordAt_window hb hq (.inl rfl) (hn.trans_le (hq.fftSize_le hb))).trans
    (buildWindows_actA (s := freshDraws s) hb hq hn)

theorem buildTables_actS {n : Nat} (hn : n < q.fftSize.toNat) :
    (buildTables q s).wordAt (tableOff .actS n) = windowEntry s q.window .wsrcS q.fftSize.toNat n :=
  (buildTables_wordAt_window hb hq (.inr rfl) (hn.trans_le (hq.fftSize_le hb))).trans
    (buildWindows_actS (s := freshDraws s) hb hq hn)

/-- Each COLA entry is the sum over the window tables as they stand once it is built. -/
theorem buildTables_cola {i : Nat} (hi : i < cfgHop q) :
    (buildTables q s).wordAt (tableOff .cola i) =
      colaSum (fun k => Config.nanDraw (s.draws + 1) (.colaMul i k))
        (fun k => Config.nanDraw (s.draws + 1) (.colaAdd i k))
        (fun n => (buildTables q s).wordAt (tableOff .actA n))
        (fun n => (buildTables q s).wordAt (tableOff .actS n)) q.fftSize.toNat (cfgHop q) i := by
  have hN := hq.fftSize_le hb
  have hbuilt : (buildTables q s).wordAt (tableOff .cola i) = colaEntry _ q.fftSize.toNat (cfgHop q) i :=
    writeTable_wordAt (s := buildWindows q.window q.fftSize.toNat (freshDraws s)) (by simpa using hb) (by decide)
      (by simpa using hq.cfgHop_le hb) hi
  rw [hbuilt, colaEntry]
  simp only [State.nan, buildWindows_draws, freshDraws_draws]
  exact colaSum_congr hq.cfgHop_pos hi
    (fun n hn => (buildTables_wordAt_window hb hq (.inl rfl) (hn.trans_le hN)).symm)
    (fun n hn => (buildTables_wordAt_window hb hq (.inr rfl) (hn.trans_le hN)).symm)

omit hq in
theorem buildTables_cola_rest {i : Nat} (hi : cfgHop q ≤ i) (hi' : i < s.build.nMax) :
    (buildTables q s).wordAt (tableOff .cola i) = 0#32 :=
  writeTable_wordAt_rest (s := buildWindows q.window q.fftSize.toNat (freshDraws s)) (by simpa using hb)
    (by decide) hi (by simpa using hi')

/-- EFFSYN_BUILD leaves the other tables. -/
theorem buildEffsyn_wordAt {r : Region} (hr : isTable r) (hne : r ≠ .effsyn) {n : Nat} (hn : n < s.build.nMax) :
    (buildEffsyn q.fftSize.toNat (cfgHop q) s).wordAt (tableOff r n) = s.wordAt (tableOff r n) :=
  writeTable_wordAt_other hb (by decide) (hq.fftSize_le hb) hr hne hn

theorem buildEffsyn_effsyn {i : Nat} (hi : i < q.fftSize.toNat) :
    (buildEffsyn q.fftSize.toNat (cfgHop q) s).wordAt (tableOff .effsyn i) = effsynEntry s (cfgHop q) i :=
  writeTable_wordAt hb (by decide) (hq.fftSize_le hb) hi

omit hq in
theorem buildEffsyn_effsyn_rest {i : Nat} (hi : q.fftSize.toNat ≤ i) (hi' : i < s.build.nMax) :
    (buildEffsyn q.fftSize.toNat (cfgHop q) s).wordAt (tableOff .effsyn i) = 0#32 :=
  writeTable_wordAt_rest hb (by decide) hi hi'

omit hq in
/-- INIT_COMMIT leaves every table. -/
theorem initCommit_wordAt {r : Region} (hr : isTable r) {n : Nat} (hn : n < s.build.nMax) :
    (completeCmd (initCommit q s)).wordAt (tableOff r n) = s.wordAt (tableOff r n) := by
  have hreg : ∀ i, i < 4 → regionOf (tableOff r n + i) = some r := fun i hi =>
    regionOf_lane (tableOff_mod r n) hi (regionOf_tableOff hb hr hn)
  obtain ⟨-, -, hin, hout⟩ := hr
  refine State.wordAt_congr fun i hi => State.byteAt_congr ?_ (by simp)
  rw [completeCmd_mem, initCommit_mem, Memory.get?_zeroRegion, Memory.get?_zeroRegion, hreg i hi,
    if_neg (by simpa using hout), if_neg (by simpa using hin)]

end

/-! ### A successful INIT (44_engine_commands.md R280 to R284) -/

/-- The block once an INIT has built the window tables and COLA (44_engine_commands.md R282 step 4). -/
def tablesBuilt (s : State) : State := buildTables s.cfg { s with busy := true }

/-- The block once an INIT has passed every check and is complete (44_engine_commands.md R280). -/
def afterInit (s : State) : State :=
  completeCmd (initCommit s.cfg (buildEffsyn s.cfg.fftSize.toNat (cfgHop s.cfg) (tablesBuilt s)))

theorem exec_init {s : State} (h : Quiet s) (hx : s.seq ≠ .xwait) (a : Nat) :
    exec (.init a) s = .next (runInit s) :=
  have hbusy : s.busy = false := h.1
  exec_accepted (rejection_none hbusy (by simpa [accepts] using hx) rfl)

/-- An INIT that passes every check. -/
theorem runInit_success {s : State} (h : Quiet s) (hq : LegalConfig s.build s.cfg) (ha : s.adapterOk = true)
    (hc : colaValid (cfgHop s.cfg) (tablesBuilt s) = true) : runInit s = afterInit s := by
  obtain ⟨-, hov, htr⟩ := h
  have hvalid : ¬configValid s.build s.cfg = false := by simp [configValid_iff.2 hq]
  rw [runInit_nil hov htr, if_neg hvalid, if_neg (by simp [ha])]
  exact if_pos hc

/-- An INIT ends in READY only if every check passed. -/
theorem runInit_ready {s : State} (h : Quiet s) (hr : (runInit s).seq = .ready) :
    LegalConfig s.build s.cfg ∧ colaValid (cfgHop s.cfg) (tablesBuilt s) = true ∧ runInit s = afterInit s := by
  obtain ⟨-, hov, htr⟩ := h
  have hfail : ∀ code u, (completeFailed (initFailed code u)).seq ≠ .ready := fun _ _ =>
    show SeqState.uninit ≠ .ready by decide
  have hrun := runInit_nil hov htr
  split at hrun
  · exact absurd (hrun ▸ hr) (hfail _ _)
  · rename_i hvalid
    split at hrun
    · exact absurd (hrun ▸ hr) (hfail _ _)
    · split at hrun
      · exact ⟨configValid_iff.1 (by simpa using hvalid), ‹_›, hrun⟩
      · exact absurd (hrun ▸ hr) (hfail _ _)

/-- What an INIT that ends in READY has checked and what it leaves. -/
theorem exec_init_ready {a : Nat} {s t : State} (h : Quiet s) (hx : s.seq ≠ .xwait)
    (ht : exec (.init a) s = .next t) (hr : t.seq = .ready) :
    LegalConfig s.build s.cfg ∧ colaValid (cfgHop s.cfg) (tablesBuilt s) = true ∧ t = afterInit s := by
  rw [exec_init h hx, Host.Outcome.next.injEq] at ht
  subst ht
  exact runInit_ready h hr

/-! ### The tables a successful INIT leaves -/

theorem afterInit_N (s : State) : (afterInit s).N = s.cfg.fftSize.toNat := rfl

section
variable {s : State} (hb : s.build.Valid) (hq : LegalConfig s.build s.cfg)
include hb hq

theorem afterInit_hop : (afterInit s).hop = cfgHop s.cfg := by
  have hmax := nMax_le hb
  have hle := hq.cfgHop_le hb
  exact wordOfNat_toNat (by omega)

/-- Every table but EFFSYN is as step 4 built it. -/
theorem afterInit_wordAt {r : Region} (hr : isTable r) (hne : r ≠ .effsyn) {n : Nat} (hn : n < s.build.nMax) :
    (afterInit s).wordAt (tableOff r n) = (tablesBuilt s).wordAt (tableOff r n) := by
  unfold afterInit tablesBuilt
  rw [initCommit_wordAt (by simpa using hb) hr (by simpa using hn),
    buildEffsyn_wordAt (by simpa using hb) (by simpa using hq) hr hne (by simpa using hn)]

theorem afterInit_actA {n : Nat} (hn : n < s.cfg.fftSize.toNat) :
    (afterInit s).wordAt (tableOff .actA n) = windowEntry s s.cfg.window .wsrcA s.cfg.fftSize.toNat n :=
  (afterInit_wordAt hb hq (by decide) (by decide) (hn.trans_le (hq.fftSize_le hb))).trans
    (buildTables_actA (s := { s with busy := true }) hb hq hn)

theorem afterInit_actS {n : Nat} (hn : n < s.cfg.fftSize.toNat) :
    (afterInit s).wordAt (tableOff .actS n) = windowEntry s s.cfg.window .wsrcS s.cfg.fftSize.toNat n :=
  (afterInit_wordAt hb hq (by decide) (by decide) (hn.trans_le (hq.fftSize_le hb))).trans
    (buildTables_actS (s := { s with busy := true }) hb hq hn)

/-- The window tables are `+0.0` beyond N (42_window_cola.md R222). -/
theorem afterInit_window_rest {r : Region} (hr : r = .actA ∨ r = .actS) {n : Nat}
    (hn : s.cfg.fftSize.toNat ≤ n) (hn' : n < s.build.nMax) : (afterInit s).wordAt (tableOff r n) = 0#32 := by
  have hr' : isTable r ∧ r ≠ .effsyn := by rcases hr with rfl | rfl <;> decide
  calc (afterInit s).wordAt (tableOff r n)
      = (tablesBuilt s).wordAt (tableOff r n) := afterInit_wordAt hb hq hr'.1 hr'.2 hn'
    _ = _ := buildTables_wordAt_window (s := { s with busy := true }) hb hq hr hn'
    _ = 0#32 := buildWindows_rest (s := freshDraws { s with busy := true }) hb hq hr hn hn'

/-- Each COLA entry is the sum of 42_window_cola.md R223 over the window tables that INIT leaves. -/
theorem afterInit_cola {i : Nat} (hi : i < cfgHop s.cfg) :
    (afterInit s).wordAt (tableOff .cola i) =
      colaSum (fun k => Config.nanDraw (s.draws + 1) (.colaMul i k))
        (fun k => Config.nanDraw (s.draws + 1) (.colaAdd i k))
        (fun n => (afterInit s).wordAt (tableOff .actA n)) (fun n => (afterInit s).wordAt (tableOff .actS n))
        s.cfg.fftSize.toNat (cfgHop s.cfg) i := by
  have hN := hq.fftSize_le hb
  rw [afterInit_wordAt hb hq (by decide) (by decide) (hi.trans_le (hq.cfgHop_le hb))]
  refine (buildTables_cola (s := { s with busy := true }) hb hq hi).trans ?_
  exact colaSum_congr hq.cfgHop_pos hi
    (fun n hn => (afterInit_wordAt hb hq (by decide) (by decide) (hn.trans_le hN)).symm)
    (fun n hn => (afterInit_wordAt hb hq (by decide) (by decide) (hn.trans_le hN)).symm)

theorem afterInit_cola_rest {i : Nat} (hi : cfgHop s.cfg ≤ i) (hi' : i < s.build.nMax) :
    (afterInit s).wordAt (tableOff .cola i) = 0#32 :=
  (afterInit_wordAt hb hq (by decide) (by decide) hi').trans
    (buildTables_cola_rest (s := { s with busy := true }) hb hi hi')

/-- The checked COLA entries are above EPS (42_window_cola.md R224). -/
theorem afterInit_cola_gt (hc : colaValid (cfgHop s.cfg) (tablesBuilt s) = true) {i : Nat}
    (hi : i < cfgHop s.cfg) : fgt ((afterInit s).wordAt (tableOff .cola i)) Config.eps = true := by
  rw [afterInit_wordAt hb hq (by decide) (by decide) (hi.trans_le (hq.cfgHop_le hb))]
  exact colaValid_iff.1 hc i hi

omit hq in
/-- INIT_COMMIT leaves EFFSYN. -/
theorem afterInit_effsyn_eq {i : Nat} (hi : i < s.build.nMax) :
    (afterInit s).wordAt (tableOff .effsyn i) =
      (buildEffsyn s.cfg.fftSize.toNat (cfgHop s.cfg) (tablesBuilt s)).wordAt (tableOff .effsyn i) :=
  initCommit_wordAt (by simpa [tablesBuilt] using hb) (by decide) (by simpa [tablesBuilt] using hi)

/-- EFFSYN is the division of 42_window_cola.md R225 by the tables that INIT leaves. -/
theorem afterInit_effsyn {i : Nat} (hi : i < s.cfg.fftSize.toNat) :
    (afterInit s).wordAt (tableOff .effsyn i) =
      fdiv (Config.nanDraw (s.draws + 1) (.effsyn i)) ((afterInit s).wordAt (tableOff .actS i))
        ((afterInit s).wordAt (tableOff .cola (i % cfgHop s.cfg))) := by
  have hi' := hi.trans_le (hq.fftSize_le hb)
  have hmod := (Nat.mod_lt i hq.cfgHop_pos).trans_le (hq.cfgHop_le hb)
  rw [afterInit_effsyn_eq hb hi', afterInit_wordAt hb hq (by decide) (by decide) hi',
    afterInit_wordAt hb hq (by decide) (by decide) hmod,
    buildEffsyn_effsyn (by simpa [tablesBuilt] using hb) (by simpa [tablesBuilt] using hq) hi]
  simp [effsynEntry, State.nan, tablesBuilt]

omit hq in
theorem afterInit_effsyn_rest {i : Nat} (hi : s.cfg.fftSize.toNat ≤ i) (hi' : i < s.build.nMax) :
    (afterInit s).wordAt (tableOff .effsyn i) = 0#32 :=
  (afterInit_effsyn_eq hb hi').trans
    (buildEffsyn_effsyn_rest (by simpa [tablesBuilt] using hb) hi (by simpa [tablesBuilt] using hi'))

/-- The built-in window passes COLA_VALIDATE (42_window_cola.md R220, R224). -/
theorem colaValid_hamming (hw : s.cfg.window = 0#8) : colaValid (cfgHop s.cfg) (tablesBuilt s) = true := by
  have hentry : ∀ src n, windowEntry { s with busy := true } s.cfg.window src s.cfg.fftSize.toNat n =
      hamming s.cfg.fftSize.toNat n := fun _ _ => if_pos hw
  refine colaValid_iff.2 fun i hi => ?_
  have hsum := buildTables_cola (s := { s with busy := true }) hb hq hi
  rw [colaSum_congr hq.cfgHop_pos hi
    (fun n hn => (buildTables_actA (s := { s with busy := true }) hb hq hn).trans (hentry _ n))
    (fun n hn => (buildTables_actS (s := { s with busy := true }) hb hq hn).trans (hentry _ n))] at hsum
  rw [tablesBuilt, hsum]
  exact hamming_passes hq.overlap hi _ _

end

/-! ### What INIT leaves in the active tables -/

/-- Settles O25: an INIT that ends in READY passed every check, and no later piece of it
touches the window tables. -/
theorem initBuildsWindowTables : Obligations.InitBuildsWindowTables := by
  unfold Obligations.InitBuildsWindowTables
  intro a s t hquiet hb hx ht hr
  obtain ⟨hq, -, rfl⟩ := exec_init_ready hquiet hx ht hr
  exact ⟨fun n hn => ⟨afterInit_actA hb hq hn, afterInit_actS hb hq hn⟩, fun n hn hn' =>
    ⟨afterInit_window_rest hb hq (.inl rfl) hn hn', afterInit_window_rest hb hq (.inr rfl) hn hn'⟩⟩

/-- Settles O27: COLA and EFFSYN are built from the tables that stand when INIT ends. -/
theorem initBuildsColaAndEffectiveWindow : Obligations.InitBuildsColaAndEffectiveWindow := by
  unfold Obligations.InitBuildsColaAndEffectiveWindow
  intro a s t hquiet hb hx ht hr
  obtain ⟨hq, hc, rfl⟩ := exec_init_ready hquiet hx ht hr
  rw [afterInit_hop hb hq, afterInit_N]
  exact ⟨fun i hi => ⟨afterInit_cola hb hq hi, afterInit_cola_gt hb hq hc hi⟩,
    fun i hi hi' => afterInit_cola_rest hb hq hi hi', fun i hi => afterInit_effsyn hb hq hi,
    fun i hi hi' => afterInit_effsyn_rest hb hi hi'⟩

/-- Settles O26: the built-in window passes the check for the configured overlap, and both tables are it. -/
theorem hammingInitSucceeds : Obligations.HammingInitSucceeds := by
  unfold Obligations.HammingInitSucceeds
  refine ⟨fun N n hn => hamming_symm hn, ?_⟩
  intro a s hquiet hb hx hvalid hadapter hw
  have hq := configValid_iff.1 hvalid
  have hrun := runInit_success hquiet hq hadapter (colaValid_hamming hb hq hw)
  have hA : ∀ n < s.cfg.fftSize.toNat, (afterInit s).wordAt (tableOff .actA n) = hamming s.cfg.fftSize.toNat n :=
    fun n hn => (afterInit_actA hb hq hn).trans (if_pos hw)
  have hS : ∀ n < s.cfg.fftSize.toNat, (afterInit s).wordAt (tableOff .actS n) = hamming s.cfg.fftSize.toNat n :=
    fun n hn => (afterInit_actS hb hq hn).trans (if_pos hw)
  refine ⟨afterInit s, by rw [exec_init hquiet hx, hrun], ?_, ?_, ?_, rfl, fun n hn => ?_⟩
  · simp [afterInit]
  · simp [afterInit]
  · simp [afterInit, tablesBuilt]
  · rw [afterInit_N] at hn ⊢
    rw [hA n hn, hS n hn, hA _ (by omega)]
    exact ⟨rfl, rfl, hamming_symm hn⟩

/-! ### The active tables after every other command (42_window_cola.md R227) -/

/-- Every byte of ACT_A, ACT_S, COLA and EFFSYN is the same in both states. -/
def SameTables (s t : State) : Prop :=
  ∀ off r, regionOf off = some r → regionReadOnly r = true → t.byteAt off = s.byteAt off

theorem SameTables.of_mem {s t : State} (hm : t.mem = s.mem) (he : t.epoch = s.epoch) : SameTables s t :=
  fun _ _ _ _ => State.byteAt_congr (by rw [hm]) he

theorem SameTables.trans {s t u : State} (h : SameTables s t) (h' : SameTables t u) : SameTables s u :=
  fun off r hr hro => (h' off r hr hro).trans (h off r hr hro)

/-- A change of one writable region leaves the tables. -/
theorem SameTables.of_writable {s t : State} {w : Region} (hw : regionReadOnly w = false)
    (h : ∀ off, regionOf off ≠ some w → t.byteAt off = s.byteAt off) : SameTables s t := by
  intro off r hr hro
  refine h off fun hc => ?_
  obtain rfl := Option.some.inj (hr.symm.trans hc)
  rw [hw] at hro
  exact Bool.noConfusion hro

/-- An active configuration, and nothing to land. -/
structure Streaming (s : State) : Prop where
  build_valid : s.build.Valid
  active : ActiveOk s
  overlap : s.overlap = []
  transit : s.transit = .none

theorem Streaming.update {s t : State} (h : Streaming s) (ha : t.act = s.act) (hb : t.build = s.build)
    (ho : t.overlap = s.overlap) (ht : t.transit = s.transit) : Streaming t :=
  ⟨hb ▸ h.build_valid, h.active.congr ha hb, ho.trans h.overlap, ht.trans h.transit⟩

theorem Streaming.frameHead {s : State} (h : Streaming s) : Streaming (frameHead s) :=
  h.update (frameHead_act s) (frameHead_build s) (frameHead_overlap s) (frameHead_transit s)

theorem Streaming.identityCopy {s : State} (h : Streaming s) : Streaming (identityCopy s) :=
  h.update rfl rfl rfl rfl

theorem Streaming.frameTail {s : State} (h : Streaming s) : Streaming (frameTail s) :=
  h.update (frameTail_act s) (frameTail_build s) (frameTail_overlap s) (frameTail_transit s)

theorem sameTables_frameHead {s : State} (h : Streaming s) : SameTables s (frameHead s) := by
  have hread : SameTables s (orbRead s) := .of_mem rfl rfl
  have hanalyze : SameTables (orbRead s) (analyzeAll (orbRead s)) :=
    .of_writable (w := .specIn) rfl fun _ ho =>
      analyzeAll_byteAt (s := orbRead s) h.build_valid (h.active.bounds h.build_valid).K_le h.active.inputs_ok.2 ho
  exact hread.trans hanalyze

theorem sameTables_identityCopy {s : State} (h : Streaming s) : SameTables s (identityCopy s) :=
  .of_writable (w := .specOut) rfl fun _ ho =>
    identityCopy_byteAt h.build_valid (h.active.bounds h.build_valid).K_le ho

theorem sameTables_frameTail (s : State) : SameTables s (frameTail s) :=
  .of_mem (frameTail_mem s) (frameTail_epoch s)

theorem sameTables_frameLoop (fuel : Nat) {s : State} (h : Streaming s) : SameTables s (frameLoop fuel s) := by
  induction fuel generalizing s with
  | zero => exact .of_mem rfl rfl
  | succ fuel ih =>
    by_cases hN : s.inIx.avail < s.N
    · rw [frameLoop_complete hN]
      exact .of_mem rfl rfl
    have hN := Nat.le_of_not_lt hN
    by_cases hroom : s.Cout < s.outIx.avail + s.hop
    · rw [frameLoop_fault h.overlap h.transit hN hroom]
      exact .of_mem rfl rfl
    have hroom := Nat.le_of_not_lt hroom
    have hhead := sameTables_frameHead h
    have hcopy := hhead.trans (sameTables_identityCopy h.frameHead)
    cases hm : s.tmode with
    | identity =>
      rw [frameLoop_identity h.overlap h.transit hm hN hroom]
      exact (hcopy.trans (sameTables_frameTail _)).trans (ih h.frameHead.identityCopy.frameTail)
    | external =>
      rw [frameLoop_external h.overlap h.transit hm hN hroom]
      exact hhead.trans (.of_mem rfl rfl)
    | inplace =>
      rw [frameLoop_inplace h.overlap h.transit hm hN hroom]
      exact hcopy.trans (.of_mem rfl rfl)
    | reserved => exact absurd hm h.active.mode_ok

theorem Inv.streaming {s : State} (h : Inv s) (hq : s.seq ≠ .uninit) : Streaming s := by
  obtain ⟨-, hov, htr⟩ := h.quiet
  exact ⟨h.build_valid, (h.active hq).2, hov, htr⟩

theorem sameTables_runWrite {s : State} (h : Streaming s) (n : Nat) : SameTables s (runWrite n s) := by
  rw [runWrite_nil h.overlap h.transit]
  split
  · exact .of_mem rfl rfl
  · have happend : SameTables s (appendStaged n (startCount { s with busy := true })) := .of_mem rfl rfl
    exact happend.trans (sameTables_frameLoop _ (h.update rfl rfl rfl rfl))

theorem sameTables_runXdone {s : State} (h : Streaming s) : SameTables s (runXdone s) := by
  rw [runXdone_nil h.overlap h.transit]
  have hleave : SameTables s (leaveXwait s) := .of_mem rfl rfl
  have hs : Streaming (leaveXwait s) := h.update rfl rfl rfl rfl
  exact (hleave.trans (sameTables_frameTail _)).trans (sameTables_frameLoop _ hs.frameTail)

theorem sameTables_stageOutput {s : State} (h : Streaming s) {n : Nat} (hn : n ≤ s.build.stageFrames)
    (val : Nat → Nat → Nat → F32) : SameTables s (stageOutput n val s) :=
  .of_writable (w := .stageOut) rfl fun _ ho => stageOutput_byteAt fun _ _ _ hj hc hf =>
    outside_stageOut (regionOf_stageOut h.build_valid (hj.trans_le h.active.outputs_ok.2) (hc.trans_le s.C_le)
      (hf.trans_le hn)) ho

theorem sameTables_runRead {s : State} (h : Streaming s) {n : Nat} (hn : n ≤ s.build.stageFrames) :
    SameTables s (runRead n s) := by
  rw [runRead_nil h.overlap h.transit, readEffect]
  split
  · have hzeros := sameTables_stageOutput (s := { s with busy := true }) (h.update rfl rfl rfl rfl) hn
      fun _ _ _ => posZero
    exact hzeros.trans (.of_mem rfl rfl)
  · have hmoved := sameTables_stageOutput (s := rbAdvance n { s with busy := true }) (h.update rfl rfl rfl rfl) hn
      (rbSample { s with busy := true })
    exact hmoved.trans (.of_mem rfl rfl)

theorem sameTables_runSetBlock {s : State} (ho : s.overlap = []) (ht : s.transit = .none) (b : Nat) :
    SameTables s (runSetBlock b s) := by
  rw [runSetBlock_nil ho ht]
  split <;> exact .of_mem rfl rfl

/-- An accepted command but INIT leaves the tables. -/
theorem sameTables_runOf {i : Instr} {s : State} (h : Inv s) (hi : ∀ a, i ≠ .init a)
    (hr : rejection s i = none) : SameTables s (runOf i s) := by
  obtain ⟨hq, ho⟩ := rejection_eq_none hr
  obtain ⟨-, hov, htr⟩ := h.quiet
  cases i with
  | nop _ =>
    show SameTables s (runNop s)
    rw [runNop_nil hov htr]
    exact .of_mem rfl rfl
  | init a => exact absurd rfl (hi a)
  | setBlock b => exact sameTables_runSetBlock hov htr b
  | write n =>
    have hready : s.seq = .ready := of_decide_eq_true hq
    exact sameTables_runWrite (h.streaming (by simp [hready])) n
  | read n =>
    have hready : s.seq = .ready := of_decide_eq_true hq
    have hn : ¬(s.build.stageFrames < n ∨ s.Cout < n) := fun hc => by simp [operandError, hc] at ho
    exact sameTables_runRead (h.streaming (by simp [hready])) (by omega)
  | xdone _ =>
    have hwait : s.seq = .xwait := of_decide_eq_true hq
    exact sameTables_runXdone (h.streaming (by simp [hwait]))
  | sreset _ =>
    show SameTables s (runSreset s)
    rw [runSreset_nil hov htr]
    exact .of_mem rfl rfl

/-- Settles O55: a rejected command changes no RAM, and an accepted one only SPEC_IN, SPEC_OUT or STAGE_OUT. -/
theorem tablesChangeOnlyByInit : Obligations.TablesChangeOnlyByInit := by
  unfold Obligations.TablesChangeOnlyByInit
  intro i s t h hi ht
  have hsame : SameTables s t := by
    rcases exec_cases i s with ⟨e, -, he⟩ | ⟨hr, he⟩
    · cases he.symm.trans ht
      exact .of_mem rfl rfl
    · cases he.symm.trans ht
      exact sameTables_runOf h hi hr
  intro off r hr hmem
  exact hsame off r hr (by fin_cases hmem <;> rfl)

end Sys2Proof.Machine
end

section
/-! SUPPORT. The engine commands accepted by a quiet block (44_engine_commands.md): what each one runs to, and the
whole next state of NOP, SRESET and SET_BLOCK. -/

namespace Sys2Proof.Machine

/-! ### What an accepted command runs to -/

section
variable {s : State} (h : Quiet s)
include h

theorem exec_nop (a : Nat) : exec (.nop a) s = .next (completeCmd { s with busy := true }) := by
  obtain ⟨hbusy, hov, htr⟩ := h
  exact (exec_accepted (rejection_none hbusy rfl rfl)).trans (congrArg _ (runNop_nil hov htr))

theorem exec_sreset (a : Nat) :
    exec (.sreset a) s = .next (finishSreset (abandonFrame { s with busy := true })) := by
  obtain ⟨hbusy, hov, htr⟩ := h
  exact (exec_accepted (rejection_none hbusy rfl rfl)).trans (congrArg _ (runSreset_nil hov htr))

theorem exec_setBlock {b : Nat} (hq : s.seq ≠ .xwait) (h1 : 1 ≤ b) (hmax : b ≤ s.build.bMax) :
    exec (.setBlock b) s = .next (completeCmd
      (if s.seq = .ready then setBlockActive b (setCfgBlock b { s with busy := true })
        else setCfgBlock b { s with busy := true })) := by
  obtain ⟨hbusy, hov, htr⟩ := h
  have haccept : accepts s.seq (.setBlock b) = true := decide_eq_true hq
  have hrange : operandError s (.setBlock b) = none := if_neg (by omega)
  exact (exec_accepted (rejection_none hbusy haccept hrange)).trans
    (congrArg _ (runSetBlock_nil hov htr b))

theorem exec_write {n : Nat} (hq : s.seq = .ready) (hn : n ≤ s.build.stageFrames) :
    exec (.write n) s = .next
      (if s.Cin < s.inIx.avail + n then raiseFault .inOverflow (startCount { s with busy := true })
        else runFrames (appendStaged n (startCount { s with busy := true }))) := by
  obtain ⟨hbusy, hov, htr⟩ := h
  have haccept : accepts s.seq (.write n) = true := decide_eq_true hq
  have hrange : operandError s (.write n) = none := if_neg (by omega)
  exact (exec_accepted (rejection_none hbusy haccept hrange)).trans
    (congrArg _ (runWrite_nil hov htr n))

theorem exec_read {n : Nat} (hq : s.seq = .ready) (hn : n ≤ s.build.stageFrames) (hcap : n ≤ s.Cout) :
    exec (.read n) s = .next (completeCmd (readEffect n { s with busy := true })) := by
  obtain ⟨hbusy, hov, htr⟩ := h
  have haccept : accepts s.seq (.read n) = true := decide_eq_true hq
  have hrange : operandError s (.read n) = none := if_neg (by omega)
  exact (exec_accepted (rejection_none hbusy haccept hrange)).trans
    (congrArg _ (runRead_nil hov htr n))

end

/-! ### NOP and SRESET -/

/-- Settles O16: `busy` is 1 and 0 again, and DONE is all that remains. -/
theorem nopOnlySetsDone : Obligations.NopOnlySetsDone := by
  unfold Obligations.NopOnlySetsDone
  intro a s h
  have hbusy : s.busy = false := h.1
  rw [exec_nop h, hbusy]
  rfl

/-- Settles O17: the abandoned frame, then everything that SRESET clears together with `busy`. -/
theorem sresetClearsAllButConfigurationAndRam : Obligations.SresetClearsAllButConfigurationAndRam := by
  unfold Obligations.SresetClearsAllButConfigurationAndRam
  intro a s h
  have hbusy : s.busy = false := h.1
  rw [exec_sreset h, hbusy]
  rfl

theorem statusWord_finishSreset {s : State} (hq : s.seq = .uninit) : statusWord (finishSreset s) = 0#32 := by
  simp [statusWord, hq, cmdErrCode, faultCodeOf, initCode, seqCode]

theorem pendingBits_finishSreset {s : State} (hq : s.seq = .uninit) : pendingBits (finishSreset s) = 1#6 := by
  simp [pendingBits, faultLevel, xreq, hq, Sticky.zero]

/-- Settles O19: every field of STATUS is 0, and DONE is the only pending bit. -/
theorem sresetReadsAsNewEngine : Obligations.SresetReadsAsNewEngine := by
  unfold Obligations.SresetReadsAsNewEngine
  intro a s h
  refine ⟨_, exec_sreset h a, ?_, ?_⟩
  · rw [csrReadAt_status, statusWord_finishSreset rfl]
  · rw [csrReadAt_intPending, pendingBits_finishSreset rfl]
    rfl

/-! ### SET_BLOCK -/

/-- Settles O20: outside READY only CFG_BLOCK is written. -/
theorem setBlockOutsideReadyWritesOnlyCfgBlock : Obligations.SetBlockOutsideReadyWritesOnlyCfgBlock := by
  unfold Obligations.SetBlockOutsideReadyWritesOnlyCfgBlock
  intro b s h hq h1 hmax
  have hbusy : s.busy = false := h.1
  have hxwait : s.seq ≠ .xwait := by rcases hq with hq | hq <;> simp [hq]
  have hready : s.seq ≠ .ready := by rcases hq with hq | hq <;> simp [hq]
  rw [exec_setBlock h hxwait h1 hmax, if_neg hready, hbusy]
  rfl

/-- LATENCY is the value of 44_engine_commands.md R315, which a register holds. -/
theorem ActiveOk.latency_toNat {s : State} (hb : s.build.Valid) (h : ActiveOk s) :
    s.act.latency.toNat = if s.hop % s.B = 0 then s.N - s.B else if s.B < s.N then s.N else s.B := by
  have hs : Bounds s := h.bounds hb
  have hN : s.N ≤ 2 ^ 20 := hs.N_le.trans hs.nMax_le
  have hB : s.B < 2 ^ 24 := hs.B_lt
  have hlt : latencyOf s.N s.hop s.B < 2 ^ 32 := by unfold latencyOf; split_ifs <;> omega
  rw [h.latency_eq, wordOfNat_toNat hlt, latencyOf]

/-- Settles O21: SET_BLOCK_ACTIVE leaves an active configuration, whose sizes are those of RING_REBUILD, and
RING_REBUILD pads the input rings. -/
theorem setBlockInReadyRebuildsRings : Obligations.SetBlockInReadyRebuildsRings := by
  unfold Obligations.SetBlockInReadyRebuildsRings
  intro b s h hq h1 hmax
  have hbusy : s.busy = false := h.quiet.1
  have hrun : Running s := (inv_iff.1 h).1.running hq
  have hs : Bounds s := hrun.bounds
  have hblock : (wordOfNat b).toNat = b := wordOfNat_toNat (by have := h.build_valid.bMax_ok; omega)
  have hact : ActiveOk (finishRebuild (beginSetBlock b s)) := (rebuilding_beginSetBlock hrun h1 hmax).active
  have hin : (finishRebuild (beginSetBlock b s)).Cin = s.N + (wordOfNat b).toNat := hact.inCap_eq
  have hout : (finishRebuild (beginSetBlock b s)).Cout = max (8 * (wordOfNat b).toNat) (2 * s.hop) :=
    hact.outCap_eq
  have hlat : (finishRebuild (beginSetBlock b s)).act.latency.toNat =
      if s.hop % (wordOfNat b).toNat = 0 then s.N - (wordOfNat b).toNat
        else if (wordOfNat b).toNat < s.N then s.N else (wordOfNat b).toNat := hact.latency_toNat h.build_valid
  have hpad : ∀ u c f, u < s.I → c < s.C → f < s.N - (wordOfNat b).toNat →
      (orbPad (beginSetBlock b s)).ringInAt u c f = 0#32 := fun u c f hu hc hf =>
    orbPad_ringInAt (s := beginSetBlock b s) (hs.N_le.trans (Nat.le_add_right _ _)) hu hc hf
  rw [hblock] at hin hout hlat hpad
  rw [exec_setBlock h.quiet (by simp [hq]) h1 hmax, if_pos hq]
  refine ⟨_, rfl, ?_, rfl, hblock, hin, hout, hlat, hpad⟩
  have hfill : padding s.N (wordOfNat b).toNat = s.N - b := congrArg (s.N - ·) hblock
  rw [hbusy, ← hfill]
  rfl

end Sys2Proof.Machine
end

section
/-! SUPPORT. INIT on a quiet block (44_engine_commands.md R280 to R285): the validity check as conditions (a) to (h),
the whole next state of each failure, and that of a success. -/

namespace Sys2Proof.Machine

/-! ### The validity check (44_engine_commands.md R282 step 2) -/

theorem supports_iff {b : Build} {N : Nat} :
    b.supports N = true ↔ ∃ k, 1 ≤ k ∧ k ≤ 31 ∧ b.fftSizes.getLsbD k = true ∧ N = 2 ^ k := by
  simp only [Build.supports, List.any_eq_true, List.mem_range, Bool.and_eq_true, decide_eq_true_eq]
  constructor
  · rintro ⟨k, hk, ⟨h1, hbit⟩, hN⟩
    exact ⟨k, h1, by omega, hbit, hN⟩
  · rintro ⟨k, h1, hk, hbit, hN⟩
    exact ⟨k, by omega, ⟨h1, hbit⟩, hN⟩

/-- The two bits of TMODE and the mode they name (10_state.md R53). -/
theorem streamsMode_cases (v : BitVec 18) :
    ((v.extractLsb' 16 2).toNat = 0 ∧ streamsMode v = .identity) ∨
      ((v.extractLsb' 16 2).toNat = 1 ∧ streamsMode v = .external) ∨
      ((v.extractLsb' 16 2).toNat = 2 ∧ streamsMode v = .inplace) ∨
      ((v.extractLsb' 16 2).toNat = 3 ∧ streamsMode v = .reserved) := by
  have hlt : (v.extractLsb' 16 2).toNat < 4 := (v.extractLsb' 16 2).isLt
  unfold streamsMode
  generalize (v.extractLsb' 16 2).toNat = m at hlt ⊢
  interval_cases m <;> simp

theorem streamsMode_eq_reserved {v : BitVec 18} :
    streamsMode v = .reserved ↔ (v.extractLsb' 16 2).toNat = 3 := by
  rcases streamsMode_cases v with ⟨hm, hv⟩ | ⟨hm, hv⟩ | ⟨hm, hv⟩ | ⟨hm, hv⟩ <;> simp [hm, hv]

theorem streamsMode_eq_inplace {v : BitVec 18} :
    streamsMode v = .inplace ↔ (v.extractLsb' 16 2).toNat = 2 := by
  rcases streamsMode_cases v with ⟨hm, hv⟩ | ⟨hm, hv⟩ | ⟨hm, hv⟩ | ⟨hm, hv⟩ <;> simp [hm, hv]

/-- Settles O22: the check is `LegalConfig`, each condition of which is one of (a) to (h). -/
theorem configurationIsValidIff : Obligations.ConfigurationIsValidIff := by
  unfold Obligations.ConfigurationIsValidIff
  intro bd q
  have hchannels : q.channels ≠ 0#8 ↔ q.channels.toNat ≠ 0 := not_congr BitVec.toNat_eq
  have hwindow : q.window = 0#8 ∨ q.window = 1#8 ↔ q.window.toNat = 0 ∨ q.window.toNat = 1 :=
    or_congr BitVec.toNat_eq BitVec.toNat_eq
  have hmode : streamsMode q.streams ≠ .reserved ↔ (q.streams.extractLsb' 16 2).toNat ≠ 3 :=
    not_congr streamsMode_eq_reserved
  rw [configValid_iff]
  constructor
  · intro h
    obtain ⟨hin, hin'⟩ := h.inputs
    obtain ⟨hout, hout'⟩ := h.outputs
    exact ⟨hchannels.1 h.channels, supports_iff.1 h.fftSize, h.overlap, h.block, ⟨hin, hin', hout, hout'⟩,
      hwindow.1 h.window, hmode.1 h.mode, fun hm => h.inplace (streamsMode_eq_inplace.2 hm)⟩
  · rintro ⟨hc, hfft, hlt, hblock, ⟨hin, hin', hout, hout'⟩, hw, hm, hinplace⟩
    exact ⟨hchannels.2 hc, supports_iff.2 hfft, hlt, hblock, ⟨hin, hin'⟩, ⟨hout, hout'⟩, hwindow.2 hw,
      hmode.2 hm, fun he => hinplace (streamsMode_eq_inplace.1 he)⟩

/-! ### A failed INIT (44_engine_commands.md R285) -/

/-- Step 4 of INIT changes no RAM but the tables it builds. -/
theorem buildTables_byteAt {q : CfgRegs} {s : State} (hb : s.build.Valid) (hq : LegalConfig s.build q) {off : Nat}
    (hA : regionOf off ≠ some .actA) (hS : regionOf off ≠ some .actS) (hC : regionOf off ≠ some .cola) :
    (buildTables q s).byteAt off = s.byteAt off := by
  have hN := hq.fftSize_le hb
  have hwindows : (buildWindows q.window q.fftSize.toNat (freshDraws s)).byteAt off = s.byteAt off :=
    (writeTable_byteAt (s := writeTable .actA _ _ (freshDraws s)) hb (by decide) hN hS).trans
      (writeTable_byteAt (s := freshDraws s) hb (by decide) hN hA)
  exact (writeTable_byteAt (s := buildWindows q.window q.fftSize.toNat (freshDraws s)) hb (by decide)
    (hq.cfgHop_le hb) hC).trans hwindows

/-- Settles O23: each failing check decides the INIT, and INIT_FAIL leaves what stood then. -/
theorem failedInitLeavesUninit : Obligations.FailedInitLeavesUninit := by
  unfold Obligations.FailedInitLeavesUninit
  intro a s h hb hx
  obtain ⟨hbusy, hov, htr⟩ := h
  rw [exec_init ⟨hbusy, hov, htr⟩ hx, runInit_nil hov htr, acceptCmd_nil hov htr]
  refine ⟨fun hc => ?_, fun hc ha => ?_, fun hc ha hcola => ⟨?_, fun off hA hS hC => ?_⟩⟩
  · rw [if_pos hc, hbusy]
    rfl
  · rw [if_neg (by simp [hc]), if_pos ha, hbusy]
    rfl
  · rw [if_neg (by simp [hc]), if_neg (by simp [ha]), if_neg (by simp [hcola]), hbusy]
    rfl
  · exact buildTables_byteAt (s := { s with busy := true }) hb (configValid_iff.1 hc) hA hS hC

/-! ### A successful INIT (44_engine_commands.md R283, R284) -/

/-- INIT_COMMIT leaves the sampled configuration active. -/
theorem activeOk_afterInit {s : State} (hb : s.build.Valid) (hq : LegalConfig s.build s.cfg) :
    ActiveOk (afterInit s) := by
  have hN : s.cfg.fftSize.toNat ≤ 2 ^ 20 := (hq.fftSize_le hb).trans (nMax_le hb)
  have hB : s.cfg.block.toNat ≤ 2 ^ 24 := hq.block.2.trans (by have := hb.bMax_ok; omega)
  have hhop : (wordOfNat (cfgHop s.cfg)).toNat ≤ 2 ^ 20 :=
    (Nat.mod_le _ _).trans ((hq.cfgHop_le hb).trans (nMax_le hb))
  refine activeOk_latched (a := s.act) hb hq rfl rfl ?_ ?_ rfl
  · exact wordOfNat_toNat (n := s.cfg.fftSize.toNat + s.cfg.block.toNat) (by omega)
  · exact wordOfNat_toNat (n := max (8 * s.cfg.block.toNat) (2 * (wordOfNat (cfgHop s.cfg)).toNat)) (by omega)

/-- The regions of which INIT writes no word. -/
def keptByInit : List Region := [.stageIn, .stageOut, .wsrcA, .wsrcS]

theorem afterInit_byteAt {s : State} (hb : s.build.Valid) (hq : LegalConfig s.build s.cfg) {off : Nat} {r : Region}
    (ho : regionOf off = some r) (hr : r ∈ keptByInit) : (afterInit s).byteAt off = s.byteAt off := by
  have hne : ∀ r', r' ∉ keptByInit → regionOf off ≠ some r' := fun r' hr' h' =>
    hr' (Option.some.inj (ho.symm.trans h') ▸ hr)
  have hcommit : (afterInit s).byteAt off =
      (buildEffsyn s.cfg.fftSize.toNat (cfgHop s.cfg) (tablesBuilt s)).byteAt off := by
    refine State.byteAt_congr ?_ (by simp [afterInit])
    rw [afterInit, completeCmd_mem, initCommit_mem, Memory.get?_zeroRegion, Memory.get?_zeroRegion,
      if_neg (hne _ (by decide)), if_neg (hne _ (by decide))]
  have heffsyn : (buildEffsyn s.cfg.fftSize.toNat (cfgHop s.cfg) (tablesBuilt s)).byteAt off =
      (tablesBuilt s).byteAt off :=
    writeTable_byteAt (by simpa [tablesBuilt] using hb) (by decide)
      (by simpa [tablesBuilt] using hq.fftSize_le hb) (hne _ (by decide))
  have htables : (tablesBuilt s).byteAt off = s.byteAt off :=
    buildTables_byteAt (s := { s with busy := true }) hb hq (hne _ (by decide)) (hne _ (by decide))
      (hne _ (by decide))
  exact hcommit.trans (heffsyn.trans htables)

/-- INIT_COMMIT fills both spectrum RAMs with `+0.0`. -/
theorem afterInit_byteAt_spec {s : State} {off : Nat}
    (ho : regionOf off = some .specIn ∨ regionOf off = some .specOut) : (afterInit s).byteAt off = 0#8 := by
  have hget : (afterInit s).mem.get? off = some 0#8 := by
    rw [afterInit, completeCmd_mem, initCommit_mem, Memory.get?_zeroRegion, Memory.get?_zeroRegion]
    rcases ho with ho | ho <;> simp [ho]
  rw [State.byteAt, hget]
  rfl

/-- The input rings are padded for the configuration that INIT leaves active. -/
theorem afterInit_ringInAt {s : State} (hb : s.build.Valid) (hq : LegalConfig s.build s.cfg) {u c f : Nat}
    (hu : u < (afterInit s).I) (hc : c < (afterInit s).C) (hf : f < (afterInit s).N - (afterInit s).B) :
    (afterInit s).ringInAt u c f = 0#32 :=
  orbPad_ringInAt
    (s := beginCommit s.cfg (buildEffsyn s.cfg.fftSize.toNat (cfgHop s.cfg) (tablesBuilt s)))
    ((hq.fftSize_le hb).trans (Nat.le_add_right _ _)) hu hc hf

/-- The registers and the storage a successful INIT leaves (44_engine_commands.md R283, R284). -/
theorem afterInit_eq {s : State} (hbusy : s.busy = false) :
    afterInit s = { s with
      seq := .ready, act := (afterInit s).act, mem := (afterInit s).mem, ringIn := (afterInit s).ringIn,
      tail := (afterInit s).tail, inIx := (afterInit s).inIx, outIx := { rd := 0, wr := 0, avail := 0 },
      frameCount := 0#32, lastFrames := 0#32, underflow := false, faultCode := .none, initResult := .ok,
      sticky := { s.sticky with done := true }, draws := s.draws + 1 } := by
  ext1
  case outIx => simp [afterInit, tablesBuilt, RingIx.zero]
  case busy => exact hbusy.symm
  case act | mem | ringIn | tail | inIx => rfl
  all_goals simp [afterInit, tablesBuilt]

/-- Settles O24: every check passed, and INIT_COMMIT leaves an active configuration with everything rebuilt. -/
theorem successfulInitCommitsConfiguration : Obligations.SuccessfulInitCommitsConfiguration := by
  unfold Obligations.SuccessfulInitCommitsConfiguration
  intro a s h hb hx hvalid hadapter hcola
  have hq := configValid_iff.1 hvalid
  have hact := activeOk_afterInit hb hq
  obtain ⟨hbusy, hov, htr⟩ := h
  rw [acceptCmd_nil hov htr] at hcola
  have hrun : exec (.init a) s = .next (afterInit s) := by
    rw [exec_init ⟨hbusy, hov, htr⟩ hx, runInit_success ⟨hbusy, hov, htr⟩ hq hadapter hcola]
  refine ⟨afterInit s, hrun, afterInit_eq hbusy, rfl, rfl, rfl, afterInit_hop hb hq, rfl, rfl, rfl, rfl,
    hact.bins_eq, hact.inCap_eq, hact.outCap_eq, hact.latency_toNat hb, rfl,
    fun u c f => afterInit_ringInAt hb hq, fun _ _ _ => rfl, fun off => afterInit_byteAt_spec, fun off ho => ?_⟩
  rcases ho with ho | ho | ho | ho <;> exact afterInit_byteAt hb hq ho (by decide)

end Sys2Proof.Machine
end

section
/-! SUPPORT. WRITE on a quiet block in READY (44_engine_commands.md R290 to R306): the staged samples in the input
rings, the frames that an IDENTITY WRITE completes, and where the WRITE ends. -/

namespace Sys2Proof.Machine

/-! ### The appended samples (44_engine_commands.md R292) -/

/-- The block once an accepted WRITE has appended its samples. -/
def staged (n : Nat) (s : State) : State := appendStaged n (startCount { s with busy := true })

theorem exec_write_fits {s : State} (h : Quiet s) {n : Nat} (hq : s.seq = .ready) (hn : n ≤ s.build.stageFrames)
    (hfit : s.inIx.avail + n ≤ s.Cin) : exec (.write n) s = .next (runFrames (staged n s)) := by
  rw [exec_write h hq hn, if_neg (by omega)]
  rfl

/-- The staged samples lie at the next n positions, and every other position of the active input rings is as it
was. -/
def HoldsStaged (n : Nat) (s t : State) : Prop :=
  (∀ u c f, u < s.I → c < s.C → f < n →
    t.ringInAt u c ((s.inIx.wr + f) % s.Cin) = s.wordAt (stageOff s.build .stageIn u c f)) ∧
  ∀ u c i, u < s.I → c < s.C → i < s.Cin → (∀ f, f < n → i ≠ (s.inIx.wr + f) % s.Cin) →
    t.ringInAt u c i = s.ringInAt u c i

theorem holdsStaged_staged {s : State} (hs : Bounds s) {n : Nat} (hfit : s.inIx.avail + n ≤ s.Cin) :
    HoldsStaged n s (staged n s) :=
  ⟨fun _ _ _ hu hc hf => orbWrite_ringInAt (s := startCount { s with busy := true })
      (src := stageInAt (startCount { s with busy := true })) (Nat.le_of_add_left_le hfit) hs.Cin_le hu hc hf,
    fun _ _ _ _ hc hi hne =>
      orbWrite_ringInAt_other (s := startCount { s with busy := true }) hs.Cin_le hc hi hne⟩

/-- It is a matter of the storage of the input rings alone. -/
theorem HoldsStaged.congr {n : Nat} {s t u : State} (h : HoldsStaged n s t) (hr : u.ringIn = t.ringIn)
    (hb : u.build = t.build) (he : u.epoch = t.epoch) : HoldsStaged n s u := by
  have hat : ∀ k c i, u.ringInAt k c i = t.ringInAt k c i := fun k c i => by
    simp only [State.ringInAt, State.cell, hr, hb, he]
  exact ⟨fun k c f hk hc hf => (hat _ _ _).trans (h.1 k c f hk hc hf),
    fun k c i hk hc hi hne => (hat _ _ _).trans (h.2 k c i hk hc hi hne)⟩

/-- Settles O28: the check of R291 comes before the append. -/
theorem writeFaultsOnInputOverflow : Obligations.WriteFaultsOnInputOverflow := by
  unfold Obligations.WriteFaultsOnInputOverflow
  intro n s h hq hn hover
  have hbusy : s.busy = false := h.1
  rw [exec_write h hq hn, if_pos hover, hbusy]
  rfl

/-- Settles O29: the samples fit, and the frame loop finds no window. -/
theorem writeBelowAWindowOnlyAppends : Obligations.WriteBelowAWindowOnlyAppends := by
  unfold Obligations.WriteBelowAWindowOnlyAppends
  intro n s h hq hn hlt
  have hs : Bounds s := ((inv_iff.1 h).1.running hq).bounds
  have hfit : s.inIx.avail + n ≤ s.Cin := by have := hs.Cin_ge; omega
  have hrun : runFrames (staged n s) = completeCmd (staged n s) := frameLoop_complete hlt
  obtain ⟨hnew, hold⟩ := (holdsStaged_staged hs hfit).congr (u := completeCmd (staged n s)) rfl rfl rfl
  refine ⟨completeCmd (staged n s), ?_, ?_, hnew, hold⟩
  · rw [exec_write_fits h.quiet hq hn hfit, hrun]
  · have hbusy : s.busy = false := h.quiet.1
    rw [hbusy]
    rfl

/-! ### The frames of an IDENTITY WRITE (44_engine_commands.md R295; 45_transform.md R340) -/

/-- One whole frame in IDENTITY mode. -/
def identityFrame (s : State) : State := frameTail (identityCopy (frameHead s))

/-- A window offset outside the active elements of SPEC_IN and of stream 0 of SPEC_OUT. -/
def OutsideSpectra (s : State) (off : Nat) : Prop :=
  (∀ u c k, u < s.I → c < s.C → k < s.K →
    off < specOff s.build .specIn u c k ∨ specOff s.build .specIn u c k + 8 ≤ off) ∧
  ∀ c k, c < s.C → k < s.K → off < specOff s.build .specOut 0 c k ∨ specOff s.build .specOut 0 c k + 8 ≤ off

/-- The state t is s after k frames in IDENTITY mode, but for the samples themselves: the cursors, the fills and the
counters are those of the frames, and no RAM is written outside the spectra. -/
structure FramesDone (k : Nat) (s t : State) : Prop where
  frame : t = { s with
    mem := t.mem, ringOut := t.ringOut, tail := t.tail, tb := t.tb, y := t.y, res := t.res, draws := t.draws,
    inIx := { rd := (s.inIx.rd + k * s.hop) % s.Cin, wr := s.inIx.wr, avail := s.inIx.avail - k * s.hop },
    outIx := { rd := s.outIx.rd, wr := (s.outIx.wr + k * s.hop) % s.Cout,
               avail := s.outIx.avail + k * s.hop },
    frameCount := s.frameCount + BitVec.ofNat 32 k, lastFrames := s.lastFrames + BitVec.ofNat 32 k }
  ram : ∀ off, OutsideSpectra s off → t.byteAt off = s.byteAt off

theorem framesDone_zero {s : State} (hin : RingOk s.inIx s.Cin) (hout : RingOk s.outIx s.Cout) :
    FramesDone 0 s s := by
  refine ⟨?_, fun _ _ => rfl⟩
  ext1 <;> simp [Nat.mod_eq_of_lt hin.rd_lt, Nat.mod_eq_of_lt hout.wr_lt]

/-- A frame writes no RAM outside the spectra. -/
theorem identityFrame_byteAt {s : State} {off : Nat} (h : OutsideSpectra s off) :
    (identityFrame s).byteAt off = s.byteAt off := by
  have hhead : (frameHead s).byteAt off = s.byteAt off :=
    byteAt_specSweep (s := orbRead s) (t := frameHead s) (a := s.I) (b := s.C) rfl rfl h.1
  have hcopy : (identityCopy (frameHead s)).byteAt off = (frameHead s).byteAt off :=
    byteAt_specSweep (s := frameHead s) (t := identityCopy (frameHead s)) (a := 1) (b := s.C) rfl rfl
      fun u c k hu => by
        obtain rfl : u = 0 := Nat.lt_one_iff.1 hu
        exact h.2 c k
  have htail : (identityFrame s).byteAt off = (identityCopy (frameHead s)).byteAt off :=
    State.byteAt_congr (by rw [identityFrame, frameTail_mem]) (by rw [identityFrame, frameTail_epoch])
  exact htail.trans (hcopy.trans hhead)

/-- What one frame leaves unchanged, and what it counts. -/
theorem identityFrame_eq (s : State) : identityFrame s = { s with
    mem := (identityFrame s).mem, ringOut := (identityFrame s).ringOut, tail := (identityFrame s).tail,
    tb := (identityFrame s).tb, y := (identityFrame s).y, res := (identityFrame s).res,
    draws := (identityFrame s).draws,
    inIx := { s.inIx with rd := (s.inIx.rd + s.hop) % s.Cin, avail := s.inIx.avail - s.hop },
    outIx := { s.outIx with wr := (s.outIx.wr + s.hop) % s.Cout, avail := s.outIx.avail + s.hop },
    frameCount := s.frameCount + 1#32, lastFrames := s.lastFrames + 1#32 } := by
  ext1
  case mem | ringOut | tail | tb | y | res | draws => rfl
  case outIx =>
    have hact : (identityCopy (frameHead s)).act = s.act := by simp
    simp [identityFrame, State.hop_of_act hact, State.Cout_of_act hact]
  all_goals simp [identityFrame]

/-- One more frame. -/
theorem FramesDone.succ {k : Nat} {s t : State} (h : FramesDone k s t) : FramesDone (k + 1) s (identityFrame t) := by
  obtain ⟨hframe, hram⟩ := h
  have hact : t.act = s.act := by rw [hframe]
  have hbuild : t.build = s.build := by rw [hframe]
  refine ⟨?_, fun off ho => ?_⟩
  · have hstep := identityFrame_eq t
    rw [State.hop_of_act hact, State.Cin_of_act hact, State.Cout_of_act hact] at hstep
    generalize identityFrame t = u at hstep ⊢
    rw [hframe] at hstep
    simpa only [Nat.mod_add_mod, Nat.add_mul, Nat.one_mul, Nat.sub_sub, Nat.add_assoc, BitVec.ofNat_add,
      BitVec.add_assoc] using hstep
  · have ho' : OutsideSpectra t off := by
      unfold OutsideSpectra
      rw [State.I_of_act hact, State.C_of_act hact, State.K_of_act hact, hbuild]
      exact ho
    exact (identityFrame_byteAt ho').trans (hram off ho)

/-- The loop goes through every frame that has its window and its room. -/
theorem frameLoop_identityFrames {s : State} (hov : s.overlap = []) (htr : s.transit = .none)
    (hm : s.tmode = .identity) (hin : RingOk s.inIx s.Cin) (hout : RingOk s.outIx s.Cout) (k : Nat)
    (hwin : ∀ i < k, s.N + i * s.hop ≤ s.inIx.avail) (hroom : s.outIx.avail + k * s.hop ≤ s.Cout) (fuel : Nat) :
    ∃ t, frameLoop (fuel + k) s = frameLoop fuel t ∧ FramesDone k s t := by
  induction k generalizing fuel with
  | zero => exact ⟨s, rfl, framesDone_zero hin hout⟩
  | succ k ih =>
    rw [Nat.succ_mul] at hroom
    obtain ⟨t, hloop, hdone⟩ := ih (fun i hi => hwin i (by omega)) (by omega) (fuel + 1)
    have hact : t.act = s.act := by rw [hdone.frame]
    have hwindow : t.N ≤ t.inIx.avail := by
      have := hwin k (by omega)
      rw [State.N_of_act hact, hdone.frame]
      dsimp only
      omega
    have hfit : t.outIx.avail + t.hop ≤ t.Cout := by
      rw [State.hop_of_act hact, State.Cout_of_act hact, hdone.frame]
      dsimp only
      omega
    have hnext : frameLoop (fuel + 1) t = frameLoop fuel (identityFrame t) :=
      frameLoop_identity (by rw [hdone.frame]; exact hov) (by rw [hdone.frame]; exact htr)
        ((State.tmode_of_act hact).trans hm) hwindow hfit
    refine ⟨identityFrame t, ?_, hdone.succ⟩
    rw [← hnext, ← hloop]
    congr 1
    omega

/-! ### How many frames (44_engine_commands.md R304) -/

/-- Every frame counted has its window. -/
theorem window_of_lt_framesOf {N hop a n i : Nat} (hi : i < framesOf N hop a n) : N + i * hop ≤ a + n := by
  unfold framesOf at hi
  split_ifs at hi with hN
  · omega
  · have hle : i * hop ≤ (a + n - N) / hop * hop := Nat.mul_le_mul_right hop (by omega)
    have hdiv := Nat.div_mul_le_self (a + n - N) hop
    omega

/-- After the frames counted no window is left. -/
theorem lt_window_of_framesOf {N hop a n : Nat} (hhop : 0 < hop) : a + n < N + framesOf N hop a n * hop := by
  unfold framesOf
  split_ifs with hN
  · omega
  · have hdiv : a + n - N < ((a + n - N) / hop + 1) * hop := (Nat.div_lt_iff_lt_mul hhop).1 (Nat.lt_succ_self _)
    omega

/-! ### Where an IDENTITY WRITE ends -/

/-- The block after an append of n samples and k frames in IDENTITY mode, the command still running. -/
structure FramesWritten (n k : Nat) (s t : State) : Prop where
  eq : t = { s with
    busy := true, mem := t.mem, ringIn := t.ringIn, ringOut := t.ringOut, tail := t.tail, tb := t.tb, y := t.y,
    res := t.res, draws := t.draws,
    inIx := { rd := (s.inIx.rd + k * s.hop) % s.Cin, wr := (s.inIx.wr + n) % s.Cin,
              avail := s.inIx.avail + n - k * s.hop },
    outIx := { rd := s.outIx.rd, wr := (s.outIx.wr + k * s.hop) % s.Cout,
               avail := s.outIx.avail + k * s.hop },
    frameCount := s.frameCount + BitVec.ofNat 32 k, lastFrames := BitVec.ofNat 32 k }
  rings : HoldsStaged n s t
  ram : ∀ off, OutsideSpectra s off → t.byteAt off = s.byteAt off

/-- The frames after the append, seen from the block before the WRITE: the count starts at 0. -/
theorem FramesDone.written {n k : Nat} {s t : State} (h : FramesDone k (staged n s) t) (hs : Bounds s)
    (hfit : s.inIx.avail + n ≤ s.Cin) : FramesWritten n k s t := by
  obtain ⟨hframe, hram⟩ := h
  refine ⟨?_, (holdsStaged_staged hs hfit).congr (by rw [hframe]) (by rw [hframe]) (by rw [hframe]), hram⟩
  have hring : t.ringIn = (staged n s).ringIn := by rw [hframe]
  have hlast : (staged n s).lastFrames + BitVec.ofNat 32 k = BitVec.ofNat 32 k := BitVec.zero_add _
  refine hframe.trans ?_
  rw [hring, hlast]
  rfl

theorem FramesWritten.window_iff {n k : Nat} {s t : State} (h : FramesWritten n k s t) :
    t.N ≤ t.inIx.avail ↔ s.N ≤ s.inIx.avail + n - k * s.hop := by
  rw [h.eq]
  rfl

theorem FramesWritten.room_iff {n k : Nat} {s t : State} (h : FramesWritten n k s t) :
    t.outIx.avail + t.hop ≤ t.Cout ↔ s.outIx.avail + k * s.hop + s.hop ≤ s.Cout := by
  rw [h.eq]
  rfl

section
variable {n : Nat} {s : State} (h : Inv s) (hq : s.seq = .ready) (hm : s.tmode = .identity)
  (hn : n ≤ s.build.stageFrames) (hfit : s.inIx.avail + n ≤ s.Cin)
include h hq hm hn hfit

/-- An IDENTITY WRITE comes to the point after k frames that have their windows and their room. -/
theorem exec_write_identity {k : Nat} (hwin : ∀ i < k, s.N + i * s.hop ≤ s.inIx.avail + n)
    (hroom : s.outIx.avail + k * s.hop ≤ s.Cout) :
    ∃ fuel t, exec (.write n) s = .next (frameLoop (fuel + 1) t) ∧ FramesWritten n k s t := by
  obtain ⟨-, hov, htr⟩ := h.quiet
  have hconf := (inv_iff.1 h).1.configured (by simp [hq])
  have hs : Bounds s := hconf.active.bounds h.build_valid
  have hk : k ≤ s.inIx.avail + n := by
    cases k with
    | zero => omega
    | succ k =>
      have hlast := hwin k (by omega)
      have hmul : k * 1 ≤ k * s.hop := Nat.mul_le_mul_left k hs.hop_pos
      have hN := hs.N_ge
      omega
  obtain ⟨t, hloop, hdone⟩ := frameLoop_identityFrames (s := staged n s) hov htr hm (hconf.inRing.append hfit)
    hconf.outRing k hwin hroom (s.inIx.avail + n - k + 1)
  refine ⟨s.inIx.avail + n - k, t, ?_, hdone.written hs hfit⟩
  rw [exec_write_fits h.quiet hq hn hfit, ← hloop, runFrames]
  congr 2
  show s.inIx.avail + n + 1 = _
  omega

/-- An IDENTITY WRITE whose frames all fit completes after them (44_engine_commands.md R296, R303). -/
theorem exec_write_completes (hroom : s.outIx.avail + framesOf s.N s.hop s.inIx.avail n * s.hop ≤ s.Cout) :
    ∃ t, exec (.write n) s = .next (completeCmd t) ∧
      FramesWritten n (framesOf s.N s.hop s.inIx.avail n) s t := by
  have hs : Bounds s := ((inv_iff.1 h).1.running hq).bounds
  obtain ⟨fuel, t, hrun, ht⟩ := exec_write_identity h hq hm hn hfit (fun _ hi => window_of_lt_framesOf hi) hroom
  have hlast := lt_window_of_framesOf (N := s.N) (a := s.inIx.avail) (n := n) hs.hop_pos
  have hleft : ¬t.N ≤ t.inIx.avail := by
    have hN := hs.N_ge
    rw [ht.window_iff]
    omega
  exact ⟨t, by rw [hrun, frameLoop_complete (Nat.lt_of_not_le hleft)], ht⟩

/-- An IDENTITY WRITE whose frames do not all fit faults after those that do (44_engine_commands.md R297). -/
theorem exec_write_overflows (hover : s.Cout < s.outIx.avail + framesOf s.N s.hop s.inIx.avail n * s.hop) :
    ∃ t, exec (.write n) s = .next (raiseFault .outOverflow t) ∧
      FramesWritten n ((s.Cout - s.outIx.avail) / s.hop) s t := by
  obtain ⟨-, hov, htr⟩ := h.quiet
  have hhop : 0 < s.hop := ((inv_iff.1 h).1.running hq).bounds.hop_pos
  have hout : s.outIx.avail ≤ s.Cout := (h.outRing (by simp [hq])).avail_le
  have hlt : (s.Cout - s.outIx.avail) / s.hop < framesOf s.N s.hop s.inIx.avail n :=
    (Nat.div_lt_iff_lt_mul hhop).2 (by omega)
  have hfits : (s.Cout - s.outIx.avail) / s.hop * s.hop ≤ s.Cout - s.outIx.avail := Nat.div_mul_le_self _ _
  have hnext : s.Cout - s.outIx.avail < (s.Cout - s.outIx.avail) / s.hop * s.hop + s.hop :=
    Nat.lt_div_mul_add hhop
  obtain ⟨fuel, t, hrun, ht⟩ := exec_write_identity h hq hm hn hfit
    (fun _ hi => window_of_lt_framesOf (hi.trans hlt)) (by omega)
  have hwindow : t.N ≤ t.inIx.avail := by
    have hwin := window_of_lt_framesOf hlt
    rw [ht.window_iff]
    omega
  have hnoRoom : ¬t.outIx.avail + t.hop ≤ t.Cout := by
    rw [ht.room_iff]
    omega
  have hfault : frameLoop (fuel + 1) t = raiseFault .outOverflow t :=
    frameLoop_fault (by rw [ht.eq]; exact hov) (by rw [ht.eq]; exact htr) hwindow (Nat.lt_of_not_le hnoRoom)
  exact ⟨t, by rw [hrun, hfault], ht⟩

end

/-- Settles O30: all the frames counted are done, and DONE is set. -/
theorem identityWriteCompletesItsFrames : Obligations.IdentityWriteCompletesItsFrames := by
  unfold Obligations.IdentityWriteCompletesItsFrames
  intro n s h hq hm hn hfit hroom
  have hbusy : s.busy = false := h.quiet.1
  obtain ⟨t, hrun, heq, hrings, hram⟩ := exec_write_completes h hq hm hn hfit hroom
  obtain ⟨hnew, hold⟩ := hrings.congr (u := completeCmd t) rfl rfl rfl
  refine ⟨completeCmd t, hrun, ?_, hnew, hold, fun off hin hout => hram off ⟨hin, hout⟩⟩
  rw [hbusy]
  exact congrArg completeCmd heq

/-- Settles O32: in IDENTITY mode the frames that fit are done first; in every mode a first frame without room
leaves the appended samples alone. -/
theorem writeFaultsOnOutputOverflow : Obligations.WriteFaultsOnOutputOverflow := by
  unfold Obligations.WriteFaultsOnOutputOverflow
  constructor
  · intro n s h hq hm hn hfit hover
    have hbusy : s.busy = false := h.quiet.1
    obtain ⟨t, hrun, heq, hrings, hram⟩ := exec_write_overflows h hq hm hn hfit hover
    obtain ⟨hnew, hold⟩ := hrings.congr (u := raiseFault .outOverflow t) rfl rfl rfl
    refine ⟨raiseFault .outOverflow t, hrun, ?_, hnew, hold, fun off hin hout => hram off ⟨hin, hout⟩⟩
    rw [hbusy]
    exact congrArg (raiseFault .outOverflow) heq
  · intro n s h hq hn hN hfit hover
    have hs : Bounds s := ((inv_iff.1 h).1.running hq).bounds
    obtain ⟨hbusy, hov, htr⟩ := h.quiet
    have hfault : runFrames (staged n s) = raiseFault .outOverflow (staged n s) :=
      frameLoop_fault (s := staged n s) hov htr hN hover
    obtain ⟨hnew, hold⟩ :=
      (holdsStaged_staged hs hfit).congr (u := raiseFault .outOverflow (staged n s)) rfl rfl rfl
    refine ⟨raiseFault .outOverflow (staged n s), ?_, ?_, hnew, hold⟩
    · rw [exec_write_fits h.quiet hq hn hfit, hfault]
    · rw [hbusy]
      rfl

end Sys2Proof.Machine
end

section
/-! SUPPORT. READ on a quiet block in READY (44_engine_commands.md R310 to R313): the samples it moves, and the zeros
it gives when it finds too few. -/

namespace Sys2Proof.Machine

theorem readEffect_moves {n : Nat} {s : State} (h : n ≤ s.outIx.avail) :
    readEffect n s = { stageOutput n (rbSample s) (rbAdvance n s) with underflow := false } :=
  if_neg (Nat.not_lt_of_le h)

theorem readEffect_underflows {n : Nat} {s : State} (h : s.outIx.avail < n) :
    readEffect n s = { stageOutput n (fun _ _ _ => posZero) s with
      underflow := true, sticky := { s.sticky with underflow := true } } :=
  if_pos h

/-- Settles O37: the staged words are the samples at the read cursor, which then moves past them. -/
theorem readReturnsTheOldestSamples : Obligations.ReadReturnsTheOldestSamples := by
  unfold Obligations.ReadReturnsTheOldestSamples
  intro n s h hq hn havail
  have hbusy : s.busy = false := h.quiet.1
  have hJ : s.J ≤ s.build.outMax := (h.active (by simp [hq])).2.outputs_ok.2
  have hcap : n ≤ s.Cout := havail.trans (h.outRing (by simp [hq])).avail_le
  rw [exec_read h.quiet hq hn hcap, readEffect_moves (s := { s with busy := true }) havail]
  refine ⟨_, rfl, ?_, fun j c f hj hc hf => ?_, fun off ho => ?_⟩
  · rw [hbusy]
    rfl
  · exact stageOutput_wordAt (s := rbAdvance n { s with busy := true }) h.build_valid hn hJ hj hc hf
  · exact stageOutput_byteAt (s := rbAdvance n { s with busy := true }) ho

/-- Settles O38: the staged words are `+0.0`, and the rings stay. -/
theorem underflowingReadReturnsZeros : Obligations.UnderflowingReadReturnsZeros := by
  unfold Obligations.UnderflowingReadReturnsZeros
  intro n s h hq hn hcap hlt
  have hbusy : s.busy = false := h.quiet.1
  have hJ : s.J ≤ s.build.outMax := (h.active (by simp [hq])).2.outputs_ok.2
  rw [exec_read h.quiet hq hn hcap, readEffect_underflows (s := { s with busy := true }) hlt]
  refine ⟨_, rfl, ?_, fun j c f hj hc hf => ?_, fun off ho => ?_⟩
  · rw [hbusy]
    rfl
  · exact stageOutput_wordAt (s := { s with busy := true }) h.build_valid hn hJ hj hc hf
  · exact stageOutput_byteAt (s := { s with busy := true }) ho

end Sys2Proof.Machine
end

section
/-! SUPPORT. One frame, sample by sample: what ORB_READ and ANALYZE leave in SPEC_IN, what the block's own transform
step leaves in SPEC_OUT, and what FRAME_TAIL leaves in the output rings and the tails (43_fft_analyzer.md R256 to
R263; 45_transform.md R340). -/

namespace Sys2Proof.Machine

/-! ### Where the elements of a running stream lie (20_memory.md R122, R124) -/

/-- The eight bytes of a spectrum element lie in one region. -/
theorem regionOf_specByte {bd : Build} {r : Region} {u c k i : Nat}
    (hr : regionOf (specOff bd r u c k) = some r) (hi : i < 8) : regionOf (specOff bd r u c k + i) = some r := by
  by_contra hout
  have := outside_spec hr hout
  omega

/-- A spectrum element is read alike when only another region changes. -/
theorem c32At_of_outside {s t : State} {bd : Build} {r r' : Region} {u c k : Nat}
    (hr : regionOf (specOff bd r u c k) = some r) (hne : r ≠ r')
    (h : ∀ off, regionOf off ≠ some r' → t.byteAt off = s.byteAt off) :
    t.c32At (specOff bd r u c k) = s.c32At (specOff bd r u c k) :=
  c32At_congr fun i hi => h _ (by
    rw [regionOf_specByte hr hi]
    exact fun e => hne (Option.some.inj e))

/-- A complex element is read alike where the memory is the same. -/
theorem c32At_of_mem {s t : State} (hm : t.mem = s.mem) (he : t.epoch = s.epoch) (off : Nat) :
    t.c32At off = s.c32At off :=
  c32At_congr fun _ _ => State.byteAt_congr (by rw [hm]) he

/-- A table entry is the same in both states. -/
theorem SameTables.wordAt_tableOff {s t : State} (h : SameTables s t) (hb : s.build.Valid) {r : Region}
    (hr : isTable r) (hro : regionReadOnly r = true) {n : Nat} (hn : n < s.build.nMax) :
    t.wordAt (tableOff r n) = s.wordAt (tableOff r n) :=
  State.wordAt_congr fun _ hi => h _ r (regionOf_lane (tableOff_mod r n) hi (regionOf_tableOff hb hr hn)) hro

theorem Streaming.bounds {s : State} (h : Streaming s) : Bounds s := h.active.bounds h.build_valid

theorem Streaming.regionOf_specIn {s : State} (h : Streaming s) {u c k : Nat} (hu : u < s.I) (hc : c < s.C)
    (hk : k < s.K) : regionOf (specOff s.build .specIn u c k) = some .specIn :=
  Machine.regionOf_specIn h.build_valid (hu.trans_le h.active.inputs_ok.2) (hc.trans_le s.C_le)
    (hk.trans_le h.bounds.K_le)

theorem Streaming.regionOf_specOut {s : State} (h : Streaming s) {j c k : Nat} (hj : j < s.J) (hc : c < s.C)
    (hk : k < s.K) : regionOf (specOff s.build .specOut j c k) = some .specOut :=
  Machine.regionOf_specOut h.build_valid (hj.trans_le h.active.outputs_ok.2) (hc.trans_le s.C_le)
    (hk.trans_le h.bounds.K_le)

/-- The bounds are a matter of the active registers and the parameters. -/
theorem Bounds.congr {s t : State} (h : Bounds s) (ha : t.act = s.act) (hb : t.build = s.build) : Bounds t := by
  have e : t = { t with act := s.act, build := s.build } := by rw [← ha, ← hb]
  rw [e]
  exact { h with }

/-! ### The head of a frame (44_engine_commands.md R298, R299) -/

/-- Bin k of the forward transform of the next window of stream u, channel c (43_fft_analyzer.md R256). -/
def windowBin (s : State) (u c k : Nat) : C32 :=
  Config.fftFwd s.N
    ((List.range s.N).map fun i =>
      fmul (Config.nanDraw (s.draws + 1) (.analyze u c i)) (orbSample s u c i) (s.wordAt (tableOff .actA i))) k

theorem windowed_orbRead {s : State} (hN : s.N ≤ s.build.nMax) {u c : Nat} (hu : u < s.I) (hc : c < s.C) :
    windowed (orbRead s) u c = (List.range s.N).map fun i =>
      fmul (Config.nanDraw (s.draws + 1) (.analyze u c i)) (orbSample s u c i) (s.wordAt (tableOff .actA i)) :=
  List.map_congr_left fun i hi =>
    congrArg (fun x => fmul _ x (s.wordAt (tableOff .actA i))) (orbRead_tbAt hN hu hc (List.mem_range.1 hi))

/-- The head of a frame leaves the transforms of the window in SPEC_IN. -/
theorem frameHead_c32At {s : State} (h : Streaming s) {u c k : Nat} (hu : u < s.I) (hc : c < s.C) (hk : k < s.K) :
    (frameHead s).c32At (specOff s.build .specIn u c k) = windowBin s u c k := by
  have hbin : (frameHead s).c32At (specOff s.build .specIn u c k) = analyzedBin (orbRead s) u c k :=
    analyzeAll_c32At (s := orbRead s) h.build_valid h.bounds.K_le h.active.inputs_ok.2 hu hc hk
  rw [hbin, analyzedBin, windowed_orbRead h.bounds.N_le hu hc]
  rfl

/-- The head of a frame writes no RAM but the active elements of SPEC_IN. -/
theorem frameHead_byteAt {s : State} {off : Nat} (h : ∀ u c k, u < s.I → c < s.C → k < s.K →
    off < specOff s.build .specIn u c k ∨ specOff s.build .specIn u c k + 8 ≤ off) :
    (frameHead s).byteAt off = s.byteAt off :=
  byteAt_specSweep (s := orbRead s) (t := frameHead s) rfl rfl h

theorem frameHead_byteAt_of_region {s : State} (h : Streaming s) {off : Nat} (ho : regionOf off ≠ some .specIn) :
    (frameHead s).byteAt off = s.byteAt off :=
  frameHead_byteAt fun _ _ _ hu hc hk => outside_spec (h.regionOf_specIn hu hc hk) ho

/-! ### The block's own transform step (45_transform.md R340, R342) -/

/-- The copy writes no RAM but the active elements of stream 0 of SPEC_OUT. -/
theorem identityCopy_byteAt_of_outside {s : State} {off : Nat} (h : ∀ c k, c < s.C → k < s.K →
    off < specOff s.build .specOut 0 c k ∨ specOff s.build .specOut 0 c k + 8 ≤ off) :
    (identityCopy s).byteAt off = s.byteAt off :=
  byteAt_specSweep (s := s) (t := identityCopy s) (a := 1) (b := s.C) rfl rfl fun u c k hu => by
    obtain rfl : u = 0 := Nat.lt_one_iff.1 hu
    exact h c k

theorem identityCopy_c32At_specIn {s : State} (h : Streaming s) {u c k : Nat} (hu : u < s.I) (hc : c < s.C)
    (hk : k < s.K) :
    (identityCopy s).c32At (specOff s.build .specIn u c k) = s.c32At (specOff s.build .specIn u c k) :=
  c32At_of_outside (h.regionOf_specIn hu hc hk) (by decide) fun _ ho =>
    identityCopy_byteAt h.build_valid h.bounds.K_le ho

/-- After the copy, stream 0 of SPEC_OUT is stream 0 of SPEC_IN. -/
theorem identityCopy_c32At_stream0 {s : State} (h : Streaming s) {c k : Nat} (hc : c < s.C) (hk : k < s.K) :
    (identityCopy s).c32At (specOff s.build .specOut 0 c k) =
      (identityCopy s).c32At (specOff s.build .specIn 0 c k) := by
  rw [identityCopy_c32At h.build_valid h.bounds.K_le hc hk, identityCopy_c32At_specIn h h.active.inputs_ok.1 hc hk]

/-- The bytes of an element of another stream are outside stream 0. -/
theorem specByte_outside_stream0 {bd : Build} {r : Region} {j c k c' k' i : Nat} (hj : 0 < j) (hc : c < 255)
    (hk : k < bd.nMax / 2 + 1) (hc' : c' < 255) (hk' : k' < bd.nMax / 2 + 1) (hi : i < 8) :
    specOff bd r j c k + i < specOff bd r 0 c' k' ∨ specOff bd r 0 c' k' + 8 ≤ specOff bd r j c k + i := by
  have hne : specOff bd r j c k ≠ specOff bd r 0 c' k' := fun he => by
    have := (specOff_inj hc hc' hk hk' he).1
    omega
  have := specOff_mod bd r j c k
  have := specOff_mod bd r 0 c' k'
  omega

/-- The copy leaves the other streams of SPEC_OUT alone. -/
theorem identityCopy_c32At_other {s : State} (hK : s.K ≤ s.build.nMax / 2 + 1) {j c k : Nat} (hj : 0 < j)
    (hc : c < s.C) (hk : k < s.K) :
    (identityCopy s).c32At (specOff s.build .specOut j c k) = s.c32At (specOff s.build .specOut j c k) :=
  c32At_congr fun _ hi => identityCopy_byteAt_of_outside fun _ _ hc' hk' =>
    specByte_outside_stream0 hj (hc.trans_le s.C_le) (hk.trans_le hK) (hc'.trans_le s.C_le) (hk'.trans_le hK) hi

/-! ### FRAME_TAIL (43_fft_analyzer.md R257 to R263; 44_engine_commands.md R305, R306) -/

/-- Entry i of the overlap-add of the stored tail and the weighted inverse transform of SPEC_OUT
(43_fft_analyzer.md R257). -/
def synthesized (s : State) (j c i : Nat) : F32 :=
  fadd (s.nan (.synthAdd j c i)) (synthBase s j c i)
    (fmul (s.nan (.synthMul j c i)) (inverseSample s j c i) (s.wordAt (tableOff .effsyn i)))

/-- From s to t the hop samples `val` are appended to every output ring, the rest of `val` is the new tail, and
every other ring position is as before. -/
structure EmitsHop (s t : State) (val : Nat → Nat → Nat → F32) : Prop where
  new : ∀ j c f, j < s.J → c < s.C → f < s.hop → t.ringOutAt j c ((s.outIx.wr + f) % s.Cout) = val j c f
  tails : ∀ j c i, j < s.J → c < s.C → i < s.N - s.hop → t.tailAt j c i = val j c (s.hop + i)
  kept : ∀ j c i, j < s.J → c < s.C → i < s.Cout → (∀ f, f < s.hop → i ≠ (s.outIx.wr + f) % s.Cout) →
    t.ringOutAt j c i = s.ringOutAt j c i

/-- It is a matter of the output rings and the tails alone. -/
theorem EmitsHop.congr {s t u : State} {val : Nat → Nat → Nat → F32} (h : EmitsHop s t val)
    (hr : u.ringOut = t.ringOut) (ht : u.tail = t.tail) (hb : u.build = t.build) (he : u.epoch = t.epoch) :
    EmitsHop s u val := by
  have hring : ∀ j c i, u.ringOutAt j c i = t.ringOutAt j c i := fun j c i => by
    simp only [State.ringOutAt, State.cell, hr, hb, he]
  have htail : ∀ j c i, u.tailAt j c i = t.tailAt j c i := fun j c i => by
    simp only [State.tailAt, State.cell, ht, hb, he]
  exact ⟨fun j c f hj hc hf => (hring _ _ _).trans (h.new j c f hj hc hf),
    fun j c i hj hc hi => (htail _ _ _).trans (h.tails j c i hj hc hi),
    fun j c i hj hc hi hne => (hring _ _ _).trans (h.kept j c i hj hc hi hne)⟩

/-- Only the first N entries of the result matter. -/
theorem EmitsHop.congr_val {s t : State} {val val' : Nat → Nat → Nat → F32} (h : EmitsHop s t val)
    (hhop : s.hop ≤ s.N) (hval : ∀ j c i, i < s.N → val j c i = val' j c i) : EmitsHop s t val' :=
  ⟨fun j c f hj hc hf => (h.new j c f hj hc hf).trans (hval j c f (by omega)),
    fun j c i hj hc hi => (h.tails j c i hj hc hi).trans (hval j c (s.hop + i) (by omega)), h.kept⟩

/-- The results of a frame. -/
theorem synthesizeAll_resAt_eq {s : State} (hN : s.N ≤ s.build.nMax) {j c i : Nat} (hj : j < s.J) (hc : c < s.C)
    (hi : i < s.N) : (synthesizeAll s).resAt j c i = synthesized s j c i :=
  (synthesizeAll_resAt hN hj hc hi).trans (synthResult_inverseAll hN hj hc hi)

/-- SYNTHESIZE changes no ring. -/
theorem synthesizeAll_ringOutAt (s : State) (j c i : Nat) :
    (synthesizeAll s).ringOutAt j c i = s.ringOutAt j c i := by
  simp only [State.ringOutAt, State.cell, synthesizeAll_ringOut, synthesizeAll_build, synthesizeAll_epoch]

/-- The emission puts the results at the next hop positions. -/
theorem emitHop_ringOutAt {s : State} (hs : Bounds s) {j c f : Nat} (hj : j < s.J) (hc : c < s.C) (hf : f < s.hop) :
    (emitHop s).ringOutAt j c ((s.outIx.wr + f) % s.Cout) = s.resAt j c f := by
  have hcap : s.hop ≤ s.Cout := by have := hs.Cout_ge; omega
  exact rbWrite_ringOutAt hcap hs.Cout_le hj hc hf

/-- FRAME_TAIL emits what SYNTHESIZE makes of SPEC_OUT. -/
theorem emitsHop_frameTail {s : State} (hs : Bounds s) : EmitsHop s (frameTail s) (synthesized s) := by
  have hact : (synthesizeAll s).act = s.act := synthesizeAll_act s
  have hsyn : Bounds (synthesizeAll s) := hs.congr hact (synthesizeAll_build s)
  have hring : ∀ j c i, (frameTail s).ringOutAt j c i = (emitHop (synthesizeAll s)).ringOutAt j c i :=
    fun _ _ _ => rfl
  have htail : ∀ j c i, (frameTail s).tailAt j c i = (synthesizeAll s).tailAt j c i := fun _ _ _ => rfl
  have hJ : (synthesizeAll s).J = s.J := State.J_of_act hact
  have hC : (synthesizeAll s).C = s.C := State.C_of_act hact
  have hhop : (synthesizeAll s).hop = s.hop := State.hop_of_act hact
  have hCout : (synthesizeAll s).Cout = s.Cout := State.Cout_of_act hact
  refine ⟨fun j c f hj hc hf => ?_, fun j c i hj hc hi => ?_, fun j c i hj hc hi hne => ?_⟩
  · have hemit := emitHop_ringOutAt hsyn (hJ.symm ▸ hj) (hC.symm ▸ hc) (hhop.symm ▸ hf)
    rw [synthesizeAll_outIx, hCout] at hemit
    rw [hring, hemit, synthesizeAll_resAt_eq hs.N_le hj hc (hf.trans_le hs.hop_le)]
  · rw [htail, synthesizeAll_tailAt hs.N_le hs.hop_le hj hc hi, synthResult_inverseAll hs.N_le hj hc (by omega)]
    rfl
  · have hother : (emitHop (synthesizeAll s)).ringOutAt j c i = (synthesizeAll s).ringOutAt j c i := by
      refine rbWrite_ringOutAt_other hsyn.Cout_le (hC.symm ▸ hc) (hCout.symm ▸ hi) ?_
      rw [synthesizeAll_outIx, hCout, hhop]
      exact hne
    rw [hring, hother, synthesizeAll_ringOutAt]

/-- What FRAME_TAIL leaves unchanged, and what it counts. -/
theorem frameTail_eq (s : State) : frameTail s = { s with
    ringOut := (frameTail s).ringOut, tail := (frameTail s).tail, y := (frameTail s).y, res := (frameTail s).res,
    outIx := { s.outIx with wr := (s.outIx.wr + s.hop) % s.Cout, avail := s.outIx.avail + s.hop },
    frameCount := s.frameCount + 1#32, lastFrames := s.lastFrames + 1#32 } := by
  ext1
  case ringOut | tail | y | res => rfl
  all_goals simp

end Sys2Proof.Machine
end

section
/-! SUPPORT. The pause of a frame in EXTERNAL and INPLACE mode and its resumption by XDONE (45_transform.md R341 to
R346). -/

namespace Sys2Proof.Machine

/-! ### The pause (45_transform.md R341 to R343) -/

/-- The spectra of t are those of the next window of s, ready for the agent, and every other RAM byte is as in s. -/
structure Analyses (s t : State) : Prop where
  specIn : ∀ u c k, u < s.I → c < s.C → k < s.K → t.c32At (specOff s.build .specIn u c k) = windowBin s u c k
  external : s.tmode = .external → ∀ off, regionOf off = some .specOut → t.byteAt off = s.byteAt off
  inplace : s.tmode = .inplace → ∀ c k, c < s.C → k < s.K →
    t.c32At (specOff s.build .specOut 0 c k) = t.c32At (specOff s.build .specIn 0 c k)
  ram : ∀ off,
    (∀ u c k, u < s.I → c < s.C → k < s.K →
      off < specOff s.build .specIn u c k ∨ specOff s.build .specIn u c k + 8 ≤ off) →
    (s.tmode = .inplace → ∀ c k, c < s.C → k < s.K →
      off < specOff s.build .specOut 0 c k ∨ specOff s.build .specOut 0 c k + 8 ≤ off) →
    t.byteAt off = s.byteAt off

/-- Two states with the same configuration, RAM and next window have the same spectra. -/
theorem Analyses.of_same {s r t : State} (h : Analyses s t) (ha : s.act = r.act) (hb : s.build = r.build)
    (hmem : ∀ off, s.byteAt off = r.byteAt off) (hwin : ∀ u c k, windowBin s u c k = windowBin r u c k) :
    Analyses r t := by
  obtain ⟨hspec, hext, hinp, hram⟩ := h
  rw [State.tmode_of_act ha] at hext hinp hram
  simp only [State.I_of_act ha, State.C_of_act ha, State.K_of_act ha, hb, hmem, hwin] at hspec hext hinp hram
  exact ⟨hspec, hext, hinp, hram⟩

/-- From s the block has taken its next window, analysed it, and paused in XWAIT: t is the state then. -/
structure Pauses (s t : State) : Prop extends Analyses s t where
  eq : t = { s with
    seq := .xwait, frameCtx := true, busy := false, mem := t.mem, tb := t.tb, draws := s.draws + 1,
    inIx := { s.inIx with rd := (s.inIx.rd + s.hop) % s.Cin, avail := s.inIx.avail - s.hop } }

/-- EXTERNAL leaves SPEC_OUT to the agent. -/
theorem pauses_external {s : State} (h : Streaming s) (hm : s.tmode = .external) :
    Pauses s (xwaitEnter (frameHead s)) where
  eq := rfl
  specIn _ _ _ hu hc hk := frameHead_c32At h hu hc hk
  external _ off ho := frameHead_byteAt_of_region h (by simp [ho])
  inplace hc := by simp [hm] at hc
  ram _ hin _ := frameHead_byteAt hin

/-- INPLACE gives the agent a copy of SPEC_IN in SPEC_OUT. -/
theorem pauses_inplace {s : State} (h : Streaming s) (hm : s.tmode = .inplace) :
    Pauses s (xwaitEnter (identityCopy (frameHead s))) where
  eq := rfl
  specIn _ _ _ hu hc hk :=
    (identityCopy_c32At_specIn h.frameHead hu hc hk).trans (frameHead_c32At h hu hc hk)
  external hc := by simp [hm] at hc
  inplace _ _ _ hc hk := identityCopy_c32At_stream0 h.frameHead hc hk
  ram _ hin hout := (identityCopy_byteAt_of_outside (s := frameHead s) (hout hm)).trans (frameHead_byteAt hin)

/-- Outside IDENTITY mode a frame that has its window and its room pauses. -/
theorem pauses_frameLoop {s : State} (h : Streaming s) (hm : s.tmode ≠ .identity) (hwin : s.N ≤ s.inIx.avail)
    (hroom : s.outIx.avail + s.hop ≤ s.Cout) (fuel : Nat) : Pauses s (frameLoop (fuel + 1) s) := by
  cases hmode : s.tmode with
  | identity => exact absurd hmode hm
  | external =>
    rw [frameLoop_external h.overlap h.transit hmode hwin hroom]
    exact pauses_external h hmode
  | inplace =>
    rw [frameLoop_inplace h.overlap h.transit hmode hwin hroom]
    exact pauses_inplace h hmode
  | reserved => exact absurd hmode h.active.mode_ok

/-! ### WRITE up to its first pause -/

theorem Streaming.staged {s : State} (h : Streaming s) (n : Nat) : Streaming (staged n s) := h.update rfl rfl rfl rfl

/-- The samples after the append are those held, then the staged ones. -/
theorem orbSample_staged {s : State} (hs : Bounds s) (hix : RingOk s.inIx s.Cin) {n : Nat}
    (hfit : s.inIx.avail + n ≤ s.Cin) {u c i : Nat} (hu : u < s.I) (hc : c < s.C) (hi : i < s.inIx.avail + n) :
    orbSample (staged n s) u c i = incoming s u c i := by
  unfold incoming
  split
  · exact orbSample_orbWrite_held (s := startCount { s with busy := true }) hs.Cin_le hix hfit hc ‹_›
  · obtain ⟨f, rfl⟩ := Nat.exists_eq_add_of_le (Nat.le_of_not_lt ‹_›)
    rw [Nat.add_sub_cancel_left]
    exact orbSample_orbWrite_new (s := startCount { s with busy := true }) hs.Cin_le hix hfit hu hc
      (Nat.lt_of_add_lt_add_left hi)

/-- The first window after the append. -/
theorem windowBin_staged {s : State} (hs : Bounds s) (hix : RingOk s.inIx s.Cin) {n : Nat}
    (hwin : s.N ≤ s.inIx.avail + n) (hfit : s.inIx.avail + n ≤ s.Cin) {u c : Nat} (hu : u < s.I) (hc : c < s.C)
    (k : Nat) :
    windowBin (staged n s) u c k = Config.fftFwd s.N
      ((List.range s.N).map fun i =>
        fmul (Config.nanDraw (s.draws + 1) (.analyze u c i)) (incoming s u c i) (s.wordAt (tableOff .actA i))) k := by
  have hsample : ∀ i ∈ List.range s.N, orbSample (staged n s) u c i = incoming s u c i := fun i hi =>
    orbSample_staged hs hix hfit hu hc ((List.mem_range.1 hi).trans_le hwin)
  exact congrArg (Config.fftFwd s.N · k)
    (List.map_congr_left fun i hi => congrArg (fmul _ · (s.wordAt (tableOff .actA i))) (hsample i hi))

/-- Settles O33: the samples are appended, and the first frame pauses. -/
theorem writePausesForTheTransformAgent : Obligations.WritePausesForTheTransformAgent := by
  unfold Obligations.WritePausesForTheTransformAgent
  intro n s h hq hmode hn hwin hfit hroom
  have hs : Streaming s := h.streaming (by simp [hq])
  have hbusy : s.busy = false := h.quiet.1
  have hm : s.tmode ≠ .identity := by rcases hmode with hm | hm <;> simp [hm]
  have hpause : Pauses (staged n s) (runFrames (staged n s)) := pauses_frameLoop (hs.staged n) hm hwin hroom _
  generalize ht : runFrames (staged n s) = t at hpause
  obtain ⟨⟨hspec, hext, hinp, hram⟩, heq⟩ := hpause
  have hring : t.ringIn = (staged n s).ringIn := by rw [heq]
  obtain ⟨hnew, hold⟩ := (holdsStaged_staged hs.bounds hfit).congr hring (by rw [heq]) (by rw [heq])
  refine ⟨t, ?_, ?_, hnew, hold, fun u c k hu hc hk => ?_, hext, hinp, hram⟩
  · rw [exec_write_fits h.quiet hq hn hfit, ht]
  · rw [hring, hbusy]
    exact heq
  · exact (hspec u c k hu hc hk).trans
      (windowBin_staged hs.bounds (h.inRing (by simp [hq])) hwin hfit hu hc k)

/-! ### XDONE (45_transform.md R345) -/

/-- The block once XDONE has synthesised, emitted and counted the paused frame. -/
def resumed (s : State) : State := frameTail (leaveXwait s)

theorem exec_xdone {s : State} (h : Quiet s) (hq : s.seq = .xwait) (a : Nat) :
    exec (.xdone a) s = .next (runFrames (resumed s)) := by
  obtain ⟨hbusy, hov, htr⟩ := h
  have haccept : accepts s.seq (.xdone a) = true := decide_eq_true hq
  exact (exec_accepted (rejection_none hbusy haccept rfl)).trans (congrArg _ (runXdone_nil hov htr))

theorem resumed_eq (s : State) : resumed s = { s with
    seq := .ready, frameCtx := false, busy := true, ringOut := (resumed s).ringOut, tail := (resumed s).tail,
    y := (resumed s).y, res := (resumed s).res,
    outIx := { s.outIx with wr := (s.outIx.wr + s.hop) % s.Cout, avail := s.outIx.avail + s.hop },
    frameCount := s.frameCount + 1#32, lastFrames := s.lastFrames + 1#32 } :=
  frameTail_eq (leaveXwait s)

theorem resumed_act (s : State) : (resumed s).act = s.act := frameTail_act (leaveXwait s)

theorem Streaming.resumed {s : State} (h : Streaming s) : Streaming (resumed s) :=
  Streaming.frameTail (s := leaveXwait s) (h.update rfl rfl rfl rfl)

/-- The paused frame is synthesised from the state XDONE finds. -/
theorem emitsHop_resumed {s : State} (hs : Bounds s) : EmitsHop s (resumed s) (synthesized s) := by
  obtain ⟨hnew, htails, hkept⟩ := emitsHop_frameTail (s := leaveXwait s) (hs.congr rfl rfl)
  exact ⟨hnew, htails, hkept⟩

/-- Settles O34: the paused frame is emitted, and the loop finds no window. -/
theorem xdoneSynthesizesThePausedFrame : Obligations.XdoneSynthesizesThePausedFrame := by
  unfold Obligations.XdoneSynthesizesThePausedFrame
  intro a s h hq hlt
  have hs : Bounds s := (h.streaming (by simp [hq])).bounds
  have hbusy : s.busy = false := h.quiet.1
  have hrun : runFrames (resumed s) = completeCmd (resumed s) := frameLoop_complete (by
    rw [State.N_of_act (resumed_act s), resumed_eq]
    exact hlt)
  obtain ⟨hnew, htails, hkept⟩ := (emitsHop_resumed hs).congr (u := completeCmd (resumed s)) rfl rfl rfl rfl
  refine ⟨completeCmd (resumed s), ?_, ?_, hnew, htails, hkept⟩
  · rw [exec_xdone h.quiet hq, hrun]
  · rw [hbusy]
    exact congrArg completeCmd (resumed_eq s)

/-! ### XDONE with a further window (45_transform.md R346) -/

/-- FRAME_TAIL leaves the next window as it is. -/
theorem windowBin_frameTail (s : State) (u c k : Nat) : windowBin (frameTail s) u c k = windowBin s u c k := by
  have hact : (frameTail s).act = s.act := frameTail_act s
  have hsample : ∀ i, orbSample (frameTail s) u c i = orbSample s u c i := fun i => by
    simp only [orbSample, State.ringInAt, State.cell, State.Cin_of_act hact, frameTail_inIx, frameTail_ringIn,
      frameTail_build, frameTail_epoch]
  have hword : ∀ off, (frameTail s).wordAt off = s.wordAt off := fun off =>
    State.wordAt_congr fun _ _ => State.byteAt_congr (by rw [frameTail_mem]) (frameTail_epoch s)
  simp only [windowBin, State.N_of_act hact, frameTail_draws, hsample, hword]

section
variable {s : State} (h : Streaming s) (hwin : s.N ≤ s.inIx.avail)
include h hwin

theorem pauses_resumed (hm : s.tmode ≠ .identity) (hroom : s.outIx.avail + 2 * s.hop ≤ s.Cout) :
    Pauses (resumed s) (runFrames (resumed s)) := by
  refine pauses_frameLoop h.resumed ?_ ?_ ?_ _
  · rw [State.tmode_of_act (resumed_act s)]
    exact hm
  · rw [State.N_of_act (resumed_act s), resumed_eq]
    exact hwin
  · rw [State.hop_of_act (resumed_act s), State.Cout_of_act (resumed_act s), resumed_eq]
    dsimp only
    omega

theorem runFrames_resumed_faults (hroom : s.Cout < s.outIx.avail + 2 * s.hop) :
    runFrames (resumed s) = raiseFault .outOverflow (resumed s) := by
  refine frameLoop_fault h.resumed.overlap h.resumed.transit ?_ ?_
  · rw [State.N_of_act (resumed_act s), resumed_eq]
    exact hwin
  · rw [State.hop_of_act (resumed_act s), State.Cout_of_act (resumed_act s), resumed_eq]
    dsimp only
    omega

end

/-- Settles O35: the paused frame is emitted and counted; then the next one pauses, or it has no room. -/
theorem xdoneContinuesTheFrameLoop : Obligations.XdoneContinuesTheFrameLoop := by
  unfold Obligations.XdoneContinuesTheFrameLoop
  intro a s h hq hm hwin
  have hs : Streaming s := h.streaming (by simp [hq])
  have hbusy : s.busy = false := h.quiet.1
  have hcause : s.faultCode = .none := by_contra fun hc => by simpa [hq] using h.cause.1 hc
  have hemit : EmitsHop s (resumed s) (synthesized s) := emitsHop_resumed hs.bounds
  have hram : ∀ off, (resumed s).byteAt off = s.byteAt off := fun _ =>
    State.byteAt_congr (by rw [resumed_eq]) (by rw [resumed_eq])
  refine ⟨runFrames (resumed s), exec_xdone h.quiet hq a, ?_⟩
  by_cases hroom : s.outIx.avail + 2 * s.hop ≤ s.Cout
  · have hpause := pauses_resumed hs hwin hm hroom
    generalize runFrames (resumed s) = t at hpause
    obtain ⟨hspectra, heq⟩ := hpause
    obtain ⟨hspec, hext, hinp, hother⟩ := hspectra.of_same (resumed_act s) (by rw [resumed_eq]) hram
      (windowBin_frameTail (leaveXwait s))
    obtain ⟨hnew, htails, hkept⟩ :=
      hemit.congr (u := t) (by rw [heq]) (by rw [heq]) (by rw [heq]) (by rw [heq])
    rw [resumed_eq] at heq
    refine ⟨?_, hnew, htails, hkept, fun _ => ⟨?_, ?_, ?_, ?_, ?_, hspec, hext, hinp, hother⟩,
      fun hover => absurd hroom (Nat.not_le_of_lt hover)⟩
    · rw [hbusy, heq]
    · rw [heq]
    · rw [heq]
    · rw [heq]
      exact hcause
    · rw [heq]
    · rw [heq]
      rfl
  · have hfault := runFrames_resumed_faults hs hwin (Nat.lt_of_not_le hroom)
    obtain ⟨hnew, htails, hkept⟩ :=
      hemit.congr (u := raiseFault .outOverflow (resumed s)) rfl rfl rfl rfl
    rw [hfault]
    refine ⟨?_, hnew, htails, hkept, fun hfits => absurd hfits hroom, fun _ =>
      ⟨rfl, frameTail_frameCtx _, rfl, frameTail_draws _, frameTail_inIx _, hram⟩⟩
    rw [hbusy, resumed_eq]
    rfl

end Sys2Proof.Machine
end

section
/-! SUPPORT. The samples of an IDENTITY WRITE of one frame (45_transform.md R340; 43_fft_analyzer.md R256, R257). -/

namespace Sys2Proof.Machine

/-! ### One frame in IDENTITY mode, sample by sample -/

/-- The block between the copy and FRAME_TAIL of an IDENTITY frame. -/
def transformed (s : State) : State := identityCopy (frameHead s)

theorem Streaming.transformed {s : State} (h : Streaming s) : Streaming (transformed s) := h.frameHead.identityCopy

theorem identityFrame_c32At (s : State) (off : Nat) : (identityFrame s).c32At off = (transformed s).c32At off :=
  c32At_of_mem (frameTail_mem _) (frameTail_epoch _) off

section
variable {s : State} (h : Streaming s)
include h

theorem transformed_c32At_specIn {u c k : Nat} (hu : u < s.I) (hc : c < s.C) (hk : k < s.K) :
    (transformed s).c32At (specOff s.build .specIn u c k) = windowBin s u c k :=
  (identityCopy_c32At_specIn h.frameHead hu hc hk).trans (frameHead_c32At h hu hc hk)

theorem transformed_c32At_stream0 {c k : Nat} (hc : c < s.C) (hk : k < s.K) :
    (transformed s).c32At (specOff s.build .specOut 0 c k) =
      (transformed s).c32At (specOff s.build .specIn 0 c k) :=
  identityCopy_c32At_stream0 h.frameHead hc hk

theorem transformed_c32At_other {j c k : Nat} (hj : 0 < j) (hjJ : j < s.J) (hc : c < s.C) (hk : k < s.K) :
    (transformed s).c32At (specOff s.build .specOut j c k) = s.c32At (specOff s.build .specOut j c k) :=
  (identityCopy_c32At_other (s := frameHead s) h.bounds.K_le hj hc hk).trans
    (c32At_of_outside (h.regionOf_specOut hjJ hc hk) (by decide) fun _ ho => frameHead_byteAt_of_region h ho)

/-- The synthesis of the frame is from the spectra the copy leaves and the tails and the window of s. -/
theorem synthesized_transformed {j c i : Nat} (hi : i < s.N) :
    synthesized (transformed s) j c i =
      fadd (Config.nanDraw (s.draws + 1) (.synthAdd j c i)) (if i < s.N - s.hop then s.tailAt j c i else 0#32)
        (fmul (Config.nanDraw (s.draws + 1) (.synthMul j c i))
          (Config.fftBwd s.N ((List.range s.K).map fun k =>
            (transformed s).c32At (specOff s.build .specOut j c k)) i)
          (s.wordAt (tableOff .effsyn i))) := by
  have hword : (transformed s).wordAt (tableOff .effsyn i) = s.wordAt (tableOff .effsyn i) :=
    ((sameTables_frameHead h).trans (sameTables_identityCopy h.frameHead)).wordAt_tableOff h.build_valid
      (by decide) rfl (hi.trans_le h.bounds.N_le)
  rw [synthesized, hword]
  rfl

theorem emitsHop_identityFrame : EmitsHop s (identityFrame s) (synthesized (transformed s)) := by
  obtain ⟨hnew, htails, hkept⟩ := emitsHop_frameTail h.transformed.bounds
  exact ⟨hnew, htails, hkept⟩

end

/-- An IDENTITY WRITE of one window completes after one frame. -/
theorem exec_write_one_frame {n : Nat} {s : State} (h : Inv s) (hq : s.seq = .ready) (hm : s.tmode = .identity)
    (hn : n ≤ s.build.stageFrames) (hwin : s.N ≤ s.inIx.avail + n) (hlt : s.inIx.avail + n < s.N + s.hop)
    (hfit : s.inIx.avail + n ≤ s.Cin) (hroom : s.outIx.avail + s.hop ≤ s.Cout) :
    exec (.write n) s = .next (completeCmd (identityFrame (staged n s))) := by
  have hs : Streaming s := h.streaming (by simp [hq])
  have hN := hs.bounds.N_ge
  obtain ⟨fuel, hfuel⟩ : ∃ fuel, s.inIx.avail + n = fuel + 1 := ⟨s.inIx.avail + n - 1, by omega⟩
  have hframe : runFrames (staged n s) = frameLoop (s.inIx.avail + n) (identityFrame (staged n s)) :=
    frameLoop_identity (hs.staged n).overlap (hs.staged n).transit hm hwin hroom
  have hleft : (identityFrame (staged n s)).inIx.avail < (identityFrame (staged n s)).N := by
    rw [identityFrame_eq]
    show s.inIx.avail + n - s.hop < s.N
    omega
  rw [exec_write_fits h.quiet hq hn hfit, hframe, hfuel, frameLoop_complete hleft]

/-- Settles O31: the one frame is analysed, copied and synthesised after the append. -/
theorem identityWriteOfOneFrameReconstructs : Obligations.IdentityWriteOfOneFrameReconstructs := by
  unfold Obligations.IdentityWriteOfOneFrameReconstructs
  intro n s h hq hm hn hwin hlt hfit hroom
  have hs : Streaming s := h.streaming (by simp [hq])
  have hst : Streaming (staged n s) := hs.staged n
  have hspec : ∀ off, (completeCmd (identityFrame (staged n s))).c32At off = (transformed (staged n s)).c32At off :=
    identityFrame_c32At (staged n s)
  obtain ⟨hnew, htails, hkept⟩ := (emitsHop_identityFrame hst).congr_val hst.bounds.hop_le
    fun _ _ _ hi => synthesized_transformed hst hi
  refine ⟨_, exec_write_one_frame h hq hm hn hwin hlt hfit hroom, ?_⟩
  simp only [hspec]
  refine ⟨fun u c k hu hc hk => ?_, fun c k hc hk => transformed_c32At_stream0 hst hc hk,
    fun j c k hj hjJ hc hk => transformed_c32At_other hst hj hjJ hc hk, hnew, htails, hkept⟩
  exact (transformed_c32At_specIn hst hu hc hk).trans
    (windowBin_staged hs.bounds (h.inRing (by simp [hq])) hwin hfit hu hc k)

end Sys2Proof.Machine
end

section
/-! SUPPORT. INPLACE with an agent that issues XDONE at once equals IDENTITY (45_transform.md R342): no part of a
frame looks at the transform mode, and an XDONE at once goes on where the pause stopped. -/

namespace Sys2Proof.Machine

/-! ### No part of a WRITE but the loop looks at the mode -/

/-- The mask of `withIdentity` keeps the stream counts (10_state.md R52). -/
theorem withIdentity_I (s : State) : (withIdentity s).I = s.I := by
  have hmask : (0x0FFFF#18).extractLsb' 0 8 = BitVec.allOnes 8 := by decide
  show streamsIn (s.act.streams &&& 0x0FFFF#18) = streamsIn s.act.streams
  rw [streamsIn, BitVec.extractLsb'_and, hmask, BitVec.and_allOnes, streamsIn]

theorem withIdentity_J (s : State) : (withIdentity s).J = s.J := by
  have hmask : (0x0FFFF#18).extractLsb' 8 8 = BitVec.allOnes 8 := by decide
  show streamsOut (s.act.streams &&& 0x0FFFF#18) = streamsOut s.act.streams
  rw [streamsOut, BitVec.extractLsb'_and, hmask, BitVec.and_allOnes, streamsOut]

/-- It clears the two bits of the mode (10_state.md R53). -/
theorem withIdentity_tmode (s : State) : (withIdentity s).tmode = .identity := by
  have hmask : (0x0FFFF#18).extractLsb' 16 2 = 0#2 := by decide
  show streamsMode (s.act.streams &&& 0x0FFFF#18) = .identity
  rw [streamsMode, BitVec.extractLsb'_and, hmask, BitVec.and_zero]
  rfl

theorem staged_withIdentity (n : Nat) (s : State) : staged n (withIdentity s) = withIdentity (staged n s) := by
  have hI : (startCount { withIdentity s with busy := true }).I = s.I := withIdentity_I s
  rw [staged, appendStaged, orbWrite, hI]
  rfl

theorem orbRead_withIdentity (s : State) : orbRead (withIdentity s) = withIdentity (orbRead s) := by
  rw [orbRead, withIdentity_I]
  rfl

theorem analyzeAll_withIdentity (s : State) : analyzeAll (withIdentity s) = withIdentity (analyzeAll s) := by
  rw [analyzeAll, analysisWords, withIdentity_I]
  rfl

theorem identityCopy_withIdentity (s : State) : identityCopy (withIdentity s) = withIdentity (identityCopy s) := rfl

theorem inverseAll_withIdentity (s : State) : inverseAll (withIdentity s) = withIdentity (inverseAll s) := by
  rw [inverseAll, withIdentity_J]
  rfl

theorem overlapAddAll_withIdentity (s : State) : overlapAddAll (withIdentity s) = withIdentity (overlapAddAll s) := by
  rw [overlapAddAll, withIdentity_J]
  rfl

theorem storeTails_withIdentity (s : State) : storeTails (withIdentity s) = withIdentity (storeTails s) := by
  rw [storeTails, withIdentity_J]
  rfl

theorem emitHop_withIdentity (s : State) : emitHop (withIdentity s) = withIdentity (emitHop s) := by
  rw [emitHop, rbWrite, withIdentity_J]
  rfl

theorem countFrame_withIdentity (s : State) : countFrame (withIdentity s) = withIdentity (countFrame s) := rfl

/-- A whole frame does not look at the mode. -/
theorem identityFrame_withIdentity (s : State) : identityFrame (withIdentity s) = withIdentity (identityFrame s) := by
  simp only [identityFrame, frameHead, frameTail, synthesizeAll, orbRead_withIdentity, analyzeAll_withIdentity,
    identityCopy_withIdentity, inverseAll_withIdentity, overlapAddAll_withIdentity, storeTails_withIdentity,
    emitHop_withIdentity, countFrame_withIdentity]

/-! ### An XDONE at once (45_transform.md R345) -/

theorem xdoneAtOnce_succ {s t : State} (hq : s.seq = .xwait) (h : exec (.xdone 0) s = .next t) (k : Nat) :
    xdoneAtOnce (k + 1) s = xdoneAtOnce k t := by
  rw [xdoneAtOnce, hq]
  dsimp only
  rw [h]

/-- The block while a WRITE goes through its frames, with nothing to land. -/
structure Looping (s : State) : Prop extends Streaming s where
  busy : s.busy = true
  seq : s.seq = .ready
  context : s.frameCtx = false

theorem Looping.identityFrame {s : State} (h : Looping s) : Looping (identityFrame s) where
  toStreaming := h.frameHead.identityCopy.frameTail
  busy := by rw [identityFrame_eq]; exact h.busy
  seq := by rw [identityFrame_eq]; exact h.seq
  context := by rw [identityFrame_eq]; exact h.context

/-- XDONE on a frame just paused goes on with the frame as the loop left it. -/
theorem leaveXwait_xwaitEnter {s : State} (hb : s.busy = true) (hq : s.seq = .ready) (hc : s.frameCtx = false) :
    leaveXwait (xwaitEnter s) = s := by
  ext1
  case busy => exact hb.symm
  case seq => exact hq.symm
  case frameCtx => exact hc.symm
  all_goals rfl

/-- A frame that INPLACE pauses and an XDONE resumes is the frame of IDENTITY. -/
theorem xdone_paused {s : State} (h : Looping s) :
    exec (.xdone 0) (xwaitEnter (transformed s)) = .next (runFrames (identityFrame s)) := by
  have hs := h.toStreaming.transformed
  have hleave : leaveXwait (xwaitEnter (transformed s)) = transformed s :=
    leaveXwait_xwaitEnter h.busy h.seq h.context
  rw [exec_xdone (s := xwaitEnter (transformed s)) ⟨rfl, hs.overlap, hs.transit⟩ rfl, resumed, hleave]
  rfl

/-- The loop of IDENTITY, and the loop of INPLACE resumed at once at every pause, end alike. -/
theorem frameLoop_xdoneAtOnce (g : Nat) {s : State} (h : Looping s) (hm : s.tmode = .inplace)
    (hg : s.inIx.avail < g) (f : Nat) :
    ∃ k, (xdoneAtOnce k (frameLoop (f + 1) s)).seq ≠ .xwait ∧
      withIdentity (xdoneAtOnce k (frameLoop (f + 1) s)) = frameLoop g (withIdentity s) := by
  induction g generalizing s f with
  | zero => omega
  | succ g ih =>
    by_cases hwin : s.inIx.avail < s.N
    · refine ⟨0, ?_, ?_⟩
      · rw [frameLoop_complete hwin, xdoneAtOnce, completeCmd_seq, h.seq]
        decide
      · rw [frameLoop_complete hwin, frameLoop_complete (s := withIdentity s) hwin]
        rfl
    have hwin := Nat.le_of_not_lt hwin
    by_cases hroom : s.Cout < s.outIx.avail + s.hop
    · refine ⟨0, ?_, ?_⟩
      · rw [frameLoop_fault h.overlap h.transit hwin hroom]
        exact SeqState.noConfusion
      · rw [frameLoop_fault h.overlap h.transit hwin hroom,
          frameLoop_fault (s := withIdentity s) h.overlap h.transit hwin hroom]
        rfl
    have hroom := Nat.le_of_not_lt hroom
    have hpause : frameLoop (f + 1) s = xwaitEnter (transformed s) :=
      frameLoop_inplace h.overlap h.transit hm hwin hroom
    have hframe : frameLoop (g + 1) (withIdentity s) = frameLoop g (withIdentity (identityFrame s)) := by
      rw [← identityFrame_withIdentity]
      exact frameLoop_identity (s := withIdentity s) h.overlap h.transit (withIdentity_tmode s) hwin hroom
    have hless : (identityFrame s).inIx.avail < g := by
      have := h.bounds.hop_pos
      have := h.bounds.N_ge
      rw [identityFrame_eq]
      dsimp only
      omega
    have hmode : (identityFrame s).tmode = .inplace := by
      rw [identityFrame_eq]
      exact hm
    obtain ⟨k, hend, heq⟩ := ih h.identityFrame hmode hless (identityFrame s).inIx.avail
    have hresume : xdoneAtOnce (k + 1) (frameLoop (f + 1) s) = xdoneAtOnce k (runFrames (identityFrame s)) := by
      rw [hpause]
      exact xdoneAtOnce_succ rfl (xdone_paused h) k
    exact ⟨k + 1, by rw [hresume]; exact hend, by rw [hresume, hframe]; exact heq⟩

/-! ### The whole WRITE -/

theorem exec_write_rejected {s : State} (h : Quiet s) {n : Nat} (hq : s.seq = .ready) (hn : s.build.stageFrames < n) :
    exec (.write n) s = .next (rejectCmd .countRange s) := by
  have hbusy : s.busy = false := h.1
  refine exec_rejected ?_
  rw [rejection, hbusy, hq]
  exact if_pos hn

theorem exec_write_inOverflow {s : State} (h : Quiet s) {n : Nat} (hq : s.seq = .ready)
    (hn : n ≤ s.build.stageFrames) (hover : s.Cin < s.inIx.avail + n) :
    exec (.write n) s = .next (raiseFault .inOverflow (startCount { s with busy := true })) := by
  rw [exec_write h hq hn, if_pos hover]

theorem looping_staged {s : State} (h : Inv s) (hq : s.seq = .ready) (n : Nat) : Looping (staged n s) where
  toStreaming := (h.streaming (by simp [hq])).staged n
  busy := rfl
  seq := hq
  context := Bool.eq_false_iff.2 fun hc => by simpa [hq] using h.context.1 hc

/-- Settles O36: both modes reject or fault alike before the loop, and the loops end alike. -/
theorem inplaceUntouchedEqualsIdentity : Obligations.InplaceUntouchedEqualsIdentity := by
  unfold Obligations.InplaceUntouchedEqualsIdentity
  intro n s t h hq hm hrun
  have hquiet : Quiet (withIdentity s) := h.quiet
  by_cases hn : s.build.stageFrames < n
  · rw [exec_write_rejected hquiet hq hn] at hrun
    refine ⟨0, _, exec_write_rejected h.quiet hq hn, ?_, Host.Outcome.next.inj hrun⟩
    rw [xdoneAtOnce, rejectCmd_seq, hq]
    decide
  have hn := Nat.le_of_not_lt hn
  by_cases hover : s.Cin < s.inIx.avail + n
  · rw [exec_write_inOverflow hquiet hq hn hover] at hrun
    exact ⟨0, _, exec_write_inOverflow h.quiet hq hn hover, SeqState.noConfusion, Host.Outcome.next.inj hrun⟩
  have hfit := Nat.le_of_not_lt hover
  rw [exec_write_fits hquiet hq hn hfit, staged_withIdentity] at hrun
  obtain ⟨k, hend, heq⟩ :=
    frameLoop_xdoneAtOnce _ (looping_staged h hq n) hm (Nat.lt_succ_self _) (staged n s).inIx.avail
  exact ⟨k, _, exec_write_fits h.quiet hq hn hfit, hend, heq.trans (Host.Outcome.next.inj hrun)⟩

end Sys2Proof.Machine
end

section
/-! SUPPORT. The exceptional events of 60_exceptions.md as seen from outside: every command and every step ends in a
next state (R370, R394), the acceptance checks in their order (R385), the interrupt output (R381), refused bus
writes (R378), and what FAULT accepts (R377). -/

namespace Sys2Proof.Machine

/-! ### No stop (60_exceptions.md R370, R394) -/

theorem exec_next (i : Instr) (s : State) : ∃ t, exec i s = .next t := by
  rcases exec_cases i s with ⟨e, -, he⟩ | ⟨-, he⟩
  · exact ⟨_, he⟩
  · exact ⟨_, he⟩

theorem step_next (s : State) : ∃ t, step s = .next t := by
  rcases step_cases s with ⟨-, hidle⟩ | ⟨_, _, _, -, -, hserved⟩
  · exact ⟨_, hidle⟩
  · exact ⟨_, hserved⟩

/-- Settles O8: a command is rejected or it runs, and a step is idle or it performs the first arrival. -/
theorem everyStepHasANextState : Obligations.EveryStepHasANextState := by
  unfold Obligations.EveryStepHasANextState
  exact ⟨step_next, exec_next⟩

/-! ### The acceptance checks in order (60_exceptions.md R385) -/

theorem rejection_busy {s : State} (h : s.busy = true) (i : Instr) : rejection s i = some .busy := by
  rw [rejection, if_pos h]

theorem rejection_badState {s : State} {i : Instr} (hidle : s.busy = false) (hbad : accepts s.seq i = false) :
    rejection s i = some .badState := by
  rw [rejection, hidle, if_neg Bool.false_ne_true, hbad, if_neg Bool.false_ne_true]

/-- Once the state accepts the command, its operand decides. -/
theorem rejection_operand {s : State} {i : Instr} (hidle : s.busy = false) (hok : accepts s.seq i = true) :
    rejection s i = operandError s i := by
  rw [rejection, hidle, if_neg Bool.false_ne_true, if_pos hok]

/-- Settles O10: each clause is the first check that fails, and a rejected command is `rejectCmd` alone. -/
theorem rejectedCommandsChangeOnlyCmdErr : Obligations.RejectedCommandsChangeOnlyCmdErr := by
  unfold Obligations.RejectedCommandsChangeOnlyCmdErr
  intro i s rejectedWith badState badCount badBlock
  have hstate : badState ↔ accepts s.seq i = false := by
    cases i <;> simp [badState, accepts]
  have hok : ¬badState → accepts s.seq i = true := fun h => by simpa [hstate] using h
  refine ⟨fun hbusy => ?_, fun hidle hbad => ?_, fun hidle hgood hcount => ?_, fun hidle hgood hblock => ?_⟩
  · exact exec_rejected (rejection_busy hbusy i)
  · exact exec_rejected (rejection_badState hidle (hstate.1 hbad))
  · have hrange : operandError s i = some .countRange := by
      cases i with
      | write n => exact if_pos hcount
      | read n => exact if_pos hcount
      | nop _ | init _ | setBlock _ | xdone _ | sreset _ => exact hcount.elim
    exact exec_rejected ((rejection_operand hidle (hok hgood)).trans hrange)
  · have hrange : operandError s i = some .blockRange := by
      cases i with
      | setBlock b => exact if_pos hblock
      | nop _ | init _ | write _ | read _ | xdone _ | sreset _ => exact hblock.elim
    exact exec_rejected ((rejection_operand hidle (hok hgood)).trans hrange)

/-! ### The interrupt output (60_exceptions.md R381) -/

theorem bitVec_ne_zero_iff_exists_bit {w : Nat} {x : BitVec w} :
    x ≠ 0#w ↔ ∃ b, b < w ∧ x.getLsbD b = true := by
  constructor
  · intro hx
    by_contra hnone
    push Not at hnone
    exact hx (BitVec.eq_of_getLsbD_eq fun b hb => by simpa using hnone b hb)
  · rintro ⟨b, -, hb⟩ rfl
    simp at hb

theorem intEnable_getLsbD (s : State) {k : Nat} (hk : k < 32) :
    (csrReadAt s 0x02C).getLsbD k = s.intEnable.getLsbD k := by
  have hread : csrReadAt s 0x02C = s.intEnable.setWidth 32 := rfl
  rw [hread, BitVec.getLsbD_setWidth, decide_eq_true hk, Bool.true_and]

/-- Settles O43: the six bits pending AND enabled are no zero word iff one of them is 1, and each is as the bus
reads its two registers. -/
theorem irqIsPendingAndEnabled : Obligations.IrqIsPendingAndEnabled := by
  unfold Obligations.IrqIsPendingAndEnabled
  refine ⟨fun s => ?_, by decide⟩
  have hbit : ∀ b, b < 6 → ((pendingBits s &&& s.intEnable).getLsbD b = true ↔
      (csrReadAt s 0x028).getLsbD b = true ∧ (csrReadAt s 0x02C).getLsbD b = true) := fun b hb => by
    rw [intPending_getLsbD s (by omega), intEnable_getLsbD s (by omega), BitVec.getLsbD_and, Bool.and_eq_true]
  rw [irq, decide_eq_true_iff, bitVec_ne_zero_iff_exists_bit]
  exact exists_congr fun b => and_congr_right (hbit b)

/-! ### Refused writes (60_exceptions.md R378; 20_memory.md R129) -/

/-- A read is refused only where the access reaches nothing. -/
theorem locate_refused_of_readError {s : State} {addr width : Nat}
    (h : (readResponse s addr width).error = true) : locate s.build addr width = .refused := by
  unfold readResponse at h
  split at h
  · cases h
  · cases h
  · assumption

theorem busWrite_refused {s : State} {addr width : Nat} (h : locate s.build addr width = .refused) (v : Word) :
    busWrite s addr width v = respond writeError s := by
  rw [busWrite, h]

theorem busWrite_readOnly {s : State} {addr width off : Nat} {r : Region}
    (h : locate s.build addr width = .ram r off) (hro : regionReadOnly r = true) (v : Word) :
    busWrite s addr width v = respond writeError s := by
  rw [busWrite, h]
  exact if_pos hro

/-- Only tables are read-only. -/
theorem isTable_of_readOnly {r : Region} (h : regionReadOnly r = true) : isTable r := by
  refine ⟨?_, ?_, ?_, ?_⟩ <;> rintro rfl <;> cases h

theorem readOnly_of_mem_activeTables {r : Region} (h : r ∈ [Region.actA, .actS, .cola, .effsyn]) :
    regionReadOnly r = true := by
  fin_cases h <;> rfl

/-- Settles O48: a write is refused where a read is, and also at every entry of an active table. -/
theorem refusedWritesHaveNoEffect : Obligations.RefusedWritesHaveNoEffect := by
  unfold Obligations.RefusedWritesHaveNoEffect
  intro s addr width v
  refine ⟨fun herror => busWrite_refused (locate_refused_of_readError herror) v, fun n r hb hr hn => ?_⟩
  have hro : regionReadOnly r = true := readOnly_of_mem_activeTables hr
  exact busWrite_readOnly (locate_table hb (isTable_of_readOnly hro) hn) hro v

/-! ### FAULT (60_exceptions.md R377) -/

/-- Settles O56: FAULT rejects WRITE, READ and XDONE, and neither a rejection, nor NOP, nor SET_BLOCK outside READY
writes the state or its cause. -/
theorem faultIsLeftOnlyByInitOrSreset : Obligations.FaultIsLeftOnlyByInitOrSreset := by
  unfold Obligations.FaultIsLeftOnlyByInitOrSreset
  intro i s t h hfault hinit hsreset ht
  rcases exec_cases i s with ⟨e, -, he⟩ | ⟨hr, -⟩
  · cases he.symm.trans ht
    exact ⟨hfault, rfl⟩
  obtain ⟨haccept, hrange⟩ := rejection_eq_none hr
  rw [hfault] at haccept
  cases i with
  | nop a =>
    cases (exec_nop h a).symm.trans ht
    exact ⟨hfault, rfl⟩
  | setBlock b =>
    have hb : ¬(b = 0 ∨ s.build.bMax < b) := fun hc => by simp [operandError, hc] at hrange
    have hrun := exec_setBlock h (by simp [hfault]) (show 1 ≤ b by omega) (by omega)
    rw [if_neg (by simp [hfault])] at hrun
    cases hrun.symm.trans ht
    exact ⟨hfault, rfl⟩
  | init a => exact absurd rfl (hinit a)
  | sreset a => exact absurd rfl (hsreset a)
  | write _ | read _ | xdone _ => cases haccept

end Sys2Proof.Machine
end

section
/-! SUPPORT. What the two resets of 70_reset_and_hazards.md leave: SRESET keeps the RAM and the storage (R423), and a
new level of `rst` is performed at the port like every other arrival (R420). -/

namespace Sys2Proof.Machine

/-! ### SRESET (70_reset_and_hazards.md R423) -/

/-- Settles O18: neither half of SRESET writes the RAM, the tails or the ring storage. -/
theorem sresetKeepsEveryRamByte : Obligations.SresetKeepsEveryRamByte := by
  unfold Obligations.SresetKeepsEveryRamByte
  intro a s h
  exact ⟨_, exec_sreset h a, fun _ => State.byteAt_congr rfl rfl, rfl, rfl, rfl⟩

/-! ### Hardware reset (70_reset_and_hazards.md R420) -/

/-- An arrival that nothing overlaps, and that leaves nothing in transit, is the whole step. -/
theorem step_performed {s t : State} {i : Input} {rest : List Arrival}
    (hport : s.port = { input := i, during := [] } :: rest)
    (hperform : performInput i (takeArrival { input := i, during := [] } rest s) = .next t)
    (hov : t.overlap = []) (htr : t.transit = .none) : step s = .next t := by
  unfold step serve
  rw [hport]
  dsimp only
  rw [hperform]
  exact congrArg Host.Outcome.next (requeue_quiet hov htr)

theorem performInput_rst_asserted (s : State) : performInput (.rst true) s = .next (hardReset s) := rfl

theorem performInput_rst_deasserted (s : State) : performInput (.rst false) s = .next { s with rst := false } := rfl

/-- While `rst` is asserted a bus access has no effect and gets no response. -/
theorem performInput_access_inReset {s : State} (hrst : s.rst = true) (a : BusAccess) :
    performInput (.access a) s = .next s :=
  if_pos hrst

/-- Settles O51: each of the three arrivals is performed on the taken state, which nothing overlaps. -/
theorem hardwareResetRestoresResetState : Obligations.HardwareResetRestoresResetState := by
  unfold Obligations.HardwareResetRestoresResetState
  intro s rest a
  refine ⟨fun hport => ?asserted, fun hport => ?deasserted, fun hrst hport => ?access⟩
  case asserted => exact step_performed hport (performInput_rst_asserted _) rfl rfl
  case deasserted => exact step_performed hport (performInput_rst_deasserted _) rfl rfl
  case access => exact step_performed hport (performInput_access_inReset (s := takeArrival _ rest s) hrst a) rfl rfl

end Sys2Proof.Machine
end

section
/-! SUPPORT. Rounding as a statement on integers, and the identities of the arithmetic (00_scope.md R16). A sum, a
product or a quotient whose exact value is that of a finite word is that word, once the signs agree. -/

namespace Sys2Proof.Machine

/-! ### Rounding to a multiple -/

/-- Settles O58: `roundShift_spec` in whole units of the last place; with no place shifted out nothing is rounded. -/
theorem roundingIsToNearestEven : Obligations.RoundingIsToNearestEven := by
  unfold Obligations.RoundingIsToNearestEven
  intro m k
  cases k with
  | zero =>
    rw [show roundShift m 0 = m by simp [roundShift]]
    omega
  | succ k =>
    obtain ⟨hlow, hhigh, htie⟩ := roundShift_spec m k
    generalize roundShift m (k + 1) = q at *
    rw [pow_succ, ← mul_assoc, ← mul_assoc]
    omega

/-! ### A word by its value and its sign -/

/-- Sign and magnitude are all of a word. -/
theorem toNat_eq_magnitude (w : F32) : w.toNat = f32Magnitude w + if f32Neg w then 2 ^ 31 else 0 := by
  have hw : w.toNat < 2 ^ 32 := w.isLt
  rw [f32Magnitude, BitVec.extractLsb'_toNat, Nat.shiftRight_zero, f32Neg_eq_toNat]
  split
  · rename_i h
    rw [decide_eq_true_iff] at h
    omega
  · rename_i h
    rw [decide_eq_true_iff] at h
    omega

theorem f32Magnitude_lt (w : F32) : f32Magnitude w < 2 ^ 31 := (w.extractLsb' 0 31).isLt

/-- Words of one value differ in the sign alone. -/
theorem eq_of_value_eq {a b : F32} (hvalue : f32Value a = f32Value b) (hneg : f32Neg a = f32Neg b) : a = b := by
  rw [f32Value_eq_withSign, f32Value_eq_withSign, hneg] at hvalue
  have habs : f32Abs a = f32Abs b := by
    rw [← withSign_withSign (f32Neg b) (f32Abs a), hvalue, withSign_withSign]
  have hmag : f32Magnitude a = f32Magnitude b :=
    le_antisymm (not_lt.1 (mt (f32Abs_lt_iff b a).2 habs.le.not_gt))
      (not_lt.1 (mt (f32Abs_lt_iff a b).2 habs.ge.not_gt))
  refine BitVec.eq_of_toNat_eq ?_
  rw [toNat_eq_magnitude, toNat_eq_magnitude, hmag, hneg]

/-- The finite words lie below the values that round to an infinity. -/
theorem abs_value_lt_overflow {w : F32} (hw : f32Finite w = true) : |f32Value w| < 2 ^ 128 - 2 ^ 103 := by
  rw [f32Finite, decide_eq_true_iff] at hw
  have hsig : (f32Significand w : ℚ) ≤ 2 ^ 24 - 1 := by
    have h : f32Significand w + 1 ≤ 2 ^ 24 := f32Significand_lt w
    have h' : (f32Significand w : ℚ) + 1 ≤ 2 ^ 24 := by exact_mod_cast h
    linarith
  have hscale : f32Scale w ≤ 104 := by unfold f32Scale; omega
  rw [f32Value_eq_withSign, abs_withSign, abs_of_nonneg (f32Abs_nonneg w), f32Abs]
  calc (f32Significand w : ℚ) * 2 ^ f32Scale w ≤ (2 ^ 24 - 1) * 2 ^ (104 : ℤ) := by
        gcongr
        exact one_le_two
    _ < 2 ^ 128 - 2 ^ 103 := by norm_num

/-- What rounds the value of a finite word has that value. -/
theorem value_eq_of_roundsTo {r w : F32} (hw : f32Finite w = true) (h : RoundsTo r (f32Value w)) :
    f32Value r = f32Value w := by
  obtain ⟨-, hnearest⟩ := h.1 (abs_value_lt_overflow hw)
  have hle := (hnearest w hw).1
  rw [sub_self, abs_zero, abs_nonpos_iff, sub_eq_zero] at hle
  exact hle.symm

/-- A word that is neither NaN nor finite is an infinity. -/
theorem isInf_of_not_finite {w : F32} (hnan : f32IsNan w = false) (hfin : f32Finite w = false) :
    f32IsInf w = true := by
  have hlt : f32Exp w < 2 ^ 8 := f32Exp_lt w
  rw [f32Finite, decide_eq_false_iff_not] at hfin
  rw [f32IsNan, decide_eq_true (show f32Exp w = 255 by omega), Bool.true_and, decide_eq_false_iff_not, not_not] at hnan
  rw [f32IsInf, decide_eq_true (show f32Exp w = 255 by omega), decide_eq_true hnan, Bool.true_and]

/-- An infinity is its sign. -/
theorem eq_of_isInf {w : F32} (h : f32IsInf w = true) : w = f32Word (f32Neg w) f32InfMagnitude := by
  rw [f32IsInf, Bool.and_eq_true, decide_eq_true_iff, decide_eq_true_iff] at h
  refine BitVec.eq_of_toNat_eq ?_
  rw [toNat_eq_magnitude, f32Magnitude_eq, h.1, h.2, f32Word_toNat _ (by decide)]
  rfl

theorem f32IsNan_of_inf {w : F32} (h : f32IsInf w = true) : f32IsNan w = false := by
  rw [f32IsInf, Bool.and_eq_true, decide_eq_true_iff, decide_eq_true_iff] at h
  rw [f32IsNan, decide_eq_false (show ¬f32Frac w ≠ 0 by simp [h.2]), Bool.and_false]

/-! ### Identities -/

theorem f32Value_one : f32Value 0x3F800000#32 = 1 := by
  rw [f32Value, show f32Signed 0x3F800000#32 = 2 ^ 23 by decide, show f32Scale 0x3F800000#32 = -23 by decide]
  norm_num

theorem f32Value_negZero : f32Value 0x80000000#32 = 0 := by
  rw [f32Value, show f32Signed 0x80000000#32 = 0 by decide, Int.cast_zero, zero_mul]

theorem fmul_one (d : Word) {x : F32} (hx : f32IsNan x = false) : fmul d x 0x3F800000#32 = x := by
  cases hfin : f32Finite x with
  | true =>
    have hround := fmul_roundsTo (a := x) (b := 0x3F800000#32) d hfin (by decide)
    rw [f32Value_one, mul_one] at hround
    refine eq_of_value_eq (value_eq_of_roundsTo hfin hround) ?_
    rw [fmul_neg d hfin (by decide), show f32Neg 0x3F800000#32 = false by decide, Bool.bne_false]
  | false =>
    have hinf := isInf_of_not_finite hx hfin
    have hzero : f32IsZero x = false := by
      rw [f32Finite, decide_eq_false_iff_not] at hfin
      rw [f32IsZero, decide_eq_false (by omega), Bool.false_and]
    rw [fmul, hx, hinf, hzero, show f32IsNan 0x3F800000#32 = false by decide,
      show f32IsZero 0x3F800000#32 = false by decide, show f32Neg 0x3F800000#32 = false by decide]
    simp only [Bool.or_self, Bool.true_or, Bool.bne_false, Bool.false_eq_true, if_false, if_true]
    exact (eq_of_isInf hinf).symm

theorem fdiv_one (d : Word) {x : F32} (hx : f32IsNan x = false) : fdiv d x 0x3F800000#32 = x := by
  cases hfin : f32Finite x with
  | true =>
    have hne : f32Value 0x3F800000#32 ≠ 0 := by rw [f32Value_one]; exact one_ne_zero
    have hround := fdiv_roundsTo (a := x) d hfin (by decide) hne
    rw [f32Value_one, div_one] at hround
    refine eq_of_value_eq (value_eq_of_roundsTo hfin hround) ?_
    rw [fdiv_neg d hfin (by decide) hne, show f32Neg 0x3F800000#32 = false by decide, Bool.bne_false]
  | false =>
    have hinf := isInf_of_not_finite hx hfin
    rw [fdiv, hx, hinf, show f32IsNan 0x3F800000#32 = false by decide,
      show f32IsInf 0x3F800000#32 = false by decide, show f32Neg 0x3F800000#32 = false by decide]
    simp only [Bool.or_self, Bool.bne_false, Bool.false_eq_true, if_false, if_true]
    exact (eq_of_isInf hinf).symm

theorem fadd_infinity {d : Word} {x y : F32} (hx : f32IsInf x = true) (hy : f32Finite y = true) :
    fadd d x y = x ∧ fadd d y x = x := by
  have hnan : (f32IsNan x || f32IsNan y) = false := by
    rw [f32IsNan_of_inf hx, f32IsNan_of_finite hy, Bool.or_self]
  have hnan' : (f32IsNan y || f32IsNan x) = false := by rw [Bool.or_comm, hnan]
  constructor
  · rw [fadd, hnan, hx, f32IsInf_of_finite hy]
    rfl
  · rw [fadd, hnan', hx, f32IsInf_of_finite hy]
    rfl

/-- The sign of a word that is no zero is that of its value. -/
theorem neg_eq_of_value_eq {a b : F32} (h : f32Value a = f32Value b) (hne : f32Value b ≠ 0) :
    f32Neg a = f32Neg b := by
  have hsign : ∀ w, f32Value w ≠ 0 → f32Neg w = decide (f32Value w < 0) := fun w hw => by
    have habs := f32Abs_nonneg w
    have hvalue : f32Value w = withSign (f32Neg w) (f32Abs w) := f32Value_eq_withSign w
    cases hneg : f32Neg w with
    | false =>
      rw [hneg] at hvalue
      exact (decide_eq_false (not_lt.2 (habs.trans_eq hvalue.symm))).symm
    | true =>
      rw [hneg] at hvalue
      exact (decide_eq_true (lt_of_le_of_ne (hvalue.trans_le (neg_nonpos.2 habs)) hw)).symm
  rw [hsign a (h ▸ hne), hsign b hne, h]

theorem fadd_negZero (d : Word) {x : F32} (hx : f32IsNan x = false) : fadd d x 0x80000000#32 = x := by
  cases hfin : f32Finite x with
  | true =>
    have hround := fadd_roundsTo (a := x) (b := 0x80000000#32) d hfin (by decide)
    rw [f32Value_negZero, add_zero] at hround
    have hvalue := value_eq_of_roundsTo hfin hround
    refine eq_of_value_eq hvalue ?_
    by_cases hzero : f32Value x = 0
    · rw [fadd_of_value_add_eq_zero d hfin (by decide) (by rw [hzero, f32Value_negZero, add_zero]),
        f32Neg_f32Word _ (by decide), show f32Neg 0x80000000#32 = true by decide, Bool.and_true]
    · exact neg_eq_of_value_eq hvalue hzero
  | false => exact (fadd_infinity (isInf_of_not_finite hx hfin) (by decide)).1

/-! ### The order of the operands -/

theorem alignedSum_comm (a b : F32) : alignedSum a b = alignedSum b a := by
  unfold alignedSum
  rw [min_comm, add_comm]

/-- Infinities of different signs have no sum; of one sign they are one word. -/
theorem fadd_infinities_comm {d : Word} {x y : F32} (hx : f32IsInf x = true) (hy : f32IsInf y = true) :
    fadd d x y = fadd d y x := by
  rw [fadd, fadd, f32IsNan_of_inf hx, f32IsNan_of_inf hy, hx, hy]
  simp only [Bool.or_self, Bool.false_eq_true, if_false, if_true, Bool.true_and]
  rw [bne_comm]
  split
  · rfl
  · rename_i hne
    rw [eq_of_isInf hx, eq_of_isInf hy]
    congr 1
    exact (by simpa using hne : f32Neg y = f32Neg x).symm

theorem fadd_comm (d : Word) (x y : F32) : fadd d x y = fadd d y x := by
  cases hnan : f32IsNan x || f32IsNan y with
  | true =>
    have hnan' : (f32IsNan y || f32IsNan x) = true := by rw [Bool.or_comm, hnan]
    rw [fadd, fadd, if_pos hnan, if_pos hnan']
  | false =>
    obtain ⟨hx, hy⟩ := Bool.or_eq_false_iff.1 hnan
    cases hfx : f32Finite x with
    | true =>
      cases hfy : f32Finite y with
      | true => rw [fadd_finite d hfx hfy, fadd_finite d hfy hfx, alignedSum_comm, min_comm, Bool.and_comm]
      | false =>
        have h := fadd_infinity (d := d) (isInf_of_not_finite hy hfy) hfx
        exact h.2.trans h.1.symm
    | false =>
      have hinf := isInf_of_not_finite hx hfx
      cases hfy : f32Finite y with
      | true =>
        have h := fadd_infinity (d := d) hinf hfy
        exact h.1.trans h.2.symm
      | false => exact fadd_infinities_comm hinf (isInf_of_not_finite hy hfy)

theorem fmul_comm (d : Word) (x y : F32) : fmul d x y = fmul d y x := by
  rw [fmul, fmul, bne_comm, Bool.or_comm, Bool.or_comm (f32IsInf x), Bool.or_comm (f32IsZero x),
    Nat.mul_comm, Int.add_comm]

/-! ### The comparison -/

theorem lt_iff_magnitude_lt {x y : F32} (h : f32Neg x = f32Neg y) : y < x ↔ f32Magnitude y < f32Magnitude x := by
  rw [BitVec.lt_def, toNat_eq_magnitude x, toNat_eq_magnitude y, h, Nat.add_lt_add_iff_right]

theorem fgt_of_not_nan {x y : F32} (hx : f32IsNan x = false) (hy : f32IsNan y = false) :
    fgt x y = true ↔ f32Order y < f32Order x := by
  rw [fgt, hx, hy, Bool.not_false, Bool.true_and, Bool.true_and, decide_eq_true_iff]

theorem eq_posZero_iff {x : F32} (h : f32Neg x = false) : x = 0x00000000#32 ↔ f32Magnitude x = 0 := by
  rw [← BitVec.toNat_inj, toNat_eq_magnitude x, h]
  rfl

theorem eq_negZero_iff {x : F32} (h : f32Neg x = true) : x = 0x80000000#32 ↔ f32Magnitude x = 0 := by
  rw [← BitVec.toNat_inj, toNat_eq_magnitude x, h]
  simp

/-- Settles O59: the exact result of an identity is the word itself, the operands enter each operation alike, and
the order of the words is that of their magnitudes with their signs. -/
theorem floatIdentitiesAndCommutation : Obligations.FloatIdentitiesAndCommutation := by
  unfold Obligations.FloatIdentitiesAndCommutation
  refine ⟨fun d x hx => ⟨fmul_one d hx, fdiv_one d hx, fadd_negZero d hx⟩,
    fun d x y => ⟨fadd_comm d x y, fmul_comm d x y⟩, fun x y => ⟨fun hnan => ?_, fun hx hy => ?_⟩⟩
  · unfold fgt
    rcases hnan with h | h <;> simp [h]
  · rw [← Bool.not_eq_true (fgt x y), fgt_of_not_nan hx hy, f32Order_eq, f32Order_eq]
    refine ⟨fun hpx hpy => ?_, fun hnx hny => ?_, fun hpx hny => ?_, fun hnx hpy => ?_⟩
    · rw [lt_iff_magnitude_lt (hpx.trans hpy.symm), show f32Neg x = false from hpx, show f32Neg y = false from hpy]
      exact Nat.cast_lt
    · rw [lt_iff_magnitude_lt (hny.trans hnx.symm), show f32Neg x = true from hnx, show f32Neg y = true from hny]
      simp only [if_true, neg_lt_neg_iff, Nat.cast_lt]
    · rw [eq_posZero_iff hpx, eq_negZero_iff hny, show f32Neg x = false from hpx, show f32Neg y = true from hny]
      simp only [if_true, Bool.false_eq_true, if_false]
      omega
    · rw [show f32Neg x = true from hnx, show f32Neg y = false from hpy]
      simp only [if_true, Bool.false_eq_true, if_false]
      omega

end Sys2Proof.Machine
end

section
/-! SUPPORT. The slave port: the idle step, the step of a submitted command word (30_encoding.md R160; 10_state.md R59)
and where a read is refused (20_memory.md R120 to R131; 60_exceptions.md R378). -/

namespace Sys2Proof.Machine

/-! ### Command words -/

/-- Settles O4: the nine words are closed, and each is decoded by computing. -/
theorem sampleCommandWordsDecode : Obligations.SampleCommandWordsDecode := by
  unfold Obligations.SampleCommandWordsDecode
  decide

/-- A write to CMD on a block that is not in reset submits its word. -/
theorem performInput_submits {s : State} (hrst : s.rst = false) (hbase : s.build.base % Config.windowBytes = 0)
    (w : Word) :
    performInput (.access (.write (s.build.base + 0x020) 32 w)) s = submit w (respond writeDone s) := by
  unfold performInput
  dsimp only
  rw [if_neg (by rw [hrst]; exact Bool.false_ne_true), commandWord_cmd hbase]

/-- A step whose arrival is a write to CMD. -/
theorem step_submits {s : State} {during : List (List Landing)} {rest : List Arrival} {w : Word}
    (hrst : s.rst = false) (hbase : s.build.base % Config.windowBytes = 0)
    (hport : s.port = { input := .access (.write (s.build.base + 0x020) 32 w), during := during } :: rest) :
    step s = settled (submit w
      { s with port := rest, overlap := during, transit := .none, resp := [writeDone] }) := by
  unfold step serve
  rw [hport]
  dsimp only
  exact congrArg settled (performInput_submits (s := takeArrival _ rest s) hrst hbase w)

theorem submit_decoded {w : Word} {i : Instr} (h : decode w = some i) (s : State) : submit w s = exec i s := by
  unfold submit
  rw [h]

theorem rejectReserved_eq (s : State) :
    rejectReserved s = rejectCmd (if s.busy then .busy else .reservedOpcode) s := by
  unfold rejectReserved
  split <;> rfl

/-- Settles O6: the step submits the word, which is executed or rejected. -/
theorem stepExecutesSubmittedCommand : Obligations.StepExecutesSubmittedCommand := by
  unfold Obligations.StepExecutesSubmittedCommand
  intro s during rest w hrst hbase hport taken
  have hstep : step s = settled (submit w taken) := step_submits hrst hbase hport
  refine ⟨fun i hi => ?_, fun hreserved => ?_⟩
  · rw [hstep, submit_decoded hi]
  · rw [hstep, submit_reserved hreserved, rejectReserved_eq]
    rfl

/-- Settles O7: the placed word is the next arrival, nothing overlapping it. -/
theorem placedCommandWordIsRunNext : Obligations.PlacedCommandWordIsRunNext := by
  unfold Obligations.PlacedCommandWordIsRunNext
  intro s w i hbase hw hi
  have hplaced : (s.withFetchWord 32 w).port =
      { input := .access (.write (s.build.base + 0x020) 32 (BitVec.ofNat 32 w)), during := [] } :: s.port := by
    unfold State.withFetchWord
    rw [Nat.mod_eq_of_lt hw]
    rfl
  exact (stepExecutesSubmittedCommand (s.withFetchWord 32 w) [] s.port _ rfl hbase hplaced).1 i hi

/-- Settles O9: with no arrival the step is the idle one. -/
theorem idleBlockKeepsItsState : Obligations.IdleBlockKeepsItsState := by
  unfold Obligations.IdleBlockKeepsItsState
  intro s hport
  rcases step_cases s with ⟨-, hidle⟩ | ⟨a, rest, -, hcons, -, -⟩
  · exact hidle
  · rw [hport] at hcons
    cases hcons

/-! ### Reset (70_reset_and_hazards.md R420) -/

theorem referenceBuild_valid : Config.referenceBuild.Valid where
  nMax_pow := ⟨12, by decide⟩
  nMax_ge := by decide
  fftSizes_ok := by decide
  fftSizes_2048 := by decide
  inMax_ok := by decide
  outMax_ok := by decide
  bMax_ok := by decide
  stage_ok := by decide
  base_aligned := by decide
  stageIn_fits := by decide
  stageOut_fits := by decide
  specIn_fits := by decide
  specOut_fits := by decide

/-- Settles O52: the block is unconfigured and quiet, its storage unspecified. -/
theorem resetMeetsInvariant : Obligations.ResetMeetsInvariant := by
  unfold Obligations.ResetMeetsInvariant
  have hstorage : StorageWf State.reset := { storageWf_hardReset State.reset with }
  have hsound : Sound State.reset := ⟨referenceBuild_valid, hstorage, fun _ he => nomatch he⟩
  refine inv_iff.2 ⟨Resting.of_seq (q := .uninit) hsound rfl ⟨rfl, rfl, ?_⟩, rfl, rfl, rfl⟩
  exact ⟨rfl, rfl, rfl, rfl, rfl, show InitResult.none ≠ .ok by decide⟩

/-! ### Refused reads (20_memory.md R120 to R131) -/

/-- A linear index below the product comes from three indices below their bounds. -/
theorem exists_indices_of_lt {a n m : Nat} (h : m < a * 255 * n) :
    ∃ t c f, t < a ∧ c < 255 ∧ f < n ∧ m = (t * 255 + c) * n + f := by
  have hn : 0 < n := Nat.pos_of_ne_zero fun hc => by rw [hc, Nat.mul_zero] at h; omega
  have hq : m / n < a * 255 := (Nat.div_lt_iff_lt_mul hn).2 h
  refine ⟨m / n / 255, m / n % 255, m % n, by omega, by omega, Nat.mod_lt _ hn, ?_⟩
  rw [show m / n / 255 * 255 + m / n % 255 = m / n by omega, Nat.mul_comm]
  exact (Nat.div_add_mod m n).symm

/-- An aligned word of a region, below the region's number of words, is one of an element. -/
theorem isElementWord_of_regionWords {b : Build} {r : Region} {off : Nat} (h4 : off % 4 = 0)
    (hr : regionOf off = some r) (hw : (off - regionBase r) / 4 < regionWords b r) : IsElementWord b off := by
  have hbase : regionBase r ≤ off := (regionOf_eq_some.1 hr).1
  have hmod : regionBase r % 8 = 0 := by cases r <;> rfl
  have htable : r ∈ [Region.wsrcA, .wsrcS, .actA, .actS, .cola, .effsyn] → regionWords b r = b.nMax →
      IsElementWord b off := fun hmem hwords => by
    refine .inl ⟨r, (off - regionBase r) / 4, hmem, hwords ▸ hw, ?_⟩
    unfold tableOff
    omega
  cases r with
  | wsrcA | wsrcS | actA | actS | cola | effsyn => exact htable (by decide) rfl
  | stageIn =>
    obtain ⟨u, c, f, hu, hc, hf, hm⟩ := exists_indices_of_lt (show _ < b.inMax * 255 * b.stageFrames from hw)
    refine .inr (.inl ⟨u, c, f, hu, hc, hf, ?_⟩)
    unfold stageOff Config.chMax
    omega
  | stageOut =>
    obtain ⟨j, c, f, hj, hc, hf, hm⟩ := exists_indices_of_lt (show _ < b.outMax * 255 * b.stageFrames from hw)
    refine .inr (.inr (.inl ⟨j, c, f, hj, hc, hf, ?_⟩))
    unfold stageOff Config.chMax
    omega
  | specIn =>
    have hw' : (off - regionBase .specIn) / 4 < 2 * (b.inMax * 255 * (b.nMax / 2 + 1)) := hw
    obtain ⟨u, c, k, hu, hc, hk, hm⟩ :=
      exists_indices_of_lt (m := (off - regionBase .specIn) / 8) (a := b.inMax) (n := b.nMax / 2 + 1) (by omega)
    refine .inr (.inr (.inr (.inl ⟨u, c, k, hu, hc, hk, ?_⟩)))
    unfold specOff Config.chMax
    omega
  | specOut =>
    have hw' : (off - regionBase .specOut) / 4 < 2 * (b.outMax * 255 * (b.nMax / 2 + 1)) := hw
    obtain ⟨j, c, k, hj, hc, hk, hm⟩ :=
      exists_indices_of_lt (m := (off - regionBase .specOut) / 8) (a := b.outMax) (n := b.nMax / 2 + 1) (by omega)
    refine .inr (.inr (.inr (.inr ⟨j, c, k, hj, hc, hk, ?_⟩)))
    unfold specOff Config.chMax
    omega

/-- An access that is not refused is an aligned 32-bit one to the register page or to an element. -/
theorem locate_refused_or {b : Build} (hb : b.base % 4 = 0) (addr width : Nat) :
    locate b addr width = .refused ∨
      width = 32 ∧ ∃ off, addr = b.base + off ∧ (off < 0x1000 ∧ off % 4 = 0 ∨ IsElementWord b off) := by
  unfold locate
  split
  · exact .inl rfl
  split
  · exact .inl rfl
  split
  · exact .inl rfl
  have hwidth : width = 32 := by omega
  have haddr : addr = b.base + (addr - b.base) := by omega
  split
  · exact .inr ⟨hwidth, addr - b.base, haddr, .inl ⟨‹_›, by omega⟩⟩
  split
  · exact .inl rfl
  split
  · rename_i r hr hw
    exact .inr ⟨hwidth, addr - b.base, haddr, .inr (isElementWord_of_regionWords (by omega) hr hw)⟩
  · exact .inl rfl

theorem readResponse_refused {s : State} {addr width : Nat} (h : locate s.build addr width = .refused) :
    readResponse s addr width = readError := by
  unfold readResponse
  rw [h]

/-- Settles O47: what is not refused is a register or an element, and both are reached. -/
theorem busReadsAreRefusedExactly : Obligations.BusReadsAreRefusedExactly := by
  unfold Obligations.BusReadsAreRefusedExactly
  intro s addr width hb
  refine ⟨⟨fun hok => ?_, ?_⟩, fun herror => ?_⟩
  · rcases locate_refused_or (base_mod_four hb) addr width with hrefused | hreached
    · rw [readResponse_refused hrefused] at hok
      cases hok
    · exact hreached
  · rintro ⟨rfl, off, rfl, ⟨hoff, h4⟩ | helem⟩
    · rw [readResponse_csr hb.base_aligned hoff h4]
    · obtain ⟨r, hloc⟩ := locate_elementWord hb helem
      rw [readResponse_ram hloc]
  · rw [readResponse_refused (locate_refused_of_readError herror)]
    rfl

end Sys2Proof.Machine
end

section
/-! SUPPORT. Canonical storage and constant parameters from every state (log 5, log 6, log 13). Each operation keeps
them, whatever state it meets, so every course of operations does. -/

namespace Sys2Proof.Machine

/-! ### What a course of operations keeps -/

/-- From s to t canonical storage stays canonical, and the parameters stay as they are. -/
structure KeepsForm (s t : State) : Prop where
  wf : StorageWf s → StorageWf t
  build : t.build = s.build

theorem KeepsForm.refl (s : State) : KeepsForm s s := ⟨id, rfl⟩

theorem KeepsForm.trans {s t u : State} (h : KeepsForm s t) (h' : KeepsForm t u) : KeepsForm s u :=
  ⟨h'.wf ∘ h.wf, h'.build.trans h.build⟩

/-- A change of registers and of the port's record alone. -/
theorem KeepsForm.of_eq {s t : State}
    (h : t = { t with
      mem := s.mem, ringIn := s.ringIn, ringOut := s.ringOut, tail := s.tail, tb := s.tb, y := s.y, res := s.res,
      build := s.build }) : KeepsForm s t := by
  rw [h]
  exact ⟨fun hs => { hs with }, rfl⟩

/-- Words stored in the RAM, and a change of registers and of the port's record. -/
theorem KeepsForm.of_setWords {s t : State} (kvs : List (Nat × Word))
    (h : t = { t with
      mem := s.mem.setWords kvs, ringIn := s.ringIn, ringOut := s.ringOut, tail := s.tail, tb := s.tb, y := s.y,
      res := s.res, build := s.build }) : KeepsForm s t := by
  rw [h]
  exact ⟨fun hs => { hs with mem := Memory.wf_setWords hs.mem _ }, rfl⟩

/-! ### Accesses and inputs -/

theorem keepsForm_hardReset (s : State) : KeepsForm s (hardReset s) := ⟨fun _ => storageWf_hardReset s, rfl⟩

theorem keepsForm_csrWrite (s : State) (off : Nat) (v : Word) : KeepsForm s (respond writeDone (csrWriteAt s off v)) :=
  have d := (csrWriteAt_disturbs s off v).trans (respond_disturbs writeDone _)
  ⟨d.storageWf, by rw [d.eq]⟩

theorem keepsForm_busWrite (s : State) (addr width : Nat) (v : Word) : KeepsForm s (busWrite s addr width v) := by
  unfold busWrite
  split
  · exact keepsForm_csrWrite s _ v
  · split
    · exact .of_eq rfl
    · rename_i off _ _
      exact .of_setWords [(off, v)] rfl
  · exact .of_eq rfl

theorem keepsForm_performAccess (a : BusAccess) (s : State) : KeepsForm s (performAccess a s) := by
  cases a with
  | read addr width => exact .of_eq rfl
  | write addr width v => exact keepsForm_busWrite s addr width v

theorem keepsForm_busyAccess (a : BusAccess) (draw : Nat) (s : State) : KeepsForm s (busyAccess a draw s) := by
  cases a with
  | read addr width =>
    unfold busyAccess busyRead
    dsimp only
    split
    · split
      · exact .of_eq rfl
      · exact .of_eq rfl
    · exact .of_eq rfl
    · exact .of_eq rfl
  | write addr width v =>
    unfold busyAccess busyWrite
    dsimp only
    split
    · exact keepsForm_csrWrite s _ v
    · split
      · exact .of_eq rfl
      · exact .of_setWords _ rfl
    · exact .of_eq rfl

theorem keepsForm_busyInput (l : Landing) (s : State) : KeepsForm s (busyInput l s) := by
  unfold busyInput
  split
  · exact keepsForm_hardReset s
  · exact .refl s
  · exact .of_eq rfl
  · split
    · exact .of_eq rfl
    · exact keepsForm_busyAccess _ _ s

theorem keepsForm_busyInputs (ls : List Landing) (s : State) : KeepsForm s (busyInputs ls s) := by
  induction ls generalizing s with
  | nil => exact .refl s
  | cons l rest ih =>
    have hl := keepsForm_busyInput l s
    unfold busyInputs
    split
    · exact hl.trans (ih _)
    · exact hl.trans (.of_eq rfl)

/-! ### Points and pieces of a command -/

theorem keepsForm_tickLate (s : State) : KeepsForm s (tickLate s) := .of_setWords _ rfl

theorem keepsForm_settleTransit (s : State) : KeepsForm s (settleTransit s) := .of_setWords _ rfl

section
variable {k : State → State} (hk : ∀ u, KeepsForm u (k u))
include hk

theorem keepsForm_atPoint (s : State) : KeepsForm s (atPoint k s) := by
  have hinputs : ∀ now later, KeepsForm s (busyInputs now { tickLate s with overlap := later }) := fun now later =>
    ((keepsForm_tickLate s).trans (.of_eq rfl)).trans (keepsForm_busyInputs now _)
  rcases atPoint_cases k s with ⟨-, he⟩ | ⟨now, later, -, ⟨-, he⟩ | ⟨-, he⟩⟩
  · rw [he]
    exact (keepsForm_tickLate s).trans (hk _)
  · rw [he]
    exact (hinputs now later).trans (hk _)
  · rw [he]
    exact hinputs now later

theorem keepsForm_piece {f : State → State} {wrote : State → Nat → Bool} {s : State} (hf : KeepsForm s (f s)) :
    KeepsForm s (piece f wrote k s) :=
  (hf.trans (.of_eq rfl)).trans (keepsForm_atPoint hk _)

theorem keepsForm_accepted (s : State) : KeepsForm s (atPoint k (acceptCmd s)) :=
  KeepsForm.trans (.of_eq rfl) (keepsForm_atPoint hk _)

end

theorem keepsForm_completeCmd (s : State) : KeepsForm s (completeCmd s) := .of_eq rfl

theorem keepsForm_releaseBusy (s : State) : KeepsForm s (releaseBusy s) := .of_eq rfl

/-! ### SRESET, SET_BLOCK and INIT -/

theorem keepsForm_runSreset (s : State) : KeepsForm s (runSreset s) :=
  keepsForm_accepted (fun _ => keepsForm_piece (fun _ => .of_eq rfl) (.of_eq rfl)) s

theorem keepsForm_finishRebuild (s : State) : KeepsForm s (finishRebuild s) :=
  ⟨storageWf_finishRebuild, finishRebuild_build s⟩

theorem keepsForm_setBlockRings (b : Nat) (s : State) : KeepsForm s (setBlockRings b s) := by
  unfold setBlockRings
  split
  · refine keepsForm_piece (fun u => ?_) (.of_eq rfl)
    exact keepsForm_piece keepsForm_completeCmd ((keepsForm_finishRebuild u).trans (.of_eq rfl))
  · exact keepsForm_completeCmd s

theorem keepsForm_runSetBlock (b : Nat) (s : State) : KeepsForm s (runSetBlock b s) :=
  keepsForm_accepted (fun _ => keepsForm_piece (keepsForm_setBlockRings b) (.of_eq rfl)) s

theorem keepsForm_failInit (code : InitResult) (s : State) : KeepsForm s (failInit code s) :=
  keepsForm_piece (fun _ => .of_eq rfl) (.of_eq rfl)

theorem keepsForm_finishCommit (s : State) : KeepsForm s (finishCommit s) :=
  (keepsForm_finishRebuild s).trans ⟨storageWf_initClear, rfl⟩

theorem keepsForm_initFinish (q : CfgRegs) (s : State) : KeepsForm s (initFinish q s) := by
  refine keepsForm_piece (fun u => ?_) ⟨fun h => storageWf_writeTable h _ _ _, rfl⟩
  refine keepsForm_piece (fun v => ?_) (.of_eq rfl)
  exact keepsForm_piece keepsForm_completeCmd (keepsForm_finishCommit v)

theorem keepsForm_initValidate (q : CfgRegs) (s : State) : KeepsForm s (initValidate q s) := by
  unfold initValidate
  split
  · exact keepsForm_initFinish q s
  · exact keepsForm_failInit _ s

theorem keepsForm_initChecked (q : CfgRegs) (s : State) : KeepsForm s (initChecked q s) := by
  unfold initChecked
  split
  · exact keepsForm_failInit _ s
  split
  · exact keepsForm_failInit _ s
  · exact keepsForm_piece (keepsForm_initValidate q) ⟨fun h => storageWf_buildTables h q, buildTables_build q s⟩

/-! ### WRITE, XDONE and READ -/

theorem keepsForm_faultFrame (code : FaultCode) (s : State) : KeepsForm s (faultFrame code s) :=
  keepsForm_piece keepsForm_releaseBusy (.of_eq rfl)

theorem keepsForm_pauseFrame (s : State) : KeepsForm s (pauseFrame s) := by
  have hsave : KeepsForm s (noteGiven (noWords s) s (saveFrame s)) := .of_eq rfl
  exact (hsave.trans (keepsForm_settleTransit _)).trans (keepsForm_atPoint keepsForm_releaseBusy _)

section
variable {k : State → State} (hk : ∀ u, KeepsForm u (k u))
include hk

theorem keepsForm_headPieces (s : State) : KeepsForm s (headPieces k s) :=
  keepsForm_piece (fun _ => keepsForm_piece hk ⟨storageWf_analyzeAll, rfl⟩) ⟨storageWf_orbRead, rfl⟩

theorem keepsForm_copyPiece (s : State) : KeepsForm s (copyPiece k s) :=
  keepsForm_piece hk ⟨storageWf_identityCopy, rfl⟩

theorem keepsForm_tailPiece (s : State) : KeepsForm s (piece frameTail noWords k s) :=
  keepsForm_piece hk ⟨storageWf_frameTail, frameTail_build s⟩

end

theorem keepsForm_frameLoop (fuel : Nat) (s : State) : KeepsForm s (frameLoop fuel s) := by
  induction fuel generalizing s with
  | zero => exact .refl s
  | succ fuel ih =>
    unfold frameLoop
    split
    · exact keepsForm_completeCmd s
    split
    · exact keepsForm_faultFrame _ s
    split
    case h_1 => exact keepsForm_headPieces (keepsForm_copyPiece (keepsForm_tailPiece ih)) s
    case h_2 => exact keepsForm_headPieces keepsForm_pauseFrame s
    case h_3 => exact keepsForm_headPieces (keepsForm_copyPiece keepsForm_pauseFrame) s
    case h_4 => exact keepsForm_headPieces keepsForm_pauseFrame s

theorem keepsForm_runFrames (s : State) : KeepsForm s (runFrames s) := keepsForm_frameLoop _ s

theorem keepsForm_writeFrames (n : Nat) (s : State) : KeepsForm s (writeFrames n s) := by
  unfold writeFrames
  split
  · exact keepsForm_faultFrame _ s
  · exact keepsForm_piece keepsForm_runFrames ⟨fun h => storageWf_orbWrite h _ n, rfl⟩

theorem keepsForm_runWrite (n : Nat) (s : State) : KeepsForm s (runWrite n s) :=
  keepsForm_accepted (fun _ => keepsForm_piece (keepsForm_writeFrames n) (.of_eq rfl)) s

theorem keepsForm_runXdone (s : State) : KeepsForm s (runXdone s) := by
  have hwatch : KeepsForm s (watchReads s) := .of_eq rfl
  exact hwatch.trans (keepsForm_piece (keepsForm_tailPiece keepsForm_runFrames) (.of_eq rfl))

theorem keepsForm_readEffect (n : Nat) (s : State) : KeepsForm s (readEffect n s) :=
  ⟨fun h => storageWf_readEffect h n, by unfold readEffect; split <;> rfl⟩

theorem keepsForm_runRead (n : Nat) (s : State) : KeepsForm s (runRead n s) :=
  keepsForm_accepted (fun u => keepsForm_piece keepsForm_completeCmd (keepsForm_readEffect n u)) s

/-! ### Every step -/

theorem keepsForm_runOf (i : Instr) (s : State) : KeepsForm s (runOf i s) := by
  cases i with
  | nop _ => exact keepsForm_accepted keepsForm_completeCmd s
  | init _ => exact keepsForm_accepted (keepsForm_initChecked s.cfg) s
  | setBlock b => exact keepsForm_runSetBlock b s
  | write n => exact keepsForm_runWrite n s
  | read n => exact keepsForm_runRead n s
  | xdone _ => exact keepsForm_runXdone s
  | sreset _ => exact keepsForm_runSreset s

theorem keepsForm_submit {w : Word} {s t : State} (ht : submit w s = .next t) : KeepsForm s t := by
  unfold submit at ht
  split at ht
  · rcases exec_cases ‹Instr› s with ⟨e, -, he⟩ | ⟨-, he⟩
    · cases he.symm.trans ht
      exact .of_eq rfl
    · cases he.symm.trans ht
      exact keepsForm_runOf _ s
  · cases ht
    rw [rejectReserved_eq]
    exact .of_eq rfl

theorem keepsForm_performInput {i : Input} {s t : State} (ht : performInput i s = .next t) : KeepsForm s t := by
  unfold performInput at ht
  split at ht
  · cases ht
    unfold setRst
    split
    · exact keepsForm_hardReset s
    · exact .of_eq rfl
  · cases ht
    exact .of_eq rfl
  · split at ht
    · cases ht
      exact .refl s
    split at ht
    · exact KeepsForm.trans (t := respond writeDone s) (.of_eq rfl) (keepsForm_submit ht)
    · cases ht
      exact keepsForm_performAccess _ s

/-- An arrival is taken, performed and settled. -/
theorem keepsForm_step {s t : State} (ht : step s = .next t) : KeepsForm s t := by
  rcases step_cases s with ⟨-, hidle⟩ | ⟨a, rest, u, -, hu, hserved⟩
  · cases hidle.symm.trans ht
    exact .of_eq rfl
  · cases hserved.symm.trans ht
    have htake : KeepsForm s (takeArrival a rest s) := .of_eq rfl
    exact (htake.trans (keepsForm_performInput hu)).trans ((keepsForm_settleTransit u).trans (.of_eq rfl))

/-- Settles O54: a step is a course of operations, each of which keeps the canonical form and the parameters. -/
theorem stepKeepsStorageCanonical : Obligations.StepKeepsStorageCanonical := by
  unfold Obligations.StepKeepsStorageCanonical
  intro s t h ht
  exact ⟨(keepsForm_step ht).wf h, (keepsForm_step ht).build⟩

end Sys2Proof.Machine
end

section
/-! SUPPORT. One input that lands at the first point of a command (60_exceptions.md R385; 70_reset_and_hazards.md R431):
a command word is rejected with BUSY, a read of STATUS is performed, and the command goes on. -/

namespace Sys2Proof.Machine

/-! ### One input at the first point -/

/-- The block with one input to land at the first point of the next command. -/
def landing (l : Landing) (s : State) : State := { s with overlap := [[l]] }

/-- The operands and the state decide a command, not what will land while it runs. -/
theorem rejection_landing (l : Landing) (s : State) (i : Instr) : rejection (landing l s) i = rejection s i := by
  cases i <;> rfl

/-- The command goes on once the input is performed. -/
theorem atPoint_landing {l : Landing} {s : State} (htr : s.transit = .none)
    (hbusy : (busyInput l { acceptCmd (landing l s) with overlap := [] }).busy = true) (k : State → State) :
    atPoint k (acceptCmd (landing l s)) = k (busyInput l { acceptCmd (landing l s) with overlap := [] }) :=
  atPoint_one (s := acceptCmd (landing l s)) rfl (congrArg Transit.late htr) hbusy k

/-! ### A command word while NOP, SET_BLOCK or READ runs -/

/-- The rejection of a command word while a command runs, and the response to its write. -/
def turnedAway (s : State) : State := rejectCmd .busy (respond writeDone s)

/-- The write of a command word. -/
def commandLanding (b : Build) (w : Word) (d : Nat) : Landing :=
  { input := .access (.write (b.base + 0x020) 32 w), draw := d }

theorem busyInput_command {s : State} (hbase : s.build.base % Config.windowBytes = 0) (w : Word) (d : Nat) :
    busyInput (commandLanding s.build w d) s = turnedAway s := by
  unfold busyInput commandLanding
  dsimp only
  rw [commandWord_cmd hbase]
  rfl

theorem atPoint_command {s : State} (h : Quiet s) (hbase : s.build.base % Config.windowBytes = 0) (w : Word)
    (d : Nat) (k : State → State) :
    atPoint k (acceptCmd (landing (commandLanding s.build w d) s)) = k (turnedAway { s with busy := true }) := by
  obtain ⟨-, hov, htr⟩ := h
  have hpoint : { acceptCmd (landing (commandLanding s.build w d) s) with overlap := [] } =
      { s with busy := true } := by
    ext1 <;> simp [commandLanding, landing, acceptCmd, watchReads, watchedReads, hov, htr]
  have hinput := busyInput_command (s := { s with busy := true }) hbase w d
  have hlanded := (congrArg (busyInput (commandLanding s.build w d)) hpoint).trans hinput
  exact (atPoint_landing htr (congrArg State.busy hlanded) k).trans (congrArg k hlanded)

theorem readEffect_turnedAway (n : Nat) (s : State) : readEffect n (turnedAway s) = turnedAway (readEffect n s) := by
  by_cases havail : s.outIx.avail < n
  · rw [readEffect_underflows havail, readEffect_underflows (s := turnedAway s) havail]
    rfl
  · rw [readEffect_moves (not_lt.1 havail), readEffect_moves (s := turnedAway s) (not_lt.1 havail)]
    rfl

theorem finishRebuild_turnedAway (s : State) : finishRebuild (turnedAway s) = turnedAway (finishRebuild s) := by
  have hpad : orbPad (turnedAway s) = turnedAway (orbPad s) := rfl
  have hclear : ∀ cap u, rbClear cap (turnedAway u) = turnedAway (rbClear cap u) := fun _ _ => rfl
  have hlatency : ∀ u, setLatency (turnedAway u) = turnedAway (setLatency u) := fun _ => rfl
  unfold finishRebuild
  rw [hpad, hclear, hlatency]
  rfl

theorem setBlockActive_turnedAway (b : Nat) (s : State) :
    setBlockActive b (turnedAway s) = turnedAway (setBlockActive b s) := by
  have hbegin : beginSetBlock b (turnedAway s) = turnedAway (beginSetBlock b s) := rfl
  unfold setBlockActive finishSetBlock
  rw [hbegin, finishRebuild_turnedAway]
  rfl

theorem setBlockRings_turnedAway {s : State} (hov : s.overlap = []) (htr : s.transit = .none) (b : Nat) :
    setBlockRings b (turnedAway s) = turnedAway (setBlockRings b s) := by
  rw [setBlockRings_nil hov htr, setBlockRings_nil (s := turnedAway s) hov htr]
  by_cases hq : s.seq = .ready
  · rw [if_pos hq, if_pos (show (turnedAway s).seq = .ready from hq), setBlockActive_turnedAway]
    rfl
  · rw [if_neg hq, if_neg (show ¬(turnedAway s).seq = .ready from hq)]
    rfl

theorem readEffect_overlap (n : Nat) (s : State) : (readEffect n s).overlap = s.overlap := by
  unfold readEffect; split <;> rfl

theorem readEffect_transit (n : Nat) (s : State) : (readEffect n s).transit = s.transit := by
  unfold readEffect; split <;> rfl

/-- An operation with no input in it commutes with the rejection, and so does the rest of the command. -/
theorem piece_turnedAway {f k : State → State} {wrote : State → Nat → Bool} {s : State}
    (hf : f (turnedAway s) = turnedAway (f s)) (hk : k (turnedAway (f s)) = turnedAway (k (f s)))
    (hov : (f s).overlap = []) (htr : (f s).transit = .none) :
    piece f wrote k (turnedAway s) = turnedAway (piece f wrote k s) := by
  have hov' : (f (turnedAway s)).overlap = [] := hf ▸ hov
  have htr' : (f (turnedAway s)).transit = .none := hf ▸ htr
  rw [piece_nil hov htr, piece_nil hov' htr', hf, hk]

/-- A NOP, a SET_BLOCK or a READ does what it does, a command word turned away at its first point. -/
theorem runOf_command {i : Instr} {s : State} (hi : (∃ a, i = .nop a) ∨ (∃ b, i = .setBlock b) ∨ ∃ n, i = .read n)
    (h : Quiet s) (hbase : s.build.base % Config.windowBytes = 0) (w : Word) (d : Nat) :
    runOf i (landing (commandLanding s.build w d) s) = turnedAway (runOf i s) := by
  obtain ⟨-, hov, htr⟩ := id h
  have hcourse : ∀ k : State → State,
      k (turnedAway { s with busy := true }) = turnedAway (k { s with busy := true }) →
      atPoint k (acceptCmd (landing (commandLanding s.build w d) s)) = turnedAway (atPoint k (acceptCmd s)) :=
    fun k hk => by
      rw [atPoint_command h hbase, hk, acceptCmd_nil hov htr, atPoint_nil (s := { s with busy := true }) hov htr]
  rcases hi with ⟨a, rfl⟩ | ⟨b, rfl⟩ | ⟨n, rfl⟩
  · exact hcourse completeCmd rfl
  · exact hcourse _ (piece_turnedAway rfl
      (setBlockRings_turnedAway (s := setCfgBlock b { s with busy := true }) hov htr b) hov htr)
  · exact hcourse _ (piece_turnedAway (readEffect_turnedAway n _) rfl
      ((readEffect_overlap n _).trans hov) ((readEffect_transit n _).trans htr))

/-- Settles O12: the word is turned away at the first point, and no later part of the command looks at what that
wrote. -/
theorem overlappedCommandIsRejectedBusy : Obligations.OverlappedCommandIsRejectedBusy := by
  unfold Obligations.OverlappedCommandIsRejectedBusy
  intro i w d s hi h hbase hr
  have hr' := (rejection_landing (commandLanding s.build w d) s i).trans hr
  exact ⟨runOf i s, exec_accepted hr, (exec_accepted hr').trans (congrArg _ (runOf_command hi h hbase w d))⟩

/-! ### A read of STATUS while a NOP runs -/

/-- The field of BUSY is bit 2 of STATUS (10_state.md R71). -/
theorem statusWord_busy (s : State) : statusWord { s with busy := true } = statusWord s ||| 0x4#32 := by
  have hword : ∀ b : Bool, statusWord { s with busy := b } =
      statusHigh s ++ BitVec.ofBool s.underflow ++ BitVec.ofBool b ++ BitVec.ofNat 2 (seqCode s.seq) := fun _ => rfl
  have hbusy : BitVec.ofBool s.busy ||| 1#1 = BitVec.ofBool true := by cases s.busy <;> rfl
  rw [hword true, show statusWord s = _ from hword s.busy, show (0x4#32 : Word) = 0#28 ++ 0#1 ++ 1#1 ++ 0#2 from rfl,
    BitVec.or_append, BitVec.or_append, BitVec.or_append, hbusy, BitVec.or_zero, BitVec.or_zero, BitVec.or_zero]

/-- A read of STATUS. -/
def statusLanding (b : Build) (d : Nat) : Landing := { input := .access (.read (b.base + 0x024) 32), draw := d }

/-- STATUS is not drawn: a read of it shows it as it is where the read lands. -/
theorem busyInput_status {s : State} (hbase : s.build.base % Config.windowBytes = 0) (d : Nat) :
    busyInput (statusLanding s.build d) s = respond { error := false, data := some (statusWord s) } s := by
  have hloc : locate s.build (s.build.base + 0x024) 32 = .csr 0x024 := locate_csr hbase (by omega) (by omega)
  have hdrawn : drawnCsrAt 0x024 = false := by decide
  simp only [busyInput, statusLanding, commandWord, busyAccess, busyRead, hloc, hdrawn, csrReadAt_status,
    Bool.false_eq_true, if_false]

/-- With no drawn read and no host write in transit, the end of a command leaves nothing in transit. -/
theorem requeue_undrawn {s : State} (hov : s.overlap = []) (hlate : s.transit.late = [])
    (hdrawn : s.transit.drawn = []) : requeue s = { s with transit := .none } := by
  unfold requeue settleTransit
  ext1 <;> simp [hov, hlate, hdrawn]

/-- A NOP during which STATUS is read. -/
theorem runNop_status {s : State} (htr : s.transit = .none) (hbase : s.build.base % Config.windowBytes = 0) (d : Nat) :
    runNop (landing (statusLanding s.build d) s) =
      completeCmd (respond { error := false, data := some (statusWord { s with busy := true }) }
        { acceptCmd (landing (statusLanding s.build d) s) with overlap := [] }) := by
  have hread := busyInput_status (s := { acceptCmd (landing (statusLanding s.build d) s) with overlap := [] }) hbase d
  exact (atPoint_landing htr (congrArg State.busy hread) completeCmd).trans (congrArg completeCmd hread)

/-- Settles O13: the read lands while `busy` is 1, and is not drawn. -/
theorem statusReadDuringCommandShowsBusy : Obligations.StatusReadDuringCommandShowsBusy := by
  unfold Obligations.StatusReadDuringCommandShowsBusy
  intro a d s h hbase
  obtain ⟨hidle, hov, htr⟩ := h
  have hexec : exec (.nop a) (landing (statusLanding s.build d) s) = .next _ :=
    exec_accepted ((rejection_landing _ s (.nop a)).trans (rejection_none hidle rfl rfl))
  refine (congrArg settled hexec).trans (congrArg Host.Outcome.next ?_)
  rw [show runOf (.nop a) = runNop from rfl, runNop_status htr hbase, statusWord_busy, requeue_undrawn]
  · ext1 <;> simp [landing, hidle, hov, htr]
  · rfl
  · exact congrArg Transit.late htr
  · exact congrArg Transit.drawn htr

end Sys2Proof.Machine
end

section
/-! SUPPORT. A host read that lands during a READ, of a word the READ writes (70_reset_and_hazards.md R432): the values
noted for it are the word before the command and the word the READ gives, and its draw picks one. -/

namespace Sys2Proof.Machine

/-! ### The record of the port -/

/-- The block with another record of the port: what will land, what is in transit, and the responses. -/
def withRecord (ov : List (List Landing)) (tr : Transit) (rs : List Response) (s : State) : State :=
  { s with overlap := ov, transit := tr, resp := rs }

/-- READ's effect does not look at the port's record. -/
theorem readEffect_withRecord (n : Nat) (ov : List (List Landing)) (tr : Transit) (rs : List Response) (s : State) :
    readEffect n (withRecord ov tr rs s) = withRecord ov tr rs (readEffect n s) := by
  by_cases havail : s.outIx.avail < n
  · rw [readEffect_underflows havail, readEffect_underflows (s := withRecord ov tr rs s) havail]
    rfl
  · rw [readEffect_moves (not_lt.1 havail), readEffect_moves (s := withRecord ov tr rs s) (not_lt.1 havail)]
    rfl

/-- READ's effect gives a value to every word of STAGE_OUT that it writes. -/
theorem givesValue_readGives {n j c f : Nat} {s : State} (hj : j < s.J) (hc : c < s.C) (hf : f < n) (old u : State) :
    givesValue (readGives n s) old u (stageOff s.build .stageOut j c f) = true := by
  have hstored : storedWords (stageWords n fun _ _ _ => posZero) s (stageOff s.build .stageOut j c f) = true :=
    List.any_eq_true.2 ⟨_, mem_sweep.2 ⟨j, c, f, hj, hc, hf, rfl⟩, decide_eq_true rfl⟩
  rw [givesValue, readGives, hstored, Bool.true_or, Bool.true_or]

/-! ### A drawn read of one RAM word -/

/-- A read of the word at a window offset. -/
def readLanding (b : Build) (off d : Nat) : Landing := { input := .access (.read (b.base + off) 32), draw := d }

/-- The read is still to land, and the given values are noted for it. -/
def watching (off : Nat) (values : List Word) : Transit :=
  { watched := [{ off := off, values := values }], late := [], drawn := [] }

/-- The read has landed, what is watched no longer mattering. -/
def drawing (ws : List Watched) (r : DrawnRead) : Transit := { watched := ws, late := [], drawn := [r] }

theorem csrPageEnd_le_of_regionOf {off : Nat} {r : Region} (h : regionOf off = some r) : csrPageEnd ≤ off := by
  have hbase := (regionOf_eq_some.1 h).1
  have : csrPageEnd ≤ regionBase r := by cases r <;> decide
  omega

theorem windowWord_ram {off : Nat} (h : csrPageEnd ≤ off) (s : State) : windowWord s off = s.wordAt off :=
  if_neg (not_lt.2 h)

theorem givenWord_ram {off : Nat} (h : csrPageEnd ≤ off) (old s : State) (live : Word) :
    givenWord old s off live = s.wordAt off :=
  if_neg (not_lt.2 h)

theorem hostWord_of_late_nil {s : State} (h : s.transit.late = []) (off : Nat) : hostWord s off = s.wordAt off := by
  unfold hostWord
  rw [h]
  rfl

/-- The value before the command is noted when the command is accepted. -/
theorem acceptCmd_readLanding {s : State} {off : Nat} {r : Region} (htr : s.transit = .none)
    (hloc : locate s.build (s.build.base + off) 32 = .ram r off) (p d : Nat) :
    acceptCmd { s with overlap := List.replicate p [] ++ [[readLanding s.build off d]] } =
      withRecord (List.replicate p [] ++ [[readLanding s.build off d]]) (watching off [s.wordAt off]) s.resp
        { s with busy := true } := by
  have hword : windowWord s off = s.wordAt off :=
    windowWord_ram (csrPageEnd_le_of_regionOf (locate_eq_ram hloc).1) s
  have hwatched : watchedReads { s with overlap := List.replicate p [] ++ [[readLanding s.build off d]] } =
      [{ off := off, values := [s.wordAt off] }] := by
    simp [watchedReads, readLanding, hloc, ← hword]
    rfl
  unfold acceptCmd watchReads
  rw [hwatched, htr]
  rfl

/-- A read that has landed: its place is the last of the responses, and the values noted for it are its draws. -/
def landedRead (off d : Nat) (rs : List Response) (live : Word) (values : List Word) : DrawnRead :=
  { index := rs.length, off := off, draw := d, live := live, values := values }

/-- A response with the data v. -/
def gives (v : Word) : Response := { error := false, data := some v }

/-- Where the read lands it is given the word as it is, and draws among the values noted. -/
theorem busyInput_readLanding {b : Build} {s : State} {off : Nat} {r : Region} (ov : List (List Landing))
    (rs : List Response) (values : List Word) (hloc : locate s.build (b.base + off) 32 = .ram r off) (d : Nat) :
    busyInput (readLanding b off d) (withRecord ov (watching off values) rs s) =
      withRecord ov
        (drawing [{ off := off, values := values }] (landedRead off d rs (s.wordAt off) values))
        (rs ++ [gives (s.wordAt off)]) s := by
  refine (busyInput_readRam (s := withRecord ov (watching off values) rs s) hloc).trans ?_
  rw [hostWord_of_late_nil rfl]
  simp [drawRead, withRecord, watching, notedValues]
  rfl

/-- The end of a command resolves the one drawn read. -/
theorem requeue_drawing {ws : List Watched} {r : DrawnRead} {rs : List Response} {asIs : Word} {s : State}
    (hindex : r.index = rs.length) :
    requeue (withRecord [] (drawing ws r) (rs ++ [gives asIs]) s) =
      withRecord [] .none (rs ++ [gives (drawnWord r asIs)]) s := by
  unfold requeue settleTransit
  ext1 <;> simp [withRecord, drawing, gives, resolveRead_last _ _ hindex]

/-- The draw picks the word as it was where the read landed, or one of the two values noted. -/
theorem drawnWord_two {r : DrawnRead} {old new : Word} (h : r.values = [old, new]) (asIs : Word) :
    drawnWord r asIs = [asIs, old, new].getD (r.draw % 3) asIs := by
  unfold drawnWord
  rw [h]
  exact if_pos (.inr Nat.one_lt_two)

/-- The command gives a value to a word that a read has landed on. -/
theorem noteGiven_drawing {wrote : Nat → Bool} {ov : List (List Landing)} {ws : List Watched} {r : DrawnRead}
    {rs : List Response} {old s : State} (hram : csrPageEnd ≤ r.off)
    (hgives : ∀ u, givesValue wrote old u r.off = true) :
    ∃ ws', noteGiven wrote old (withRecord ov (drawing ws r) rs s) =
      withRecord ov (drawing ws' { r with live := s.wordAt r.off, values := r.values ++ [s.wordAt r.off] }) rs s := by
  refine ⟨ws.map (Watched.note wrote old (withRecord ov (drawing ws r) rs s)), ?_⟩
  have hnote : r.note wrote old (withRecord ov (drawing ws r) rs s) =
      { r with live := s.wordAt r.off, values := r.values ++ [s.wordAt r.off] } := by
    unfold DrawnRead.note
    rw [if_pos (hgives _), givenWord_ram hram]
    rfl
  exact congrArg (fun r' => withRecord ov (drawing _ r') rs s) hnote

/-- The command gives a value to a word that a read is still to land on. -/
theorem noteGiven_watching {wrote : Nat → Bool} {off : Nat} {values : List Word} {ov : List (List Landing)}
    {rs : List Response} {old s : State} (hram : csrPageEnd ≤ off) (hgives : ∀ u, givesValue wrote old u off = true) :
    noteGiven wrote old (withRecord ov (watching off values) rs s) =
      withRecord ov (watching off (values ++ [s.wordAt off])) rs s := by
  have hnote : Watched.note wrote old (withRecord ov (watching off values) rs s) { off := off, values := values } =
      { off := off, values := values ++ [s.wordAt off] } := by
    unfold Watched.note
    rw [if_pos (hgives _), windowWord_ram hram]
    rfl
  exact congrArg (fun w => withRecord ov { watched := [w], late := [], drawn := [] } rs s) hnote

/-! ### A command of one piece during which the read lands -/

section
variable {f : State → State} {wrote : State → Nat → Bool} {off : Nat} {s : State}
  (hf : ∀ ov tr rs, f (withRecord ov tr rs s) = withRecord ov tr rs (f s)) (hram : csrPageEnd ≤ off)
  (hgives : ∀ ov tr rs old u, givesValue (wrote (withRecord ov tr rs s)) old u off = true)
include hf hram hgives

/-- The read has landed before the piece. -/
theorem piece_drawing (ws : List Watched) (d : Nat) (rs : List Response) (old asIs : Word) :
    requeue (piece f wrote completeCmd
        (withRecord [] (drawing ws (landedRead off d rs asIs [old])) (rs ++ [gives asIs]) s)) =
      withRecord [] .none (rs ++ [gives ([asIs, old, (f s).wordAt off].getD (d % 3) asIs)]) (completeCmd (f s)) := by
  obtain ⟨ws', hnote⟩ := noteGiven_drawing (ov := []) (rs := rs ++ [gives asIs]) (ws := ws)
    (r := landedRead off d rs asIs [old]) (s := f s) hram (hgives _ _ _ _)
  unfold piece
  rw [hf, hnote, atPoint_tick rfl, tickLate_nil rfl]
  exact (requeue_drawing (s := completeCmd (f s)) rfl).trans (by rw [drawnWord_two rfl]; rfl)

/-- The read lands after the piece. -/
theorem piece_watching {b : Build} {r : Region} (hbusy : (f s).busy = true)
    (hloc : locate (f s).build (b.base + off) 32 = .ram r off) (d : Nat) (rs : List Response) (old : Word) :
    requeue (piece f wrote completeCmd (withRecord [[readLanding b off d]] (watching off [old]) rs s)) =
      withRecord [] .none
        (rs ++ [gives ([(f s).wordAt off, old, (f s).wordAt off].getD (d % 3) ((f s).wordAt off))])
        (completeCmd (f s)) := by
  have hlanded := busyInput_readLanding [] rs [old, (f s).wordAt off] hloc d
  unfold piece
  rw [hf, noteGiven_watching hram (hgives _ _ _ _)]
  refine (congrArg requeue ((atPoint_one rfl rfl ?_ completeCmd).trans (congrArg completeCmd hlanded))).trans ?_
  · exact (congrArg State.busy hlanded).trans hbusy
  · exact (requeue_drawing (s := completeCmd (f s)) rfl).trans (by rw [drawnWord_two rfl]; rfl)

end

/-! ### The two points of a READ -/

/-- The block once an accepted READ has had its effect. -/
def readOut (n : Nat) (s : State) : State := readEffect n { s with busy := true }

theorem readEffect_resp (n : Nat) (s : State) : (readEffect n s).resp = s.resp := by
  unfold readEffect; split <;> rfl

/-- A READ during which one of its words is read: the response is the word as it was where the read landed, before
the command or after it, and all else is as without the read. -/
theorem runRead_readLanding {n j c f off p : Nat} {s : State} {r : Region} (htr : s.transit = .none) (hj : j < s.J)
    (hc : c < s.C) (hf : f < n) (hoff : off = stageOff s.build .stageOut j c f)
    (hloc : locate s.build (s.build.base + off) 32 = .ram r off) (hp : p < 2) :
    ∃ asIs, (asIs = s.wordAt off ∨ asIs = (readOut n s).wordAt off) ∧
      ∀ d, requeue (runRead n { s with overlap := List.replicate p [] ++ [[readLanding s.build off d]] }) =
        withRecord [] .none (s.resp ++ [gives ([asIs, s.wordAt off, (readOut n s).wordAt off].getD (d % 3) asIs)])
          (completeCmd (readOut n s)) := by
  have hram := csrPageEnd_le_of_regionOf (locate_eq_ram hloc).1
  have hrecord := fun ov tr rs => readEffect_withRecord n ov tr rs { s with busy := true }
  have hgives : ∀ ov tr rs old u,
      givesValue (readGives n (withRecord ov tr rs { s with busy := true })) old u off = true :=
    fun ov tr rs => hoff ▸ givesValue_readGives (s := withRecord ov tr rs { s with busy := true }) hj hc hf
  have haccept := acceptCmd_readLanding htr hloc p
  have hpoint : p = 0 ∨ p = 1 := by omega
  rcases hpoint with rfl | rfl
  · refine ⟨s.wordAt off, .inl rfl, fun d => ?_⟩
    have hlanded := busyInput_readLanding (s := { s with busy := true }) [] s.resp [s.wordAt off] hloc d
    unfold runRead
    rw [haccept]
    refine (congrArg requeue ((atPoint_one rfl rfl (congrArg State.busy hlanded) _).trans (congrArg _ hlanded))).trans ?_
    exact piece_drawing hrecord hram hgives _ d s.resp (s.wordAt off) (s.wordAt off)
  · refine ⟨(readOut n s).wordAt off, .inr rfl, fun d => ?_⟩
    have hloc' : locate (readOut n s).build (s.build.base + off) 32 = .ram r off := by
      rw [readOut, (keepsForm_readEffect n _).build]
      exact hloc
    unfold runRead
    rw [haccept]
    refine (congrArg requeue (atPoint_skip rfl rfl rfl _)).trans ?_
    exact piece_watching hrecord hram hgives (readEffect_busy n _) hloc' d s.resp (s.wordAt off)

theorem getD_three (x y z : Word) (d : Nat) :
    [x, y, z].getD (d % 3) x = x ∨ [x, y, z].getD (d % 3) x = y ∨ [x, y, z].getD (d % 3) x = z := by
  have hd : d % 3 = 0 ∨ d % 3 = 1 ∨ d % 3 = 2 := by omega
  rcases hd with h | h | h
  · exact .inl (by rw [h]; rfl)
  · exact .inr (.inl (by rw [h]; rfl))
  · exact .inr (.inr (by rw [h]; rfl))

/-- Settles O14: the values a READ's word has are the one before the command and the one it gives, and a draw of 1
and of 2 pick them. -/
theorem overlappedReadDrawsOldOrNew : Obligations.OverlappedReadDrawsOldOrNew := by
  unfold Obligations.OverlappedReadDrawsOldOrNew
  intro n j c f p d s t h hq hn hcap hj hc hf hp ht off during reads
  obtain ⟨hidle, hov, htr⟩ := h.quiet
  obtain rfl : completeCmd (readOut n s) = t := by
    cases (exec_read h.quiet hq hn hcap).symm.trans ht
    rfl
  have hC := s.C_le
  have hJ : s.J ≤ s.build.outMax := (h.active (by simp [hq])).2.outputs_ok.2
  have hloc : locate s.build (s.build.base + off) 32 = .ram .stageOut off :=
    locate_stageOut h.build_valid (by omega) (by omega) (by omega)
  have hrange : operandError s (.read n) = none := if_neg (by omega)
  have haccept : rejection s (.read n) = none := rejection_none hidle (decide_eq_true hq) hrange
  obtain ⟨asIs, hasIs, hrun⟩ := runRead_readLanding htr hj hc hf rfl hloc hp
  have hreads : ∀ e, settled (exec (.read n) (during e)) =
      .next (reads ([asIs, s.wordAt off, (readOut n s).wordAt off].getD (e % 3) asIs)) := fun e => by
    rw [exec_accepted (s := during e) haccept]
    refine congrArg Host.Outcome.next ((hrun e).trans ?_)
    have hov' : (readOut n s).overlap = [] := (readEffect_overlap n _).trans hov
    have htr' : (readOut n s).transit = .none := (readEffect_transit n _).trans htr
    have hresp : (readOut n s).resp = s.resp := readEffect_resp n _
    unfold withRecord
    rw [← hov', ← htr', ← hresp]
    rfl
  refine ⟨?_, ⟨1, hreads 1⟩, ⟨2, hreads 2⟩⟩
  rw [hreads d]
  have hpick : [asIs, s.wordAt off, (readOut n s).wordAt off].getD (d % 3) asIs = s.wordAt off ∨
      [asIs, s.wordAt off, (readOut n s).wordAt off].getD (d % 3) asIs = (readOut n s).wordAt off := by
    rcases getD_three asIs (s.wordAt off) ((readOut n s).wordAt off) d with he | he | he
    · rw [he]
      exact hasIs
    · exact .inl he
    · exact .inr he
  exact hpick.imp (fun he => by rw [he]) fun he => by rw [he]; rfl

end Sys2Proof.Machine
end

section
/-! SUPPORT. Host writes of RAM words that land during a WRITE (70_reset_and_hazards.md R432): each is performed at
once for the host and reaches the word after the points it has to wait, so the WRITE uses the old or the new word of
each by itself. -/

namespace Sys2Proof.Machine

/-- A run of word writes none of which is of this word leaves it alone. -/
theorem wordAt_setWords_other {s t : State} {kvs : List (Nat × Word)} {off : Nat} (hm : t.mem = s.mem.setWords kvs)
    (he : t.epoch = s.epoch) (hoff : off % 4 = 0) (halign : ∀ kv ∈ kvs, kv.1 % 4 = 0) (hne : ∀ kv ∈ kvs, kv.1 ≠ off) :
    t.wordAt off = s.wordAt off := by
  refine State.wordAt_congr fun i hi => State.byteAt_congr ?_ he
  rw [hm]
  refine Memory.get?_setWords_outside fun kv hkv => ?_
  have h1 := halign kv hkv
  have h2 := hne kv hkv
  omega

theorem State.wordAt_of_mem {s t : State} (hm : t.mem = s.mem) (he : t.epoch = s.epoch) (off : Nat) :
    t.wordAt off = s.wordAt off :=
  State.wordAt_congr fun _ _ => State.byteAt_congr (by rw [hm]) he

/-! ### The writes that reach their words -/

/-- The writes in transit are of words a host may write, and of different ones. -/
structure Spread (s : State) : Prop where
  late : LateOk s
  nodup : (s.transit.late.map LateWrite.off).Nodup

/-- The writes that have no point left to wait. -/
def due (s : State) : List (Nat × Word) :=
  (s.transit.late.filter fun e => decide (e.wait = 0)).map fun e => (e.off, e.data)

theorem reachRam_mem (s : State) : (reachRam s).mem = s.mem.setWords (due s) := rfl

theorem mem_reachRam_late {s : State} {e : LateWrite} :
    e ∈ (reachRam s).transit.late ↔ e ∈ s.transit.late ∧ e.wait ≠ 0 := by
  unfold reachRam
  rw [List.mem_filter, decide_eq_true_iff]

theorem mem_due {s : State} {kv : Nat × Word} :
    kv ∈ due s ↔ { off := kv.1, data := kv.2, wait := 0 } ∈ s.transit.late := by
  unfold due
  simp only [List.mem_map, List.mem_filter, decide_eq_true_eq]
  constructor
  · rintro ⟨⟨o, v, w⟩, ⟨hmem, rfl⟩, rfl⟩
    exact hmem
  · exact fun h => ⟨_, ⟨h, rfl⟩, rfl⟩

theorem due_aligned {s : State} (h : LateOk s) : ∀ kv ∈ due s, kv.1 % 4 = 0 := fun _ hkv => (h _ (mem_due.1 hkv)).1

theorem Spread.due_nodup {s : State} (h : Spread s) : ((due s).map Prod.fst).Nodup := by
  unfold due
  rw [List.map_map]
  exact h.nodup.sublist (List.filter_sublist.map _)

theorem spread_reachRam {s : State} (h : Spread s) : Spread (reachRam s) where
  late := (reachRam_disturbs s).late h.late
  nodup := h.nodup.sublist (List.filter_sublist.map _)

/-- Two writes in transit of one word are one. -/
theorem Spread.eq_of_off {s : State} (h : Spread s) {e e' : LateWrite} (he : e ∈ s.transit.late)
    (he' : e' ∈ s.transit.late) (ho : e.off = e'.off) : e = e' :=
  List.inj_on_of_nodup_map h.nodup he he' ho

/-- A due write leaves its word. -/
theorem reachRam_wordAt_due {s : State} (h : Spread s) {e : LateWrite} (he : e ∈ s.transit.late)
    (hwait : e.wait = 0) : (reachRam s).wordAt e.off = e.data := by
  obtain ⟨-, r, hr, -⟩ := h.late e he
  have hdue : (e.off, e.data) ∈ due s := mem_due.2 (by rw [← hwait]; exact he)
  exact wordAt_setWords (kv := (e.off, e.data)) (reachRam_mem s) hdue h.due_nodup (due_aligned h.late) hr

/-- A word no due write is of stays as it is. -/
theorem reachRam_wordAt_other {s : State} (h : LateOk s) {off : Nat} (hoff : off % 4 = 0)
    (hne : ∀ e ∈ s.transit.late, e.wait = 0 → e.off ≠ off) : (reachRam s).wordAt off = s.wordAt off :=
  wordAt_setWords_other (reachRam_mem s) rfl hoff (due_aligned h) fun _ hkv => hne _ (mem_due.1 hkv) rfl

/-! ### A write on its way -/

/-- The write w of a word that held old is on its way: it has reached the word, or it waits in transit. -/
def Awaits (s : State) (w : LateWrite) (old : Word) : Prop :=
  if w.wait = 0 then s.wordAt w.off = w.data ∧ ∀ e ∈ s.transit.late, e.off ≠ w.off
  else s.wordAt w.off = old ∧ w ∈ s.transit.late

theorem Awaits.wordAt {s : State} {w : LateWrite} {old : Word} (h : Awaits s w old) :
    s.wordAt w.off = if w.wait = 0 then w.data else old := by
  unfold Awaits at h
  split at h
  · rw [if_pos ‹_›, h.1]
  · rw [if_neg ‹_›, h.1]

/-- It is a matter of the RAM and of the writes in transit. -/
theorem Awaits.congr {s t : State} {w : LateWrite} {old : Word} (h : Awaits s w old) (hm : t.mem = s.mem)
    (he : t.epoch = s.epoch) (hl : t.transit.late = s.transit.late) : Awaits t w old := by
  unfold Awaits at *
  rw [State.wordAt_of_mem hm he, hl]
  exact h

/-- A write in transit, once the due ones have reached their words. -/
theorem awaits_reachRam {s : State} (h : Spread s) {w : LateWrite} (hw : w ∈ s.transit.late) :
    Awaits (reachRam s) w (s.wordAt w.off) := by
  unfold Awaits
  split
  · rename_i hwait
    refine ⟨reachRam_wordAt_due h hw hwait, fun e he ho => ?_⟩
    obtain ⟨hmem, hne⟩ := mem_reachRam_late.1 he
    exact hne (h.eq_of_off hmem hw ho ▸ hwait)
  · rename_i hwait
    refine ⟨reachRam_wordAt_other h.late (h.late w hw).1 fun e he hdue ho => ?_, mem_reachRam_late.2 ⟨hw, hwait⟩⟩
    exact hwait (h.eq_of_off he hw ho ▸ hdue)

/-- A write that has reached its word, no other of that word in transit. -/
theorem awaits_reachRam_reached {s : State} (h : LateOk s) {w : LateWrite} {old : Word} (hoff : w.off % 4 = 0)
    (hwait : w.wait = 0) (hword : s.wordAt w.off = w.data) (hne : ∀ e ∈ s.transit.late, e.off ≠ w.off) :
    Awaits (reachRam s) w old := by
  unfold Awaits
  rw [if_pos hwait, reachRam_wordAt_other h hoff fun e he _ => hne e he]
  exact ⟨hword, fun e he => hne e (mem_reachRam_late.1 he).1⟩

/-! ### Several writes on their way -/

/-- The writes ws, of words that a host may write and that held what s has there, are on their way in x, and no
other write is. -/
structure Awaiting (s : State) (ws : List LateWrite) (x : State) : Prop extends Spread x where
  host : ∀ w ∈ ws, HostWord w.off
  each : ∀ w ∈ ws, Awaits x w (s.wordAt w.off)
  only : ∀ e ∈ x.transit.late, ∃ w ∈ ws, w.off = e.off
  frame : ∀ off, off % 4 = 0 → (∀ w ∈ ws, w.off ≠ off) → x.wordAt off = s.wordAt off

theorem awaiting_nil {s : State} (h : s.transit.late = []) : Awaiting s [] s where
  late := fun e he => by rw [h] at he; cases he
  nodup := by rw [h]; exact List.nodup_nil
  host := fun _ hw => nomatch hw
  each := fun _ hw => nomatch hw
  only := fun e he => by rw [h] at he; cases he
  frame := fun _ _ _ => rfl

theorem Awaiting.congr {s x y : State} {ws : List LateWrite} (h : Awaiting s ws x) (hm : y.mem = x.mem)
    (he : y.epoch = x.epoch) (hl : y.transit.late = x.transit.late) : Awaiting s ws y where
  late := fun e hmem => h.late e (hl ▸ hmem)
  nodup := by rw [hl]; exact h.nodup
  host := h.host
  each := fun w hw => (h.each w hw).congr hm he hl
  only := fun e hmem => h.only e (hl ▸ hmem)
  frame := fun off h4 hne => (State.wordAt_of_mem hm he off).trans (h.frame off h4 hne)

/-- A point passes for a write. -/
def LateWrite.tick (w : LateWrite) : LateWrite := { w with wait := w.wait - 1 }

/-- The writes in transit replaced. -/
def withLate (ls : List LateWrite) (s : State) : State := { s with transit := { s.transit with late := ls } }

theorem Awaiting.tick {s x : State} {ws : List LateWrite} (h : Awaiting s ws x) :
    Awaiting s (ws.map LateWrite.tick) (tickLate x) := by
  have hspread : Spread (withLate (x.transit.late.map LateWrite.tick) x) := by
    refine ⟨fun e he => ?_, ?_⟩
    · obtain ⟨e', he', rfl⟩ := List.mem_map.1 he
      exact h.late e' he'
    · have hoffs : (x.transit.late.map LateWrite.tick).map LateWrite.off = x.transit.late.map LateWrite.off := by
        rw [List.map_map]
        rfl
      exact hoffs ▸ h.nodup
  have honly : ∀ e ∈ x.transit.late.map LateWrite.tick, ∃ w ∈ ws, w.off = e.off := fun e he => by
    obtain ⟨e', he', rfl⟩ := List.mem_map.1 he
    exact h.only e' he'
  refine ⟨spread_reachRam hspread, fun w hw => ?_, fun w hw => ?_, fun e he => ?_, fun off h4 hne => ?_⟩
  · obtain ⟨w', hw', rfl⟩ := List.mem_map.1 hw
    exact h.host w' hw'
  · obtain ⟨w', hw', rfl⟩ := List.mem_map.1 hw
    have hw'' := h.each w' hw'
    unfold Awaits at hw''
    split at hw''
    · rename_i hwait
      refine awaits_reachRam_reached (s := withLate _ x) hspread.late (h.host w' hw').1
        (by rw [LateWrite.tick, hwait]) hw''.1 fun e he => ?_
      obtain ⟨e', he', rfl⟩ := List.mem_map.1 he
      exact hw''.2 e' he'
    · have hq := awaits_reachRam (s := withLate _ x) hspread (List.mem_map.2 ⟨w', hw''.2, rfl⟩)
      rw [show s.wordAt w'.tick.off = x.wordAt w'.off from hw''.1.symm]
      exact hq
  · obtain ⟨w, hw, ho⟩ := honly e (mem_reachRam_late.1 he).1
    exact ⟨w.tick, List.mem_map.2 ⟨w, hw, rfl⟩, ho⟩
  · have hne' : ∀ w ∈ ws, w.off ≠ off := fun w hw => hne w.tick (List.mem_map.2 ⟨w, hw, rfl⟩)
    rw [← h.frame off h4 hne']
    refine reachRam_wordAt_other (s := withLate _ x) hspread.late h4 fun e he _ ho => ?_
    obtain ⟨w, hw, ho'⟩ := honly e he
    exact hne' w hw (ho'.trans ho)

/-- A further host write, of another word. -/
theorem Awaiting.write {s x : State} {ws : List LateWrite} (h : Awaiting s ws x) {w : LateWrite}
    (hw : HostWord w.off) (hne : ∀ w' ∈ ws, w'.off ≠ w.off) :
    Awaiting s (ws ++ [w]) (lateWrite w.off w.data w.wait x) := by
  have hother : ∀ e ∈ x.transit.late, e.off ≠ w.off := fun e he ho => by
    obtain ⟨w', hw', ho'⟩ := h.only e he
    exact hne w' hw' (ho'.trans ho)
  have hkept : x.transit.late.map
      (fun e => if e.off = w.off then ({ e with wait := min e.wait w.wait } : LateWrite) else e) =
      x.transit.late := by
    refine (List.map_congr_left fun e he => ?_).trans (List.map_id _)
    exact if_neg (hother e he)
  have hlate : lateWrite w.off w.data w.wait x = reachRam (withLate (x.transit.late ++ [w]) x) := by
    unfold lateWrite
    rw [hkept]
    rfl
  have hspread : Spread (withLate (x.transit.late ++ [w]) x) := by
    refine ⟨fun e he => ?_, ?_⟩
    · rcases List.mem_append.1 he with he | he
      · exact h.late e he
      · rw [List.mem_singleton.1 he]
        exact hw
    · have hoffs : (x.transit.late ++ [w]).map LateWrite.off = x.transit.late.map LateWrite.off ++ [w.off] :=
        List.map_append
      have hfresh : w.off ∉ x.transit.late.map LateWrite.off := fun hmem => by
        obtain ⟨e, he, ho⟩ := List.mem_map.1 hmem
        exact hother e he ho
      exact hoffs ▸ List.nodup_append.2 ⟨h.nodup, List.nodup_singleton _,
        fun _ ha _ hb hab => hfresh (List.mem_singleton.1 hb ▸ hab ▸ ha)⟩
  have honly : ∀ e ∈ x.transit.late ++ [w], ∃ w' ∈ ws ++ [w], w'.off = e.off := fun e he => by
    rcases List.mem_append.1 he with he | he
    · obtain ⟨w', hw', ho⟩ := h.only e he
      exact ⟨w', List.mem_append_left _ hw', ho⟩
    · exact ⟨e, List.mem_append_right _ he, rfl⟩
  have hframe : ∀ off, off % 4 = 0 → (∀ w' ∈ ws ++ [w], w'.off ≠ off) →
      (reachRam (withLate (x.transit.late ++ [w]) x)).wordAt off = s.wordAt off := fun off h4 hne' => by
    rw [← h.frame off h4 fun w' hw' => hne' w' (List.mem_append_left _ hw')]
    refine reachRam_wordAt_other (s := withLate _ x) hspread.late h4 fun e he _ ho => ?_
    obtain ⟨w', hw', ho'⟩ := honly e he
    exact hne' w' hw' (ho'.trans ho)
  rw [hlate]
  refine ⟨spread_reachRam hspread, fun w' hw' => ?_, fun w' hw' => ?_, fun e he => honly e (mem_reachRam_late.1 he).1,
    hframe⟩
  · rcases List.mem_append.1 hw' with hw' | hw'
    · exact h.host w' hw'
    · rw [List.mem_singleton.1 hw']
      exact hw
  · rcases List.mem_append.1 hw' with hw' | hw'
    · have hold := h.each w' hw'
      unfold Awaits at hold
      split at hold
      · refine awaits_reachRam_reached (s := withLate _ x) hspread.late (h.host w' hw').1 ‹_› hold.1 fun e he => ?_
        rcases List.mem_append.1 he with he | he
        · exact hold.2 e he
        · rw [List.mem_singleton.1 he]
          exact (hne w' hw').symm
      · rw [← hold.1]
        exact awaits_reachRam (s := withLate _ x) hspread (List.mem_append_left _ hold.2)
    · rw [List.mem_singleton.1 hw', ← h.frame w.off hw.1 hne]
      exact awaits_reachRam (s := withLate _ x) hspread (List.mem_append_right _ (List.mem_singleton.2 rfl))

/-- When the command has ended every write has reached its word. -/
theorem Awaiting.settled {s x : State} {ws : List LateWrite} (h : Awaiting s ws x) {w : LateWrite} (hw : w ∈ ws) :
    (settleTransit x).wordAt w.off = w.data := by
  have halign : ∀ kv ∈ x.transit.late.map (fun e => (e.off, e.data)), kv.1 % 4 = 0 := fun kv hkv => by
    obtain ⟨e, he, rfl⟩ := List.mem_map.1 hkv
    exact (h.late e he).1
  obtain ⟨hoff, r, hr, -⟩ := h.host w hw
  have hon := h.each w hw
  unfold Awaits at hon
  split at hon
  · rw [← hon.1]
    refine wordAt_setWords_other (s := x) rfl rfl hoff halign fun kv hkv => ?_
    obtain ⟨e, he, rfl⟩ := List.mem_map.1 hkv
    exact hon.2 e he
  · have hnodup : ((x.transit.late.map fun e => (e.off, e.data)).map Prod.fst).Nodup := by
      rw [List.map_map]
      exact h.nodup
    exact wordAt_setWords (t := settleTransit x) (kv := (w.off, w.data)) rfl (List.mem_map.2 ⟨w, hon.2, rfl⟩) hnodup
      halign hr

/-! ### Host writes that land at the first point -/

/-- The write as an input that lands during a command. -/
def LateWrite.landing (b : Build) (w : LateWrite) : Landing :=
  { input := .access (.write (b.base + w.off) 32 w.data), draw := w.wait }

/-- A bus write of a word a host may write. -/
def Writable (b : Build) (w : LateWrite) : Prop :=
  ∃ r, locate b (b.base + w.off) 32 = .ram r w.off ∧ regionReadOnly r = false

/-- The block once the write is performed. -/
def landed (w : LateWrite) (s : State) : State := respond writeDone (lateWrite w.off w.data w.wait s)

theorem landed_build (w : LateWrite) (s : State) : (landed w s).build = s.build := rfl

theorem landed_busy (w : LateWrite) (s : State) : (landed w s).busy = s.busy := rfl

theorem busyInput_landing {b : Build} {s : State} {w : LateWrite} (hb : s.build = b) (h : Writable b w) :
    busyInput (w.landing b) s = landed w s := by
  obtain ⟨r, hloc, hr⟩ := h
  exact busyInput_writeRam (hb ▸ hloc) hr

/-- Two writes that land at one point are performed in turn. -/
theorem busyInputs_landings {b : Build} {s : State} {w w' : LateWrite} (hb : s.build = b) (hbusy : s.busy = true)
    (h : Writable b w) (h' : Writable b w') :
    busyInputs [w.landing b, w'.landing b] s = landed w' (landed w s) := by
  simp only [busyInputs, busyInput_landing hb h, busyInput_landing ((landed_build w s).trans hb) h', landed_busy,
    hbusy, if_true]

/-- The command goes on once the last inputs to land are performed. -/
theorem atPoint_last {s : State} {now : List Landing} (hov : s.overlap = [now]) (hl : s.transit.late = [])
    (hbusy : (busyInputs now { s with overlap := [] }).busy = true) (k : State → State) :
    atPoint k s = k (busyInputs now { s with overlap := [] }) := by
  unfold atPoint
  rw [hov]
  dsimp only
  rw [tickLate_nil hl, if_pos hbusy]

/-- The block with two writes to land at the first point of the next command. -/
def landingTwo (w w' : LateWrite) (s : State) : State :=
  { s with overlap := [[w.landing s.build, w'.landing s.build]] }

/-- The block once the two writes are performed, before the command has done anything. -/
def landedTwo (w w' : LateWrite) (s : State) : State := landed w' (landed w { s with busy := true })

theorem atPoint_landingTwo {s : State} {w w' : LateWrite} (hq : Quiet s) (h : Writable s.build w)
    (h' : Writable s.build w') (k : State → State) :
    atPoint k (acceptCmd (landingTwo w w' s)) = k (landedTwo w w' s) := by
  obtain ⟨-, hov, htr⟩ := hq
  have haccept : { acceptCmd (landingTwo w w' s) with overlap := [] } = { s with busy := true } := by
    ext1 <;> simp [landingTwo, LateWrite.landing, acceptCmd, watchReads, watchedReads, hov, htr]
  have hlanded := (congrArg (busyInputs [w.landing s.build, w'.landing s.build]) haccept).trans
    (busyInputs_landings (s := { s with busy := true }) rfl rfl h h')
  exact (atPoint_last (s := acceptCmd (landingTwo w w' s)) rfl (congrArg Transit.late htr)
    (congrArg State.busy hlanded) k).trans (congrArg k hlanded)

theorem awaiting_landedTwo {s : State} {w w' : LateWrite} (htr : s.transit = .none) (hw : HostWord w.off)
    (hw' : HostWord w'.off) (hne : w.off ≠ w'.off) : Awaiting s [w, w'] (landedTwo w w' s) := by
  have hnil : Awaiting s [] { s with busy := true } :=
    (awaiting_nil (congrArg Transit.late htr)).congr rfl rfl rfl
  have hfirst : Awaiting s [w] (landed w { s with busy := true }) :=
    (hnil.write hw fun _ hmem => nomatch hmem).congr rfl rfl rfl
  exact (hfirst.write hw' fun u hu => by rw [List.mem_singleton.1 hu]; exact hne).congr rfl rfl rfl

/-! ### A WRITE that gives no whole window -/

/-- The samples are appended a point after LAST_FRAMES <- 0, and the command ends at the next point. -/
theorem piece_writeFrames {n : Nat} {x : State} (hov : x.overlap = []) (hwatched : x.transit.watched = [])
    (hdrawn : x.transit.drawn = []) (hfit : x.inIx.avail + n < x.N) (hcap : x.N ≤ x.Cin) :
    piece startCount noWords (writeFrames n) x =
      completeCmd (tickLate (appendStaged n (tickLate (startCount x)))) := by
  have hcount : piece startCount noWords (writeFrames n) x = writeFrames n (tickLate (startCount x)) := by
    unfold piece
    rw [noteGiven_unwatched (s := startCount x) hwatched hdrawn]
    exact atPoint_tick (s := startCount x) hov _
  have hroom : ¬(tickLate (startCount x)).Cin < (tickLate (startCount x)).inIx.avail + n :=
    not_lt.2 (le_of_lt (lt_of_lt_of_le hfit hcap))
  rw [hcount]
  unfold writeFrames
  rw [if_neg hroom]
  generalize hx : tickLate (startCount x) = y
  have hov' : y.overlap = [] := hx ▸ hov
  have hwatched' : y.transit.watched = [] := hx ▸ hwatched
  have hdrawn' : y.transit.drawn = [] := hx ▸ hdrawn
  have hfit' : y.inIx.avail + n < y.N := hx ▸ hfit
  unfold piece
  rw [noteGiven_unwatched (s := appendStaged n y) hwatched' hdrawn']
  exact (atPoint_tick (s := appendStaged n y) hov' _).trans (frameLoop_complete hfit')

/-- The sample a WRITE takes from a word that is written at its first point: the samples are appended a point later,
so it is the new word when the write waits no longer than that. -/
def sampleUsed (w : LateWrite) (old : Word) : Word := if w.wait ≤ 1 then w.data else old

/-- The state a WRITE with no whole window ends in, from the state x at its first point. -/
def afterWrite (n : Nat) (x : State) : State := requeue (completeCmd (tickLate (appendStaged n (tickLate (startCount x)))))

theorem afterWrite_ringInAt {s x : State} {ws : List LateWrite} (h : Awaiting s ws x) {w : LateWrite} (hw : w ∈ ws)
    {n u c f : Nat} (hoff : w.off = stageOff x.build .stageIn u c f) (hn : n ≤ x.Cin)
    (hcap : x.Cin ≤ x.build.inCapMax) (hu : u < x.I) (hc : c < x.C) (hf : f < n) :
    (afterWrite n x).ringInAt u c ((x.inIx.wr + f) % x.Cin) = sampleUsed w (s.wordAt w.off) := by
  have hstart : Awaiting s ws (startCount x) := h.congr rfl rfl rfl
  have hword := (hstart.tick.each w.tick (List.mem_map_of_mem hw)).wordAt
  have hring : (afterWrite n x).ringInAt u c ((x.inIx.wr + f) % x.Cin) =
      stageInAt (tickLate (startCount x)) u c f :=
    orbWrite_ringInAt (s := tickLate (startCount x)) hn hcap hu hc hf
  have hwait : w.tick.wait = 0 ↔ w.wait ≤ 1 := Nat.sub_eq_zero_iff_le
  calc (afterWrite n x).ringInAt u c ((x.inIx.wr + f) % x.Cin)
      = (tickLate (startCount x)).wordAt w.off := hoff ▸ hring
    _ = if w.tick.wait = 0 then w.data else s.wordAt w.off := hword
    _ = sampleUsed w (s.wordAt w.off) := by simp only [hwait]; rfl

theorem afterWrite_wordAt {s x : State} {ws : List LateWrite} (h : Awaiting s ws x) {w : LateWrite} (hw : w ∈ ws)
    (n : Nat) : (afterWrite n x).wordAt w.off = w.data := by
  have hstart : Awaiting s ws (startCount x) := h.congr rfl rfl rfl
  have happend : Awaiting s (ws.map LateWrite.tick) (appendStaged n (tickLate (startCount x))) :=
    hstart.tick.congr rfl rfl rfl
  have hdone : Awaiting s ((ws.map LateWrite.tick).map LateWrite.tick)
      (completeCmd (tickLate (appendStaged n (tickLate (startCount x))))) := happend.tick.congr rfl rfl rfl
  exact hdone.settled (w := w.tick.tick) (List.mem_map_of_mem (List.mem_map_of_mem hw))

/-- A WRITE during which two words of STAGE_IN are written. -/
theorem exec_write_landingTwo {n : Nat} {s : State} {w w' : LateWrite} (h : Inv s) (hq : s.seq = .ready)
    (hn : n ≤ s.build.stageFrames) (hfit : s.inIx.avail + n < s.N) (hcap : s.N ≤ s.Cin) (hw : Writable s.build w)
    (hw' : Writable s.build w') :
    settled (exec (.write n) (landingTwo w w' s)) = .next (afterWrite n (landedTwo w w' s)) := by
  obtain ⟨hidle, hov, htr⟩ := h.quiet
  have hrange : operandError s (.write n) = none := if_neg (by omega)
  have haccept : rejection s (.write n) = none := rejection_none hidle (decide_eq_true hq) hrange
  have hrun : runWrite n (landingTwo w w' s) =
      completeCmd (tickLate (appendStaged n (tickLate (startCount (landedTwo w w' s))))) :=
    (atPoint_landingTwo h.quiet hw hw' _).trans (piece_writeFrames hov (congrArg Transit.watched htr)
      (congrArg Transit.drawn htr) hfit hcap)
  exact congrArg settled ((exec_accepted (s := landingTwo w w' s) haccept).trans (congrArg Host.Outcome.next hrun))

theorem sampleUsed_or (w : LateWrite) (old : Word) : sampleUsed w old = old ∨ sampleUsed w old = w.data :=
  (ite_eq_or_eq (w.wait ≤ 1) w.data old).symm

/-- A draw with which a WRITE uses the new word, or the old one. -/
def drawFor (uses : Bool) : Nat := if uses then 0 else 2

theorem sampleUsed_drawFor (uses : Bool) (off : Nat) (v old : Word) :
    sampleUsed { off := off, data := v, wait := drawFor uses } old = if uses then v else old := by
  cases uses <;> rfl

/-- Settles O15: a WRITE appends its samples one point after the writes have landed, so the draw of each decides by
itself whether it has reached its word by then; what is still on its way reaches it when the command has ended. -/
theorem overlappedWritesAreDrawnPerWord : Obligations.OverlappedWritesAreDrawnPerWord := by
  unfold Obligations.OverlappedWritesAreDrawnPerWord
  intro n u c f u' c' f' d d' v v' s h hq hn hfit hu hc hf hu' hc' hf' hdiff off off' after
  have hbounds := ((inv_iff.1 h).1.running hq).bounds
  have hcapge := hbounds.Cin_ge
  have hcaple := hbounds.Cin_le
  have hC := s.C_le
  have hI : s.I ≤ s.build.inMax := (h.active (by simp [hq])).2.inputs_ok.2
  have hwritable : ∀ {u c f}, u < s.I → c < s.C → f < n → ∀ v e,
      Writable s.build { off := stageOff s.build .stageIn u c f, data := v, wait := e } := fun hu hc hf _ _ =>
    ⟨.stageIn, locate_stageIn h.build_valid (by omega) (by omega) (by omega), rfl⟩
  have hhost : ∀ {u c f}, u < s.I → c < s.C → f < n → HostWord (stageOff s.build .stageIn u c f) := fun hu hc hf =>
    ⟨stageOff_mod _ _ _ _ _, .stageIn, regionOf_stageIn h.build_valid (by omega) (by omega) (by omega), rfl⟩
  have hne : off ≠ off' := fun ho => hdiff (by
    obtain ⟨rfl, rfl, rfl⟩ := stageOff_inj (by omega) (by omega) (by omega) (by omega) ho
    rfl)
  have hrun : ∀ e e', ∃ t, after e e' = .next t ∧
      t.ringInAt u c ((s.inIx.wr + f) % s.Cin) =
        sampleUsed { off := off, data := v, wait := e } (s.wordAt off) ∧
      t.ringInAt u' c' ((s.inIx.wr + f') % s.Cin) =
        sampleUsed { off := off', data := v', wait := e' } (s.wordAt off') ∧
      t.wordAt off = v ∧ t.wordAt off' = v' := fun e e' => by
    have hon := awaiting_landedTwo (w := { off := off, data := v, wait := e })
      (w' := { off := off', data := v', wait := e' }) h.quiet.2.2 (hhost hu hc hf) (hhost hu' hc' hf') hne
    exact ⟨_, exec_write_landingTwo h hq hn hfit (by omega) (hwritable hu hc hf v e) (hwritable hu' hc' hf' v' e'),
      afterWrite_ringInAt hon (.head _) rfl (show n ≤ s.Cin by omega) hcaple hu hc hf,
      afterWrite_ringInAt hon (.tail _ (.head _)) rfl (show n ≤ s.Cin by omega) hcaple hu' hc' hf',
      afterWrite_wordAt hon (.head _) n, afterWrite_wordAt hon (.tail _ (.head _)) n⟩
  constructor
  · obtain ⟨t, hafter, hring, hring', hwords⟩ := hrun d d'
    exact ⟨t, hafter, hring ▸ sampleUsed_or _ _, hring' ▸ sampleUsed_or _ _, hwords⟩
  · intro uses uses'
    obtain ⟨t, hafter, hring, hring', -⟩ := hrun (drawFor uses) (drawFor uses')
    exact ⟨_, _, t, hafter, hring.trans (sampleUsed_drawFor uses off v _),
      hring'.trans (sampleUsed_drawFor uses' off' v' _)⟩

end Sys2Proof.Machine
end
